-- ==== Sys2Proof/Word.lean ====
section
/-! DEFINITION. The words the Luvarin LVN 8600 manual counts in: bytes of a frame or a block, ticks, tag generations, media
identities and digests. Block counts, block addresses and pacing values are plain numbers, since the manual states them as
ranges (00_scope.md, Conventions). -/

namespace Sys2Proof

/-- A byte of a frame or of a block. -/
abbrev Byte := BitVec 8

/-- A value of the 32-bit tick counter (R137); every timestamp and issue tick is one. -/
abbrev Tick := BitVec 32

/-- A tag's generation, 0 to 15, stepping modulo 16 (R50, R92, R118). -/
abbrev Gen := BitVec 4

/-- A 64-bit media identity (Table 9-7). -/
abbrev Identity := BitVec 64

/-- A 64-bit file digest, B_f in the high half and A_f in the low half (R78). -/
abbrev Digest := BitVec 64

end Sys2Proof
end

