-- ==== Sys2Proof/Syntax.lean ====
section
/-! DEFINITION. The commands of the LVN 8600: one constructor of Instr for each row of spec/opcode_table.json, the operands being
what the outside gives with the event (a port, a received frame's fields, a tag, a target). The manual calls them events
(00_scope.md, Events): frames that arrive, requests taken, expiries, ticks, window ends, digest starts and completions, ends
of transmission. -/

namespace Sys2Proof

/-- The fifteen link ports (Table 0-1): I0 to I7, T0 to T5, and C. T6 is carried on C and has no port of its own. -/
inductive Port where
  | ingest (i : Fin 8)
  | drive (d : Fin 6)
  | control
  deriving DecidableEq, Repr

/-- The seven targets: the drives T0 to T5 and the sink T6 (00_scope.md, Terms). -/
inductive Target where
  | drive (d : Fin 6)
  | sink
  deriving DecidableEq, Repr

/-- A media record: identity and capacity in blocks (Table 9-7). -/
structure Media where
  identity : Identity
  capacity : Nat
  deriving DecidableEq, Repr

/-- What a BLOCK DATA or a CHECK DATA answers: the block's bytes with OK, or READ_ERROR (Table 9-3). -/
inductive ReadAnswer where
  | ok (data : List Byte)
  | readError
  deriving DecidableEq, Repr

/-- The statuses of a WRITE DONE (Table 9-3). -/
inductive WriteStatus where
  | ok
  | mediaError
  | noSpace
  deriving DecidableEq, Repr

/-- The statuses of a SINK DONE (Table 9-3): the Link Port drops any other (R104). -/
inductive SinkStatus where
  | ok
  | mediaError
  deriving DecidableEq, Repr

/-- What followed the bytes of a frame on the link (R162): its end delimiter, a start delimiter that came first, or no delimiter as yet.
Whether the port has ended the frame by then it judges itself, by its count of the bytes. -/
inductive FrameEnd where
  | endDelimiter
  | startDelimiter
  | noDelimiter
  deriving DecidableEq, Repr

/-- The bytes received after a start delimiter, and what followed them (R162). -/
structure RxFrame where
  bytes : List Byte
  ended : FrameEnd
  deriving DecidableEq, Repr

/-- The commands, one for each row of the opcode table, in the table's order. The twelve requests and UNKNOWN_REQUEST carry
no operand: the Request Handler takes the head of its own queue (R172), where REQUEST put it. -/
inductive Instr where
  | resetNLow
  | resetNHigh
  | linkUp (p : Port)
  | linkDown (p : Port)
  | frameDiscard (p : Port) (rx : RxFrame)
  | blockData (i : Fin 8) (tag : Byte) (gen : Gen) (answer : ReadAnswer)
  | ingestMediaReport (i : Fin 8) (report : Option Media)
  | targetMediaReport (d : Fin 6) (report : Option Media)
  | writeDone (d : Fin 6) (tag : Byte) (gen : Gen) (status : WriteStatus)
  | sinkDone (tag : Byte) (gen : Gen) (status : SinkStatus)
  | checkData (d : Fin 6) (tag : Byte) (gen : Gen) (answer : ReadAnswer)
  | request (seq : BitVec 16) (kind : Byte) (body : List Byte)
  | loadJob
  | cancelJob
  | releaseJob
  | queryJob
  | setTarget
  | queryTarget
  | setIngest
  | setLamp
  | setTick
  | queryPart
  | resetPort
  | resetPart
  | unknownRequest
  | tick
  | readTagExpiry (i : Fin 8) (k : Fin 8)
  | writeTagExpiry (t : Target) (k : Fin 16)
  | checkTagExpiry (d : Fin 6) (k : Fin 8)
  | windowEnd (t : Target)
  | digestStart
  | digestComplete
  | targetTxEnd (d : Fin 6)
  | cTxEnd
  deriving DecidableEq, Repr

end Sys2Proof
end

