-- ==== Sys2Proof/Decode.lean ====
section
/-! DEFINITION. The command a word spells by the opcode table's bits. Every row of spec/opcode_table.json has an empty list of
fields and no fixed bits: the commands of this block are events and frames, not words, so no word spells one. (How a frame's
bytes become a command is Machine/Frames.lean.) -/

namespace Sys2Proof

/-- No row of the opcode table gives bits, so no word spells a command. -/
def decodeTableWord (_nbits _w : Nat) : Option Instr :=
  none

end Sys2Proof
end

