-- ==== Sys2Proof/Config.lean ====
section
/-! DEFINITION. The sizes and limits the manual fixes for every LVN 8600, each with its rule. The manual leaves no value of the
part to an implementation: there is no free value here (NOTES.md, Assumptions, says where the model makes a choice). -/

namespace Sys2Proof.Config

/-- Bytes in a block (00_scope.md, Blocks). -/
abbrev blockBytes : Nat := 4096

/-- Slots of the Block Pool (R29). -/
abbrev poolSlots : Nat := 32768

/-- The digest modulus M (R75). -/
abbrev digestModulus : Nat := 4294967291

/-- One above the highest card or drive block address, and the largest capacity (00_scope.md; Table 9-7). -/
abbrev addressLimit : Nat := 2 ^ 40

/-- The reorder span of a reading job (R54, R56). -/
abbrev reorderSpan : Nat := 64

/-- The verify span of an active leg (R121). -/
abbrev verifySpan : Nat := 16

/-- Places of the Notice Queue (R184). -/
abbrev noticePlaces : Nat := 32

/-- Unanswered requests C allows (R169). -/
abbrev requestLimit : Nat := 8

/-- Where a window's issued and acknowledged counts saturate (R141, R142). -/
abbrev countLimit : Nat := 2 ^ 32 - 1

/-- The highest done or unreleased-failed session count (R8). -/
abbrev sessionLimit : Nat := 65535

/-- The largest frame between delimiters: header, 4,096 payload bytes, check (R162). -/
abbrev frameLimit : Nat := 4116

end Sys2Proof.Config
end

