-- ==== Sys2Proof/Machine/State.lean ====
section
/-! DEFINITION. The state of the LVN 8600: every record, queue, counter, flag and pin the manual gives its ten kinds of block
(Table 0-2), the queue of waiting commands, and the state after full reset. Counts the manual defines by other state (the pool's
FREE, RESERVED and HELD counts, a target's occupancy, a job's block count and digested count) are functions of it in
Machine/Ops.lean and Machine/Pool.lean. -/

namespace Sys2Proof.Machine

/-! ## The Job Table (chapter 1) -/

/-- A job's state; FREE is an empty entry of the table (Table 1-1). -/
inductive JobState where
  | loaded
  | reading
  | settling
  | done
  | failed
  | aborted
  deriving DecidableEq, Repr

/-- A job's cause (Table 1-1). -/
inductive JobCause where
  | sourceLost
  | sourceReadError
  | sourceMismatch
  | insufficientCopies
  | cancelled
  deriving DecidableEq, Repr

/-- A leg's state (Table 1-3). -/
inductive LegState where
  | idle
  | writing
  | written
  | verifying
  | good
  | mismatch
  | failed
  | deferred
  | abandoned
  deriving DecidableEq, Repr

/-- A FAILED leg's cause (Table 1-7). -/
inductive LegCause where
  | targetFull
  | writeError
  | verifyReadError
  | lost
  deriving DecidableEq, Repr

/-- A run of card blocks (R3). -/
structure Run where
  start : Nat
  count : Nat
  deriving DecidableEq, Repr

/-- A digest context (R75). Its final flag is set exactly when the final digest is present. -/
structure DigestContext where
  a : Nat
  b : Nat
  next : Nat
  final : Option Digest
  deriving DecidableEq, Repr

/-- A context as LOAD_JOB sets it (R75). -/
def DigestContext.initial : DigestContext :=
  ⟨1, 0, 0, none⟩

/-- A leg record (Table 1-3). `checked` is the verify context's requested count. -/
structure Leg where
  target : Target
  verify : Bool
  state : LegState
  base : Option Nat
  sent : Nat
  acked : Nat
  context : DigestContext
  checked : Nat
  written : Option Tick
  finished : Option Tick
  cause : Option LegCause
  deriving DecidableEq, Repr

/-- A job record (Table 1-1). The handle is the entry's place, n follows from the length, and digested is the ingest context's
next index (R75). `announced` is the model's own: the job's one JOB_FINISHED has been handed to the Request Handler (R188). -/
structure Job where
  state : JobState
  port : Fin 8
  identity : Identity
  length : Nat
  runs : List Run
  required : Nat
  expected : Option Digest
  legs : List Leg
  requested : Nat
  arrived : Nat
  ingest : DigestContext
  loadedAt : Tick
  startedAt : Option Tick
  arrivedAllAt : Option Tick
  finishedAt : Option Tick
  session : Bool
  cause : Option JobCause
  announced : Bool
  deriving DecidableEq, Repr

/-- A port's three session counters (R8). -/
structure Session where
  live : Nat
  done : Nat
  failed : Nat
  deriving DecidableEq, Repr

/-- A leg named by its job and its number in the job (R4). -/
structure LegRef where
  job : Fin 64
  leg : Nat
  deriving DecidableEq, Repr

/-! ## The Block Pool (chapter 2) -/

/-- The kind of a slot that is not FREE (Table 2-1): an INGEST slot with its pending-target set, or a CHECK slot with its leg. -/
inductive SlotKind where
  | ingest (owed : List Target)
  | check (leg : Nat)
  deriving DecidableEq, Repr

/-- What a HELD slot adds (Table 2-1): the block's bytes and three flags. -/
structure HeldBlock where
  data : List Byte
  digested : Bool
  inDigest : Bool
  withdrawn : Bool
  deriving DecidableEq, Repr

/-- The record of a slot that is not FREE: RESERVED while `held` is absent, HELD while it is present (R30). -/
structure Slot where
  num : Nat
  job : Fin 64
  index : Nat
  kind : SlotKind
  held : Option HeldBlock
  deriving DecidableEq, Repr

/-- The fourteen requesters of slots (R32): the Ingest Sequencers and the verify streams. -/
inductive Requester where
  | ingest (i : Fin 8)
  | verify (d : Fin 6)
  deriving DecidableEq, Repr

/-- The slot grant arbiter: its pointer and the waiting set (R32). -/
structure SlotArbiter where
  pointer : Requester
  waiting : List Requester
  deriving DecidableEq, Repr

/-! ## Card Ingest (chapter 3) -/

/-- A read tag's state (Table 3-2). -/
inductive ReadTagState where
  | free
  | busy (job : Fin 64) (index slot : Nat) (issued : Tick) (attempt : Nat)
  | abandoned (issued : Tick)
  deriving DecidableEq, Repr

/-- A read tag (Table 3-2). `due` is the model's own: the last tick's test found the tag expired (R59), and the expiry is an
event not yet taken. -/
structure ReadTag where
  state : ReadTagState
  gen : Gen
  due : Bool
  deriving DecidableEq, Repr

/-- An ingest port record (Table 3-1); its link state is the Link Port's. -/
structure IngestPort where
  media : Option Media
  lineUp : List (Fin 64)
  reading : Option (Fin 64)
  tags : Vector ReadTag 8
  timeout : Nat
  retryLimit : Nat
  deriving DecidableEq, Repr

/-! ## The Digest Unit (chapter 4) -/

/-- The Digest Unit: the ready list, by slot number, and the block in flight; IDLE while there is none (R80, R82). -/
structure DigestUnit where
  ready : List Nat
  inFlight : Option Nat
  deriving DecidableEq, Repr

/-! ## Targets (chapters 5 and 6) -/

/-- A region, first and last drive block address inclusive (R94). -/
structure Region where
  first : Nat
  last : Nat
  deriving DecidableEq, Repr

/-- What a BUSY write or check tag carries (Tables 5-2 and 6-2). -/
structure TagWork where
  slot : Nat
  ref : LegRef
  index : Nat
  address : Nat
  attempt : Nat
  deriving DecidableEq, Repr

/-- The state of a write tag or a check tag (Tables 5-2 and 6-2): BUSY is sent or waiting. -/
inductive BlockTagState where
  | free
  | sent (work : TagWork) (issued : Tick)
  | waiting (work : TagWork)
  | abandoned (issued : Tick)
  deriving DecidableEq, Repr

/-- A write tag or a check tag. `due` is the model's own, as for a read tag (R103, R125). -/
structure BlockTag where
  state : BlockTagState
  gen : Gen
  due : Bool
  deriving DecidableEq, Repr

/-- A write queue entry: a HELD INGEST slot and the leg on this target of its job (R97). -/
structure WriteEntry where
  slot : Nat
  ref : LegRef
  deriving DecidableEq, Repr

/-- The policy a target applies at a stall (R114). -/
inductive Policy where
  | hold
  | shed
  deriving DecidableEq, Repr

/-- The part of a target record that T0 to T6 all have (R90, R91). -/
structure Writer where
  queue : List WriteEntry
  retry : List (Fin 16)
  tags : Vector BlockTag 16
  timeout : Nat
  retryLimit : Nat
  policy : Policy
  deriving DecidableEq, Repr

/-- The part of a target record that only T0 to T5 have (Table 5-1). -/
structure Drive where
  media : Option Media
  current : Option Region
  staged : Option Region
  pointer : Nat
  deriving DecidableEq, Repr

/-- A Verify Reader record (Table 6-1); the active leg is the head of the verify work list. -/
structure VerifyReader where
  work : List LegRef
  awaiting : Option Nat
  retry : List (Fin 8)
  tags : Vector BlockTag 8
  deriving DecidableEq, Repr

/-- The side of a target's link that holds the arbiter's turn (R131). -/
inductive Side where
  | write
  | check
  deriving DecidableEq, Repr

/-- A target arbiter: turn, turn count, grant state, and the two weights (R131, R132). -/
structure TargetArbiter where
  turn : Side
  count : Nat
  granted : Bool
  writeWeight : Nat
  checkWeight : Nat
  deriving DecidableEq, Repr

/-! ## The Window Timer (chapter 7) -/

/-- The pacing values that are staged and loaded at a window end (Table 7-2). -/
structure Pacing where
  quota : Nat
  floor : Nat
  ceiling : Nat
  stallLimit : Nat
  deriving DecidableEq, Repr

/-- The window state of one target (Table 7-2). `endDue` is the model's own: the last tick found the counter at 0 (R139), and
the window end, which reloads the counter, is an event not yet taken (notes/assumptions/5.md). -/
structure Window where
  counter : Nat
  latch : Nat
  staged : Pacing
  effective : Pacing
  issued : Nat
  acked : Nat
  hadWork : Bool
  rate : Nat
  streak : Nat
  slow : Bool
  endDue : Bool
  deriving DecidableEq, Repr

/-- The tick: counter, prescaler, exponent p and the staged p (R135, R136, R137). -/
structure Timer where
  tick : Tick
  prescaler : Nat
  p : Nat
  stagedP : Option Nat
  deriving DecidableEq, Repr

/-! ## The Lamp Driver (chapter 8) -/

/-- A lamp mode (Table 8-1). -/
inductive LampMode where
  | auto
  | off
  | green
  | red
  | greenBlink
  | redBlink
  deriving DecidableEq, Repr

/-- A computed lamp state (Table 8-2). -/
inductive LampState where
  | off
  | busy
  | safe
  | fault
  deriving DecidableEq, Repr

/-- One port's lamp: mode, computed state and line pair (Table 8-1). -/
structure Lamp where
  mode : LampMode
  computed : LampState
  green : Bool
  red : Bool
  deriving DecidableEq, Repr

/-- What the eight lamps share: the blink exponent b and the blink phase (Table 8-1). -/
structure Blink where
  exponent : Nat
  phase : Bool
  deriving DecidableEq, Repr

/-! ## Links, requests and notices (chapters 9 and 10) -/

/-- A request's result (Table 9-5). -/
inductive Result where
  | ok
  | badRequest
  | tableFull
  | portDown
  | noMedia
  | wrongMedia
  | runRange
  | lengthMismatch
  | badLegs
  | noSuchJob
  | notActive
  | busy
  | regionOverlap
  deriving DecidableEq, Repr

/-- An accepted REQUEST (R171, R172). -/
structure Request where
  seq : BitVec 16
  kind : Byte
  body : List Byte
  deriving DecidableEq, Repr

/-- A RESPONSE: sequence number and kind echoed, result code and body (R173). -/
structure Response where
  seq : BitVec 16
  kind : Byte
  result : Result
  body : List Byte
  deriving DecidableEq, Repr

/-- A NOTICE with what its body carries (Tables 9-11 and 10-4). -/
inductive Notice where
  | jobFinished (job : Fin 64) (outcome : JobState) (cause : Option JobCause) (good : Nat) (port : Fin 8)
  | mediaChanged (port : Port) (media : Option Media)
  | targetSlow (target : Target) (streak rate : Nat)
  | targetRecovered (target : Target) (rate : Nat)
  | targetLost (target : Target) (legs : Nat)
  | shed (target : Target) (legs : Nat)
  deriving DecidableEq, Repr

/-- A frame the part sends (Table 9-6 and R171). -/
inductive TxFrame where
  | blockRead (tag : Fin 8) (gen : Gen) (address : Nat)
  | blockWrite (tag : Fin 16) (gen : Gen) (address : Nat) (data : List Byte)
  | checkRead (tag : Fin 8) (gen : Gen) (address : Nat)
  | sinkWrite (tag : Fin 16) (gen : Gen) (job : Fin 64) (valid index : Nat) (data : List Byte)
  | response (r : Response)
  | notice (n : Notice)
  deriving DecidableEq, Repr

/-- A Link Port: link state, whether it hunts for a start delimiter (R165), its discard flag (R166), and the frames handed to
its transmitter and not known to have left (R167). -/
structure LinkPort where
  up : Bool
  hunting : Bool
  discard : Bool
  tx : List TxFrame
  deriving DecidableEq, Repr

/-- The Request Handler: request queue, IDLE or TAKING, Notice Queue, NOTICE_LOST (R172, R184). -/
structure Handler where
  requests : List Request
  taking : Bool
  notices : List Notice
  noticeLost : Bool
  deriving DecidableEq, Repr

/-- The three sources of C's transmitter (R168). -/
inductive Source where
  | response
  | notice
  | sink
  deriving DecidableEq, Repr

/-- What Link Port C holds besides its link: the count of unanswered requests, the response queue, the source being sent
(FREE while absent) and the pointer (R168, R169). -/
structure ControlPort where
  unanswered : Nat
  responses : List Response
  sending : Option Source
  pointer : Source
  deriving DecidableEq, Repr

/-! ## The whole part -/

/-- Why the machine would stop with a fault. The manual gives no event that stops the part, and no command of the model raises a
fault: there is no constructor. -/
inductive Fault where
  deriving DecidableEq, Repr

/-- Why a command would have no meaning. -/
inductive Refusal where
  /-- Raised by an arm of `exec` whose command has no meaning yet; safe, since the machine stops. No arm raises it. -/
  | notModelled (mnemonic : String)
  deriving DecidableEq, Repr

/-- The state of the part. `resetN` and the node straps are pin levels (Table 0-6); `pending` is the queue of waiting commands,
first in, first out, which belongs to the model. -/
structure State where
  resetN : Bool
  nodeId0 : Bool
  nodeId1 : Bool
  timer : Timer
  links : Vector LinkPort 15
  jobs : Vector (Option Job) 64
  sessions : Vector Session 8
  slots : List Slot
  arbiter : SlotArbiter
  ingest : Vector IngestPort 8
  digest : DigestUnit
  drives : Vector Drive 6
  writers : Vector Writer 7
  readers : Vector VerifyReader 6
  sides : Vector TargetArbiter 6
  windows : Vector Window 7
  lamps : Vector Lamp 8
  blink : Blink
  handler : Handler
  control : ControlPort
  pending : List Instr
  deriving DecidableEq, Repr

/-! ## Full reset -/

/-- A FREE read tag of generation 0 (R74). -/
def ReadTag.initial : ReadTag :=
  ⟨.free, 0, false⟩

/-- A FREE write or check tag of generation 0 (R116, R134). -/
def BlockTag.initial : BlockTag :=
  ⟨.free, 0, false⟩

/-- An ingest port after full reset (Table 3-1). -/
def IngestPort.initial : IngestPort :=
  { media := none, lineUp := [], reading := none, tags := Vector.replicate 8 ReadTag.initial, timeout := 500, retryLimit := 2 }

/-- A Target Writer after full reset (Table 5-1). -/
def Writer.initial : Writer :=
  { queue := [], retry := [], tags := Vector.replicate 16 BlockTag.initial, timeout := 2000, retryLimit := 2, policy := .hold }

/-- Drive fields after full reset (Table 5-1). -/
def Drive.initial : Drive :=
  { media := none, current := none, staged := none, pointer := 0 }

/-- A Verify Reader after full reset (Table 6-1). -/
def VerifyReader.initial : VerifyReader :=
  { work := [], awaiting := none, retry := [], tags := Vector.replicate 8 BlockTag.initial }

/-- A target arbiter after full reset (R132). -/
def TargetArbiter.initial : TargetArbiter :=
  { turn := .write, count := 0, granted := false, writeWeight := 3, checkWeight := 1 }

/-- The default pacing values (Table 7-2). -/
def Pacing.initial : Pacing :=
  { quota := 32768, floor := 0, ceiling := 0, stallLimit := 3 }

/-- A window after full reset (Table 7-2). -/
def Window.initial : Window :=
  { counter := 999, latch := 999, staged := Pacing.initial, effective := Pacing.initial, issued := 0, acked := 0,
    hadWork := false, rate := 0, streak := 0, slow := false, endDue := false }

/-- A lamp after full reset (Table 8-1). -/
def Lamp.initial : Lamp :=
  { mode := .auto, computed := .off, green := false, red := false }

/-- A Link Port after full reset: DOWN, hunting, flag clear (R161, R165, R166). -/
def LinkPort.initial : LinkPort :=
  { up := false, hunting := true, discard := false, tx := [] }

/-- The part right after full reset, RESET_N high, no command waiting. The strap levels are the board's: false is a DESIGN CHOICE,
unsafe (notes/assumptions/2.md). -/
def State.reset : State :=
  { resetN := true
    nodeId0 := false
    nodeId1 := false
    timer := { tick := 0, prescaler := 0, p := 17, stagedP := none }
    links := Vector.replicate 15 LinkPort.initial
    jobs := Vector.replicate 64 none
    sessions := Vector.replicate 8 ⟨0, 0, 0⟩
    slots := []
    arbiter := { pointer := .ingest 0, waiting := [] }
    ingest := Vector.replicate 8 IngestPort.initial
    digest := { ready := [], inFlight := none }
    drives := Vector.replicate 6 Drive.initial
    writers := Vector.replicate 7 Writer.initial
    readers := Vector.replicate 6 VerifyReader.initial
    sides := Vector.replicate 6 TargetArbiter.initial
    windows := Vector.replicate 7 Window.initial
    lamps := Vector.replicate 8 Lamp.initial
    blink := { exponent := 9, phase := false }
    handler := { requests := [], taking := false, notices := [], noticeLost := false }
    control := { unanswered := 0, responses := [], sending := none, pointer := .response }
    pending := [] }

end Sys2Proof.Machine
end

