-- ==== Sys2Proof/Machine/Ops.lean ====
section
/-! DEFINITION. The named reads and writes of the state: entries of its tables, the queues every block hands things to, and the
numbers the manual defines by other state. -/

namespace Sys2Proof.Machine

/-! ## Places of the tables -/

/-- The place of a port among the fifteen, in port code order (Table 9-5; code 14 is no port). -/
def portIndex : Port → Fin 15
  | .ingest i => ⟨i.val, by omega⟩
  | .drive d => ⟨d.val + 8, by omega⟩
  | .control => 14

/-- The place of a target among T0 to T6. -/
def targetIndex : Target → Fin 7
  | .drive d => ⟨d.val, by omega⟩
  | .sink => 6

/-- The port that carries a target's frames: T6's is C (R91). -/
def targetPort : Target → Port
  | .drive d => .drive d
  | .sink => .control

/-- I0 to I7. -/
def allIngest : List (Fin 8) :=
  [0, 1, 2, 3, 4, 5, 6, 7]

/-- T0 to T5. -/
def allDrives : List (Fin 6) :=
  [0, 1, 2, 3, 4, 5]

/-- T0 to T6. -/
def allTargets : List Target :=
  [.drive 0, .drive 1, .drive 2, .drive 3, .drive 4, .drive 5, .sink]

/-- The job handles in handle order. -/
def allHandles : List (Fin 64) :=
  List.finRange 64

/-- The write tag numbers. -/
def allWriteTags : List (Fin 16) :=
  List.finRange 16

/-- Change one entry of a table. -/
def setEntry {α : Type} {n : Nat} (v : Vector α n) (i : Fin n) (f : α → α) : Vector α n :=
  v.set i.val (f v[i.val])

/-! ## Reading the tables -/

/-- The present tick (R137). -/
def State.now (s : State) : Tick :=
  s.timer.tick

/-- A Link Port. -/
def State.link (s : State) (p : Port) : LinkPort :=
  s.links[(portIndex p).val]

/-- Is the port's link UP (R161)? -/
def State.linkUp (s : State) (p : Port) : Bool :=
  (s.link p).up

/-- The job a handle names; absent while the entry is FREE (R1). -/
def State.job? (s : State) (h : Fin 64) : Option Job :=
  s.jobs[h.val]

/-- The leg a reference names. -/
def State.leg? (s : State) (r : LegRef) : Option Leg :=
  (s.job? r.job).bind fun j => j.legs[r.leg]?

/-- A target's writer. -/
def State.writer (s : State) (t : Target) : Writer :=
  s.writers[(targetIndex t).val]

/-- A target's window. -/
def State.window (s : State) (t : Target) : Window :=
  s.windows[(targetIndex t).val]

/-- The slot of a number; absent while it is FREE (R30). -/
def State.slot? (s : State) (num : Nat) : Option Slot :=
  s.slots.find? fun x => x.num == num

/-- A target is available while its link is UP and, for T0 to T5, its media is present (R93). -/
def State.available (s : State) : Target → Bool
  | .drive d => s.linkUp (.drive d) && (s.drives[d.val]).media.isSome
  | .sink => s.linkUp .control

/-! ## Changing the tables -/

/-- Change a Link Port. -/
def State.modLink (s : State) (p : Port) (f : LinkPort → LinkPort) : State :=
  { s with links := setEntry s.links (portIndex p) f }

/-- Change the job of an entry that is not FREE. -/
def State.modJob (s : State) (h : Fin 64) (f : Job → Job) : State :=
  { s with jobs := setEntry s.jobs h (fun e => e.map f) }

/-- Change a leg. -/
def State.modLeg (s : State) (r : LegRef) (f : Leg → Leg) : State :=
  s.modJob r.job fun j => { j with legs := j.legs.modify r.leg f }

/-- Fill or free an entry of the Job Table. -/
def State.setJob (s : State) (h : Fin 64) (e : Option Job) : State :=
  { s with jobs := setEntry s.jobs h (fun _ => e) }

/-- Change a port's session counters. -/
def State.modSession (s : State) (i : Fin 8) (f : Session → Session) : State :=
  { s with sessions := setEntry s.sessions i f }

/-- Change an ingest port record. -/
def State.modIngest (s : State) (i : Fin 8) (f : IngestPort → IngestPort) : State :=
  { s with ingest := setEntry s.ingest i f }

/-- Change a drive's fields. -/
def State.modDrive (s : State) (d : Fin 6) (f : Drive → Drive) : State :=
  { s with drives := setEntry s.drives d f }

/-- Change a target's writer. -/
def State.modWriter (s : State) (t : Target) (f : Writer → Writer) : State :=
  { s with writers := setEntry s.writers (targetIndex t) f }

/-- Change a Verify Reader. -/
def State.modReader (s : State) (d : Fin 6) (f : VerifyReader → VerifyReader) : State :=
  { s with readers := setEntry s.readers d f }

/-- Change a target arbiter. -/
def State.modSides (s : State) (d : Fin 6) (f : TargetArbiter → TargetArbiter) : State :=
  { s with sides := setEntry s.sides d f }

/-- Change a target's window. -/
def State.modWindow (s : State) (t : Target) (f : Window → Window) : State :=
  { s with windows := setEntry s.windows (targetIndex t) f }

/-- Change a lamp. -/
def State.modLamp (s : State) (i : Fin 8) (f : Lamp → Lamp) : State :=
  { s with lamps := setEntry s.lamps i f }

/-- Change the Request Handler. -/
def State.modHandler (s : State) (f : Handler → Handler) : State :=
  { s with handler := f s.handler }

/-- Change what C holds. -/
def State.modControl (s : State) (f : ControlPort → ControlPort) : State :=
  { s with control := f s.control }

/-- Change the slots of the pool. -/
def State.modSlots (s : State) (f : List Slot → List Slot) : State :=
  { s with slots := f s.slots }

/-- Change the Digest Unit. -/
def State.modDigest (s : State) (f : DigestUnit → DigestUnit) : State :=
  { s with digest := f s.digest }

/-- Change the slot grant arbiter. -/
def State.modArbiter (s : State) (f : SlotArbiter → SlotArbiter) : State :=
  { s with arbiter := f s.arbiter }

/-! ## Hand-overs -/

/-- Hand a frame to a port's transmitter (R167). -/
def State.send (s : State) (p : Port) (f : TxFrame) : State :=
  s.modLink p fun l => { l with tx := l.tx ++ [f] }

/-- Hand a notice to the Request Handler: it joins the tail, or is dropped and NOTICE_LOST set (R184). -/
def State.notify (s : State) (n : Notice) : State :=
  s.modHandler fun q =>
    if q.notices.length < Config.noticePlaces then { q with notices := q.notices ++ [n] } else { q with noticeLost := true }

/-- Place a response at the tail of C's response queue (R172). -/
def State.respond (s : State) (r : Response) : State :=
  s.modControl fun c => { c with responses := c.responses ++ [r] }

/-- A frame has been received at a port: its start delimiter ended any hunt (R165). -/
def State.received (s : State) (p : Port) : State :=
  s.modLink p fun l => { l with hunting := false }

/-- Drop a received frame: the discard flag is set and the port hunts for the next start delimiter (R164, R165). A frame ended
by a start delimiter is hunted for only up to that delimiter, which opens the next frame (R162). -/
def State.discard (s : State) (p : Port) (ended : FrameEnd) : State :=
  s.modLink p fun l => { l with discard := true, hunting := decide (ended ≠ .startDelimiter) }

/-! ## Jobs and legs -/

/-- A file's block count, ceil(L / 4096) (R2). -/
def blockCount (length : Nat) : Nat :=
  (length + (Config.blockBytes - 1)) / Config.blockBytes

/-- A job's block count (Table 1-1). -/
def Job.blocks (j : Job) : Nat :=
  blockCount j.length

/-- A job's digested count is its ingest context's next index (R75). -/
def Job.digested (j : Job) : Nat :=
  j.ingest.next

/-- The valid bytes of block i of a file (00_scope.md, Last block). -/
def validBytes (length i : Nat) : Nat :=
  if i + 1 = blockCount length then length - Config.blockBytes * i else Config.blockBytes

/-- The card address of block i by the run list (R3). -/
def cardAddress : List Run → Nat → Nat
  | [], _ => 0
  | r :: rest, i => if i < r.count then r.start + i else cardAddress rest (i - r.count)

/-- DONE, FAILED and ABORTED (Table 1-5). -/
def JobState.terminal : JobState → Bool
  | .done | .failed | .aborted => true
  | .loaded | .reading | .settling => false

/-- Change the counts or the ingest context of a job that is not terminal; a terminal job's stand as they are (R6, R22, R23). -/
def State.count (s : State) (h : Fin 64) (f : Job → Job) : State :=
  s.modJob h fun j => if j.state.terminal then j else f j

/-- Change the counts or the verify context of a leg whose job is not terminal (R6, R22, R23). -/
def State.countLeg (s : State) (r : LegRef) (f : Leg → Leg) : State :=
  s.count r.job fun j => { j with legs := j.legs.modify r.leg f }

/-- The terminal leg states (R4). -/
def LegState.terminal : LegState → Bool
  | .good | .mismatch | .failed | .deferred | .abandoned => true
  | .idle | .writing | .written | .verifying => false

/-- The viable leg states (R4). -/
def LegState.viable : LegState → Bool
  | .writing | .written | .verifying | .good => true
  | .idle | .mismatch | .failed | .deferred | .abandoned => false

/-- The number of a job's viable legs. -/
def Job.viableLegs (j : Job) : Nat :=
  (j.legs.filter fun l => l.state.viable).length

/-- The number of a job's GOOD legs. -/
def Job.goodLegs (j : Job) : Nat :=
  (j.legs.filter fun l => decide (l.state = .good)).length

/-- The reference of the job's leg on a target (R4: a job has at most one). -/
def State.legOn (s : State) (h : Fin 64) (t : Target) : Option LegRef :=
  (s.job? h).bind fun j => (j.legs.findIdx? fun l => decide (l.target = t)).map fun k => ⟨h, k⟩

/-- The job's leg on a target is in a state that the test accepts. -/
def State.legOnIs (s : State) (h : Fin 64) (t : Target) (test : LegState → Bool) : Bool :=
  match (s.legOn h t).bind s.leg? with
  | some l => test l.state
  | none => false

/-- End a leg in a terminal state, with its cause and its finished timestamp (R7, R20). A leg that is already in a terminal state
stays in it (R4, R21). -/
def State.endLeg (s : State) (r : LegRef) (st : LegState) (cause : Option LegCause) : State :=
  s.modLeg r fun l => if l.state.terminal then l else { l with state := st, cause := cause, finished := some s.now }

/-- Abandon a job's legs that are not terminal (R18, R22, R25). -/
def State.abandonLegs (s : State) (h : Fin 64) : State :=
  s.modJob h fun j =>
    { j with legs := j.legs.map fun l =>
        if l.state.terminal then l else { l with state := .abandoned, finished := some s.now } }

end Sys2Proof.Machine
end

