-- ==== Sys2Proof/Machine/Pool.lean ====
section
/-! DEFINITION. The Block Pool of chapter 2: counts, occupancy, filling, the pending-target sets, freeing and withdrawal. The list
of slots is kept in rising slot number, a slot not listed being FREE. Which FREE slot a grant takes is not stated by the manual
and not seen outside (R29): the model takes the lowest (DESIGN CHOICE, notes/assumptions/3.md). -/

namespace Sys2Proof.Machine

/-! ## Counts -/

/-- Is the slot RESERVED? -/
def Slot.reserved (x : Slot) : Bool :=
  x.held.isNone

/-- The pending-target set of an INGEST slot; a CHECK slot has none (Table 2-1). -/
def Slot.owed (x : Slot) : List Target :=
  match x.kind with
  | .ingest owed => owed
  | .check _ => []

/-- Is the slot an INGEST slot? -/
def Slot.isIngest (x : Slot) : Bool :=
  match x.kind with
  | .ingest _ => true
  | .check _ => false

/-- The pool's FREE count (R29). -/
def State.freeSlots (s : State) : Nat :=
  Config.poolSlots - s.slots.length

/-- The pool's RESERVED count (R29). -/
def State.reservedSlots (s : State) : Nat :=
  (s.slots.filter fun x => x.reserved).length

/-- The pool's HELD count (R29). -/
def State.heldSlots (s : State) : Nat :=
  (s.slots.filter fun x => !x.reserved).length

/-- A target's occupancy: the INGEST slots whose pending-target set names it (R45). -/
def State.occupancy (s : State) (t : Target) : Nat :=
  (s.slots.filter fun x => x.owed.contains t).length

/-- The canonical form of the pool's list: slot numbers strictly rising and below 32,768. -/
def poolWf : List Slot → Bool
  | [] => true
  | [x] => decide (x.num < Config.poolSlots)
  | x :: y :: rest => decide (x.num < y.num) && poolWf (y :: rest)

/-! ## Reserving and filling -/

/-- The lowest number from `k` on that a rising list does not hold. -/
def lowestGap (k : Nat) : List Slot → Nat
  | [] => k
  | x :: rest => if x.num = k then lowestGap (k + 1) rest else k

/-- Put a slot record at its place in the rising list. -/
def insertSlot (x : Slot) : List Slot → List Slot
  | [] => [x]
  | y :: rest => if x.num < y.num then x :: y :: rest else y :: insertSlot x rest

/-- The number of the FREE slot a grant takes. -/
def State.freeSlot (s : State) : Nat :=
  lowestGap 0 s.slots

/-- A FREE slot becomes RESERVED with its record (R35, R36). -/
def State.reserve (s : State) (h : Fin 64) (index : Nat) (kind : SlotKind) : State :=
  s.modSlots (insertSlot { num := s.freeSlot, job := h, index := index, kind := kind, held := none })

/-- A block's arrival makes its slot HELD with the frame's bytes and the three flags clear (R37, R38). -/
def State.fill (s : State) (num : Nat) (data : List Byte) : State :=
  s.modSlots fun l => l.map fun x =>
    if x.num = num then { x with held := some ⟨data, false, false, false⟩ } else x

/-- Change the HELD part of a slot. -/
def State.modHeld (s : State) (num : Nat) (f : HeldBlock → HeldBlock) : State :=
  s.modSlots fun l => l.map fun x => if x.num = num then { x with held := x.held.map f } else x

/-! ## Freeing -/

/-- The freeing condition (R42): HELD, digested and, for an INGEST slot, owed to no target. -/
def Slot.freeable (x : Slot) : Bool :=
  match x.held with
  | some b => b.digested && x.owed.isEmpty
  | none => false

/-- Free the slot of a number. -/
def State.freeSlotNum (s : State) (num : Nat) : State :=
  s.modSlots fun l => l.filter fun x => x.num != num

/-- Apply the freeing condition to the slot of a number (R39, R41, R42). -/
def State.freeIfDone (s : State) (num : Nat) : State :=
  s.modSlots fun l => l.filter fun x => !(x.num == num && x.freeable)

/-- Take a target out of a slot's pending-target set. -/
def Slot.settle (x : Slot) (t : Target) : Slot :=
  match x.kind with
  | .ingest owed => { x with kind := .ingest (owed.filter fun u => u != t) }
  | .check _ => x

/-- An acknowledgement takes the target out of one slot's set (R39). -/
def State.settleSlot (s : State) (num : Nat) (t : Target) : State :=
  s.modSlots fun l => l.map fun x => if x.num = num then x.settle t else x

/-- A leg that leaves WRITING takes its target out of every set of its job, and the freeing condition is applied to the job's
HELD slots (R40). -/
def State.settleJobSlots (s : State) (h : Fin 64) (t : Target) : State :=
  s.modSlots fun l => (l.map fun x => if x.job = h then x.settle t else x).filter fun x => !(decide (x.job = h) && x.freeable)

/-! ## Withdrawal -/

/-- Is the slot's block in flight in the Digest Unit? -/
def Slot.inFlight (x : Slot) : Bool :=
  match x.held with
  | some b => b.inDigest
  | none => false

/-- What a withdrawal leaves of a slot (R43, R44): nothing, or, with its block in flight, the slot marked withdrawn and owed to
no target. -/
def Slot.withdraw (x : Slot) : Option Slot :=
  match x.held with
  | some b =>
    if b.inDigest then
      some { x with
        held := some { b with withdrawn := true }
        kind := match x.kind with
          | .ingest _ => .ingest []
          | .check k => .check k }
    else none
  | none => none

/-- Withdraw the slots a test selects, and their entries in the ready list (R43, R44, R86, R87). -/
def State.withdrawSlots (s : State) (mine : Slot → Bool) : State :=
  let gone := (s.slots.filter mine).map Slot.num
  (s.modDigest fun u => { u with ready := u.ready.filter fun n => !gone.contains n }).modSlots fun l =>
    l.filterMap fun x => if mine x then x.withdraw else some x

/-- Is the slot an INGEST slot of the job? -/
def Slot.ingestOf (h : Fin 64) (x : Slot) : Bool :=
  decide (x.job = h) && x.isIngest

/-- Is the slot a CHECK slot of the leg? -/
def Slot.checkOf (r : LegRef) (x : Slot) : Bool :=
  decide (x.job = r.job) && decide (x.kind = .check r.leg)

/-- The slot at which a context's block of the given index is HELD and neither digested, nor in flight, nor withdrawn (R81). -/
def State.heldBlockAt (s : State) (mine : Slot → Bool) (index : Nat) : Option Slot :=
  s.slots.find? fun x =>
    mine x && decide (x.index = index) &&
      match x.held with
      | some b => !b.digested && !b.inDigest && !b.withdrawn
      | none => false

/-- Put a slot at the tail of the ready list (R81). -/
def State.makeReady (s : State) (num : Nat) : State :=
  s.modDigest fun u => { u with ready := u.ready ++ [num] }

end Sys2Proof.Machine
end

