-- ==== Sys2Proof/Machine/Flags.lean ====
section
/-! DEFINITION. The flags and lamp values the part computes from its other state: a target's had-work flag (R143), a window's stall
(R145), a port's computed lamp state (R154) and its line pair (R158), a tag's expiry test (R59, R103, R125). -/

namespace Sys2Proof.Machine

/-! ## Expiry -/

/-- The age of an issue tick has reached the timeout, modulo 2^32 (R59, R103, R137). -/
def expired (now issued : Tick) (timeout : Nat) : Bool :=
  decide (timeout ≤ (now - issued).toNat)

/-- The tick's test of a read tag: BUSY and ABANDONED tags are tested (R59). An expiry that an earlier tick found stays due until its
event is taken. -/
def ReadTag.expired (g : ReadTag) (now : Tick) (timeout : Nat) : Bool :=
  match g.state with
  | .free => false
  | .busy _ _ _ issued _ => g.due || Machine.expired now issued timeout
  | .abandoned issued => g.due || Machine.expired now issued timeout

/-- The tick's test of a write or check tag: sent and ABANDONED tags are tested (R103, R125). An expiry that an earlier tick found stays
due until its event is taken. -/
def BlockTag.expired (g : BlockTag) (now : Tick) (timeout : Nat) : Bool :=
  match g.state with
  | .free | .waiting _ => false
  | .sent _ issued => g.due || Machine.expired now issued timeout
  | .abandoned issued => g.due || Machine.expired now issued timeout

/-! ## Windows -/

/-- Is the tag BUSY, sent or waiting? -/
def BlockTag.busy (g : BlockTag) : Bool :=
  match g.state with
  | .sent _ _ | .waiting _ => true
  | .free | .abandoned _ => false

/-- A writer has work: its queue or retry list is not empty or a tag is BUSY (R143). -/
def Writer.hasWork (w : Writer) : Bool :=
  !w.queue.isEmpty || !w.retry.isEmpty || w.tags.toList.any BlockTag.busy

/-- Set the had-work flag of each target that has work (R143). -/
def State.noteWork (s : State) : State :=
  allTargets.foldl
    (fun s t => s.modWindow t fun w => { w with hadWork := w.hadWork || (s.writer t).hasWork }) s

/-- The ending window is stalled (R145). -/
def Window.stalled (w : Window) : Bool :=
  w.hadWork && decide (w.acked < w.effective.floor)

/-- A window count rises by one and saturates (R141, R142). -/
def countUp (n : Nat) : Nat :=
  min (n + 1) Config.countLimit

/-! ## Lamps -/

/-- A port's carry-over count: its jobs still running with their session mark cleared (R154). -/
def State.carryOver (s : State) (i : Fin 8) : Nat :=
  (s.jobs.toList.filter fun e =>
    match e with
    | some j => decide (j.port = i) && !j.state.terminal && !j.session
    | none => false).length

/-- The first matching row of Table 8-2. -/
def lampStateOf (present : Bool) (c : Session) (carryOver : Nat) : LampState :=
  if !present then .off
  else if 0 < c.failed then .fault
  else if 0 < c.live then .busy
  else if 1 ≤ c.done ∧ 0 < carryOver then .busy
  else if 1 ≤ c.done then .safe
  else .off

/-- A port's lamp state from its inputs (R154). -/
def State.lampState (s : State) (i : Fin 8) : LampState :=
  lampStateOf (s.ingest[i.val]).media.isSome s.sessions[i.val] (s.carryOver i)

/-- Recompute the lamp state of every port (R155). -/
def State.relamp (s : State) : State :=
  allIngest.foldl (fun s i => s.modLamp i fun l => { l with computed := s.lampState i }) s

/-- The line pair of Table 8-3, green then red; a blinking line is on in phase 0. -/
def linesOf (mode : LampMode) (computed : LampState) (phase : Bool) : Bool × Bool :=
  match mode, computed with
  | .auto, .off => (false, false)
  | .auto, .busy => (!phase, false)
  | .auto, .safe => (true, false)
  | .auto, .fault => (false, true)
  | .off, _ => (false, false)
  | .green, _ => (true, false)
  | .red, _ => (false, true)
  | .greenBlink, _ => (!phase, false)
  | .redBlink, _ => (false, !phase)

/-- Set a lamp's line pair from its mode, its computed state and the phase (R158). -/
def Lamp.drive (l : Lamp) (phase : Bool) : Lamp :=
  { l with green := (linesOf l.mode l.computed phase).1, red := (linesOf l.mode l.computed phase).2 }

end Sys2Proof.Machine
end

