-- ==== Sys2Proof/Machine/Digest.lean ====
section
/-! DEFINITION. The digest arithmetic of chapter 4: words of a block (R76), the two running sums (R77), finalisation (R78). -/

namespace Sys2Proof.Machine

/-- The number four bytes form, the first least significant (R76). -/
def wordOf (b0 b1 b2 b3 : Byte) : Nat :=
  b0.toNat + 256 * b1.toNat + 65536 * b2.toNat + 16777216 * b3.toNat

/-- The 32-bit words of a block's valid bytes; missing high bytes of the final word are zero (R76). -/
def wordsOf : List Byte → List Nat
  | [] => []
  | [b0] => [wordOf b0 0 0 0]
  | [b0, b1] => [wordOf b0 b1 0 0]
  | [b0, b1, b2] => [wordOf b0 b1 b2 0]
  | b0 :: b1 :: b2 :: b3 :: rest => wordOf b0 b1 b2 b3 :: wordsOf rest

/-- One word into the sums: A first, then B with the new A (R77). -/
def digestWord (c : DigestContext) (w : Nat) : DigestContext :=
  let a := (c.a + w) % Config.digestModulus
  { c with a := a, b := (c.b + a) % Config.digestModulus }

/-- A block's valid bytes into a context; the next index rises by one (R83, R84). -/
def digestBlock (c : DigestContext) (bytes : List Byte) : DigestContext :=
  { (wordsOf bytes).foldl digestWord c with next := c.next + 1 }

/-- The final digest of a context for a file of the given length (R78). -/
def finalDigest (c : DigestContext) (length : Nat) : Digest :=
  let a := (c.a + length % Config.digestModulus) % Config.digestModulus
  let b := (c.b + a) % Config.digestModulus
  BitVec.ofNat 64 (b * 2 ^ 32 + a)

/-- Finalisation: the final digest is recorded, A and B keep their values (R78). -/
def finalise (c : DigestContext) (length : Nat) : DigestContext :=
  { c with final := some (finalDigest c length) }

end Sys2Proof.Machine
end

