-- ==== Sys2Proof/Machine/Jobs.lean ====
section
/-! DEFINITION. The Job Table's events (chapters 1, 5, 6 and 11): a job's end, teardown, leg failures, placement and start, the
verify work list, the comparison and finalisation. What follows one of them in the same event (the next job's start, the next
leg's activation, the tests of R15 and R16) is a list of `Todo`s, which `State.run` works off in order. -/

namespace Sys2Proof.Machine

/-- What the Job Table or a Verify Reader still has to look at in the present event. -/
inductive Todo where
  /-- The head of a target's verify work list becomes VERIFYING (R120). -/
  | activate (d : Fin 6)
  /-- The tests of R16 and R15 for a job. -/
  | test (h : Fin 64)
  /-- A job's ingest digest context finalises (R14). -/
  | ingestFinal (h : Fin 64)
  /-- The start condition of R10 for a port. -/
  | start (i : Fin 8)
  deriving DecidableEq, Repr

/-! ## The end of a job -/

/-- A job of the session ends: live falls, and done or unreleased-failed rises (R8). -/
def Session.ended (c : Session) (outcome : JobState) : Session :=
  match outcome with
  | .done => { c with live := c.live - 1, done := min (c.done + 1) Config.sessionLimit }
  | .failed => { c with live := c.live - 1, failed := min (c.failed + 1) Config.sessionLimit }
  | .loaded | .reading | .settling | .aborted => { c with live := c.live - 1 }

/-- A job enters a terminal state: state, cause, finished timestamp and session counters (R24). A terminal job reaches no further
state. Its JOB_FINISHED is handed over by `State.announce`. -/
def State.finishJob (s : State) (h : Fin 64) (outcome : JobState) (cause : Option JobCause) : State :=
  match s.job? h with
  | none => s
  | some j =>
    if j.state.terminal then s
    else
      let s := s.modJob h fun j => { j with state := outcome, cause := cause, finishedAt := some s.now }
      if j.session then s.modSession j.port fun c => c.ended outcome else s

/-- The JOB_FINISHED notice of a terminal job that has not produced it (R24, R188). -/
def State.announceJob (s : State) (h : Fin 64) : State :=
  match s.job? h with
  | none => s
  | some j =>
    if j.state.terminal && !j.announced then
      (s.modJob h fun j => { j with announced := true }).notify (.jobFinished h j.state j.cause j.goodLegs j.port)
    else s

/-- The JOB_FINISHED notices of one event join the Notice Queue in handle order (R184). -/
def State.announce (s : State) : State :=
  allHandles.foldl State.announceJob s

/-! ## Withdrawals (Table 1-8) -/

/-- A read tag of a withdrawn job: BUSY becomes ABANDONED, its generation and issue tick kept (R50, R66). -/
def ReadTag.abandon (g : ReadTag) : ReadTag :=
  match g.state with
  | .busy _ _ _ issued _ => { g with state := .abandoned issued }
  | .free | .abandoned _ => g

/-- If the job is its port's reading job, the reading job becomes absent, the port's BUSY tags become ABANDONED, and the port's
wait for a slot ends (R22, R34, R53). Any other job stands in no line-up after its end (R10); a READING or SETTLING job stood in none. -/
def State.dropReading (s : State) (h : Fin 64) : State :=
  match s.job? h with
  | none => s
  | some j =>
    if (s.ingest[j.port.val]).reading = some h then
      (s.modIngest j.port fun p => { p with reading := none, tags := p.tags.map ReadTag.abandon }).modArbiter fun a =>
        { a with waiting := a.waiting.filter fun r => r != .ingest j.port }
    else s.modIngest j.port fun p => { p with lineUp := p.lineUp.filter fun x => x != h }

/-- The work a BUSY write or check tag carries. -/
def BlockTag.work? (g : BlockTag) : Option TagWork :=
  match g.state with
  | .sent w _ => some w
  | .waiting w => some w
  | .free | .abandoned _ => none

/-- Is the tag BUSY for a leg of the job? -/
def BlockTag.isFor (g : BlockTag) (h : Fin 64) : Bool :=
  match g.work? with
  | some w => decide (w.ref.job = h)
  | none => false

/-- A write or check tag of a withdrawn leg: waiting becomes FREE, sent becomes ABANDONED, generation kept (R106, R129). -/
def BlockTag.withdraw (h : Fin 64) (g : BlockTag) : BlockTag :=
  match g.state with
  | .sent w issued => if w.ref.job = h then { g with state := .abandoned issued } else g
  | .waiting w => if w.ref.job = h then { g with state := .free, due := false } else g
  | .free | .abandoned _ => g

/-- The writer's withdrawal of a leg's writes: its queue entries and waiting tags go, its sent tags become ABANDONED (R106). -/
def Writer.withdraw (w : Writer) (h : Fin 64) : Writer :=
  { w with
    queue := w.queue.filter fun e => e.ref.job != h
    retry := w.retry.filter fun k => !(w.tags[k.val]).isFor h
    tags := w.tags.map (BlockTag.withdraw h) }

/-- The reader's withdrawal of a job's leg: it leaves the list; if it was active its tags and the slot awaiting the link go with
it (R129). -/
def VerifyReader.withdraw (v : VerifyReader) (h : Fin 64) : VerifyReader :=
  { work := v.work.filter fun r => r.job != h
    awaiting := if v.work.head?.any (fun r => r.job == h) then none else v.awaiting
    retry := v.retry.filter fun k => !(v.tags[k.val]).isFor h
    tags := v.tags.map (BlockTag.withdraw h) }

/-- A leg leaves a verify work list by any event other than its comparison: the reader, the pool and the Digest Unit withdraw its
work, and the stream's wait ends if it was active (R129, R44, R87, R34). Its verify context is left as it stands. For a leg that was
waiting for its job's ingest digest with its context already final, R129 and R87 say that the final flag is clear and R75 that a final
context does not change again: the model keeps flag and digest set (DESIGN CHOICE, notes/assumptions/21.md). -/
def State.withdrawVerify (s : State) (d : Fin 6) (h : Fin 64) : State :=
  let v := s.readers[d.val]
  match v.work.find? fun r => r.job == h with
  | none => s
  | some r =>
    let s := (s.modReader d fun v => v.withdraw h).withdrawSlots (Slot.checkOf r)
    if v.work.head? = some r then s.modArbiter fun a => { a with waiting := a.waiting.filter fun q => q != .verify d } else s

/-- Teardown (R22, R23): the job ends, its legs are abandoned, and every block withdraws its work. -/
def State.teardown (s : State) (h : Fin 64) (outcome : JobState) (cause : JobCause) : State :=
  let s := ((s.finishJob h outcome (some cause)).abandonLegs h).dropReading h
  let s := s.withdrawSlots (Slot.ingestOf h)
  let s := allTargets.foldl (fun s t => s.modWriter t fun w => w.withdraw h) s
  allDrives.foldl (fun s d => s.withdrawVerify d h) s

/-- What a teardown of a job of the port may make possible: new heads of verify work lists, and the port's next start. -/
def afterTeardown (i : Fin 8) : List Todo :=
  allDrives.map .activate ++ [.start i]

/-- Teardown of a job that is not terminal, with what follows it. -/
def State.tearJob (s : State) (h : Fin 64) (outcome : JobState) (cause : JobCause) : State × List Todo :=
  match s.job? h with
  | none => (s, [])
  | some j => if j.state.terminal then (s, []) else (s.teardown h outcome cause, afterTeardown j.port)

/-! ## Legs that fail or are deferred -/

/-- A leg leaves WRITING for a terminal state other than by acknowledgement (R20, R21, R40, R106), or leaves the verify work list
(R129). A leg in any other state is unchanged (R21). -/
def State.dropLeg (s : State) (h : Fin 64) (t : Target) (st : LegState) (cause : Option LegCause) : State :=
  match s.legOn h t with
  | none => s
  | some r =>
    if s.legOnIs h t (fun x => decide (x = .writing)) then
      ((s.endLeg r st cause).settleJobSlots h t).modWriter t fun w => w.withdraw h
    else if s.legOnIs h t (fun x => decide (x = .written) || decide (x = .verifying)) then
      match t with
      | .drive d => (s.endLeg r st cause).withdrawVerify d h
      | .sink => s.endLeg r st cause
    else s

/-- What follows the failure of one leg: the target's next active leg and the job's tests (R20). -/
def afterLeg (h : Fin 64) : Target → List Todo
  | .drive d => [.activate d, .test h]
  | .sink => [.test h]

/-- The handles, in handle order, whose leg on the target is in a state the test accepts. -/
def State.jobsWithLeg (s : State) (t : Target) (test : LegState → Bool) : List (Fin 64) :=
  allHandles.filter fun h => s.legOnIs h t test

/-- The leg states that a target loss fails (R110). -/
def LegState.lostWithTarget (x : LegState) : Bool :=
  decide (x = .writing) || decide (x = .written) || decide (x = .verifying)

/-! ## Verification (R119, R120, R128) -/

/-- Compare a VERIFYING leg's final verify digest with its job's final ingest digest, if both are final: the leg becomes GOOD or
MISMATCH and leaves the list (R128, R14). -/
def State.compareLeg (s : State) (d : Fin 6) (r : LegRef) : State × Bool :=
  match s.leg? r, s.job? r.job with
  | some l, some j =>
    match l.context.final, j.ingest.final with
    | some v, some g =>
      if l.state = .verifying then
        ((s.endLeg r (if v = g then .good else .mismatch) none).modReader d fun q =>
          { q with work := q.work.filter fun x => x != r }, true)
      else (s, false)
    | _, _ => (s, false)
  | _, _ => (s, false)

/-- A leg's verify context finalises: the verify digest is recorded and compared if it can be (R128). A terminal job's contexts stand
(R22). -/
def State.verifyFinal (s : State) (d : Fin 6) (r : LegRef) : State × List Todo :=
  match s.job? r.job with
  | none => (s, [])
  | some j =>
    if j.state.terminal then (s, [])
    else
      let out := (s.modLeg r fun l => { l with context := finalise l.context j.length }).compareLeg d r
      (out.1, if out.2 then [.test r.job, .activate d] else [])

/-- The head of a target's verify work list becomes VERIFYING; with n = 0 its context finalises at once (R120). -/
def State.activateHead (s : State) (d : Fin 6) : State × List Todo :=
  match (s.readers[d.val]).work with
  | [] => (s, [])
  | r :: _ =>
    match s.leg? r, s.job? r.job with
    | some l, some j =>
      if l.state = .written then
        let s := s.modLeg r fun l => { l with state := .verifying }
        if j.blocks = 0 then s.verifyFinal d r else (s, [])
      else (s, [])
    | _, _ => (s, [])

/-- A leg becomes WRITTEN: GOOD at once with verify no, else at the tail of its target's verify work list (R17). -/
def State.legWritten (s : State) (r : LegRef) : State × List Todo :=
  match s.leg? r with
  | none => (s, [])
  | some l =>
    let s := s.modLeg r fun l => { l with state := .written, written := some s.now }
    match l.verify, l.target with
    | true, .drive d => (s.modReader d fun v => { v with work := v.work ++ [r] }, [.activate d])
    | _, _ => (s.endLeg r .good none, [.test r.job])

/-! ## Placement and start (R10, R11, R12, R95) -/

/-- Step 1 of placement: the base, if the current region has room (R95). -/
def Drive.fit (v : Drive) (n : Nat) : Option Nat :=
  match v.current with
  | some r => if n = 0 ∨ v.pointer + n ≤ r.last + 1 then some v.pointer else none
  | none => none

/-- A region becomes current with the pointer at its start, and no region is staged (R95, step 2). -/
def Drive.adopt (v : Drive) (r : Region) : Drive :=
  { v with current := some r, staged := none, pointer := r.first }

/-- A leg takes n blocks at the pointer if it fits (R95, step 1). -/
def Drive.take (v : Drive) (n : Nat) : Drive × Option Nat :=
  match v.fit n with
  | some b => ({ v with pointer := v.pointer + n }, some b)
  | none => (v, none)

/-- The region rule (R95): the drive after the placement, and the base if the leg fits. -/
def Drive.place (v : Drive) (n : Nat) : Drive × Option Nat :=
  match v.fit n, v.staged with
  | none, some r => (v.adopt r).take n
  | _, _ => v.take n

/-- Place one IDLE leg of a starting job (R11). -/
def State.placeLeg (s : State) (r : LegRef) : State :=
  match s.leg? r, s.job? r.job with
  | some l, some j =>
    if l.state ≠ .idle then s
    else if s.available l.target then
      match l.target with
      | .sink => s.modLeg r fun l => { l with state := .writing, base := some 0 }
      | .drive d =>
        let placed := (s.drives[d.val]).place j.blocks
        let s := s.modDrive d fun _ => placed.1
        match placed.2 with
        | some b => s.modLeg r fun l => { l with state := .writing, base := some b }
        | none => s.endLeg r .failed (some .targetFull)
    else s.endLeg r .failed (some .lost)
  | _, _ => s

/-- The references of a job's legs, leg 0 first. -/
def State.legRefs (s : State) (h : Fin 64) : List LegRef :=
  match s.job? h with
  | some j => (List.range j.legs.length).map fun k => ⟨h, k⟩
  | none => []

/-- Work a list of steps off in order, gathering what each leaves to do. -/
def eachLeg (f : State → LegRef → State × List Todo) : List LegRef → State → State × List Todo
  | [], s => (s, [])
  | r :: rest, s =>
    let a := f s r
    let b := eachLeg f rest a.1
    (b.1, a.2 ++ b.2)

/-- The legs that a zero-length job's start has placed become WRITTEN (R12). -/
def State.writtenIfWriting (s : State) (r : LegRef) : State × List Todo :=
  match s.leg? r with
  | some l => if l.state = .writing then s.legWritten r else (s, [])
  | none => (s, [])

/-- The start of the LOADED job at the head of a port's line-up (R10, R11, R12). -/
def State.startJob (s : State) (i : Fin 8) (h : Fin 64) : State × List Todo :=
  let s := (s.modIngest i fun p => { p with lineUp := p.lineUp.tail }).modJob h fun j => { j with startedAt := some s.now }
  let refs := s.legRefs h
  let s := refs.foldl State.placeLeg s
  match s.job? h with
  | none => (s, [])
  | some j =>
    if j.viableLegs = 0 then (s.finishJob h .failed (some .insufficientCopies), [.start i])
    else if j.blocks = 0 then
      let s := s.modJob h fun j => { j with state := .settling, arrivedAllAt := j.startedAt }
      let out := eachLeg State.writtenIfWriting refs s
      (out.1, out.2 ++ [.ingestFinal h, .start i])
    else ((s.modJob h fun j => { j with state := .reading }).modIngest i fun p => { p with reading := some h }, [])

/-- The start condition of a port, tested (R10). -/
def State.testStart (s : State) (i : Fin 8) : State × List Todo :=
  match (s.ingest[i.val]).reading, (s.ingest[i.val]).lineUp with
  | none, h :: _ =>
    match s.job? h with
    | some j => if j.state = .loaded then s.startJob i h else (s, [])
    | none => (s, [])
  | _, _ => (s, [])

/-! ## The tests of a job (R14, R15, R16) -/

/-- The expected-digest check has passed: no expected digest, or the final digest equals it (R14). -/
def Job.digestPassed (j : Job) : Bool :=
  match j.ingest.final with
  | some g => j.expected = none || j.expected = some g
  | none => false

/-- The finalisation condition of a SETTLING job (R15). -/
def Job.finalisable (j : Job) : Bool :=
  decide (j.state = .settling) && j.digestPassed && j.legs.all fun l => l.state.terminal

/-- R16, then R15. -/
def State.testJob (s : State) (h : Fin 64) : State × List Todo :=
  match s.job? h with
  | none => (s, [])
  | some j =>
    if j.state = .reading ∨ j.state = .settling then
      if j.viableLegs = 0 then s.tearJob h .failed .insufficientCopies
      else if j.finalisable then
        if j.required ≤ j.goodLegs then (s.finishJob h .done none, []) else (s.finishJob h .failed (some .insufficientCopies), [])
      else (s, [])
    else (s, [])

/-- A VERIFYING leg whose verify digest waits is compared (R14). -/
def State.compareWaiting (s : State) (r : LegRef) : State :=
  match s.leg? r with
  | some l =>
    match l.target with
    | .drive d => (s.compareLeg d r).1
    | .sink => s
  | none => s

/-- A job's ingest digest context finalises: the digest is recorded and checked, then the waiting verify digests are compared in
leg order, or the job fails SOURCE_MISMATCH (R14, R78). A terminal job's context stands (R22). -/
def State.ingestFinalised (s : State) (h : Fin 64) : State × List Todo :=
  match s.job? h with
  | none => (s, [])
  | some j =>
    if j.state.terminal then (s, [])
    else
      let s := s.modJob h fun j => { j with ingest := finalise j.ingest j.length }
      let g := finalDigest j.ingest j.length
      if j.expected = none ∨ j.expected = some g then
        ((s.legRefs h).foldl State.compareWaiting s, allDrives.map .activate ++ [.test h])
      else s.tearJob h .failed .sourceMismatch

/-! ## Working the list off -/

/-- One thing to do, with what it leaves to do. -/
def State.perform (s : State) : Todo → State × List Todo
  | .activate d => s.activateHead d
  | .test h => s.testJob h
  | .ingestFinal h => s.ingestFinalised h
  | .start i => s.testStart i

/-- Work a list of things to do off, each with what follows from it first. -/
def State.run : Nat → List Todo → State → State
  | 0, _, s => s
  | _ + 1, [], s => s
  | k + 1, t :: rest, s => State.run k ((s.perform t).2 ++ rest) (s.perform t).1

/-- More steps than any event can need: each start takes a handle off a line-up, each end of a job happens once for its record,
and each comparison takes a leg off a work list (notes/assumptions/6.md counts them). -/
def cascadeSteps : Nat :=
  4096

/-- The rest of an event in the Job Table. -/
def State.cascade (s : State) (todo : List Todo) : State :=
  State.run cascadeSteps todo s

/-- Run the rest of an event from a state paired with what it leaves to do. -/
def cascadeOf (out : State × List Todo) : State :=
  out.1.cascade out.2

end Sys2Proof.Machine
end

