-- ==== Sys2Proof/Machine/Grants.lean ====
section
/-! DEFINITION. What the part does by itself once an event's effects on jobs and legs are in: slots are handed to waiting requesters
and granted to new ones (R31 to R36), reads are issued (R54, R55), the target arbiters grant their links (R131) and writes and
check reads are issued (R99, R100, R122), and C's transmitter grants a source (R168). The manual orders the hand-over before the
issue tests (R84); the order of the rest within one event is the model's (DESIGN CHOICE, notes/assumptions/7.md). -/

namespace Sys2Proof.Machine

/-! ## The circle of requesters -/

/-- The requesters in circular order from I0 (R32). -/
def requesters : List Requester :=
  allIngest.map .ingest ++ allDrives.map .verify

/-- A circle's order from one of its members. -/
def circleFrom {α : Type} [DecidableEq α] (circle : List α) (p : α) : List α :=
  (circle.dropWhile fun x => x != p) ++ circle.takeWhile fun x => x != p

/-- The member after one, in circular order. -/
def nextOf {α : Type} [DecidableEq α] (circle : List α) (p : α) : α :=
  ((circleFrom circle p).drop 1).headD p

/-! ## Waiting for a slot -/

/-- The quota admission check of a job (R46). -/
def State.admits (s : State) (j : Job) : Bool :=
  j.legs.all fun l => decide (l.state ≠ .writing) || decide (s.occupancy l.target < (s.window l.target).effective.quota)

/-- The lowest-numbered FREE read tag (R55). -/
def freeReadTag (tags : Vector ReadTag 8) : Option (Fin 8) :=
  allIngest.find? fun k => decide ((tags[k.val]).state = .free)

/-- The lowest-numbered FREE write tag (R100). -/
def freeWriteTag (tags : Vector BlockTag 16) : Option (Fin 16) :=
  allWriteTags.find? fun k => decide ((tags[k.val]).state = .free)

/-- The lowest-numbered FREE check tag (R122). -/
def freeCheckTag (tags : Vector BlockTag 8) : Option (Fin 8) :=
  allIngest.find? fun k => decide ((tags[k.val]).state = .free)

/-- A port's next read is ready to issue but for a slot (R31, R54). -/
def State.ingestWants (s : State) (i : Fin 8) : Bool :=
  match (s.ingest[i.val]).reading.bind s.job? with
  | none => false
  | some j =>
    s.linkUp (.ingest i) && decide (j.state = .reading) && decide (j.requested < j.blocks) &&
      (freeReadTag (s.ingest[i.val]).tags).isSome && decide (j.requested < j.digested + Config.reorderSpan) && s.admits j

/-- A verify stream waits for a slot (R31, R121). -/
def State.verifyWants (s : State) (d : Fin 6) : Bool :=
  match (s.readers[d.val]).work with
  | [] => false
  | r :: _ =>
    match s.leg? r, s.job? r.job with
    | some l, some j =>
      s.available (.drive d) && decide (l.state = .verifying) && decide (l.checked < j.blocks) &&
        (s.readers[d.val]).awaiting.isNone && (freeCheckTag (s.readers[d.val]).tags).isSome &&
        decide (l.checked < l.context.next + Config.verifySpan)
    | _, _ => false

/-- A requester's conditions of R31 hold. -/
def State.wants (s : State) : Requester → Bool
  | .ingest i => s.ingestWants i
  | .verify d => s.verifyWants d

/-! ## Grants -/

/-- The targets of a job's WRITING legs (R35). -/
def Job.writingTargets (j : Job) : List Target :=
  (j.legs.filter fun l => decide (l.state = .writing)).map Leg.target

/-- A grant to an Ingest Sequencer: the slot is RESERVED and the read issued, as one event (R35, R55). -/
def State.grantIngest (s : State) (i : Fin 8) : State :=
  match (s.ingest[i.val]).reading, freeReadTag (s.ingest[i.val]).tags with
  | some h, some k =>
    match s.job? h with
    | none => s
    | some j =>
      let num := s.freeSlot
      let gen := ((s.ingest[i.val]).tags[k.val]).gen + 1
      let s := s.reserve h j.requested (.ingest j.writingTargets)
      let s := s.count h fun j => { j with requested := j.requested + 1 }
      let s := s.modIngest i fun p =>
        { p with tags := setEntry p.tags k fun _ => ⟨.busy h j.requested num s.now 0, gen, false⟩ }
      s.send (.ingest i) (.blockRead k gen (cardAddress j.runs j.requested))
  | _, _ => s

/-- A grant to a verify stream: the slot is RESERVED as a CHECK slot and awaits the link (R36, R121). -/
def State.grantVerify (s : State) (d : Fin 6) : State :=
  match (s.readers[d.val]).work with
  | [] => s
  | r :: _ =>
    match s.leg? r with
    | none => s
    | some l =>
      let num := s.freeSlot
      (s.reserve r.job l.checked (.check r.leg)).modReader d fun v => { v with awaiting := some num }

/-- A grant: the requester is served and the pointer moves to the one after it (R32, R33). -/
def State.grant (s : State) (r : Requester) : State :=
  (match r with
    | .ingest i => s.grantIngest i
    | .verify d => s.grantVerify d).modArbiter fun a => { a with pointer := nextOf requesters r }

/-- Requesters whose conditions no longer hold stop waiting (R31). -/
def State.lapse (s : State) : State :=
  s.modArbiter fun a => { a with waiting := a.waiting.filter s.wants }

/-- More grants than one event can make: eight read tags on each of eight ports and one awaiting slot on each of six drives. -/
def grantSteps : Nat :=
  70

/-- Freed slots go to the requesters that were waiting, one at a time around the circle from the pointer (R33). -/
def State.handOn : Nat → State → State
  | 0, s => s.lapse
  | k + 1, s =>
    if s.lapse.freeSlots = 0 then s.lapse
    else
      match (circleFrom requesters s.arbiter.pointer).find? fun r => s.lapse.arbiter.waiting.contains r with
      | none => s.lapse
      | some r => State.handOn k (s.lapse.grant r)

/-- Everyone whose conditions hold waits. -/
def State.joinWaiting (s : State) : State :=
  s.modArbiter fun a => { a with waiting := requesters.filter s.wants }

/-- Requesters that begin to wait take FREE slots in circular order until there is none; the rest join the waiting set (R32). -/
def State.serveNew : Nat → State → State
  | 0, s => s.joinWaiting
  | k + 1, s =>
    if s.freeSlots = 0 then s.joinWaiting
    else
      match (circleFrom requesters s.arbiter.pointer).find? s.wants with
      | none => s.joinWaiting
      | some r => State.serveNew k (s.grant r)

/-! ## Block writes (R99, R100, R101) -/

/-- The writer's conditions of R99 other than the grant. -/
def State.writeEligible (s : State) (t : Target) : Bool :=
  let w := s.writer t
  let win := s.window t
  s.linkUp (targetPort t) &&
    (!w.retry.isEmpty || (!w.queue.isEmpty && (freeWriteTag w.tags).isSome)) &&
    (decide (win.issued < win.effective.ceiling) || decide (win.effective.ceiling = 0))

/-- The bytes of a HELD slot. -/
def State.slotData (s : State) (num : Nat) : List Byte :=
  match (s.slot? num).bind Slot.held with
  | some b => b.data
  | none => []

/-- The frame of a block write: BLOCK WRITE on T0 to T5, SINK WRITE on T6 (R101). -/
def State.writeFrame (s : State) (t : Target) (k : Fin 16) (gen : Gen) (w : TagWork) : TxFrame :=
  match t with
  | .drive _ => .blockWrite k gen w.address (s.slotData w.slot)
  | .sink =>
    .sinkWrite k gen w.ref.job
      (match s.job? w.ref.job with
        | some j => validBytes j.length w.index
        | none => Config.blockBytes)
      w.index (s.slotData w.slot)

/-- Put a write on the link under a tag: the tag is sent with its new generation and issue tick, the window's issued count rises
(R100, R141), and the frame is handed to the port. -/
def State.putWrite (s : State) (t : Target) (k : Fin 16) (w : TagWork) : State :=
  let gen := ((s.writer t).tags[k.val]).gen + 1
  let f := s.writeFrame t k gen w
  let s := s.modWriter t fun q => { q with tags := setEntry q.tags k fun _ => ⟨.sent w s.now, gen, false⟩ }
  let s := s.modWindow t fun q => { q with issued := countUp q.issued }
  s.send (targetPort t) f

/-- The base of a leg: 0 on T6 (R91). -/
def State.legBase (s : State) (r : LegRef) : Nat :=
  match s.leg? r with
  | some l => l.base.getD 0
  | none => 0

/-- Issue one write: the head of the retry list, else the head of the write queue under the lowest FREE tag (R99, R100). -/
def State.issueWrite (s : State) (t : Target) : State :=
  let w := s.writer t
  match w.retry with
  | k :: rest =>
    let s := s.modWriter t fun q => { q with retry := rest }
    match (w.tags[k.val]).work? with
    | some work => s.putWrite t k { work with attempt := work.attempt + 1 }
    | none => s
  | [] =>
    match w.queue, freeWriteTag w.tags with
    | e :: rest, some k =>
      let s := s.modWriter t fun q => { q with queue := rest }
      match s.slot? e.slot with
      | some x =>
        let s := s.countLeg e.ref fun l => { l with sent := l.sent + 1 }
        s.putWrite t k { slot := e.slot, ref := e.ref, index := x.index, address := s.legBase e.ref + x.index, attempt := 0 }
      | none => s
    | _, _ => s

/-! ## Check reads (R122) -/

/-- The check side's eligibility (R131). -/
def State.checkEligible (s : State) (d : Fin 6) : Bool :=
  s.linkUp (.drive d) && (!(s.readers[d.val]).retry.isEmpty || (s.readers[d.val]).awaiting.isSome)

/-- Put a check read on the link under a tag (R122). -/
def State.putCheck (s : State) (d : Fin 6) (k : Fin 8) (w : TagWork) : State :=
  let gen := ((s.readers[d.val]).tags[k.val]).gen + 1
  let s := s.modReader d fun v => { v with tags := setEntry v.tags k fun _ => ⟨.sent w s.now, gen, false⟩ }
  s.send (.drive d) (.checkRead k gen w.address)

/-- Issue one check read: the head of the check retry list, else the slot awaiting the link under the lowest FREE tag (R122). -/
def State.issueCheck (s : State) (d : Fin 6) : State :=
  let v := s.readers[d.val]
  match v.retry with
  | k :: rest =>
    let s := s.modReader d fun v => { v with retry := rest }
    match (v.tags[k.val]).work? with
    | some work => s.putCheck d k { work with attempt := work.attempt + 1 }
    | none => s
  | [] =>
    match v.awaiting, v.work, freeCheckTag v.tags with
    | some num, r :: _, some k =>
      let s := s.modReader d fun v => { v with awaiting := none }
      match s.slot? num with
      | some x =>
        let s := s.countLeg r fun l => { l with checked := l.checked + 1 }
        s.putCheck d k { slot := num, ref := r, index := x.index, address := s.legBase r + x.index, attempt := 0 }
      | none => s
    | _, _, _ => s

/-! ## The target arbiter (R131) -/

/-- The other side. -/
def Side.other : Side → Side
  | .write => .check
  | .check => .write

/-- A side's weight. -/
def TargetArbiter.weight (a : TargetArbiter) : Side → Nat
  | .write => a.writeWeight
  | .check => a.checkWeight

/-- The arbiter after granting a side: the turn's side is charged, the other is not (R131). -/
def TargetArbiter.charge (a : TargetArbiter) (side : Side) : TargetArbiter :=
  if side = a.turn then
    if a.weight side ≤ a.count + 1 then { a with turn := a.turn.other, count := 0, granted := true }
    else { a with count := a.count + 1, granted := true }
  else { a with granted := true }

/-- The side an IDLE arbiter grants, if one is eligible (R131). -/
def TargetArbiter.choice (a : TargetArbiter) (write check : Bool) : Option Side :=
  match a.turn, write, check with
  | .write, true, _ => some .write
  | .write, false, true => some .check
  | .check, _, true => some .check
  | .check, true, false => some .write
  | _, false, false => none

/-- The arbiter of a target, tested (R131). -/
def State.arbitrate (s : State) (d : Fin 6) : State :=
  if (s.sides[d.val]).granted then s
  else
    match (s.sides[d.val]).choice (s.writeEligible (.drive d)) (s.checkEligible d) with
    | none => s
    | some .write => (s.modSides d fun a => a.charge .write).issueWrite (.drive d)
    | some .check => (s.modSides d fun a => a.charge .check).issueCheck d

/-! ## C's transmitter (R168) -/

/-- The sources in circular order. -/
def sources : List Source :=
  [.response, .notice, .sink]

/-- Does a source have a frame? -/
def State.sourceHas (s : State) : Source → Bool
  | .response => !s.control.responses.isEmpty
  | .notice => !s.handler.notices.isEmpty
  | .sink => s.writeEligible .sink

/-- Begin to send from a source: the head of its queue, or one write of T6. -/
def State.sendFrom (s : State) (c : Source) : State :=
  match c with
  | .response =>
    match s.control.responses with
    | r :: _ => s.send .control (.response r)
    | [] => s
  | .notice =>
    match s.handler.notices with
    | n :: _ => s.send .control (.notice n)
    | [] => s
  | .sink => s.issueWrite .sink

/-- C's transmitter, tested: when FREE with C UP it grants the first source with a frame, from the pointer (R168). -/
def State.transmit (s : State) : State :=
  if s.linkUp .control && s.control.sending.isNone then
    match (circleFrom sources s.control.pointer).find? s.sourceHas with
    | none => s
    | some c => (s.modControl fun q => { q with sending := some c, pointer := nextOf sources c }).sendFrom c
  else s

/-! ## The end of an event -/

/-- Slots, reads, writes and check reads, then C's transmitter and the had-work flags. -/
def State.settle (s : State) : State :=
  let s := State.serveNew grantSteps (State.handOn grantSteps s)
  let s := State.serveNew grantSteps (allDrives.foldl State.arbitrate s)
  s.transmit.noteWork

/-- The end of an event that may have touched jobs: the JOB_FINISHED notices (R184), the lamps (R155), and the grants. -/
def State.close (s : State) : State :=
  s.announce.relamp.settle

end Sys2Proof.Machine
end

