-- ==== Sys2Proof/Machine/Ports.lean ====
section
/-! DEFINITION. What happens to a port or the whole part: full reset (R28, R48, R74, R116, R134, R152, R160, R166), media insertion and
removal (R65, R66, R109, R110), and the port resets (R69, R112, R130, R132). -/

namespace Sys2Proof.Machine

/-! ## Events -/

/-- A command's outcome: its effect where the event can happen, and no change where it cannot. While RESET_N is held low nothing
happens (R28). An event that cannot happen as the state stands (a frame on a port whose link is DOWN, an expiry of a tag that is
not due, the taking of a request that is not at the head of the queue) leaves the state as it is (DESIGN CHOICE,
notes/assumptions/4.md). -/
def State.event (s : State) (enabled : Bool) (effect : State → State) : Host.Outcome State Fault Refusal :=
  .next (if s.resetN && enabled then effect s else s)

/-! ## Full reset -/

/-- Every block returns to its initial values; the pin levels and the waiting commands are not the part's to clear. -/
def State.fullReset (s : State) : State :=
  { State.reset with resetN := s.resetN, nodeId0 := s.nodeId0, nodeId1 := s.nodeId1, pending := s.pending }

/-! ## Media of an ingest port -/

/-- The session of a port ends: its counters become 0 and the session mark of each of its jobs is cleared (R8). -/
def State.clearSession (s : State) (i : Fin 8) : State :=
  let s := s.modSession i fun _ => ⟨0, 0, 0⟩
  { s with jobs := s.jobs.map fun e => e.map fun j => if j.port = i then { j with session := false } else j }

/-- A card insertion (R65). -/
def State.ingestInsertion (s : State) (i : Fin 8) (m : Media) : State :=
  ((s.modIngest i fun p => { p with media := some m }).clearSession i).notify (.mediaChanged (.ingest i) (some m))

/-- A LOADED job ends without teardown: its legs are abandoned (R18, R25). -/
def State.endLoaded (s : State) (outcome : JobState) (cause : JobCause) (h : Fin 64) : State :=
  (s.finishJob h outcome (some cause)).abandonLegs h

/-- The port's LOADED jobs, in handle order. -/
def State.loadedJobs (s : State) (i : Fin 8) : List (Fin 64) :=
  allHandles.filter fun h =>
    match s.job? h with
    | some j => decide (j.port = i) && decide (j.state = .loaded)
    | none => false

/-- The source-lost report: the port's LOADED jobs fail, the line-up empties, and the READING job is torn down (R18). -/
def State.sourceLost (s : State) (i : Fin 8) : State × List Todo :=
  let s := (s.loadedJobs i).foldl (State.endLoaded · .failed .sourceLost ·) s
  let s := s.modIngest i fun p => { p with lineUp := [] }
  match (s.ingest[i.val]).reading with
  | some h => s.tearJob h .failed .sourceLost
  | none => (s, [])

/-- A card removal: the record is cleared, MEDIA_CHANGED handed over, then the source-lost report and its notices (R66, R184). -/
def State.ingestRemoval (s : State) (i : Fin 8) : State :=
  let s := (s.modIngest i fun p => { p with media := none }).notify (.mediaChanged (.ingest i) none)
  (cascadeOf (s.sourceLost i)).announce

/-- A read tag at a port reset: FREE, with a generation step (R69). -/
def ReadTag.portReset (g : ReadTag) : ReadTag :=
  ⟨.free, g.gen + 1, false⟩

/-- A port reset of an ingest port (R69). -/
def State.ingestPortReset (s : State) (i : Fin 8) : State :=
  let s := s.modIngest i fun p => { p with tags := p.tags.map ReadTag.portReset }
  if (s.ingest[i.val]).media.isSome then s.ingestRemoval i else s

/-! ## Media of a drive -/

/-- A drive insertion (R109). -/
def State.driveInsertion (s : State) (d : Fin 6) (m : Media) : State :=
  (s.modDrive d fun v => { v with media := some m }).notify (.mediaChanged (.drive d) (some m))

/-- The Verify Reader of a lost drive: its list is empty and no leg is active, the slot awaiting the link is freed, and no check read
waits for its reissue (R130). -/
def State.emptyReader (s : State) (t : Target) : State :=
  match t with
  | .sink => s
  | .drive d =>
    let s :=
      match (s.readers[d.val]).awaiting with
      | some num => s.freeSlotNum num
      | none => s
    s.modReader d fun v => { v with work := [], awaiting := none, retry := [] }

/-- Every WRITING, WRITTEN or VERIFYING leg on a target fails LOST in handle order and its Verify Reader is left empty, then the jobs
concerned are tested in handle order (R110, R130). -/
def State.loseLegs (s : State) (t : Target) : State :=
  let mine := s.jobsWithLeg t LegState.lostWithTarget
  let s := (mine.foldl (fun s h => s.dropLeg h t .failed (some .lost)) s).emptyReader t
  s.cascade (mine.map .test)

/-- The number of legs a target loss fails. -/
def State.legsToLose (s : State) (t : Target) : Nat :=
  (s.jobsWithLeg t LegState.lostWithTarget).length

/-- A drive removal: TARGET_LOST, then the legs' failures and the notices of the jobs they end (R110). -/
def State.driveRemoval (s : State) (d : Fin 6) : State :=
  let n := s.legsToLose (.drive d)
  let s := (s.modDrive d fun v => { v with media := none }).notify (.targetLost (.drive d) n)
  (s.loseLegs (.drive d)).announce

/-! ## Port reset of a target -/

/-- A write or check tag at a port reset: FREE, with a generation step (R112, R130). -/
def BlockTag.portReset (g : BlockTag) : BlockTag :=
  ⟨.free, g.gen + 1, false⟩

/-- A writer at a port reset: every tag FREE, both lists empty, the settings kept (R112). -/
def Writer.portReset (w : Writer) : Writer :=
  { w with queue := [], retry := [], tags := w.tags.map BlockTag.portReset }

/-- The reader, the arbiter and the media record of T0 to T5 at a port reset (R112, R130, R132). The work list is emptied as its
legs fail. -/
def State.driveReset (s : State) (t : Target) : State :=
  match t with
  | .sink => s
  | .drive d =>
    let s := s.modReader d fun v => { v with retry := [], tags := v.tags.map BlockTag.portReset }
    let s := s.modSides d fun a => { a with turn := .write, count := 0, granted := false }
    (s.modDrive d fun v => { v with media := none }).modLink (.drive d) fun l => { l with tx := [] }

/-- A port reset of a target (R112); `was` says whether it was available before the event. -/
def State.targetPortReset (s : State) (t : Target) (was : Bool) : State :=
  let n := s.legsToLose t
  let s := (s.modWriter t Writer.portReset).driveReset t
  let s := if was then s.notify (.targetLost t n) else s
  (s.loseLegs t).announce

end Sys2Proof.Machine
end

