-- ==== Sys2Proof/Machine/DigestEvents.lean ====
section
/-! DEFINITION. DIGEST_START and DIGEST_COMPLETE: the events of the Digest Unit (chapter 4). -/

namespace Sys2Proof.Machine

/-- The head of the ready list becomes the block in flight and its slot's in-digest flag is set (R82, R41). -/
def digestStartEffect (s : State) : State :=
  match s.digest.ready with
  | [] => s
  | num :: rest =>
    (s.modDigest fun _ => { ready := rest, inFlight := some num }).modHeld num fun b => { b with inDigest := true }

/-- DIGEST_START: the unit is IDLE and the ready list is not empty (R82). R82 says when a start is taken, and not whether other events
may fall between the event that makes it possible and the start: the model takes it at its own command, with any commands before it
(DESIGN CHOICE, notes/assumptions/23.md). -/
def execDigestStart (s : State) : Host.Outcome State Fault Refusal :=
  s.event (s.digest.inFlight.isNone && !s.digest.ready.isEmpty) digestStartEffect

/-- The valid bytes of a slot's block (R76). -/
def digestBytesOf (length index : Nat) (data : List Byte) : List Byte :=
  data.take (validBytes length index)

/-- The slot's flags after its digest, the freeing condition, and the hand-over of the slot if it was freed (R84, step 2). -/
def State.digestedSlot (s : State) (num : Nat) : State :=
  State.handOn grantSteps
    ((s.modHeld num fun b => { b with digested := true, inDigest := false }).freeIfDone num)

/-- The block of the next index joins the ready list if it is HELD (R84, step 3; R81). -/
def State.joinNext (s : State) (mine : Slot → Bool) (next blocks : Nat) : State :=
  if next < blocks then
    match s.heldBlockAt mine next with
    | some x => s.makeReady x.num
    | none => s
  else s

/-- The completion of an INGEST block (R84). -/
def State.ingestCompleted (s : State) (x : Slot) (data : List Byte) : State :=
  match s.job? x.job with
  | none => s
  | some j =>
    let c := digestBlock j.ingest (digestBytesOf j.length x.index data)
    let s := (s.count x.job fun j => { j with ingest := c }).digestedSlot x.num
    let s := s.joinNext (Slot.ingestOf x.job) c.next j.blocks
    s.cascade (if c.next = j.blocks then [.ingestFinal x.job] else [])

/-- The completion of a CHECK block (R84, R128). -/
def State.checkCompleted (s : State) (x : Slot) (k : Nat) (data : List Byte) : State :=
  let r : LegRef := ⟨x.job, k⟩
  match s.job? x.job, s.leg? r with
  | some j, some l =>
    let c := digestBlock l.context (digestBytesOf j.length x.index data)
    let s := (s.countLeg r fun l => { l with context := c }).digestedSlot x.num
    let s := s.joinNext (Slot.checkOf r) c.next j.blocks
    match l.target with
    | .drive d => if c.next = j.blocks then cascadeOf (s.verifyFinal d r) else s
    | .sink => s
  | _, _ => s

/-- The digest of the block in flight completes: a withdrawn block only frees its slot (R88), any other advances its context
(R84). -/
def digestCompleteEffect (s : State) : State :=
  match s.digest.inFlight with
  | none => s
  | some num =>
    let s := s.modDigest fun u => { u with inFlight := none }
    match s.slot? num with
    | none => s
    | some x =>
      match x.held with
      | none => s
      | some b =>
        if b.withdrawn then (s.freeSlotNum num).close
        else
          match x.kind with
          | .ingest _ => (s.ingestCompleted x b.data).close
          | .check k => (s.checkCompleted x k b.data).close

/-- DIGEST_COMPLETE: the unit is BUSY (R82, R84, R88). -/
def execDigestComplete (s : State) : Host.Outcome State Fault Refusal :=
  s.event s.digest.inFlight.isSome digestCompleteEffect

end Sys2Proof.Machine
end

