-- ==== Sys2Proof/Machine/Operands.lean ====
section
/-! DEFINITION. Numbers and bytes, the codes of Tables 9-5 and 10-2, and the request bodies read by R171 and R174: fields in the
order of Table 10-1, each in the smallest of 1, 2, 4 or 8 bytes that holds its range, least significant byte first, an optional
field behind its presence byte. A body that does not read is malformed. -/

namespace Sys2Proof.Machine

/-! ## Numbers and bytes (R171) -/

/-- The number that bytes give, least significant first. -/
def leNat : List Byte → Nat
  | [] => 0
  | b :: rest => b.toNat + 256 * leNat rest

/-- A number in k bytes, least significant first. -/
def leBytes : Nat → Nat → List Byte
  | 0, _ => []
  | k + 1, n => BitVec.ofNat 8 n :: leBytes k (n / 256)

/-- A flag's byte (Table 10-2). -/
def flagByte (b : Bool) : Byte :=
  if b then 1 else 0

/-- Take a number of k bytes off the front. -/
def readNum (k : Nat) (b : List Byte) : Option (Nat × List Byte) :=
  if (b.take k).length = k then some (leNat (b.take k), b.drop k) else none

/-- Take an optional number off the front: a presence byte of 0 or 1, then k bytes that count only when it is 1. -/
def readOpt (k : Nat) (b : List Byte) : Option (Option Nat × List Byte) :=
  match readNum 1 b with
  | some (0, b) => (readNum k b).map fun x => (none, x.2)
  | some (1, b) => (readNum k b).map fun x => (some x.1, x.2)
  | _ => none

/-- Take an optional region off the front (chapter 10, after Table 10-2). -/
def readRegion (b : List Byte) : Option (Option Region × List Byte) :=
  match readNum 1 b with
  | some (0, b) => (readNum 16 b).map fun x => (none, x.2)
  | some (1, b) =>
    (readNum 8 b).bind fun x =>
      (readNum 8 x.2).bind fun y =>
        if x.1 < Config.addressLimit ∧ y.1 < Config.addressLimit then some (some ⟨x.1, y.1⟩, y.2) else none
  | _ => none

/-! ## Codes (Tables 9-5 and 10-2) -/

/-- A port's code. -/
def portCode : Port → Nat
  | .ingest i => i.val
  | .drive d => 8 + d.val
  | .control => 15

/-- A target's port code, 8 to 14. -/
def targetCode : Target → Nat
  | .drive d => 8 + d.val
  | .sink => 14

/-- The ingest port of a code 0 to 7. -/
def ingestOfCode (n : Nat) : Option (Fin 8) :=
  if h : n < 8 then some ⟨n, h⟩ else none

/-- The target of a code 8 to 14. -/
def targetOfCode (n : Nat) : Option Target :=
  if h : 8 ≤ n ∧ n < 14 then some (.drive ⟨n - 8, by omega⟩)
  else if n = 14 then some .sink
  else none

/-- A result's code. -/
def Result.code : Result → Nat
  | .ok => 0
  | .badRequest => 1
  | .tableFull => 2
  | .portDown => 3
  | .noMedia => 4
  | .wrongMedia => 5
  | .runRange => 6
  | .lengthMismatch => 7
  | .badLegs => 8
  | .noSuchJob => 9
  | .notActive => 10
  | .busy => 11
  | .regionOverlap => 12

/-- A job state's code; FREE is 0. -/
def JobState.code : JobState → Nat
  | .loaded => 1
  | .reading => 2
  | .settling => 3
  | .done => 4
  | .failed => 5
  | .aborted => 6

/-- A leg state's code. -/
def LegState.code : LegState → Nat
  | .idle => 0
  | .writing => 1
  | .written => 2
  | .verifying => 3
  | .good => 4
  | .mismatch => 5
  | .failed => 6
  | .deferred => 7
  | .abandoned => 8

/-- A job cause's code; absent is 0. -/
def jobCauseCode : Option JobCause → Nat
  | none => 0
  | some .sourceLost => 1
  | some .sourceReadError => 2
  | some .sourceMismatch => 3
  | some .insufficientCopies => 4
  | some .cancelled => 5

/-- A leg cause's code; absent is 0. -/
def legCauseCode : Option LegCause → Nat
  | none => 0
  | some .targetFull => 1
  | some .writeError => 2
  | some .verifyReadError => 3
  | some .lost => 4

/-- A lamp mode's code. -/
def LampMode.code : LampMode → Nat
  | .auto => 0
  | .off => 1
  | .green => 2
  | .red => 3
  | .greenBlink => 4
  | .redBlink => 5

/-- The lamp mode of a code; a code above 5 is none. -/
def lampModeOfCode : Nat → Option LampMode
  | 0 => some .auto
  | 1 => some .off
  | 2 => some .green
  | 3 => some .red
  | 4 => some .greenBlink
  | 5 => some .redBlink
  | _ => none

/-- A computed lamp state's code. -/
def LampState.code : LampState → Nat
  | .off => 0
  | .busy => 1
  | .safe => 2
  | .fault => 3

/-- A policy's code. -/
def Policy.code : Policy → Nat
  | .hold => 0
  | .shed => 1

/-- The policy of a code; a code above 1 is none. -/
def policyOfCode : Nat → Option Policy
  | 0 => some .hold
  | 1 => some .shed
  | _ => none

/-- The twelve request kinds (Table 9-5), by number 1 to 12. -/
def knownKind (k : Byte) : Bool :=
  decide (1 ≤ k.toNat) && decide (k.toNat ≤ 12)

/-! ## LOAD_JOB (Table 9-8) -/

/-- A LOAD_JOB body that is not malformed: the used leg entries as target port code and verify byte, the runs as given. -/
structure LoadBody where
  port : Fin 8
  legCount : Nat
  required : Nat
  expected : Option Digest
  identity : Identity
  length : Nat
  entries : List (Nat × Nat)
  runs : List Run
  deriving DecidableEq, Repr

/-- Leg entries of two bytes. -/
def legEntries : List Byte → List (Nat × Nat)
  | t :: v :: rest => (t.toNat, v.toNat) :: legEntries rest
  | _ => []

/-- Run entries of twelve bytes: the start block in eight, the count in four. -/
def runEntries : Nat → List Byte → List Run
  | 0, _ => []
  | k + 1, b => ⟨leNat (b.take 8), leNat ((b.drop 8).take 4)⟩ :: runEntries k (b.drop 12)

/-- A field of a body: k bytes from an offset. -/
def fieldAt (b : List Byte) (off k : Nat) : Nat :=
  leNat ((b.drop off).take k)

/-- Read a LOAD_JOB body; none when it is malformed or its ingest port byte is above 7 (Tables 9-8 and 10-3, check 1). -/
def readLoad (b : List Byte) : Option LoadBody :=
  let runCount := fieldAt b 2 1
  let legCount := fieldAt b 1 1
  let entries := legEntries ((b.drop 32).take (2 * min legCount 4))
  let runs := runEntries runCount (b.drop 40)
  if b.length = 40 + 12 * runCount ∧ runCount ≤ 16 ∧ fieldAt b 4 1 ≤ 1 ∧ fieldAt b 16 8 < Config.addressLimit ∧
      (entries.all fun e => decide (e.1 ≤ 15) && decide (e.2 ≤ 1)) ∧
      (runs.all fun r => decide (r.start < Config.addressLimit)) then
    (ingestOfCode (fieldAt b 0 1)).map fun i =>
      { port := i
        legCount := legCount
        required := fieldAt b 3 1
        expected := if fieldAt b 4 1 = 1 then some (BitVec.ofNat 64 (fieldAt b 24 8)) else none
        identity := BitVec.ofNat 64 (fieldAt b 8 8)
        length := fieldAt b 16 8
        entries := entries
        runs := runs }
  else none

/-! ## The other bodies (Table 10-1) -/

/-- A body of one handle; a byte above 63 is malformed (R174). -/
def readHandle (b : List Byte) : Option (Fin 64) :=
  match b with
  | [x] => if h : x.toNat < 64 then some ⟨x.toNat, h⟩ else none
  | _ => none

/-- A body of one port code; a code above 15 is malformed (R174). -/
def readPortCode (b : List Byte) : Option Nat :=
  match b with
  | [x] => if x.toNat ≤ 15 then some x.toNat else none
  | _ => none

/-- A SET_TARGET body that is not malformed. -/
structure TargetBody where
  code : Nat
  region : Option Region
  latch : Option Nat
  quota : Option Nat
  floor : Option Nat
  ceiling : Option Nat
  stallLimit : Option Nat
  timeout : Option Nat
  retryLimit : Option Nat
  writeWeight : Option Nat
  checkWeight : Option Nat
  policy : Option Policy
  deriving DecidableEq, Repr

/-- The policy field of a SET_TARGET: absent, or a code 0 or 1. -/
def readPolicy (b : List Byte) : Option (Option Policy × List Byte) :=
  (readOpt 1 b).bind fun x =>
    match x.1 with
    | none => some (none, x.2)
    | some c => (policyOfCode c).map fun p => (some p, x.2)

/-- Read a SET_TARGET body (Table 10-1, R174). -/
def readTarget (b : List Byte) : Option TargetBody := do
  let (code, b) ← readNum 1 b
  let (region, b) ← readRegion b
  let (latch, b) ← readOpt 2 b
  let (quota, b) ← readOpt 2 b
  let (floor, b) ← readOpt 2 b
  let (ceiling, b) ← readOpt 2 b
  let (stallLimit, b) ← readOpt 1 b
  let (timeout, b) ← readOpt 2 b
  let (retryLimit, b) ← readOpt 1 b
  let (writeWeight, b) ← readOpt 1 b
  let (checkWeight, b) ← readOpt 1 b
  let (policy, b) ← readPolicy b
  if b.isEmpty && decide (code ≤ 15) then
    some { code := code, region := region, latch := latch, quota := quota, floor := floor, ceiling := ceiling,
           stallLimit := stallLimit, timeout := timeout, retryLimit := retryLimit, writeWeight := writeWeight,
           checkWeight := checkWeight, policy := policy }
  else none

/-- A SET_INGEST body: port code, timeout, retry limit. -/
def readIngest (b : List Byte) : Option (Nat × Option Nat × Option Nat) := do
  let (code, b) ← readNum 1 b
  let (timeout, b) ← readOpt 2 b
  let (retryLimit, b) ← readOpt 1 b
  if b.isEmpty && decide (code ≤ 15) then some (code, timeout, retryLimit) else none

/-- A SET_LAMP body: port code and mode; a mode code above 5 is malformed (R179). -/
def readLamp (b : List Byte) : Option (Nat × LampMode) :=
  match b with
  | [c, m] => if c.toNat ≤ 15 then (lampModeOfCode m.toNat).map fun mode => (c.toNat, mode) else none
  | _ => none

/-- A SET_TICK body: p and b. -/
def readTick (b : List Byte) : Option (Option Nat × Option Nat) := do
  let (p, b) ← readOpt 1 b
  let (e, b) ← readOpt 1 b
  if b.isEmpty then some (p, e) else none

/-- A number clamped to its range (R72, R114, R132, R136, R140, R157). -/
def clamp (lo hi n : Nat) : Nat :=
  max lo (min n hi)

end Sys2Proof.Machine
end

