-- ==== Sys2Proof/WellFormed.lean ====
section
/-! DEFINITION. Which commands a Link Port can hand on: the operand checks of Tables 9-2 and 9-3 that the types of Syntax.lean do
not already make. A command outside them is a frame the port discards (R164), and its meaning does that. -/

namespace Sys2Proof

/-- A BLOCK DATA or CHECK DATA with OK carries 4,096 bytes (Table 9-3). -/
def ReadAnswer.wellFormed : ReadAnswer → Bool
  | .ok data => decide (data.length = Config.blockBytes)
  | .readError => true

/-- A MEDIA REPORT's capacity is at most 2^40 (Table 9-2). -/
def reportWellFormed : Option Media → Bool
  | some m => decide (m.capacity ≤ Config.addressLimit)
  | none => true

/-- A reception that a port can end (R162): a delimiter finds at most 4,116 bytes, and without one the frame is discarded at the byte
that makes it more than 4,116. -/
def RxFrame.wellFormed (rx : RxFrame) : Bool :=
  match rx.ended with
  | .endDelimiter | .startDelimiter => decide (rx.bytes.length ≤ Config.frameLimit)
  | .noDelimiter => decide (rx.bytes.length = Config.frameLimit + 1)

/-- The operand ranges of R162 and Tables 9-2 and 9-3. -/
def Instr.wellFormed : Instr → Bool
  | .blockData _ _ _ a => a.wellFormed
  | .checkData _ _ _ a => a.wellFormed
  | .ingestMediaReport _ r => reportWellFormed r
  | .targetMediaReport _ r => reportWellFormed r
  | .request _ _ body => decide (body.length ≤ Config.blockBytes)
  | .frameDiscard _ rx => rx.wellFormed
  | .resetNLow | .resetNHigh | .linkUp _ | .linkDown _ | .writeDone _ _ _ _ | .sinkDone _ _ _ => true
  | .loadJob | .cancelJob | .releaseJob | .queryJob | .setTarget | .queryTarget | .setIngest => true
  | .setLamp | .setTick | .queryPart | .resetPort | .resetPart | .unknownRequest | .tick => true
  | .readTagExpiry _ _ | .writeTagExpiry _ _ | .checkTagExpiry _ _ | .windowEnd _ => true
  | .digestStart | .digestComplete | .targetTxEnd _ | .cTxEnd => true

end Sys2Proof
end

