-- ==== Sys2Proof/Machine/Frames.lean ====
section
/-! DEFINITION. The Offload Link's frames (chapter 9): the check (R163), the layout of every frame the part sends (R171, Tables 9-4,
9-6, 9-11), and the judgement a Link Port makes on a received frame (R162, R164, Tables 9-2 and 9-3), which gives the command
the frame stands for. -/

namespace Sys2Proof.Machine

/-! ## The frame check (R163) -/

/-- One bit into the check register, which is kept with its first-sent bit lowest: the generator 0x04C11DB7 is then 0xEDB88320. -/
def checkBit (r : BitVec 32) (bit : Bool) : BitVec 32 :=
  if r.getLsbD 0 != bit then (r >>> 1) ^^^ 0xEDB88320#32 else r >>> 1

/-- One byte into the check register, least significant bit first. -/
def checkByte (r : BitVec 32) (b : Byte) : BitVec 32 :=
  [0, 1, 2, 3, 4, 5, 6, 7].foldl (fun r k => checkBit r (b.getLsbD k)) r

/-- The frame check of header and payload bytes (R163). -/
def frameCheck (bytes : List Byte) : BitVec 32 :=
  ~~~(bytes.foldl checkByte 0xFFFFFFFF#32)

/-! ## Frames the part sends -/

/-- A 16-byte header (Table 9-4): kind, tag, generation, status or result, payload length, sequence number, bytes 8 to 15. -/
def headerBytes (kind tag gen status payload seq : Nat) (tail : List Byte) : List Byte :=
  leBytes 1 kind ++ leBytes 1 tag ++ leBytes 1 gen ++ leBytes 1 status ++ leBytes 2 payload ++ leBytes 2 seq ++
    (tail ++ leBytes 8 0).take 8

/-- A media record in a body: identity and capacity in 8 bytes each, zero when absent. -/
def mediaBytes : Option Media → List Byte
  | some m => leBytes 8 m.identity.toNat ++ leBytes 8 m.capacity
  | none => leBytes 16 0

/-- A notice's kind code (Table 9-5). -/
def Notice.kind : Notice → Nat
  | .jobFinished _ _ _ _ _ => 1
  | .mediaChanged _ _ => 2
  | .targetSlow _ _ _ => 3
  | .targetRecovered _ _ => 4
  | .targetLost _ _ => 5
  | .shed _ _ => 6

/-- A notice's body (Table 9-11). -/
def Notice.bodyBytes : Notice → List Byte
  | .jobFinished h o c g i =>
    leBytes 1 h.val ++ leBytes 1 o.code ++ leBytes 1 (jobCauseCode c) ++ leBytes 1 g ++ leBytes 1 i.val ++ leBytes 3 0
  | .mediaChanged p m => leBytes 1 (portCode p) ++ [flagByte m.isSome] ++ leBytes 6 0 ++ mediaBytes m
  | .targetSlow t streak rate => leBytes 1 (targetCode t) ++ leBytes 1 streak ++ leBytes 2 0 ++ leBytes 4 rate
  | .targetRecovered t rate => leBytes 1 (targetCode t) ++ leBytes 3 0 ++ leBytes 4 rate
  | .targetLost t n => leBytes 1 (targetCode t) ++ leBytes 1 n ++ leBytes 6 0
  | .shed t n => leBytes 1 (targetCode t) ++ leBytes 1 n ++ leBytes 6 0

/-- The header and payload bytes of a frame the part sends (Tables 9-4 and 9-6; R171 for RESPONSE and NOTICE). -/
def TxFrame.content : TxFrame → List Byte
  | .blockRead k g a => headerBytes 0x01 k.val g.toNat 0 0 0 (leBytes 5 a)
  | .blockWrite k g a d => headerBytes 0x03 k.val g.toNat 0 d.length 0 (leBytes 5 a) ++ d
  | .checkRead k g a => headerBytes 0x05 k.val g.toNat 0 0 0 (leBytes 5 a)
  | .sinkWrite k g h v i d =>
    headerBytes 0x0B k.val g.toNat 0 d.length 0 (leBytes 1 h.val ++ leBytes 1 0 ++ leBytes 2 v ++ leBytes 4 i) ++ d
  | .response r => headerBytes 0x09 0 0 r.result.code r.body.length r.seq.toNat [r.kind] ++ r.body
  | .notice n => headerBytes 0x0A 0 0 0 n.bodyBytes.length 0 (leBytes 1 n.kind) ++ n.bodyBytes

/-- A frame between its delimiters: its header and payload bytes, then the check, least significant byte first (R163). -/
def withCheck (content : List Byte) : List Byte :=
  content ++ leBytes 4 (frameCheck content).toNat

/-- The bytes of a frame the part sends, between its delimiters. -/
def TxFrame.bytes (f : TxFrame) : List Byte :=
  withCheck f.content

/-! ## Frames a Link Port receives -/

/-- The port's count of the bytes since the start delimiter has passed 4,116 (R162). -/
def frameOverruns (rx : RxFrame) : Bool :=
  decide (Config.frameLimit < rx.bytes.length)

/-- The port has ended the frame (R162): at the byte that made its count pass 4,116, or at a delimiter. With neither the frame is still in
progress. -/
def frameOver (rx : RxFrame) : Bool :=
  frameOverruns rx || decide (rx.ended ≠ .noDelimiter)

/-- Well delimited, and with a check that agrees (R162, R163). -/
def frameSound (rx : RxFrame) : Bool :=
  let p := fieldAt rx.bytes 4 2
  !frameOverruns rx && decide (rx.ended = .endDelimiter) && decide (20 ≤ rx.bytes.length) && decide (p ≤ Config.blockBytes) &&
    decide (rx.bytes.length = 16 + p + 4) &&
    decide ((frameCheck (rx.bytes.take (16 + p))).toNat = fieldAt rx.bytes (16 + p) 4)

/-- A BLOCK DATA or CHECK DATA's answer, by status and payload (Table 9-3). -/
def answerOf (status : Nat) (payload : List Byte) : Option ReadAnswer :=
  match status with
  | 0 => if payload.length = Config.blockBytes then some (.ok payload) else none
  | 1 => if payload = [] then some .readError else none
  | _ => none

/-- A MEDIA REPORT's record (Tables 9-2 and 9-7): with present 0 the other bytes are ignored. -/
def reportOf (payload : List Byte) : Option (Option Media) :=
  if payload.length = 24 then
    match fieldAt payload 0 1 with
    | 0 => some none
    | 1 =>
      if fieldAt payload 16 8 ≤ Config.addressLimit then
        some (some ⟨BitVec.ofNat 64 (fieldAt payload 8 8), fieldAt payload 16 8⟩)
      else none
    | _ => none
  else none

/-- A WRITE DONE's status, with an empty payload (Table 9-3). -/
def writeStatusOf (status : Nat) (payload : List Byte) : Option WriteStatus :=
  if payload = [] then
    match status with
    | 0 => some .ok
    | 2 => some .mediaError
    | 3 => some .noSpace
    | _ => none
  else none

/-- A SINK DONE's status, with an empty payload (Table 9-3). -/
def sinkStatusOf (status : Nat) (payload : List Byte) : Option SinkStatus :=
  if payload = [] then
    match status with
    | 0 => some .ok
    | 2 => some .mediaError
    | _ => none
  else none

/-- The command a received frame stands for at a port, or none where any condition of Table 9-2 holds; `unanswered` is C's count
of unanswered requests (R164, R169). -/
def commandOf (p : Port) (unanswered : Nat) (rx : RxFrame) : Option Instr :=
  if frameSound rx then
    let tag := BitVec.ofNat 8 (fieldAt rx.bytes 1 1)
    let gen := BitVec.ofNat 4 (fieldAt rx.bytes 2 1)
    let status := fieldAt rx.bytes 3 1
    let payload := (rx.bytes.drop 16).take (fieldAt rx.bytes 4 2)
    match p, fieldAt rx.bytes 0 1 with
    | .ingest i, 0x02 => (answerOf status payload).map fun a => .blockData i tag gen a
    | .ingest i, 0x07 => (reportOf payload).map fun m => .ingestMediaReport i m
    | .drive d, 0x04 => (writeStatusOf status payload).map fun x => .writeDone d tag gen x
    | .drive d, 0x06 => (answerOf status payload).map fun a => .checkData d tag gen a
    | .drive d, 0x07 => (reportOf payload).map fun m => .targetMediaReport d m
    | .control, 0x08 =>
      if unanswered < Config.requestLimit then
        some (.request (BitVec.ofNat 16 (fieldAt rx.bytes 6 2)) (BitVec.ofNat 8 (fieldAt rx.bytes 8 1)) payload)
      else none
    | .control, 0x0C => (sinkStatusOf status payload).map fun x => .sinkDone tag gen x
    | _, _ => none
  else none

/-! ## The frames other nodes send -/

/-- The status byte of an answer to a read (Table 9-5). -/
def answerStatus : ReadAnswer → Nat
  | .ok _ => 0
  | .readError => 1

/-- The payload of an answer to a read (Table 9-3). -/
def answerPayload : ReadAnswer → List Byte
  | .ok data => data
  | .readError => []

/-- The status byte of a WRITE DONE (Table 9-5). -/
def writeStatusCode : WriteStatus → Nat
  | .ok => 0
  | .mediaError => 2
  | .noSpace => 3

/-- The status byte of a SINK DONE (Table 9-5). -/
def sinkStatusCode : SinkStatus → Nat
  | .ok => 0
  | .mediaError => 2

/-- The payload of a MEDIA REPORT (Table 9-7). -/
def reportBytes (report : Option Media) : List Byte :=
  [flagByte report.isSome] ++ leBytes 7 0 ++ mediaBytes report

/-- The port at which a frame arrives and its bytes, for a command that is a frame's arrival (Tables 9-4, 9-6 and 9-7). -/
def frameFor : Instr → Option (Port × List Byte)
  | .blockData i tag gen a =>
    some (.ingest i, withCheck (headerBytes 0x02 tag.toNat gen.toNat (answerStatus a) (answerPayload a).length 0 [] ++ answerPayload a))
  | .ingestMediaReport i m => some (.ingest i, withCheck (headerBytes 0x07 0 0 0 24 0 [] ++ reportBytes m))
  | .targetMediaReport d m => some (.drive d, withCheck (headerBytes 0x07 0 0 0 24 0 [] ++ reportBytes m))
  | .writeDone d tag gen x => some (.drive d, withCheck (headerBytes 0x04 tag.toNat gen.toNat (writeStatusCode x) 0 0 []))
  | .checkData d tag gen a =>
    some (.drive d, withCheck (headerBytes 0x06 tag.toNat gen.toNat (answerStatus a) (answerPayload a).length 0 [] ++ answerPayload a))
  | .sinkDone tag gen x => some (.control, withCheck (headerBytes 0x0C tag.toNat gen.toNat (sinkStatusCode x) 0 0 []))
  | .request seq kind body => some (.control, withCheck (headerBytes 0x08 0 0 0 body.length seq.toNat [kind] ++ body))
  | .resetNLow | .resetNHigh | .linkUp _ | .linkDown _ | .frameDiscard _ _ => none
  | .loadJob | .cancelJob | .releaseJob | .queryJob | .setTarget | .queryTarget | .setIngest => none
  | .setLamp | .setTick | .queryPart | .resetPort | .resetPart | .unknownRequest | .tick => none
  | .readTagExpiry _ _ | .writeTagExpiry _ _ | .checkTagExpiry _ _ | .windowEnd _ => none
  | .digestStart | .digestComplete | .targetTxEnd _ | .cTxEnd => none

end Sys2Proof.Machine
end

