-- ==== Sys2Proof/Machine/LinkEvents.lean ====
section
/-! DEFINITION. RESET_N_LOW, RESET_N_HIGH, LINK_UP, LINK_DOWN and FRAME_DISCARD. -/

namespace Sys2Proof.Machine

/-- RESET_N_LOW: every block is in full reset, and stays there while the pin is held low (R28, Table 0-6). -/
def execResetNLow (s : State) : Host.Outcome State Fault Refusal :=
  .next { s.fullReset with resetN := false }

/-- RESET_N_HIGH: the part leaves full reset, with the prescaler starting from zero (R135). -/
def execResetNHigh (s : State) : Host.Outcome State Fault Refusal :=
  .next (if s.resetN then s else { s.fullReset with resetN := true })

/-- The link of a port has trained (R161): UP, and the receiver hunts for a start delimiter (R165). -/
def linkUpEffect (p : Port) (s : State) : State :=
  (s.modLink p fun l => { l with up := true, hunting := true }).close

/-- LINK_UP (R161, R51, R93). -/
def execLinkUp (p : Port) (s : State) : Host.Outcome State Fault Refusal :=
  s.event (!s.linkUp p) (linkUpEffect p)

/-- C's clean-up when its link goes DOWN: no request is unanswered, the response and request queues are empty, the transmitter is
FREE with its pointer kept (R170, R172). -/
def State.cleanControl (s : State) : State :=
  (s.modControl fun c => { c with unanswered := 0, responses := [], sending := none }).modHandler fun q => { q with requests := [] }

/-- The link of a port is lost (R161): DOWN, frames not yet sent dropped (R167); then the port reset of an ingest port (R69) or a
target (R112), or C's clean-up (R170) with T6's port reset. A RESET_PART that waits for its response to leave becomes the full
reset (R183). -/
def linkDownEffect (p : Port) (s : State) : State :=
  let down := s.modLink p fun l => { l with up := false, tx := [] }
  match p with
  | .ingest i => (down.ingestPortReset i).close
  | .drive d => (down.targetPortReset (.drive d) (s.available (.drive d))).close
  | .control =>
    if s.handler.taking then s.fullReset else (down.cleanControl.targetPortReset .sink (s.available .sink)).close

/-- LINK_DOWN (R161). -/
def execLinkDown (p : Port) (s : State) : Host.Outcome State Fault Refusal :=
  s.event (s.linkUp p) (linkDownEffect p)

/-- FRAME_DISCARD: a received frame that any condition of Table 9-2 holds for is dropped (R164). Bytes that no delimiter has followed are
such a frame once the port has counted more than 4,116 of them, and till then a frame in progress, of which nothing is known (R162). -/
def execFrameDiscard (p : Port) (rx : RxFrame) (s : State) : Host.Outcome State Fault Refusal :=
  s.event (s.linkUp p && frameOver rx && (commandOf p s.control.unanswered rx).isNone) fun s => s.discard p rx.ended

end Sys2Proof.Machine
end

