-- ==== Sys2Proof/Machine/Reports.lean ====
section
/-! DEFINITION. The OK result bodies of the requests that report (Tables 9-9, 9-10 and 10-1, R178 to R181), each field in the
encoding of R171. -/

namespace Sys2Proof.Machine

/-! ## Pieces -/

/-- An optional number behind its presence byte. -/
def optBytes (k : Nat) : Option Nat → List Byte
  | some n => [1] ++ leBytes k n
  | none => [0] ++ leBytes k 0

/-- A region: a presence byte, then start and end in 8 bytes each. -/
def regionBytes : Option Region → List Byte
  | some r => [1] ++ leBytes 8 r.first ++ leBytes 8 r.last
  | none => leBytes 17 0

/-- A digest in 8 bytes, zero when absent. -/
def digestBytes : Option Digest → List Byte
  | some g => leBytes 8 g.toNat
  | none => leBytes 8 0

/-- A timestamp in 4 bytes, zero when absent. -/
def stampBytes : Option Tick → List Byte
  | some t => leBytes 4 t.toNat
  | none => leBytes 4 0

/-- A media record in QUERY_PART: present flag, identity, capacity. -/
def recordBytes : Option Media → List Byte
  | some m => [1] ++ leBytes 8 m.identity.toNat ++ leBytes 8 m.capacity
  | none => leBytes 17 0

/-- How many tags of a table a test accepts, in one byte. -/
def tagCount {n : Nat} (tags : Vector BlockTag n) (test : BlockTag → Bool) : List Byte :=
  leBytes 1 (tags.toList.filter test).length

/-- Is the tag FREE? -/
def BlockTag.isFree (g : BlockTag) : Bool :=
  decide (g.state = .free)

/-- Is the tag BUSY sent? -/
def BlockTag.isSent (g : BlockTag) : Bool :=
  match g.state with
  | .sent _ _ => true
  | .free | .waiting _ | .abandoned _ => false

/-- Is the tag BUSY waiting? -/
def BlockTag.isWaiting (g : BlockTag) : Bool :=
  match g.state with
  | .waiting _ => true
  | .free | .sent _ _ | .abandoned _ => false

/-- Is the tag ABANDONED? -/
def BlockTag.isAbandoned (g : BlockTag) : Bool :=
  match g.state with
  | .abandoned _ => true
  | .free | .sent _ _ | .waiting _ => false

/-- The counts of tags FREE, BUSY sent, BUSY waiting and ABANDONED (R115, R133). -/
def tagCounts {n : Nat} (tags : Vector BlockTag n) : List Byte :=
  tagCount tags BlockTag.isFree ++ tagCount tags BlockTag.isSent ++ tagCount tags BlockTag.isWaiting ++
    tagCount tags BlockTag.isAbandoned

/-! ## QUERY_JOB (Tables 9-9 and 9-10) -/

/-- The job part, 96 bytes. -/
def jobBytes (h : Fin 64) (j : Job) : List Byte :=
  leBytes 1 h.val ++ leBytes 1 j.state.code ++ leBytes 1 j.port.val ++ leBytes 1 (jobCauseCode j.cause) ++
    leBytes 1 j.legs.length ++ leBytes 1 j.runs.length ++ leBytes 1 j.required ++ [flagByte j.expected.isSome] ++
    leBytes 8 j.identity.toNat ++ leBytes 8 j.length ++ leBytes 4 j.blocks ++
    leBytes 4 j.requested ++ leBytes 4 j.arrived ++ leBytes 4 j.digested ++ digestBytes j.expected ++
    leBytes 4 j.ingest.a ++ leBytes 4 j.ingest.b ++ leBytes 4 j.ingest.next ++
    [flagByte j.ingest.final.isSome, flagByte j.session, flagByte j.startedAt.isSome, flagByte j.arrivedAllAt.isSome,
      flagByte j.finishedAt.isSome] ++ leBytes 3 0 ++ digestBytes j.ingest.final ++
    leBytes 4 j.loadedAt.toNat ++ stampBytes j.startedAt ++ stampBytes j.arrivedAllAt ++ stampBytes j.finishedAt ++ leBytes 4 0

/-- A leg part, 64 bytes. -/
def legBytes (l : Leg) : List Byte :=
  leBytes 1 (targetCode l.target) ++ [flagByte l.verify] ++ leBytes 1 l.state.code ++ leBytes 1 (legCauseCode l.cause) ++
    [flagByte l.base.isSome, flagByte l.context.final.isSome, flagByte l.written.isSome, flagByte l.finished.isSome] ++
    leBytes 8 (l.base.getD 0) ++ leBytes 4 l.sent ++ leBytes 4 l.acked ++
    leBytes 4 l.context.a ++ leBytes 4 l.context.b ++ leBytes 4 l.context.next ++ leBytes 4 l.checked ++
    digestBytes l.context.final ++ stampBytes l.written ++ stampBytes l.finished ++ leBytes 8 0

/-- A run entry, 12 bytes. -/
def runBytes (r : Run) : List Byte :=
  leBytes 8 r.start ++ leBytes 4 r.count

/-- The QUERY_JOB body: job part, leg parts in leg order, run list (R177). -/
def queryJobBytes (h : Fin 64) (j : Job) : List Byte :=
  jobBytes h j ++ j.legs.flatMap legBytes ++ j.runs.flatMap runBytes

/-! ## SET_TARGET and QUERY_TARGET (R178, R180) -/

/-- The drive fields of a target; T6 reports absent regions and pointer 0 (R115). -/
def State.driveOf (s : State) : Target → Drive
  | .drive d => s.drives[d.val]
  | .sink => Drive.initial

/-- The verify fields of a target; T6 reports an empty list, no active leg and eight FREE tags (R133). -/
def State.readerOf (s : State) : Target → VerifyReader
  | .drive d => s.readers[d.val]
  | .sink => VerifyReader.initial

/-- The arbiter's weights of a target; T6 reports 3 and 1 (R133). -/
def State.sidesOf (s : State) : Target → TargetArbiter
  | .drive d => s.sides[d.val]
  | .sink => TargetArbiter.initial

/-- The SET_TARGET result body, with the region disposition's code (Table 10-2). -/
def State.setTargetBytes (s : State) (t : Target) (disposition : Nat) : List Byte :=
  let v := s.driveOf t
  let w := s.writer t
  let q := s.window t
  leBytes 1 (targetCode t) ++ leBytes 1 disposition ++ regionBytes v.current ++ regionBytes v.staged ++ leBytes 2 q.latch ++
    leBytes 2 q.staged.quota ++ leBytes 2 q.staged.floor ++ leBytes 2 q.staged.ceiling ++ leBytes 1 q.staged.stallLimit ++
    leBytes 2 w.timeout ++ leBytes 1 w.retryLimit ++ leBytes 1 (s.sidesOf t).writeWeight ++
    leBytes 1 (s.sidesOf t).checkWeight ++ leBytes 1 w.policy.code

/-- The QUERY_TARGET result body (R180). -/
def State.queryTargetBytes (s : State) (t : Target) : List Byte :=
  let v := s.driveOf t
  let w := s.writer t
  let q := s.window t
  let r := s.readerOf t
  leBytes 1 (targetCode t) ++ [flagByte (s.linkUp (targetPort t))] ++
    regionBytes v.current ++ regionBytes v.staged ++ leBytes 8 v.pointer ++ leBytes 2 w.timeout ++ leBytes 1 w.retryLimit ++
    leBytes 1 w.policy.code ++ leBytes 2 w.queue.length ++ leBytes 1 w.retry.length ++ tagCounts w.tags ++
    leBytes 2 (s.occupancy t) ++ leBytes 2 q.counter ++ leBytes 2 q.latch ++
    leBytes 2 q.effective.quota ++ leBytes 2 q.staged.quota ++ leBytes 2 q.effective.floor ++ leBytes 2 q.staged.floor ++
    leBytes 2 q.effective.ceiling ++ leBytes 2 q.staged.ceiling ++
    leBytes 1 q.effective.stallLimit ++ leBytes 1 q.staged.stallLimit ++
    leBytes 4 q.issued ++ leBytes 4 q.acked ++ [flagByte q.hadWork] ++ leBytes 4 q.rate ++ leBytes 1 q.streak ++
    [flagByte q.slow] ++ leBytes 1 r.work.length ++ optBytes 1 (r.work.head?.map fun x => x.job.val) ++
    leBytes 1 r.retry.length ++ tagCounts r.tags ++
    leBytes 1 (s.sidesOf t).writeWeight ++ leBytes 1 (s.sidesOf t).checkWeight

/-! ## QUERY_PART (R181) -/

/-- The fifteen ports in port code order. -/
def allPorts : List Port :=
  allIngest.map .ingest ++ allDrives.map .drive ++ [.control]

/-- The number of Job Table entries in each state, FREE first (R27). -/
def State.jobCounts (s : State) : List Nat :=
  (s.jobs.toList.filter Option.isNone).length ::
    [JobState.loaded, .reading, .settling, .done, .failed, .aborted].map fun x =>
      (s.jobs.toList.filter fun e => decide (e.map Job.state = some x)).length

/-- The QUERY_PART body, before its flags are cleared (R181). -/
def State.queryPartBytes (s : State) : List Byte :=
  [flagByte s.nodeId0, flagByte s.nodeId1] ++ leBytes 4 s.timer.tick.toNat ++ leBytes 1 s.timer.p ++
    optBytes 1 s.timer.stagedP ++ leBytes 1 s.blink.exponent ++ [flagByte s.blink.phase] ++
    allPorts.map (fun p => flagByte (s.linkUp p)) ++
    allIngest.flatMap (fun i => recordBytes (s.ingest[i.val]).media) ++
    allDrives.flatMap (fun d => recordBytes (s.drives[d.val]).media) ++
    leBytes 2 s.freeSlots ++ leBytes 2 s.reservedSlots ++ leBytes 2 s.heldSlots ++
    s.jobCounts.flatMap (leBytes 1) ++
    allIngest.flatMap (fun i => leBytes 1 (s.lamps[i.val]).mode.code ++ leBytes 1 (s.lamps[i.val]).computed.code) ++
    leBytes 1 s.handler.notices.length ++ [flagByte s.handler.noticeLost] ++
    allPorts.map fun p => flagByte (s.link p).discard

end Sys2Proof.Machine
end

