-- ==== Sys2Proof/Machine/Requests.lean ====
section
/-! DEFINITION. REQUEST, the takings of the twelve requests and of an unknown one, and C_TX_END: the events of the Request Handler and
of C's transmitter (chapters 9 and 10). -/

namespace Sys2Proof.Machine

/-! ## Acceptance (R169) -/

/-- A REQUEST is accepted while fewer than eight are unanswered; the ninth is discarded (R169, R164). -/
def requestEffect (seq : BitVec 16) (kind : Byte) (body : List Byte) (s : State) : State :=
  if s.control.unanswered < Config.requestLimit then
    ((s.received .control).modControl fun c => { c with unanswered := c.unanswered + 1 }).modHandler fun q =>
      { q with requests := q.requests ++ [⟨seq, kind, body⟩] }
  else s.discard .control .endDelimiter

/-- REQUEST. A payload above 4,096 bytes makes a frame the Link Port discards (R162, R164). -/
def execRequest (seq : BitVec 16) (kind : Byte) (body : List Byte) (s : State) : Host.Outcome State Fault Refusal :=
  s.event (s.linkUp .control) fun s =>
    if body.length ≤ Config.blockBytes then requestEffect seq kind body s else s.discard .control .endDelimiter

/-! ## Taking (R172, R173) -/

/-- What a request's owner gives back: the state, the result code and the result body. -/
structure Answer where
  state : State
  result : Result
  body : List Byte

/-- A refusal: nothing changes, no body (R173). -/
def State.refuse (s : State) (r : Result) : Answer :=
  ⟨s, r, []⟩

/-- An application without a result body. -/
def answerOk (s : State) : Answer :=
  ⟨s, .ok, []⟩

/-- The request the handler can take: it is IDLE and the head's kind is the one wanted (R172). -/
def State.canTake (s : State) (wanted : Byte → Bool) : Bool :=
  match s.handler.taking, s.handler.requests with
  | false, r :: _ => wanted r.kind
  | _, _ => false

/-- The taking of the head request: it leaves the queue, its owner applies it, and its RESPONSE joins the response queue, all in
one event (R172, R173). -/
def State.take (s : State) (apply : List Byte → State → Answer) : State :=
  match s.handler.requests with
  | [] => s
  | r :: rest =>
    let a := apply r.body (s.modHandler fun q => { q with requests := rest })
    a.state.respond ⟨r.seq, r.kind, a.result, a.body⟩

/-- A request's kind byte (Table 9-5). -/
def isKind (k : Byte) (x : Byte) : Bool :=
  x == k

/-! ## LOAD_JOB (R175, R176, R9) -/

/-- The lowest FREE entry (R1). -/
def State.freeEntry (s : State) : Option (Fin 64) :=
  allHandles.find? fun h => (s.job? h).isNone

/-- A used leg entry names a drive whose link is DOWN (check 3). -/
def State.entryDown (s : State) (e : Nat × Nat) : Bool :=
  match targetOfCode e.1 with
  | some (.drive d) => !s.linkUp (.drive d)
  | some .sink | none => false

/-- A run of count 1 or more reaches the capacity (check 6). -/
def runBeyond (capacity : Nat) (r : Run) : Bool :=
  decide (1 ≤ r.count) && decide (capacity ≤ r.start + r.count - 1)

/-- The counts of a run list. -/
def runTotal (runs : List Run) : Nat :=
  (runs.map Run.count).sum

/-- The run counts do not give the file's blocks (check 7). -/
def LoadBody.lengthWrong (b : LoadBody) : Bool :=
  (b.runs.any fun r => decide (r.count = 0)) || decide (runTotal b.runs ≠ blockCount b.length) ||
    (b.runs.isEmpty && decide (b.length ≠ 0))

/-- The legs break a constraint of R4 (check 8). -/
def LoadBody.legsWrong (b : LoadBody) : Bool :=
  decide (b.legCount = 0) || decide (4 < b.legCount) || (b.entries.any fun e => (targetOfCode e.1).isNone) ||
    decide (¬ (b.entries.map Prod.fst).Nodup) || (b.entries.any fun e => decide (targetOfCode e.1 = some .sink) && decide (e.2 = 1)) ||
    decide (b.required = 0) || decide (b.legCount < b.required)

/-- Checks 2 to 8 of LOAD_JOB, in order: the first that fails gives the result (Table 10-3). -/
def State.loadCheck (s : State) (b : LoadBody) : Result :=
  if s.freeEntry.isNone then .tableFull
  else if !s.linkUp (.ingest b.port) || b.entries.any s.entryDown then .portDown
  else
    match (s.ingest[b.port.val]).media with
    | none => .noMedia
    | some m =>
      if m.identity ≠ b.identity then .wrongMedia
      else if b.runs.any (runBeyond m.capacity) then .runRange
      else if b.lengthWrong then .lengthMismatch
      else if b.legsWrong then .badLegs
      else .ok

/-- A leg as LOAD_JOB sets it (Table 1-3). -/
def newLeg (t : Target) (verify : Bool) : Leg :=
  { target := t, verify := verify, state := .idle, base := none, sent := 0, acked := 0, context := DigestContext.initial,
    checked := 0, written := none, finished := none, cause := none }

/-- The legs of a body's used entries. -/
def LoadBody.legs (b : LoadBody) : List Leg :=
  b.entries.filterMap fun e => (targetOfCode e.1).map fun t => newLeg t (decide (e.2 = 1))

/-- The record a LOAD_JOB body makes (Table 1-1). -/
def LoadBody.job (b : LoadBody) (now : Tick) : Job :=
  { state := .loaded, port := b.port, identity := b.identity, length := b.length, runs := b.runs, required := b.required,
    expected := b.expected, legs := b.legs, requested := 0, arrived := 0, ingest := DigestContext.initial, loadedAt := now,
    startedAt := none, arrivedAllAt := none, finishedAt := none, session := true, cause := none, announced := false }

/-- Load a job into an entry: the record, the session's live count, and the tail of the port's line-up (R9). -/
def State.loadInto (s : State) (h : Fin 64) (b : LoadBody) : State :=
  let s := (s.setJob h (some (b.job s.now))).modSession b.port fun c => { c with live := c.live + 1 }
  s.modIngest b.port fun p => { p with lineUp := p.lineUp ++ [h] }

/-- LOAD_JOB's application: a load is followed by the start test of its port (R9, R10). -/
def applyLoadJob (body : List Byte) (s : State) : Answer :=
  match readLoad body with
  | none => s.refuse .badRequest
  | some b =>
    match s.loadCheck b, s.freeEntry with
    | .ok, some h => ⟨(s.loadInto h b).cascade [.start b.port], .ok, leBytes 1 h.val⟩
    | r, _ => s.refuse r

/-- LOAD_JOB (R175). -/
def execLoadJob (s : State) : Host.Outcome State Fault Refusal :=
  s.event (s.canTake (isKind 1)) fun s => (s.take applyLoadJob).close

/-! ## CANCEL_JOB, RELEASE_JOB, QUERY_JOB (R177, R25, R26) -/

/-- Cancel a LOADED job: it leaves its line-up and ends without teardown (R25, R52). -/
def State.cancelLoaded (s : State) (h : Fin 64) (i : Fin 8) : State :=
  (s.endLoaded .aborted .cancelled h).modIngest i fun p => { p with lineUp := p.lineUp.filter fun x => x != h }

/-- CANCEL_JOB's application (R25). -/
def applyCancelJob (body : List Byte) (s : State) : Answer :=
  match readHandle body with
  | none => s.refuse .badRequest
  | some h =>
    match s.job? h with
    | none => s.refuse .noSuchJob
    | some j =>
      match j.state with
      | .loaded => answerOk ((s.cancelLoaded h j.port).cascade [.start j.port])
      | .reading | .settling => answerOk (cascadeOf (s.tearJob h .aborted .cancelled))
      | .done | .failed | .aborted => s.refuse .notActive

/-- CANCEL_JOB (R25). -/
def execCancelJob (s : State) : Host.Outcome State Fault Refusal :=
  s.event (s.canTake (isKind 2)) fun s => (s.take applyCancelJob).close

/-- Release a terminal job: the entry is FREE, and unreleased-failed falls for a FAILED job of the session (R26). -/
def State.release (s : State) (h : Fin 64) (j : Job) : State :=
  let s := s.setJob h none
  if j.state = .failed ∧ j.session = true then s.modSession j.port fun c => { c with failed := c.failed - 1 } else s

/-- RELEASE_JOB's application (R26). -/
def applyReleaseJob (body : List Byte) (s : State) : Answer :=
  match readHandle body with
  | none => s.refuse .badRequest
  | some h =>
    match s.job? h with
    | none => s.refuse .noSuchJob
    | some j => if j.state.terminal then answerOk (s.release h j) else s.refuse .busy

/-- RELEASE_JOB (R26); the lamp is recomputed in the event (R155). -/
def execReleaseJob (s : State) : Host.Outcome State Fault Refusal :=
  s.event (s.canTake (isKind 3)) fun s => (s.take applyReleaseJob).relamp.transmit

/-- QUERY_JOB's application (R177). -/
def applyQueryJob (body : List Byte) (s : State) : Answer :=
  match readHandle body with
  | none => s.refuse .badRequest
  | some h =>
    match s.job? h with
    | none => s.refuse .noSuchJob
    | some j => ⟨s, .ok, queryJobBytes h j⟩

/-- QUERY_JOB (R177). -/
def execQueryJob (s : State) : Host.Outcome State Fault Refusal :=
  s.event (s.canTake (isKind 4)) fun s => (s.take applyQueryJob).transmit

/-! ## SET_TARGET and QUERY_TARGET (R178, R180, R94, R114, R132, R140) -/

/-- Do two regions share an address? -/
def Region.meets (r q : Region) : Bool :=
  decide (max r.first q.first ≤ min r.last q.last)

/-- The assigned ranges on a drive: those of placed legs with n ≥ 1 of jobs that are not FREE (R5). -/
def State.assignedRanges (s : State) (d : Fin 6) : List Region :=
  s.jobs.toList.flatMap fun e =>
    match e with
    | none => []
    | some j =>
      j.legs.filterMap fun l =>
        match l.base with
        | some b => if l.target = .drive d ∧ 0 < j.blocks then some ⟨b, b + j.blocks - 1⟩ else none
        | none => none

/-- A region overlaps the current region or an assigned range of the drive (R94). -/
def State.regionOverlaps (s : State) (d : Fin 6) (r : Region) : Bool :=
  (match (s.drives[d.val]).current with
    | some q => r.meets q
    | none => false) || (s.assignedRanges d).any r.meets

/-- The region checks of a SET_TARGET, in order (R178); T6's region is ignored (R91). -/
def State.regionCheck (s : State) (t : Target) (region : Option Region) : Result :=
  match t, region with
  | .drive d, some r => if r.last < r.first then .badRequest else if s.regionOverlaps d r then .regionOverlap else .ok
  | _, _ => .ok

/-- A region given to a drive becomes current, with the pointer at its start, or staged (R94). -/
def Drive.setRegion (v : Drive) (r : Region) : Drive :=
  match v.current with
  | none => { v with current := some r, pointer := r.first }
  | some _ => { v with staged := some r }

/-- The region disposition's code (Table 10-2). -/
def State.disposition (s : State) (t : Target) (region : Option Region) : Nat :=
  match t, region with
  | _, none => 0
  | .sink, some _ => 3
  | .drive d, some _ => if (s.drives[d.val]).current.isNone then 1 else 2

/-- Store a region (R94). -/
def State.storeRegion (s : State) (t : Target) (region : Option Region) : State :=
  match t, region with
  | .drive d, some r => s.modDrive d fun v => v.setRegion r
  | _, _ => s

/-- The clamped value of a setting, or the stored one when it is absent. -/
def setting (lo hi : Nat) (given : Option Nat) (stored : Nat) : Nat :=
  match given with
  | some n => clamp lo hi n
  | none => stored

/-- The writer's settings: timeout, retry limit and policy; T6's policy stays HOLD (R114, R91). -/
def Writer.set (w : Writer) (t : Target) (b : TargetBody) : Writer :=
  { w with
    timeout := setting 1 65535 b.timeout w.timeout
    retryLimit := setting 0 3 b.retryLimit w.retryLimit
    policy := if t = .sink then w.policy else b.policy.getD w.policy }

/-- The Window Timer's settings: the latch at once, the rest staged; T6's floor is ignored (R140). -/
def Window.set (w : Window) (t : Target) (b : TargetBody) : Window :=
  { w with
    latch := setting 0 65535 b.latch w.latch
    staged :=
      { quota := setting 1 32768 b.quota w.staged.quota
        floor := if t = .sink then w.staged.floor else setting 0 65535 b.floor w.staged.floor
        ceiling := setting 0 65535 b.ceiling w.staged.ceiling
        stallLimit := setting 1 15 b.stallLimit w.staged.stallLimit } }

/-- The arbiter's weights (R132). -/
def TargetArbiter.set (a : TargetArbiter) (b : TargetBody) : TargetArbiter :=
  { a with writeWeight := setting 1 15 b.writeWeight a.writeWeight, checkWeight := setting 1 15 b.checkWeight a.checkWeight }

/-- Store a SET_TARGET that passed its checks, each value at its owner (R178). -/
def State.storeTarget (s : State) (t : Target) (b : TargetBody) : State :=
  let s := ((s.storeRegion t b.region).modWriter t fun w => w.set t b).modWindow t fun w => w.set t b
  match t with
  | .drive d => s.modSides d fun a => a.set b
  | .sink => s

/-- SET_TARGET's application (R178). -/
def applySetTarget (body : List Byte) (s : State) : Answer :=
  match readTarget body with
  | none => s.refuse .badRequest
  | some b =>
    match targetOfCode b.code with
    | none => s.refuse .badRequest
    | some t =>
      if s.regionCheck t b.region = .ok then
        ⟨s.storeTarget t b, .ok, (s.storeTarget t b).setTargetBytes t (s.disposition t b.region)⟩
      else s.refuse (s.regionCheck t b.region)

/-- SET_TARGET (R178). -/
def execSetTarget (s : State) : Host.Outcome State Fault Refusal :=
  s.event (s.canTake (isKind 5)) fun s => (s.take applySetTarget).transmit

/-- QUERY_TARGET's application (R180). -/
def applyQueryTarget (body : List Byte) (s : State) : Answer :=
  match (readPortCode body).bind targetOfCode with
  | none => s.refuse .badRequest
  | some t => ⟨s, .ok, s.queryTargetBytes t⟩

/-- QUERY_TARGET (R180). -/
def execQueryTarget (s : State) : Host.Outcome State Fault Refusal :=
  s.event (s.canTake (isKind 6)) fun s => (s.take applyQueryTarget).transmit

/-! ## SET_INGEST, SET_LAMP, SET_TICK (R179, R72, R159, R136, R157) -/

/-- The sequencer's settings (R72). -/
def IngestPort.set (p : IngestPort) (timeout retryLimit : Option Nat) : IngestPort :=
  { p with timeout := setting 1 65535 timeout p.timeout, retryLimit := setting 0 3 retryLimit p.retryLimit }

/-- SET_INGEST's application (R72). -/
def applySetIngest (body : List Byte) (s : State) : Answer :=
  match readIngest body with
  | none => s.refuse .badRequest
  | some (code, timeout, retryLimit) =>
    match ingestOfCode code with
    | none => s.refuse .badRequest
    | some i =>
      let p := (s.ingest[i.val]).set timeout retryLimit
      ⟨s.modIngest i fun _ => p, .ok, leBytes 1 i.val ++ leBytes 2 p.timeout ++ leBytes 1 p.retryLimit⟩

/-- SET_INGEST (R72). -/
def execSetIngest (s : State) : Host.Outcome State Fault Refusal :=
  s.event (s.canTake (isKind 7)) fun s => (s.take applySetIngest).transmit

/-- SET_LAMP's application (R159). -/
def applySetLamp (body : List Byte) (s : State) : Answer :=
  match readLamp body with
  | none => s.refuse .badRequest
  | some (code, mode) =>
    match ingestOfCode code with
    | none => s.refuse .badRequest
    | some i =>
      ⟨s.modLamp i fun l => { l with mode := mode }, .ok, leBytes 1 mode.code ++ leBytes 1 (s.lamps[i.val]).computed.code⟩

/-- SET_LAMP (R159). -/
def execSetLamp (s : State) : Host.Outcome State Fault Refusal :=
  s.event (s.canTake (isKind 8)) fun s => (s.take applySetLamp).transmit

/-- Stage p (R136). -/
def Timer.stage (t : Timer) (p : Option Nat) : Timer :=
  match p with
  | some n => { t with stagedP := some (clamp 8 24 n) }
  | none => t

/-- SET_TICK's application (R136, R157). -/
def applySetTick (body : List Byte) (s : State) : Answer :=
  match readTick body with
  | none => s.refuse .badRequest
  | some (p, e) =>
    let timer := s.timer.stage p
    let exponent := setting 0 15 e s.blink.exponent
    ⟨{ s with timer := timer, blink := { s.blink with exponent := exponent } }, .ok,
      leBytes 1 (timer.stagedP.getD timer.p) ++ leBytes 1 exponent⟩

/-- SET_TICK (R136). -/
def execSetTick (s : State) : Host.Outcome State Fault Refusal :=
  s.event (s.canTake (isKind 9)) fun s => (s.take applySetTick).transmit

/-! ## QUERY_PART, RESET_PORT, RESET_PART and unknown kinds (R181 to R183, R173) -/

/-- NOTICE_LOST and the fifteen discard flags are cleared (R181). -/
def State.clearFlags (s : State) : State :=
  { s with handler := { s.handler with noticeLost := false }, links := s.links.map fun l => { l with discard := false } }

/-- QUERY_PART's application: the body is formed, then the flags are cleared (R181). R173 says that QUERY_PART is never refused and R174
that a malformed body is answered BAD_REQUEST and changes nothing: the model refuses a body that is not empty and clears no flag (DESIGN
CHOICE, notes/assumptions/22.md). -/
def applyQueryPart (body : List Byte) (s : State) : Answer :=
  if body = [] then ⟨s.clearFlags, .ok, s.queryPartBytes⟩ else s.refuse .badRequest

/-- QUERY_PART (R181). -/
def execQueryPart (s : State) : Host.Outcome State Fault Refusal :=
  s.event (s.canTake (isKind 10)) fun s => (s.take applyQueryPart).transmit

/-- RESET_PORT's application (R182, R70, R113). -/
def applyResetPort (body : List Byte) (s : State) : Answer :=
  match readPortCode body with
  | none => s.refuse .badRequest
  | some code =>
    match ingestOfCode code, targetOfCode code with
    | some i, _ => answerOk (s.ingestPortReset i)
    | none, some t => answerOk (s.targetPortReset t (s.available t))
    | none, none => s.refuse .badRequest

/-- RESET_PORT (R182). -/
def execResetPort (s : State) : Host.Outcome State Fault Refusal :=
  s.event (s.canTake (isKind 11)) fun s => (s.take applyResetPort).close

/-- RESET_PART's application: the handler stays TAKING until the full reset (R183). -/
def applyResetPart (body : List Byte) (s : State) : Answer :=
  if body = [] then answerOk (s.modHandler fun q => { q with taking := true }) else s.refuse .badRequest

/-- RESET_PART (R183). -/
def execResetPart (s : State) : Host.Outcome State Fault Refusal :=
  s.event (s.canTake (isKind 12)) fun s => (s.take applyResetPart).transmit

/-- UNKNOWN_REQUEST: a kind that is none of the twelve is answered BAD_REQUEST with no body (R173). -/
def execUnknownRequest (s : State) : Host.Outcome State Fault Refusal :=
  s.event (s.canTake fun k => !knownKind k) fun s => (s.take fun _ s => s.refuse .badRequest).transmit

/-! ## C_TX_END (R168, R169, R183) -/

/-- The response that ends the wait of a RESET_PART: its own OK (R183). -/
def Response.endsPart (r : Response) : Bool :=
  decide (r.kind = 12) && decide (r.result = .ok)

/-- The end of a frame on C: a sent response or notice leaves its queue, the unanswered count falls for a response, and the
transmitter is FREE and tested again (R168, R169). The end of RESET_PART's own response is the full reset (R183). -/
def cTxEndEffect (s : State) : State :=
  let out := (s.modControl fun c => { c with sending := none }).modLink .control fun l => { l with tx := [] }
  match s.control.sending, s.control.responses with
  | some .response, r :: rest =>
    if s.handler.taking && r.endsPart then s.fullReset
    else (out.modControl fun c => { c with unanswered := c.unanswered - 1, responses := rest }).transmit.noteWork
  | some .notice, _ => (out.modHandler fun q => { q with notices := q.notices.tail }).transmit.noteWork
  | _, _ => out.transmit.noteWork

/-- C_TX_END, while C is SENDING (R168). -/
def execCTxEnd (s : State) : Host.Outcome State Fault Refusal :=
  s.event s.control.sending.isSome cTxEndEffect

end Sys2Proof.Machine
end

