-- ==== Sys2Proof/Machine/TimerEvents.lean ====
section
/-! DEFINITION. TICK and WINDOW_END: the events of the Window Timer (chapter 7), with what the tag owners and the Lamp Driver do at a
tick (R59, R103, R125, R156, R158). -/

namespace Sys2Proof.Machine

/-! ## The window end (R144) -/

/-- Steps 1 to 3 of a window end: the rate, the stall streak and SLOW (R145, R146). -/
def Window.judge (w : Window) : Window :=
  let streak := if w.stalled then min (w.streak + 1) 15 else 0
  { w with
    rate := w.acked
    streak := streak
    slow := if w.slow then w.stalled else decide (w.effective.stallLimit ≤ streak) }

/-- The notice of step 3: TARGET_SLOW where SLOW is set here, TARGET_RECOVERED where it is cleared (R146). -/
def slowNotice (t : Target) (before after : Window) : Option Notice :=
  if !before.slow && after.slow then some (.targetSlow t after.streak after.rate)
  else if before.slow && !after.slow then some (.targetRecovered t after.rate)
  else none

/-- Hand over a notice if there is one. -/
def State.notifyIf (s : State) : Option Notice → State
  | some n => s.notify n
  | none => s

/-- The target is shed at this window end (R148). -/
def State.shedsNow (s : State) (t : Target) : Bool :=
  decide ((s.writer t).policy = .shed) && decide ((s.window t).effective.stallLimit ≤ (s.window t).streak)

/-- Step 4: every WRITING leg on the target is DEFERRED in handle order, the streak restarts, SHED is handed over, and the jobs are
tested in handle order (R148, R21). -/
def State.shed (s : State) (t : Target) : State :=
  let mine := s.jobsWithLeg t fun x => decide (x = .writing)
  let s := (s.modWindow t fun w => { w with streak := 0 }).notify (.shed t mine.length)
  let s := mine.foldl (fun s h => s.dropLeg h t .deferred none) s
  s.cascade (mine.map .test)

/-- Step 5: the counts are cleared, the staged values loaded, and the counter reloaded from the latch (R149). The had-work flag is
set again at the end of the event if the target has work. -/
def Window.reload (w : Window) : Window :=
  { w with issued := 0, acked := 0, hadWork := false, effective := w.staged, counter := w.latch, endDue := false }

/-- A target's window ends (R144). -/
def windowEndEffect (t : Target) (s : State) : State :=
  let before := s.window t
  let s := (s.modWindow t Window.judge).notifyIf (slowNotice t before before.judge)
  let s := if s.shedsNow t then s.shed t else s
  (s.modWindow t Window.reload).close

/-- WINDOW_END, of a window whose counter the last tick found at 0 (R139, R144). -/
def execWindowEnd (t : Target) (s : State) : Host.Outcome State Fault Refusal :=
  s.event (s.window t).endDue (windowEndEffect t)

/-! ## The tick -/

/-- The tick counter rises, the prescaler starts again, and a staged p is adopted (R135, R136, R137). -/
def Timer.step (t : Timer) : Timer :=
  { tick := t.tick + 1, prescaler := 0, p := t.stagedP.getD t.p, stagedP := none }

/-- The expiry test of a port's read tags (R59). -/
def IngestPort.testTags (p : IngestPort) (now : Tick) : IngestPort :=
  { p with tags := p.tags.map fun g => { g with due := g.expired now p.timeout } }

/-- The expiry test of a target's write tags (R103). -/
def Writer.testTags (w : Writer) (now : Tick) : Writer :=
  { w with tags := w.tags.map fun g => { g with due := g.expired now w.timeout } }

/-- The expiry test of a target's check tags, with the target's timeout (R125). -/
def VerifyReader.testTags (v : VerifyReader) (now : Tick) (timeout : Nat) : VerifyReader :=
  { v with tags := v.tags.map fun g => { g with due := g.expired now timeout } }

/-- Every tag is tested for expiry. -/
def State.testTags (s : State) : State :=
  let s := allIngest.foldl (fun s i => s.modIngest i fun p => p.testTags s.now) s
  let s := allTargets.foldl (fun s t => s.modWriter t fun w => w.testTags s.now) s
  allDrives.foldl (fun s d => s.modReader d fun v => v.testTags s.now (s.writer (.drive d)).timeout) s

/-- A window's counter at a tick: it falls by one, or at 0 the window's end is due, which loads it from the latch (R139). -/
def Window.countDown (w : Window) : Window :=
  if w.counter = 0 then { w with endDue := true } else { w with counter := w.counter - 1 }

/-- The blink phase at a tick: it flips when the counter's new value is a multiple of 2^b (R156). -/
def Blink.step (b : Blink) (now : Tick) : Blink :=
  if now.toNat % 2 ^ b.exponent = 0 then { b with phase := !b.phase } else b

/-- The phase test, then the line pair of every port (R156, R158). -/
def State.lampTick (s : State) : State :=
  let s := { s with blink := s.blink.step s.now }
  allIngest.foldl (fun s i => s.modLamp i fun l => l.drive s.blink.phase) s

/-- A window ends at the tick that finds its counter at 0 (R139, R144): the ends which the last tick found, and which no WINDOW_END has
taken since, are taken before a further tick, each once, in target order (DESIGN CHOICE, notes/assumptions/5.md). -/
def State.lateEnds (s : State) : State :=
  allTargets.foldl (fun s t => if (s.window t).endDue then windowEndEffect t s else s) s

/-- A tick is taken (R135), after the window ends of the tick before it: every block that acts on ticks takes it at its own state. -/
def tickEffect (s : State) : State :=
  let s := s.lateEnds
  let s := ({ s with timer := s.timer.step } : State).testTags
  (allTargets.foldl (fun s t => s.modWindow t Window.countDown) s).lampTick

/-- TICK: the prescaler has reached 2^p reference clocks (R135). -/
def execTick (s : State) : Host.Outcome State Fault Refusal :=
  s.event true tickEffect

/-- One reference clock: the prescaler counts it, and takes a tick when it has counted 2^p (R135). -/
def referenceClock (s : State) : State :=
  if 2 ^ s.timer.p ≤ s.timer.prescaler + 1 then tickEffect s
  else { s with timer := { s.timer with prescaler := s.timer.prescaler + 1 } }

/-! ## The events a tick has made due -/

/-- The command of the first event that the last tick found due and that has not been taken: the expiries of read, write and check tags,
then the window ends, in port and tag order (R59, R103, R125, R139; DESIGN CHOICE, notes/assumptions/5.md). -/
def State.dueEvent (s : State) : Option Instr :=
  let reads := allIngest.flatMap fun i => (List.finRange 8).filterMap fun k =>
    if ((s.ingest[i.val]).tags[k.val]).due then some (.readTagExpiry i k) else none
  let writes := allTargets.flatMap fun t => allWriteTags.filterMap fun k =>
    if ((s.writer t).tags[k.val]).due then some (.writeTagExpiry t k) else none
  let checks := allDrives.flatMap fun d => (List.finRange 8).filterMap fun k =>
    if ((s.readers[d.val]).tags[k.val]).due then some (.checkTagExpiry d k) else none
  let ends := allTargets.filterMap fun t => if (s.window t).endDue then some (.windowEnd t) else none
  (reads ++ writes ++ checks ++ ends).head?

end Sys2Proof.Machine
end

