-- ==== Sys2Proof/Machine/IngestEvents.lean ====
section
/-! DEFINITION. BLOCK_DATA, INGEST_MEDIA_REPORT and READ_TAG_EXPIRY: the events of an Ingest Sequencer (chapter 3). -/

namespace Sys2Proof.Machine

/-- The tag a frame's tag byte names; a number above the owner's highest names none (R62, R104, R126). -/
def tagOf (n : Nat) (tag : Byte) : Option (Fin n) :=
  if h : tag.toNat < n then some ⟨tag.toNat, h⟩ else none

/-- Change one read tag. -/
def State.setReadTag (s : State) (i k : Fin 8) (f : ReadTag → ReadTag) : State :=
  s.modIngest i fun p => { p with tags := setEntry p.tags k f }

/-- A read tag becomes FREE with its generation kept (R57, R61, R62). -/
def ReadTag.release (g : ReadTag) : ReadTag :=
  ⟨.free, g.gen, false⟩

/-- A filled slot joins the write queue of each target that owes it (R37). -/
def State.queueSlot (s : State) (num : Nat) (h : Fin 64) (owed : List Target) : State :=
  owed.foldl
    (fun s t =>
      match s.legOn h t with
      | some r => s.modWriter t fun w => { w with queue := w.queue ++ [⟨num, r⟩] }
      | none => s) s

/-- The targets a slot is owed to. -/
def State.owedAt (s : State) (num : Nat) : List Target :=
  match s.slot? num with
  | some x => x.owed
  | none => []

/-- A job's ingest context stands at the given index. -/
def State.ingestAt (s : State) (h : Fin 64) (index : Nat) : Bool :=
  match s.job? h with
  | some j => decide (j.ingest.next = index)
  | none => false

/-- A BLOCK DATA OK that matches its BUSY tag: the slot is HELD and handed to the writers and, if next, to the Digest Unit; arrived
rises; with the last block the job is SETTLING and the port has no reading job (R57, R37, R13). -/
def State.blockArrived (s : State) (i k : Fin 8) (h : Fin 64) (index num : Nat) (data : List Byte) : State × List Todo :=
  let owed := s.owedAt num
  let s := ((s.fill num data).setReadTag i k ReadTag.release).queueSlot num h owed
  let s := if s.ingestAt h index then s.makeReady num else s
  let s := s.count h fun j => { j with arrived := j.arrived + 1 }
  match s.job? h with
  | none => (s, [])
  | some j =>
    if j.arrived = j.blocks ∧ j.state = .reading then
      ((s.modJob h fun j => { j with state := .settling, arrivedAllAt := some s.now }).modIngest i fun p =>
        { p with reading := none }, [.start i])
    else (s, [])

/-- A failed read with retries left: the same tag, block and slot, a new generation, a higher attempt (R60). -/
def State.retryRead (s : State) (i k : Fin 8) (h : Fin 64) (index num attempt : Nat) : State :=
  let gen := ((s.ingest[i.val]).tags[k.val]).gen + 1
  let s := s.setReadTag i k fun _ => ⟨.busy h index num s.now (attempt + 1), gen, false⟩
  s.send (.ingest i)
    (.blockRead k gen
      (match s.job? h with
        | some j => cardAddress j.runs index
        | none => 0))

/-- A failed read: a retry while the attempt is below the port's retry limit, else the tag becomes FREE and the job fails
SOURCE_READ_ERROR (R58, R61, R19). -/
def State.readFailed (s : State) (i k : Fin 8) (h : Fin 64) (index num attempt : Nat) : State × List Todo :=
  if attempt < (s.ingest[i.val]).retryLimit then (s.retryRead i k h index num attempt, [])
  else (s.setReadTag i k ReadTag.release).tearJob h .failed .sourceReadError

/-- A BLOCK DATA applied to the tag it names (R57, R58, R62). -/
def blockDataEffect (i : Fin 8) (tag : Byte) (gen : Gen) (answer : ReadAnswer) (s : State) : State :=
  let s := s.received (.ingest i)
  match tagOf 8 tag with
  | none => s
  | some k =>
    let g := (s.ingest[i.val]).tags[k.val]
    match g.state with
    | .free => s
    | .abandoned _ => (s.setReadTag i k ReadTag.release).close
    | .busy h index num _ attempt =>
      if gen = g.gen then
        match answer with
        | .ok data => (cascadeOf (s.blockArrived i k h index num data)).close
        | .readError => (cascadeOf (s.readFailed i k h index num attempt)).close
      else s

/-- BLOCK_DATA. An OK without 4,096 bytes is a frame the Link Port discards (R164). -/
def execBlockData (i : Fin 8) (tag : Byte) (gen : Gen) (answer : ReadAnswer) (s : State) : Host.Outcome State Fault Refusal :=
  s.event (s.linkUp (.ingest i)) fun s =>
    if answer.wellFormed then blockDataEffect i tag gen answer s else s.discard (.ingest i) .endDelimiter

/-- A MEDIA REPORT on an ingest port, by the cases of Table 3-4 (R64 to R68). -/
def ingestReportEffect (i : Fin 8) (report : Option Media) (s : State) : State :=
  let s := s.received (.ingest i)
  match (s.ingest[i.val]).media, report with
  | none, none => s
  | none, some m => (s.ingestInsertion i m).close
  | some _, none => (s.ingestRemoval i).close
  | some x, some m =>
    if x.identity = m.identity then s.modIngest i fun p => { p with media := some m }
    else ((s.ingestRemoval i).ingestInsertion i m).close

/-- INGEST_MEDIA_REPORT. A capacity above 2^40 makes a frame the Link Port discards (R164). -/
def execIngestMediaReport (i : Fin 8) (report : Option Media) (s : State) : Host.Outcome State Fault Refusal :=
  s.event (s.linkUp (.ingest i)) fun s =>
    if reportWellFormed report then ingestReportEffect i report s else s.discard (.ingest i) .endDelimiter

/-- The expiry of a read tag: a BUSY tag's read has failed, an ABANDONED tag is freed (R59, R62). -/
def readExpiryEffect (i k : Fin 8) (s : State) : State :=
  match ((s.ingest[i.val]).tags[k.val]).state with
  | .free => s
  | .abandoned _ => (s.setReadTag i k ReadTag.release).close
  | .busy h index num _ attempt => (cascadeOf (s.readFailed i k h index num attempt)).close

/-- READ_TAG_EXPIRY, of a tag that the last tick's test found expired (R59). -/
def execReadTagExpiry (i k : Fin 8) (s : State) : Host.Outcome State Fault Refusal :=
  s.event ((s.ingest[i.val]).tags[k.val]).due (readExpiryEffect i k)

end Sys2Proof.Machine
end

