-- ==== Sys2Proof/Machine/TargetEvents.lean ====
section
/-! DEFINITION. TARGET_MEDIA_REPORT, WRITE_DONE, SINK_DONE, WRITE_TAG_EXPIRY and TARGET_TX_END: the events of a Target Writer and its
arbiter (chapters 5 and 6). -/

namespace Sys2Proof.Machine

/-! ## Media reports -/

/-- A MEDIA REPORT on a target port, by the cases of Table 5-5 (R109). -/
def targetReportEffect (d : Fin 6) (report : Option Media) (s : State) : State :=
  let s := s.received (.drive d)
  match (s.drives[d.val]).media, report with
  | none, none => s
  | none, some m => (s.driveInsertion d m).close
  | some _, none => (s.driveRemoval d).close
  | some x, some m =>
    if x.identity = m.identity then s.modDrive d fun v => { v with media := some m }
    else ((s.driveRemoval d).driveInsertion d m).close

/-- TARGET_MEDIA_REPORT. A capacity above 2^40 makes a frame the Link Port discards (R164). -/
def execTargetMediaReport (d : Fin 6) (report : Option Media) (s : State) : Host.Outcome State Fault Refusal :=
  s.event (s.linkUp (.drive d)) fun s =>
    if reportWellFormed report then targetReportEffect d report s else s.discard (.drive d) .endDelimiter

/-! ## Answers to writes -/

/-- Change one write tag. -/
def State.setWriteTag (s : State) (t : Target) (k : Fin 16) (f : BlockTag → BlockTag) : State :=
  s.modWriter t fun w => { w with tags := setEntry w.tags k f }

/-- A write or check tag becomes FREE with its generation kept (R102, R103, R104, R124). -/
def BlockTag.release (g : BlockTag) : BlockTag :=
  ⟨.free, g.gen, false⟩

/-- A write or check tag becomes BUSY waiting for its reissue (R103, R125). -/
def BlockTag.wait (g : BlockTag) (w : TagWork) : BlockTag :=
  ⟨.waiting w, g.gen, false⟩

/-- The last block of a leg of a running job is acknowledged. -/
def State.fullyAcked (s : State) (r : LegRef) : Bool :=
  match s.leg? r, s.job? r.job with
  | some l, some j => decide (l.acked = j.blocks) && decide (l.state = .writing) && !j.state.terminal
  | _, _ => false

/-- An acknowledgement: the target leaves the slot's set, the leg's and the window's counts rise, the tag becomes FREE, the slot is
freed if it is done with, and the leg is WRITTEN with its last block (R102, R39, R17). -/
def State.acknowledge (s : State) (t : Target) (k : Fin 16) (w : TagWork) : State × List Todo :=
  let s := s.settleSlot w.slot t
  let s := s.countLeg w.ref fun l => { l with acked := l.acked + 1 }
  let s := s.modWindow t fun q => { q with acked := countUp q.acked }
  let s := (s.setWriteTag t k BlockTag.release).freeIfDone w.slot
  if s.fullyAcked w.ref then s.legWritten w.ref else (s, [])

/-- A write that will not be tried again: the tag becomes FREE and the leg fails with a cause (R103, R20). -/
def State.writeGivenUp (s : State) (t : Target) (k : Fin 16) (w : TagWork) (cause : LegCause) : State × List Todo :=
  ((s.setWriteTag t k BlockTag.release).dropLeg w.ref.job t .failed (some cause), afterLeg w.ref.job t)

/-- A failed attempt of a write: the tag waits for its reissue while its attempt is below the retry limit, else the leg fails
WRITE_ERROR (R103). -/
def State.writeFailed (s : State) (t : Target) (k : Fin 16) (w : TagWork) : State × List Todo :=
  if w.attempt < (s.writer t).retryLimit then
    ((s.setWriteTag t k fun g => g.wait w).modWriter t fun q => { q with retry := q.retry ++ [k] }, [])
  else s.writeGivenUp t k w .writeError

/-- An answer to a write, applied to the tag it names (R102, R103, R104). -/
def writeAnswerEffect (t : Target) (tag : Byte) (gen : Gen) (status : WriteStatus) (s : State) : State :=
  let s := s.received (targetPort t)
  match tagOf 16 tag with
  | none => s
  | some k =>
    let g := (s.writer t).tags[k.val]
    match g.state with
    | .free | .waiting _ => s
    | .abandoned _ => (s.setWriteTag t k BlockTag.release).close
    | .sent w _ =>
      if gen = g.gen then
        match status with
        | .ok => (cascadeOf (s.acknowledge t k w)).close
        | .mediaError => (cascadeOf (s.writeFailed t k w)).close
        | .noSpace => (cascadeOf (s.writeGivenUp t k w .targetFull)).close
      else s

/-- WRITE_DONE (R102 to R104). -/
def execWriteDone (d : Fin 6) (tag : Byte) (gen : Gen) (status : WriteStatus) (s : State) : Host.Outcome State Fault Refusal :=
  s.event (s.linkUp (.drive d)) (writeAnswerEffect (.drive d) tag gen status)

/-- The write status a SINK DONE gives. -/
def sinkStatus : SinkStatus → WriteStatus
  | .ok => .ok
  | .mediaError => .mediaError

/-- SINK_DONE (R102 to R104). -/
def execSinkDone (tag : Byte) (gen : Gen) (status : SinkStatus) (s : State) : Host.Outcome State Fault Refusal :=
  s.event (s.linkUp .control) (writeAnswerEffect .sink tag gen (sinkStatus status))

/-- The expiry of a write tag: a sent tag's attempt has failed, an ABANDONED tag is freed (R103, R104). -/
def writeExpiryEffect (t : Target) (k : Fin 16) (s : State) : State :=
  match ((s.writer t).tags[k.val]).state with
  | .free | .waiting _ => s
  | .abandoned _ => (s.setWriteTag t k BlockTag.release).close
  | .sent w _ => (cascadeOf (s.writeFailed t k w)).close

/-- WRITE_TAG_EXPIRY, of a tag that the last tick's test found expired (R103). -/
def execWriteTagExpiry (t : Target) (k : Fin 16) (s : State) : Host.Outcome State Fault Refusal :=
  s.event ((s.writer t).tags[k.val]).due (writeExpiryEffect t k)

/-! ## The end of a transmission -/

/-- The granted frame has left: the arbiter is IDLE and grants again if a side is eligible (R131, R167). -/
def targetTxEndEffect (d : Fin 6) (s : State) : State :=
  ((s.modSides d fun a => { a with granted := false }).modLink (.drive d) fun l => { l with tx := [] }).settle

/-- TARGET_TX_END, of a granted frame (R131). -/
def execTargetTxEnd (d : Fin 6) (s : State) : Host.Outcome State Fault Refusal :=
  s.event (s.sides[d.val]).granted (targetTxEndEffect d)

end Sys2Proof.Machine
end

