-- ==== Sys2Proof/Machine/VerifyEvents.lean ====
section
/-! DEFINITION. CHECK_DATA and CHECK_TAG_EXPIRY: the events of a Verify Reader (chapter 6). -/

namespace Sys2Proof.Machine

/-- Change one check tag. -/
def State.setCheckTag (s : State) (d : Fin 6) (k : Fin 8) (f : BlockTag → BlockTag) : State :=
  s.modReader d fun v => { v with tags := setEntry v.tags k f }

/-- A leg's verify context stands at the given index. -/
def State.verifyAt (s : State) (r : LegRef) (index : Nat) : Bool :=
  match s.leg? r with
  | some l => decide (l.context.next = index)
  | none => false

/-- A CHECK DATA OK that matches its sent tag: the slot is HELD, joins the ready list if it is next, and the tag is FREE
(R124, R38). -/
def State.checkArrived (s : State) (d : Fin 6) (k : Fin 8) (w : TagWork) (data : List Byte) : State :=
  let s := (s.fill w.slot data).setCheckTag d k BlockTag.release
  if s.verifyAt w.ref w.index then s.makeReady w.slot else s

/-- A failed attempt of a check read: the tag waits for its reissue while its attempt is below the target's retry limit, else it
becomes FREE and the leg fails VERIFY_READ_ERROR (R125, R129). -/
def State.checkFailed (s : State) (d : Fin 6) (k : Fin 8) (w : TagWork) : State × List Todo :=
  if w.attempt < (s.writer (.drive d)).retryLimit then
    ((s.setCheckTag d k fun g => g.wait w).modReader d fun v => { v with retry := v.retry ++ [k] }, [])
  else
    ((s.setCheckTag d k BlockTag.release).dropLeg w.ref.job (.drive d) .failed (some .verifyReadError),
      afterLeg w.ref.job (.drive d))

/-- A CHECK DATA applied to the tag it names (R124, R125, R126). -/
def checkDataEffect (d : Fin 6) (tag : Byte) (gen : Gen) (answer : ReadAnswer) (s : State) : State :=
  let s := s.received (.drive d)
  match tagOf 8 tag with
  | none => s
  | some k =>
    let g := (s.readers[d.val]).tags[k.val]
    match g.state with
    | .free | .waiting _ => s
    | .abandoned _ => (s.setCheckTag d k BlockTag.release).close
    | .sent w _ =>
      if gen = g.gen then
        match answer with
        | .ok data => (s.checkArrived d k w data).close
        | .readError => (cascadeOf (s.checkFailed d k w)).close
      else s

/-- CHECK_DATA. An OK without 4,096 bytes is a frame the Link Port discards (R164). -/
def execCheckData (d : Fin 6) (tag : Byte) (gen : Gen) (answer : ReadAnswer) (s : State) : Host.Outcome State Fault Refusal :=
  s.event (s.linkUp (.drive d)) fun s =>
    if answer.wellFormed then checkDataEffect d tag gen answer s else s.discard (.drive d) .endDelimiter

/-- The expiry of a check tag: a sent tag's attempt has failed, an ABANDONED tag is freed (R125, R126). -/
def checkExpiryEffect (d : Fin 6) (k : Fin 8) (s : State) : State :=
  match ((s.readers[d.val]).tags[k.val]).state with
  | .free | .waiting _ => s
  | .abandoned _ => (s.setCheckTag d k BlockTag.release).close
  | .sent w _ => (cascadeOf (s.checkFailed d k w)).close

/-- CHECK_TAG_EXPIRY, of a tag that the last tick's test found expired (R125). -/
def execCheckTagExpiry (d : Fin 6) (k : Fin 8) (s : State) : Host.Outcome State Fault Refusal :=
  s.event ((s.readers[d.val]).tags[k.val]).due (checkExpiryEffect d k)

end Sys2Proof.Machine
end

