-- ==== Sys2Proof/Machine/Dispatch.lean ====
section
/-! DEFINITION. The meaning of each command: one arm for each row of the opcode table. -/

namespace Sys2Proof.Machine

def exec (i : Instr) (s : State) : Host.Outcome State Fault Refusal :=
  match i with
  | .resetNLow => Sys2Proof.Machine.execResetNLow s
  | .resetNHigh => Sys2Proof.Machine.execResetNHigh s
  | .linkUp p => Sys2Proof.Machine.execLinkUp p s
  | .linkDown p => Sys2Proof.Machine.execLinkDown p s
  | .frameDiscard p rx => Sys2Proof.Machine.execFrameDiscard p rx s
  | .blockData n tag gen answer => Sys2Proof.Machine.execBlockData n tag gen answer s
  | .ingestMediaReport n report => Sys2Proof.Machine.execIngestMediaReport n report s
  | .targetMediaReport d report => Sys2Proof.Machine.execTargetMediaReport d report s
  | .writeDone d tag gen status => Sys2Proof.Machine.execWriteDone d tag gen status s
  | .sinkDone tag gen status => Sys2Proof.Machine.execSinkDone tag gen status s
  | .checkData d tag gen answer => Sys2Proof.Machine.execCheckData d tag gen answer s
  | .request seq kind body => Sys2Proof.Machine.execRequest seq kind body s
  | .loadJob => Sys2Proof.Machine.execLoadJob s
  | .cancelJob => Sys2Proof.Machine.execCancelJob s
  | .releaseJob => Sys2Proof.Machine.execReleaseJob s
  | .queryJob => Sys2Proof.Machine.execQueryJob s
  | .setTarget => Sys2Proof.Machine.execSetTarget s
  | .queryTarget => Sys2Proof.Machine.execQueryTarget s
  | .setIngest => Sys2Proof.Machine.execSetIngest s
  | .setLamp => Sys2Proof.Machine.execSetLamp s
  | .setTick => Sys2Proof.Machine.execSetTick s
  | .queryPart => Sys2Proof.Machine.execQueryPart s
  | .resetPort => Sys2Proof.Machine.execResetPort s
  | .resetPart => Sys2Proof.Machine.execResetPart s
  | .unknownRequest => Sys2Proof.Machine.execUnknownRequest s
  | .tick => Sys2Proof.Machine.execTick s
  | .readTagExpiry n k => Sys2Proof.Machine.execReadTagExpiry n k s
  | .writeTagExpiry t k => Sys2Proof.Machine.execWriteTagExpiry t k s
  | .checkTagExpiry d k => Sys2Proof.Machine.execCheckTagExpiry d k s
  | .windowEnd t => Sys2Proof.Machine.execWindowEnd t s
  | .digestStart => Sys2Proof.Machine.execDigestStart s
  | .digestComplete => Sys2Proof.Machine.execDigestComplete s
  | .targetTxEnd d => Sys2Proof.Machine.execTargetTxEnd d s
  | .cTxEnd => Sys2Proof.Machine.execCTxEnd s

end Sys2Proof.Machine
end

