-- ==== Sys2Proof/Safety.lean ====
section
/-! DEFINITION. What a sound state of the part is, and what a safe run is: the invariants the claims use. Each is a property of every
state a run can reach, and each step keeps it. -/

namespace Sys2Proof.Machine

/-- The Block Pool holds each slot once, and no slot beyond the 32,768 (R29). -/
def State.poolOk (s : State) : Prop :=
  poolWf s.slots = true

/-- The queues of the Request Handler and of C: at most 32 notices (R184), at most eight unanswered requests, and each unanswered
request either waits to be taken or has its response waiting to leave (R169, R172). -/
def State.queuesOk (s : State) : Prop :=
  s.handler.notices.length ≤ Config.noticePlaces ∧
    s.control.unanswered = s.handler.requests.length + s.control.responses.length ∧
    s.control.unanswered ≤ Config.requestLimit

/-- The tick: p and the staged p lie from 8 to 24, the prescaler has not reached 2^p, and b lies from 0 to 15 (R135, R136, R157). -/
def State.clockOk (s : State) : Prop :=
  8 ≤ s.timer.p ∧ s.timer.p ≤ 24 ∧ (∀ q, s.timer.stagedP = some q → 8 ≤ q ∧ q ≤ 24) ∧ s.timer.prescaler < 2 ^ s.timer.p ∧
    s.blink.exponent ≤ 15

/-- A port's carry-over count: its jobs LOADED, READING or SETTLING with their session mark cleared (R154). -/
def State.carriedOver (s : State) (i : Fin 8) : Nat :=
  (allHandles.filter fun h =>
    match s.job? h with
    | some j =>
      decide (j.port = i) && !j.session && (decide (j.state = .loaded) || decide (j.state = .reading) || decide (j.state = .settling))
    | none => false).length

/-- The state of the first row of Table 8-2 whose condition holds for a port (R154). -/
def State.lampRow (s : State) (i : Fin 8) : LampState :=
  let c := s.sessions[i.val]
  if (s.ingest[i.val]).media = none then .off
  else if 0 < c.failed then .fault
  else if 0 < c.live then .busy
  else if 1 ≤ c.done ∧ 0 < s.carriedOver i then .busy
  else if 1 ≤ c.done then .safe
  else .off

/-- The lamps: each port's computed state is what Table 8-2 gives for its inputs as they stand (R155), and its two lines are never
on together (R158). -/
def State.lampsOk (s : State) : Prop :=
  ∀ i : Fin 8, (s.lamps[i.val]).computed = s.lampRow i ∧ ¬ ((s.lamps[i.val]).green = true ∧ (s.lamps[i.val]).red = true)

/-- The ranges of Table 3-1. -/
def IngestPort.inRange (p : IngestPort) : Prop :=
  1 ≤ p.timeout ∧ p.timeout ≤ 65535 ∧ p.retryLimit ≤ 3

/-- The ranges of Table 5-1. -/
def Writer.inRange (w : Writer) : Prop :=
  1 ≤ w.timeout ∧ w.timeout ≤ 65535 ∧ w.retryLimit ≤ 3

/-- The ranges of the weights (R131). -/
def TargetArbiter.inRange (a : TargetArbiter) : Prop :=
  1 ≤ a.writeWeight ∧ a.writeWeight ≤ 15 ∧ 1 ≤ a.checkWeight ∧ a.checkWeight ≤ 15

/-- The ranges of the pacing values (Table 7-2). -/
def Pacing.inRange (v : Pacing) : Prop :=
  1 ≤ v.quota ∧ v.quota ≤ 32768 ∧ v.floor ≤ 65535 ∧ v.ceiling ≤ 65535 ∧ 1 ≤ v.stallLimit ∧ v.stallLimit ≤ 15

/-- The ranges of the window state (Table 7-2). -/
def Window.inRange (w : Window) : Prop :=
  w.counter ≤ 65535 ∧ w.latch ≤ 65535 ∧ w.staged.inRange ∧ w.effective.inRange ∧ w.issued ≤ Config.countLimit ∧
    w.acked ≤ Config.countLimit ∧ w.rate ≤ Config.countLimit ∧ w.streak ≤ 15

/-- Every setting and every window value lies in its range, and T6's policy is HOLD and its floor 0 (R91, R140, R145). -/
def State.settingsOk (s : State) : Prop :=
  (∀ i : Fin 8, (s.ingest[i.val]).inRange) ∧ (∀ t : Target, (s.writer t).inRange ∧ (s.window t).inRange) ∧
    (∀ d : Fin 6, (s.sides[d.val]).inRange) ∧
    (s.writer .sink).policy = .hold ∧ (s.window .sink).staged.floor = 0 ∧ (s.window .sink).effective.floor = 0

/-- The waiting set holds exactly the requesters whose conditions of R31 hold, and while any waits no slot is FREE (R32). -/
def State.waitersOk (s : State) : Prop :=
  (∀ r, r ∈ s.arbiter.waiting ↔ s.wants r = true) ∧ (s.arbiter.waiting = [] ∨ s.freeSlots = 0)

/-- A requester's place in the circular order I0 to I7, then the verify streams of T0 to T5 (R32). -/
def Requester.place : Requester → Nat
  | .ingest i => i.val
  | .verify d => 8 + d.val

/-- How many places a requester stands after the pointer in circular order (R32). -/
def Requester.distance (pointer r : Requester) : Nat :=
  (r.place + 14 - pointer.place) % 14

/-- The ranges of a digest context's sums (R75). -/
def DigestContext.inRange (c : DigestContext) : Prop :=
  c.a < Config.digestModulus ∧ c.b < Config.digestModulus

/-- A and B of every context lie from 0 to M - 1 (R75). -/
def State.contextsOk (s : State) : Prop :=
  ∀ h j, s.job? h = some j → j.ingest.inRange ∧ ∀ l ∈ j.legs, l.context.inRange

/-- A writer has writes to do: its write queue or its retry list is not empty, or a tag is BUSY, sent or waiting (R143). -/
def Writer.toDo (w : Writer) : Prop :=
  w.queue ≠ [] ∨ w.retry ≠ [] ∨
    ∃ k : Fin 16, (∃ v issued, (w.tags[k.val]).state = .sent v issued) ∨ ∃ v, (w.tags[k.val]).state = .waiting v

/-- A target that has writes to do has its had-work flag set (R143). -/
def State.workNoted (s : State) : Prop :=
  ∀ x, (s.writer x).toDo → (s.window x).hadWork = true

/-- The jobs that have handed over their JOB_FINISHED are those in a terminal state (R24, R188). -/
def State.endsAnnounced (s : State) : Prop :=
  ∀ h j, s.job? h = some j → j.announced = j.state.terminal

/-- How many jobs of a port's session stand in a state that a test accepts. -/
def State.sessionJobs (s : State) (i : Fin 8) (test : JobState → Bool) : Nat :=
  (allHandles.filter fun h =>
    match s.job? h with
    | some j => decide (j.port = i) && j.session && test j.state
    | none => false).length

/-- The session counters (R8): live is the number of the session's jobs LOADED, READING or SETTLING, unreleased-failed the number of
those FAILED and not released, and done, which also counts released jobs and stops at 65,535, is at least the number of those DONE. -/
def State.sessionsOk (s : State) : Prop :=
  ∀ i : Fin 8, (s.sessions[i.val]).live = s.sessionJobs i (fun x => !x.terminal) ∧
    (s.sessions[i.val]).failed = s.sessionJobs i (fun x => decide (x = .failed)) ∧
    s.sessionJobs i (fun x => decide (x = .done)) ≤ (s.sessions[i.val]).done ∧ (s.sessions[i.val]).done ≤ 65535

/-- How many jobs of a port's session are DONE in the second state that were not terminal in the first. -/
def State.newlyDone (s t : State) (i : Fin 8) : Nat :=
  (allHandles.filter fun h =>
    match t.job? h with
    | some k => decide (k.port = i) && k.session && decide (k.state = .done) && !((s.job? h).any fun j => j.state.terminal)
    | none => false).length

/-- The outcome of a job (R4, R9, R15, R24): its legs name distinct targets; while it is LOADED they are IDLE; once it is terminal they are
terminal; and it is DONE only with its required number of GOOD legs and a final ingest digest that is no other than the expected one. -/
def Job.outcomeOk (j : Job) : Prop :=
  (j.legs.map Leg.target).Nodup ∧ (j.state = .loaded → ∀ l ∈ j.legs, l.state = .idle) ∧
    (j.state.terminal = true → ∀ l ∈ j.legs, l.state.terminal = true) ∧
    (j.state = .done → j.required ≤ j.goodLegs ∧ ∃ g, j.ingest.final = some g ∧ (j.expected = none ∨ j.expected = some g))

/-- Every job's outcome is sound, and each verify work list holds, once each, legs on its drive that are to be verified and are WRITTEN or
VERIFYING (R119). -/
def State.outcomesOk (s : State) : Prop :=
  (∀ h j, s.job? h = some j → j.outcomeOk) ∧
    ∀ d : Fin 6, (s.readers[d.val]).work.Nodup ∧ ∀ r ∈ (s.readers[d.val]).work, ∃ l, s.leg? r = some l ∧
      l.target = .drive d ∧ l.verify = true ∧ (l.state = .written ∨ l.state = .verifying)

/-- No verify work list that has a head waits for it to become VERIFYING (R119, R120). -/
def State.headsActive (s : State) : Prop :=
  ∀ (d : Fin 6) r rest l, (s.readers[d.val]).work = r :: rest → s.leg? r = some l → l.state ≠ .written

/-- A region or a range holds a drive block address. -/
def Region.holds (r : Region) (a : Nat) : Prop :=
  r.first ≤ a ∧ a ≤ r.last

/-- The unused tail of a drive's current region, from the append pointer on, holds an address. -/
def Drive.tailHolds (v : Drive) (a : Nat) : Prop :=
  ∃ c, v.current = some c ∧ v.pointer ≤ a ∧ a ≤ c.last

/-- The regions and ranges of one drive (R94, R96): the pointer lies from the current region's start to its end + 1; no address lies in
two of the given ranges, nor in a range and the current region's unused tail; a staged region stands beside a current one and shares no
address with a range or with that tail. -/
def Drive.rangesOk (v : Drive) (ranges : List Region) : Prop :=
  (∀ c, v.current = some c → c.first ≤ v.pointer ∧ v.pointer ≤ c.last + 1) ∧
    (ranges.Pairwise fun r q => ∀ a, ¬ (r.holds a ∧ q.holds a)) ∧
    (∀ r ∈ ranges, ∀ a, r.holds a → ¬ v.tailHolds a) ∧
    ∀ q, v.staged = some q →
      v.current ≠ none ∧ q.first ≤ q.last ∧ ∀ a, q.holds a → ¬ v.tailHolds a ∧ ∀ r ∈ ranges, ¬ r.holds a

/-- The addresses of a drive that R94 protects: those of its current region, and those of the assigned range of every placed leg on it
(R5). -/
def State.protects (s : State) (d : Fin 6) (a : Nat) : Prop :=
  (∃ c, (s.drives[d.val]).current = some c ∧ c.holds a) ∨
    ∃ h j l base, s.job? h = some j ∧ l ∈ j.legs ∧ l.target = .drive d ∧ l.base = some base ∧ base ≤ a ∧ a < base + j.blocks

/-- The assigned ranges of each drive share no address, and no later placement can fall into one (R96). -/
def State.rangesOk (s : State) : Prop :=
  ∀ d : Fin 6, (s.drives[d.val]).rangesOk (s.assignedRanges d)

/-- The writer's conditions of R99 but the grant: the link is UP; a tag waits in the retry list, or a write in the queue with a tag FREE; and
the window's issued count is below the effective ceiling, or that is 0 (R99, R141). -/
def State.writeReady (s : State) (x : Target) : Prop :=
  s.linkUp (targetPort x) = true ∧
    ((s.writer x).retry ≠ [] ∨ ((s.writer x).queue ≠ [] ∧ ∃ k : Fin 16, ((s.writer x).tags[k.val]).state = .free)) ∧
    ((s.window x).issued < (s.window x).effective.ceiling ∨ (s.window x).effective.ceiling = 0)

/-- The check side is eligible: the link is UP, and a tag waits in the check retry list or a slot awaits the link (R131). -/
def State.checkReady (s : State) (d : Fin 6) : Prop :=
  s.linkUp (.drive d) = true ∧ ((s.readers[d.val]).retry ≠ [] ∨ (s.readers[d.val]).awaiting ≠ none)

/-- A source of C's transmitter has a frame: a response or a notice stands in its queue, or T6's write side can issue (R168). -/
def State.sourceReady (s : State) : Source → Prop
  | .response => s.control.responses ≠ []
  | .notice => s.handler.notices ≠ []
  | .sink => s.writeReady .sink

/-- No link waits with something to send: a drive's arbiter that is IDLE has no eligible side (R131), and C's transmitter that is FREE
with C UP has no source with a frame (R168). -/
def State.linksServed (s : State) : Prop :=
  (∀ d : Fin 6, (s.sides[d.val]).granted = false → ¬ s.writeReady (.drive d) ∧ ¬ s.checkReady d) ∧
    (s.linkUp .control = true → s.control.sending = none → ∀ c, ¬ s.sourceReady c)

/-- How many read tags of a port are BUSY. -/
def IngestPort.busyReads (p : IngestPort) : Nat :=
  (p.tags.toList.filter fun g => match g.state with | .busy _ _ _ _ _ => true | .free | .abandoned _ => false).length

/-- The Ingest Sequencers and the Job Table agree (R9, R10, R13, R18, R50, R53). A port's reading job is a READING job of that port, its
media is present, and its requested blocks are those that have arrived and those under the port's BUSY tags; a READING job is its port's
reading job; a BUSY tag is the reading job's; a line-up holds, once each, the port's LOADED jobs, of which nothing has been requested, and the media
is present while there is one; a port that reads no job has an empty line-up, for its head would have started in the event that left the
port without a reading job (R10). -/
structure State.sequencersOk (s : State) : Prop where
  reading : ∀ (i : Fin 8) (h : Fin 64), (s.ingest[i.val]).reading = some h → (s.ingest[i.val]).media ≠ none ∧
    ∃ j, s.job? h = some j ∧ j.port = i ∧ j.state = .reading ∧ j.arrived + (s.ingest[i.val]).busyReads = j.requested ∧
      j.requested ≤ j.blocks
  alone : ∀ h j, s.job? h = some j → j.state = .reading → (s.ingest[j.port.val]).reading = some h
  busy : ∀ (i k : Fin 8) (h : Fin 64) (index slot : Nat) (issued : Tick) (attempt : Nat),
    ((s.ingest[i.val]).tags[k.val]).state = .busy h index slot issued attempt → (s.ingest[i.val]).reading = some h
  lineUp : ∀ i : Fin 8, (s.ingest[i.val]).lineUp.Nodup ∧
    ∀ h ∈ (s.ingest[i.val]).lineUp, ∃ j, s.job? h = some j ∧ j.port = i ∧ j.state = .loaded
  loaded : ∀ h j, s.job? h = some j → j.state = .loaded →
    h ∈ (s.ingest[j.port.val]).lineUp ∧ j.requested = 0 ∧ j.arrived = 0 ∧ (s.ingest[j.port.val]).media ≠ none
  started : ∀ i : Fin 8, (s.ingest[i.val]).reading = none → (s.ingest[i.val]).lineUp = []

/-- The command of an event that a tick has found due and that has not been taken: the expiry of a read, write or check tag, or the end of
a window (R59, R103, R125, R139). -/
def State.isDue (s : State) : Instr → Prop
  | .readTagExpiry i k => ((s.ingest[i.val]).tags[k.val]).due = true
  | .writeTagExpiry x k => ((s.writer x).tags[k.val]).due = true
  | .checkTagExpiry d k => ((s.readers[d.val]).tags[k.val]).due = true
  | .windowEnd x => (s.window x).endDue = true
  | _ => False

/-! ## What only goes forward -/

/-- How far a job state lies in Table 1-5. -/
def JobState.rank : JobState → Nat
  | .loaded => 0
  | .reading => 1
  | .settling => 2
  | .done | .failed | .aborted => 3

/-- How far a leg state lies in Table 1-6. -/
def LegState.rank : LegState → Nat
  | .idle => 0
  | .writing => 1
  | .written => 2
  | .verifying => 3
  | .good | .mismatch | .failed | .deferred | .abandoned => 4

/-- A leg record after some events of its job's life: target and verify as loaded, never further back in Table 1-6, a terminal state
with its cause and timestamp as it stood (R4), a placed leg's base and a written leg's timestamp as they stood (R5, R7), no count
lower. -/
structure Leg.advancesTo (l m : Leg) : Prop where
  target : m.target = l.target
  verify : m.verify = l.verify
  rank : l.state.rank ≤ m.state.rank
  final : l.state.terminal = true → m.state = l.state ∧ m.cause = l.cause ∧ m.finished = l.finished
  base : l.state ≠ .idle → m.base = l.base
  written : 2 ≤ l.state.rank → m.written = l.written
  sent : l.sent ≤ m.sent
  acked : l.acked ≤ m.acked
  checked : l.checked ≤ m.checked
  verified : l.context.next ≤ m.context.next

/-- The counts and the verify context of a leg as they stood (R6, R22). -/
def Leg.countsStand (l m : Leg) : Prop :=
  m.sent = l.sent ∧ m.acked = l.acked ∧ m.checked = l.checked ∧ m.context = l.context

/-- A job record after some events of its life: what the load gave as it stood, never further back in Table 1-5, a terminal state with
its cause and timestamp as it stood (R24), timestamps taken once (R7), no count lower (R6), each leg advanced, and once the job is
terminal every count and digest context as it stood (R6, R22). -/
structure Job.advancesTo (j k : Job) : Prop where
  port : k.port = j.port
  identity : k.identity = j.identity
  length : k.length = j.length
  runs : k.runs = j.runs
  required : k.required = j.required
  expected : k.expected = j.expected
  loadedAt : k.loadedAt = j.loadedAt
  rank : j.state.rank ≤ k.state.rank
  final : j.state.terminal = true → k.state = j.state ∧ k.cause = j.cause ∧ k.finishedAt = j.finishedAt
  started : j.state ≠ .loaded → k.startedAt = j.startedAt
  arrivedAll : 2 ≤ j.state.rank → k.arrivedAllAt = j.arrivedAllAt
  requested : j.requested ≤ k.requested
  arrived : j.arrived ≤ k.arrived
  digested : j.ingest.next ≤ k.ingest.next
  legCount : k.legs.length = j.legs.length
  legs : ∀ (n : Nat) (l : Leg), j.legs[n]? = some l →
    ∃ m, k.legs[n]? = some m ∧ l.advancesTo m ∧ (j.state.terminal = true → l.countsStand m)
  stands : j.state.terminal = true → k.requested = j.requested ∧ k.arrived = j.arrived ∧ k.ingest = j.ingest

/-- Every job of one state stands in the other, advanced. -/
structure State.advancesTo (s t : State) : Prop where
  jobs : ∀ (h : Fin 64) (j : Job), s.job? h = some j → ∃ k, t.job? h = some k ∧ j.advancesTo k

/-! ## The rest of an event -/

/-- What the grants at the end of an event may do to a leg: its sent and requested counts rise. -/
def Leg.issuesTo (l m : Leg) : Prop :=
  m = { l with sent := m.sent, checked := m.checked } ∧ l.sent ≤ m.sent ∧ l.checked ≤ m.checked

/-- What the end of an event may do to a job: its requested count rises, its JOB_FINISHED is handed over, its legs issue. -/
structure Job.issuesTo (j k : Job) : Prop where
  rest : k = { j with requested := k.requested, legs := k.legs, announced := k.announced }
  requested : j.requested ≤ k.requested
  announced : j.announced = true → k.announced = true
  legCount : k.legs.length = j.legs.length
  legs : ∀ (n : Nat) (l : Leg), j.legs[n]? = some l → ∃ m, k.legs[n]? = some m ∧ l.issuesTo m

/-- A read tag at the end of an event: as it stood, or a FREE tag under which one read was issued (R55). -/
def ReadTag.issuesTo (now : Tick) (g f : ReadTag) : Prop :=
  f = g ∨ g.state = .free ∧ ∃ h index slot, f = ⟨.busy h index slot now 0, g.gen + 1, false⟩

/-- An ingest port at the end of an event: reads may have been issued under its FREE tags. -/
structure IngestPort.issuesTo (now : Tick) (p q : IngestPort) : Prop where
  rest : q = { p with tags := q.tags }
  tags : ∀ k : Fin 8, (p.tags[k.val]).issuesTo now q.tags[k.val]

/-- A writer at the end of an event: heads of its lists may have been issued; a tag that is neither FREE nor in the retry list is as it
stood (R99, R100). -/
structure Writer.issuesTo (w v : Writer) : Prop where
  rest : v = { w with queue := v.queue, retry := v.retry, tags := v.tags }
  queue : v.queue <:+ w.queue
  retry : v.retry <:+ w.retry
  tags : ∀ k : Fin 16, (w.tags[k.val]).state ≠ .free → k ∉ w.retry → v.tags[k.val] = w.tags[k.val]

/-- A reader at the end of an event: heads of its lists may have been issued, a slot may await the link (R121, R122). -/
structure VerifyReader.issuesTo (w v : VerifyReader) : Prop where
  work : v.work = w.work
  retry : v.retry <:+ w.retry
  tags : ∀ k : Fin 8, (w.tags[k.val]).state ≠ .free → k ∉ w.retry → v.tags[k.val] = w.tags[k.val]

/-- A target arbiter at the end of an event: as it stood while GRANTED; the weights always (R131, R132). -/
def TargetArbiter.issuesTo (a b : TargetArbiter) : Prop :=
  (a.granted = true → b = a) ∧ b.writeWeight = a.writeWeight ∧ b.checkWeight = a.checkWeight

/-- A window at the end of an event: writes issued are counted, and the had-work flag may be set (R141, R143). -/
def Window.issuesTo (w v : Window) : Prop :=
  v = { w with issued := v.issued, hadWork := v.hadWork } ∧ min w.issued Config.countLimit ≤ v.issued ∧
    (w.hadWork = true → v.hadWork = true)

/-- A Link Port at the end of an event: frames may have joined those handed to it. -/
def LinkPort.issuesTo (l m : LinkPort) : Prop :=
  m = { l with tx := m.tx } ∧ l.tx <+: m.tx

/-- The pool at the end of an event: slots may have been RESERVED; every slot that was not FREE is as it stood (R32). -/
def State.slotsIssueTo (s t : State) : Prop :=
  s.poolOk → t.poolOk ∧ (∀ n x, s.slot? n = some x → t.slot? n = some x) ∧
    ∀ n x, t.slot? n = some x → s.slot? n = some x ∨ x.held = none

/-- The Request Handler once notices have been handed to it, in order: each joins the tail while fewer than 32 wait, and one that finds 32
is dropped; NOTICE_LOST is set exactly if one was dropped or it stood set (R184). -/
def Handler.hands (q : Handler) (l : List Notice) (r : Handler) : Prop :=
  r.notices = q.notices ++ l.take (32 - q.notices.length) ∧
    r.noticeLost = (q.noticeLost || decide (32 - q.notices.length < l.length))

/-- A notice is the JOB_FINISHED of a terminal job that has not handed it over (R24, R188). -/
def State.owesNotice (s : State) (n : Notice) : Prop :=
  ∃ h j, s.job? h = some j ∧ j.state.terminal = true ∧ j.announced = false ∧ n = .jobFinished h j.state j.cause j.goodLegs j.port

/-- What the end of an event may do once its effects on jobs and legs are in: the JOB_FINISHED notices of ended jobs, and no others, are
handed over, and NOTICE_LOST is set if one is dropped; the computed
lamp states follow their inputs, slots are granted, reads, writes and check reads are issued, and C's transmitter is tested. All else is
as it stood. -/
structure State.settlesTo (s t : State) : Prop where
  pins : t.resetN = s.resetN ∧ t.nodeId0 = s.nodeId0 ∧ t.nodeId1 = s.nodeId1 ∧ t.pending = s.pending
  time : t.timer = s.timer ∧ t.blink = s.blink
  kept : t.sessions = s.sessions ∧ t.digest = s.digest ∧ t.drives = s.drives
  handler : t.handler.requests = s.handler.requests ∧ t.handler.taking = s.handler.taking
  notices : ∃ l, s.handler.hands l t.handler ∧ ∀ n ∈ l, s.owesNotice n
  control : t.control.unanswered = s.control.unanswered ∧ t.control.responses = s.control.responses ∧
    (s.control.sending ≠ none → t.control = s.control)
  links : ∀ p, (s.link p).issuesTo (t.link p)
  lamps : ∀ i : Fin 8, t.lamps[i.val] = { s.lamps[i.val] with computed := (t.lamps[i.val]).computed }
  jobs : ∀ h, s.job? h = none → t.job? h = none
  job : ∀ h j, s.job? h = some j → ∃ k, t.job? h = some k ∧ j.issuesTo k
  slots : s.slotsIssueTo t
  ingest : ∀ i : Fin 8, (s.ingest[i.val]).issuesTo s.now t.ingest[i.val]
  writers : ∀ x, (s.writer x).issuesTo (t.writer x)
  readers : ∀ d : Fin 6, (s.readers[d.val]).issuesTo t.readers[d.val]
  sides : ∀ d : Fin 6, (s.sides[d.val]).issuesTo t.sides[d.val]
  windows : ∀ x, (s.window x).issuesTo (t.window x)

/-- What an event leaves as it stood, whatever it does to jobs, legs, tags and slots: pins, waiting commands, time, the request queue,
C's counts, what the links and the lamps show, every media record and every setting; notices join at the tail, NOTICE_LOST being set exactly
if one is dropped, the pool keeps its form,
and jobs and legs only go forward. -/
structure State.runsOnTo (s t : State) : Prop where
  pins : t.resetN = s.resetN ∧ t.nodeId0 = s.nodeId0 ∧ t.nodeId1 = s.nodeId1 ∧ t.pending = s.pending
  time : t.timer = s.timer ∧ t.blink = s.blink
  handler : t.handler.requests = s.handler.requests ∧ t.handler.taking = s.handler.taking
  notices : ∃ l, s.handler.hands l t.handler
  control : t.control.unanswered = s.control.unanswered ∧ t.control.responses = s.control.responses ∧
    (s.control.sending ≠ none → t.control = s.control)
  links : ∀ p, (s.link p).issuesTo (t.link p)
  lamps : ∀ i : Fin 8, t.lamps[i.val] = { s.lamps[i.val] with computed := (t.lamps[i.val]).computed }
  absent : ∀ h, s.job? h = none → t.job? h = none
  jobs : s.advancesTo t
  pool : s.poolOk → t.poolOk
  cards : ∀ i : Fin 8, (t.ingest[i.val]).media = (s.ingest[i.val]).media ∧ (t.ingest[i.val]).timeout = (s.ingest[i.val]).timeout ∧
    (t.ingest[i.val]).retryLimit = (s.ingest[i.val]).retryLimit
  media : ∀ d : Fin 6, (t.drives[d.val]).media = (s.drives[d.val]).media
  writers : ∀ x, (t.writer x).timeout = (s.writer x).timeout ∧ (t.writer x).retryLimit = (s.writer x).retryLimit ∧
    (t.writer x).policy = (s.writer x).policy
  sides : ∀ d : Fin 6, (s.sides[d.val]).issuesTo t.sides[d.val]
  windows : ∀ x, (s.window x).issuesTo (t.window x)

/-! ## What an event has brought about -/

/-- A job has gone FAILED in this event: its cause, its finished timestamp, and every leg in a terminal state (R18, R22). -/
def State.failedIn (s t : State) (h : Fin 64) (cause : JobCause) : Prop :=
  ∃ k, t.job? h = some k ∧ k.state = .failed ∧ k.cause = some cause ∧ k.finishedAt = some s.now ∧
    ∀ l ∈ k.legs, l.state.terminal = true

/-- A job has gone ABORTED, CANCELLED, in this event (R25). -/
def State.abortedIn (s t : State) (h : Fin 64) : Prop :=
  ∃ k, t.job? h = some k ∧ k.state = .aborted ∧ k.cause = some .cancelled ∧ k.finishedAt = some s.now ∧
    ∀ l ∈ k.legs, l.state.terminal = true

/-- A table of write or check tags, and its retry list, after the work of a job's leg has been withdrawn: no tag is BUSY for the job, its
sent tags are ABANDONED with generation and issue tick kept, its waiting tags have left the retry list and are FREE with their generation
kept, or in use again for another job; a tag that was ABANDONED before stands (R106, R110, R129). -/
structure tagsWithdrawn {n : Nat} (h : Fin 64) (before after : Vector BlockTag n) (retry : List (Fin n)) : Prop where
  busy : ∀ k : Fin n, (after[k.val]).isFor h = false
  sent : ∀ (k : Fin n) (w : TagWork) (issued : Tick), (before[k.val]).state = .sent w issued → w.ref.job = h →
    after[k.val] = { before[k.val] with state := .abandoned issued }
  waiting : ∀ (k : Fin n) (w : TagWork), (before[k.val]).state = .waiting w → w.ref.job = h →
    k ∉ retry ∧ (after[k.val] = ⟨.free, (before[k.val]).gen, false⟩ ∨
      ∃ v issued, after[k.val] = ⟨.sent v issued, (before[k.val]).gen + 1, false⟩ ∧ v.ref.job ≠ h)
  kept : ∀ (k : Fin n) (issued : Tick), (before[k.val]).state = .abandoned issued → after[k.val] = before[k.val]

/-- A writer's withdrawal of the writes of a job's leg (R106). -/
structure State.writesWithdrawn (x : Target) (h : Fin 64) (s t : State) : Prop where
  queue : ∀ e ∈ (t.writer x).queue, e.ref.job ≠ h
  tags : tagsWithdrawn h (s.writer x).tags (t.writer x).tags (t.writer x).retry

/-- The pool's part where a job's leg on a target leaves WRITING other than by its last acknowledgement (R40, R42): no slot of the job
names the target, and a HELD slot that this leaves digested and owed to none is freed, though the event may have reserved it anew. -/
structure State.slotsSettled (x : Target) (h : Fin 64) (s t : State) : Prop where
  owed : ∀ n y, t.slot? n = some y → y.job = h → x ∉ y.owed
  freed : s.poolOk → ∀ n y b, s.slot? n = some y → y.job = h → x ∈ y.owed → (∀ z ∈ y.owed, z = x) → y.held = some b →
    b.digested = true → ∀ z, t.slot? n = some z → z.held = none

/-- Every slot that names a target belongs to a job whose leg on it is WRITING (R35, R40). -/
def State.owedByWriting (s : State) (x : Target) : Prop :=
  ∀ y ∈ s.slots, x ∈ y.owed → s.legOnIs y.job x (fun z => decide (z = .writing)) = true

/-- The slots that a test selects have been withdrawn (R43, R44, R86, R87): of them only one in digest is left, marked withdrawn, and
no block of theirs that waited for its digest is in the ready list. -/
structure State.slotsWithdrawn (mine : Slot → Bool) (s t : State) : Prop where
  slots : ∀ n y, t.slot? n = some y → mine y = true → ∃ b, y.held = some b ∧ b.inDigest = true ∧ b.withdrawn = true
  ready : ∀ n y b, s.slot? n = some y → mine y = true → y.held = some b → b.digested = false → b.inDigest = false →
    n ∉ t.digest.ready

/-- A leg has left its drive's verify work list by another event than its comparison (R129, R44, R87). -/
structure State.verifyGone (d : Fin 6) (r : LegRef) (s t : State) : Prop where
  work : ∀ q ∈ (t.readers[d.val]).work, q.job ≠ r.job
  tags : tagsWithdrawn r.job (s.readers[d.val]).tags (t.readers[d.val]).tags (t.readers[d.val]).retry
  slots : State.slotsWithdrawn (Slot.checkOf r) s t

/-- The withdrawals of Table 1-8 but the Ingest Sequencer's: at every writer (R106, R107), of the job's INGEST slots and their entries in the
ready list (R43, R86), and of each of its legs in a verify work list (R129, R44, R87). -/
structure State.workGone (h : Fin 64) (s t : State) : Prop where
  writes : ∀ x, State.writesWithdrawn x h s t
  slots : State.slotsWithdrawn (Slot.ingestOf h) s t
  verify : s.outcomesOk → ∀ d : Fin 6, ∀ r ∈ (s.readers[d.val]).work, r.job = h → State.verifyGone d r s t

/-- The Ingest Sequencer's withdrawal of Table 1-8: the BUSY tags of a port whose reading job is the job are ABANDONED, with generation and
issue tick kept (R22, R53). -/
def State.readsAbandoned (h : Fin 64) (s t : State) : Prop :=
  ∀ j, s.job? h = some j → (s.ingest[j.port.val]).reading = some h →
    ∀ (k : Fin 8) (g : Fin 64) (index num : Nat) (issued : Tick) (attempt : Nat),
      ((s.ingest[j.port.val]).tags[k.val]).state = .busy g index num issued attempt →
      (t.ingest[j.port.val]).tags[k.val] = { (s.ingest[j.port.val]).tags[k.val] with state := .abandoned issued }

/-- A card has been lost, and its session ended where another card took its place: the port's LOADED jobs and its READING job have failed
SOURCE_LOST, the line-up is empty and no job of the port is being read (R18, R66). The port's SETTLING jobs are unchanged but for what the
end of an event issues (R18) and the session mark of an ended session (R8); that is said where every head of a verify work list is
VERIFYING and no leg of the job that was being read stands in one: such a leg has all its blocks acknowledged, so its job would be SETTLING
(R17), and at its teardown the next leg of the list would become VERIFYING. -/
structure State.cardLost (i : Fin 8) (ended : Bool) (s t : State) : Prop where
  loaded : ∀ h j, s.job? h = some j → j.port = i → j.state = .loaded → s.failedIn t h .sourceLost
  reading : ∀ h j, (s.ingest[i.val]).reading = some h → s.job? h = some j → j.port = i → j.state = .reading →
    s.failedIn t h .sourceLost ∧ State.workGone h s t ∧ (t.ingest[i.val]).reading = none
  settling : s.headsActive →
    (∀ (d : Fin 6) (r : LegRef), r ∈ (s.readers[d.val]).work → (s.ingest[i.val]).reading ≠ some r.job) →
    ∀ h j, s.job? h = some j → j.port = i → j.state = .settling → (s.ingest[i.val]).reading ≠ some h →
      ∃ k, t.job? h = some k ∧ ({ j with session := j.session && !ended } : Job).issuesTo k
  lineUp : (t.ingest[i.val]).lineUp = []

/-- What the placement at its job's start makes of an IDLE leg of n blocks, by its target as it stands: WRITING at its base, FAILED
TARGET_FULL, or FAILED LOST where the target is not available (R11, R91, R93). -/
def State.placedLeg (s : State) (n : Nat) (l : Leg) : Leg :=
  let failed (c : LegCause) : Leg := { l with state := .failed, cause := some c, finished := some s.now }
  if s.available l.target then
    match l.target with
    | .sink => { l with state := .writing, base := some 0 }
    | .drive d =>
      match ((s.drives[d.val]).place n).2 with
      | some b => { l with state := .writing, base := some b }
      | none => failed .targetFull
  else failed .lost

/-- A drive after the start of a job of n blocks with the given legs: a leg on it has been placed, if it is available (R11, R95). -/
def State.placedDrive (s : State) (n : Nat) (legs : List Leg) (d : Fin 6) : Drive :=
  if s.available (.drive d) && legs.any fun l => decide (l.target = .drive d) then ((s.drives[d.val]).place n).1 else s.drives[d.val]

/-- What the start of a job of no blocks with a leg placed WRITING makes of the job (R12, R187): its arrived-all timestamp is its start
and its ingest digest is final, with no block, from the context LOAD_JOB gave it (R78); an expected digest that differs fails it
SOURCE_MISMATCH (R14); otherwise each WRITING leg is WRITTEN, then GOOD, or, to be verified, compared with its own context's digest
(R120, R128), but behind others of its drive's list it waits there WRITTEN and the job stays SETTLING; when every leg has ended the job is
DONE, or FAILED, INSUFFICIENT_COPIES (R15). Of the jobs `behind` it in the line-up later ones may join those lists after it. -/
def State.emptyStart (s t : State) (h : Fin 64) (q : Job) (behind : List (Fin 64)) : Prop :=
  let placed := q.legs.map (s.placedLeg 0)
  let g := finalDigest q.ingest 0
  let verifies (l : Leg) : Prop := l.verify = true ∧ ∃ d, l.target = .drive d
  let waits (l : Leg) : Prop := l.verify = true ∧ ∃ d, l.target = .drive d ∧ (s.readers[d.val]).work ≠ []
  ∃ k, t.job? h = some k ∧ k.startedAt = some s.now ∧ k.arrivedAllAt = some s.now ∧
    k.ingest = { q.ingest with final := some g } ∧ (q.ingest = ⟨1, 0, 0, none⟩ → k.ingest = ⟨1, 0, 0, some 0x0000000100000001⟩) ∧
    (∀ e, q.expected = some e → e ≠ g →
      k.state = .failed ∧ k.cause = some .sourceMismatch ∧ k.finishedAt = some s.now ∧ ∀ l ∈ k.legs, l.state.terminal = true) ∧
    (q.expected = none ∨ q.expected = some g →
      k.legs.length = placed.length ∧
        (∀ (m : Nat) (l f : Leg), placed[m]? = some l → k.legs[m]? = some f →
          (l.state ≠ .writing → f = { l with sent := f.sent }) ∧
          (l.state = .writing → f.base = l.base ∧ f.written = some s.now) ∧
          (l.state = .writing → ¬ waits l → f.finished = some s.now ∧ f.cause = none ∧
            (verifies l → finalDigest l.context 0 ≠ g → f.state = .mismatch) ∧
            (¬ verifies l ∨ finalDigest l.context 0 = g → f.state = .good)) ∧
          (l.state = .writing → waits l → f.state = .written ∧ f.finished = l.finished ∧
            ∀ d, l.target = .drive d → ∃ later,
              (t.readers[d.val]).work = (s.readers[d.val]).work ++ [⟨h, m⟩] ++ later ∧ (behind = [] → later = []))) ∧
        ((∃ l ∈ placed, l.state = .writing ∧ waits l) → k.state = .settling) ∧
        ((∀ l ∈ placed, l.state = .writing → ¬ waits l) →
          k.finishedAt = some s.now ∧
            (k.state, k.cause) =
              if q.required ≤ k.goodLegs ∧ k.goodLegs ≠ 0 then (.done, none) else (.failed, some .insufficientCopies)))

/-- A leg has gone FAILED with a cause in this event (R20). -/
def State.legFailed (s t : State) (r : LegRef) (cause : LegCause) : Prop :=
  ∃ m, t.leg? r = some m ∧ m.state = .failed ∧ m.cause = some cause ∧ m.finished = some s.now

/-- A target has been lost: each of its WRITING, WRITTEN and VERIFYING legs has failed LOST (R110). -/
def State.legsLost (x : Target) (s t : State) : Prop :=
  ∀ h r l, s.legOn h x = some r → s.leg? r = some l → l.state.lostWithTarget = true → s.legFailed t r .lost

/-- What the loss of a drive leaves of its work (R40, R44, R106, R110, R130): its reader holds no leg, no slot and no read to retry; of its
legs' CHECK slots only one in digest, marked withdrawn; nothing of a lost WRITING leg in the writer or the pending-target sets, so that,
where every slot that named the drive belonged to such a leg (R39), the drive's occupancy is 0. -/
structure State.driveCleared (d : Fin 6) (s t : State) : Prop where
  reader : (t.readers[d.val]).work = [] ∧ (t.readers[d.val]).awaiting = none ∧ (t.readers[d.val]).retry = []
  checks : ∀ r ∈ (s.readers[d.val]).work, ∀ n y, t.slot? n = some y → y.checkOf r = true →
    ∃ b, y.held = some b ∧ b.inDigest = true ∧ b.withdrawn = true
  writes : ∀ h, s.legOnIs h (.drive d) (fun x => decide (x = .writing)) = true →
    (∀ e ∈ (t.writer (.drive d)).queue, e.ref.job ≠ h) ∧ (∀ k : Fin 16, ((t.writer (.drive d)).tags[k.val]).isFor h = false) ∧
      State.slotsSettled (.drive d) h s t
  occupancy : s.owedByWriting (.drive d) → t.occupancy (.drive d) = 0

/-- The tags of the lost legs at a drive removal, where no port reset frees them all (R106, R110, R129, R130). -/
structure State.driveTagsWithdrawn (d : Fin 6) (s t : State) : Prop where
  writes : ∀ h, s.legOnIs h (.drive d) (fun x => decide (x = .writing)) = true →
    tagsWithdrawn h (s.writer (.drive d)).tags (t.writer (.drive d)).tags (t.writer (.drive d)).retry
  checks : ∀ r ∈ (s.readers[d.val]).work, tagsWithdrawn r.job (s.readers[d.val]).tags (t.readers[d.val]).tags (t.readers[d.val]).retry

/-- The next notice to join the Notice Queue after a state, if the queue has room for it. -/
def State.nextNotice (s t : State) (n : Notice) : Prop :=
  s.handler.notices.length < Config.noticePlaces → t.handler.notices[s.handler.notices.length]? = some n

/-- The handler can take a request: it is IDLE and the request is the head of its queue (R172). -/
def State.takes (s : State) (r : Request) (rest : List Request) : Prop :=
  s.resetN = true ∧ s.handler.taking = false ∧ s.handler.requests = r :: rest

/-- The state in which a request has left the queue and its RESPONSE stands at the tail of the response queue (R172, R173). -/
def State.answered (s : State) (r : Request) (rest : List Request) (result : Result) (body : List Byte) : State :=
  { s with
    handler := { s.handler with requests := rest }
    control := { s.control with responses := s.control.responses ++ [⟨r.seq, r.kind, result, body⟩] } }

/-! ## How a job ends -/

/-- A running job's end is due: it has no viable leg (R16), or it is SETTLING with its ingest digest final and not refused by the expected
one, and every leg is terminal (R15). -/
def Job.endDue (j : Job) : Prop :=
  ((j.state = .reading ∨ j.state = .settling) ∧ ∀ l ∈ j.legs, l.state.viable = false) ∨
    (j.state = .settling ∧ (∃ g, j.ingest.final = some g ∧ (j.expected = none ∨ j.expected = some g)) ∧
      ∀ l ∈ j.legs, l.state.terminal = true)

/-- What brings a job to the end it has come to in a command: enough GOOD legs, or too few or no viable one (R15, R16); an ingest digest
other than the expected one (R14); the loss of the card on its own port (R18, R66, R69, R182); a failed read on its own port (R19, R61); the
cancel that names it (R25). -/
def Job.endedBy (k : Job) (h : Fin 64) (c : Instr) (s : State) : Prop :=
  (k.state = .done ∧ k.cause = none ∧ k.required ≤ k.goodLegs) ∨
    (k.state = .failed ∧ k.cause = some .insufficientCopies ∧
      (k.goodLegs < k.required ∨ ∀ l ∈ k.legs, l.state.viable = false)) ∨
    (k.state = .failed ∧ k.cause = some .sourceMismatch ∧ ∃ g e, k.ingest.final = some g ∧ k.expected = some e ∧ e ≠ g) ∨
    (k.state = .failed ∧ k.cause = some .sourceLost ∧
      ((∃ m, c = .ingestMediaReport k.port m) ∨ c = .linkDown (.ingest k.port) ∨
        (c = .resetPort ∧ ∃ r rest, s.takes r rest ∧ r.kind = 11 ∧ readPortCode r.body = some k.port.val))) ∨
    (k.state = .failed ∧ k.cause = some .sourceReadError ∧
      ((∃ tag gen, c = .blockData k.port tag gen .readError) ∨ ∃ n, c = .readTagExpiry k.port n)) ∨
    (k.state = .aborted ∧ k.cause = some .cancelled ∧ c = .cancelJob ∧
      ∃ r rest, s.takes r rest ∧ r.kind = 2 ∧ readHandle r.body = some h)

/-! ## What a report holds -/

/-- The bytes of a body hold numbers: each entry is an offset, a width in bytes and a number, of which the field holds what fits. -/
def holdsFields (b : List Byte) (fields : List (Nat × Nat × Nat)) : Prop :=
  ∀ f ∈ fields, fieldAt b f.1 f.2.1 = f.2.2 % 256 ^ f.2.1

/-- An optional number of a request body: its presence byte stands at an offset, and k bytes after it count when it is 1 (R171). -/
def optField (b : List Byte) (o k : Nat) : Option Nat :=
  if fieldAt b o 1 = 1 then some (fieldAt b (o + 1) k) else none

/-- A word that may be absent, as a number; absent is 0. -/
def wordOr0 {n : Nat} (x : Option (BitVec n)) : Nat :=
  (x.map BitVec.toNat).getD 0

/-- The leg part of QUERY_JOB, at an offset (Table 9-10). -/
def Leg.fieldsAt (l : Leg) (o : Nat) : List (Nat × Nat × Nat) :=
  [(o, 1, targetCode l.target), (o + 1, 1, l.verify.toNat), (o + 2, 1, l.state.code), (o + 3, 1, legCauseCode l.cause),
    (o + 4, 1, l.base.isSome.toNat), (o + 5, 1, l.context.final.isSome.toNat), (o + 6, 1, l.written.isSome.toNat),
    (o + 7, 1, l.finished.isSome.toNat), (o + 8, 8, l.base.getD 0), (o + 16, 4, l.sent), (o + 20, 4, l.acked),
    (o + 24, 4, l.context.a), (o + 28, 4, l.context.b), (o + 32, 4, l.context.next), (o + 36, 4, l.checked),
    (o + 40, 8, wordOr0 l.context.final), (o + 48, 4, wordOr0 l.written), (o + 52, 4, wordOr0 l.finished), (o + 56, 8, 0)]

/-- The body of QUERY_JOB: the job part of Table 9-9, a leg part for each leg in leg order, and the run list (R177). -/
def Job.reportedIn (h : Fin 64) (j : Job) (b : List Byte) : Prop :=
  b.length = 96 + 64 * j.legs.length + 12 * j.runs.length ∧
    holdsFields b
      [(0, 1, h.val), (1, 1, j.state.code), (2, 1, j.port.val), (3, 1, jobCauseCode j.cause), (4, 1, j.legs.length), (5, 1, j.runs.length),
        (6, 1, j.required), (7, 1, j.expected.isSome.toNat), (8, 8, j.identity.toNat), (16, 8, j.length), (24, 4, j.blocks),
        (28, 4, j.requested), (32, 4, j.arrived), (36, 4, j.ingest.next), (40, 8, wordOr0 j.expected), (48, 4, j.ingest.a),
        (52, 4, j.ingest.b), (56, 4, j.ingest.next), (60, 1, j.ingest.final.isSome.toNat), (61, 1, j.session.toNat),
        (62, 1, j.startedAt.isSome.toNat), (63, 1, j.arrivedAllAt.isSome.toNat), (64, 1, j.finishedAt.isSome.toNat), (65, 3, 0),
        (68, 8, wordOr0 j.ingest.final), (76, 4, j.loadedAt.toNat), (80, 4, wordOr0 j.startedAt), (84, 4, wordOr0 j.arrivedAllAt),
        (88, 4, wordOr0 j.finishedAt), (92, 4, 0)] ∧
    (∀ (n : Nat) (l : Leg), j.legs[n]? = some l → holdsFields b (l.fieldsAt (96 + 64 * n))) ∧
    ∀ (n : Nat) (r : Run), j.runs[n]? = some r →
      holdsFields b [(96 + 64 * j.legs.length + 12 * n, 8, r.start), (96 + 64 * j.legs.length + 12 * n + 8, 4, r.count)]

/-- A region at an offset: presence, start and end. -/
def regionFields (r : Option Region) (o : Nat) : List (Nat × Nat × Nat) :=
  [(o, 1, r.isSome.toNat), (o + 1, 8, (r.map Region.first).getD 0), (o + 9, 8, (r.map Region.last).getD 0)]

/-- The body of SET_TARGET's OK, in the order of Table 10-1, with the region disposition of Table 10-2; for T6 the regions are absent and
the weights 3 and 1 (R178). -/
def State.targetSetIn (s : State) (x : Target) (disposition : Nat) (b : List Byte) : Prop :=
  let w := s.writer x
  let q := s.window x
  let v : Drive := match x with | .drive d => s.drives[d.val] | .sink => ⟨none, none, none, 0⟩
  let weights : Nat × Nat := match x with | .drive d => ((s.sides[d.val]).writeWeight, (s.sides[d.val]).checkWeight) | .sink => (3, 1)
  b.length = 51 ∧
    holdsFields b
      ([(0, 1, targetCode x), (1, 1, disposition)] ++ regionFields v.current 2 ++ regionFields v.staged 19 ++
        [(36, 2, q.latch), (38, 2, q.staged.quota), (40, 2, q.staged.floor), (42, 2, q.staged.ceiling), (44, 1, q.staged.stallLimit),
          (45, 2, w.timeout), (47, 1, w.retryLimit), (48, 1, weights.1), (49, 1, weights.2), (50, 1, w.policy.code)])

/-- How many tags of a table stand FREE, BUSY sent, BUSY waiting and ABANDONED, at an offset. -/
def tagFields (tags : List BlockTag) (o : Nat) : List (Nat × Nat × Nat) :=
  let count (test : BlockTagState → Bool) : Nat := (tags.filter fun g => test g.state).length
  [(o, 1, count fun x => match x with | .free => true | .sent _ _ | .waiting _ | .abandoned _ => false),
    (o + 1, 1, count fun x => match x with | .sent _ _ => true | .free | .waiting _ | .abandoned _ => false),
    (o + 2, 1, count fun x => match x with | .waiting _ => true | .free | .sent _ _ | .abandoned _ => false),
    (o + 3, 1, count fun x => match x with | .abandoned _ => true | .free | .sent _ _ | .waiting _ => false)]

/-- The body of QUERY_TARGET, in the order of R180; for T6 the regions are absent, the pointer 0, the verify fields an empty list, no
active leg and eight FREE tags, and the weights 3 and 1 (R115, R133). -/
def State.targetReportedIn (s : State) (x : Target) (b : List Byte) : Prop :=
  let w := s.writer x
  let q := s.window x
  let v : Drive := match x with | .drive d => s.drives[d.val] | .sink => ⟨none, none, none, 0⟩
  let r : VerifyReader := match x with | .drive d => s.readers[d.val] | .sink => ⟨[], none, [], Vector.replicate 8 ⟨.free, 0, false⟩⟩
  let weights : Nat × Nat := match x with | .drive d => ((s.sides[d.val]).writeWeight, (s.sides[d.val]).checkWeight) | .sink => (3, 1)
  b.length = 100 ∧
    holdsFields b
      ([(0, 1, targetCode x), (1, 1, (s.linkUp (targetPort x)).toNat)] ++ regionFields v.current 2 ++ regionFields v.staged 19 ++
        [(36, 8, v.pointer), (44, 2, w.timeout), (46, 1, w.retryLimit), (47, 1, w.policy.code), (48, 2, w.queue.length),
          (50, 1, w.retry.length)] ++ tagFields w.tags.toList 51 ++
        [(55, 2, s.occupancy x), (57, 2, q.counter), (59, 2, q.latch), (61, 2, q.effective.quota), (63, 2, q.staged.quota),
          (65, 2, q.effective.floor), (67, 2, q.staged.floor), (69, 2, q.effective.ceiling), (71, 2, q.staged.ceiling),
          (73, 1, q.effective.stallLimit), (74, 1, q.staged.stallLimit), (75, 4, q.issued), (79, 4, q.acked), (83, 1, q.hadWork.toNat),
          (84, 4, q.rate), (88, 1, q.streak), (89, 1, q.slow.toNat), (90, 1, r.work.length), (91, 1, r.work.head?.isSome.toNat),
          (92, 1, (r.work.head?.map fun a => a.job.val).getD 0), (93, 1, r.retry.length)] ++ tagFields r.tags.toList 94 ++
        [(98, 1, weights.1), (99, 1, weights.2)])

/-- A media record of QUERY_PART at an offset: presence, identity and capacity. -/
def mediaFields (m : Option Media) (o : Nat) : List (Nat × Nat × Nat) :=
  [(o, 1, m.isSome.toNat), (o + 1, 8, wordOr0 (m.map Media.identity)), (o + 9, 8, (m.map Media.capacity).getD 0)]

/-- How many entries of the Job Table stand in a state; FREE is none (R27). -/
def State.entriesIn (s : State) (x : Option JobState) : Nat :=
  (s.jobs.toList.filter fun e => decide (e.map Job.state = x)).length

/-- The body of QUERY_PART, in the order of R181. -/
def State.partReportedIn (s : State) (b : List Byte) : Prop :=
  b.length = 310 ∧
    holdsFields b
      [(0, 1, s.nodeId0.toNat), (1, 1, s.nodeId1.toNat), (2, 4, s.timer.tick.toNat), (6, 1, s.timer.p),
        (7, 1, s.timer.stagedP.isSome.toNat), (8, 1, s.timer.stagedP.getD 0), (9, 1, s.blink.exponent), (10, 1, s.blink.phase.toNat),
        (264, 2, s.freeSlots), (266, 2, s.reservedSlots), (268, 2, s.heldSlots), (270, 1, s.entriesIn none),
        (271, 1, s.entriesIn (some .loaded)), (272, 1, s.entriesIn (some .reading)), (273, 1, s.entriesIn (some .settling)),
        (274, 1, s.entriesIn (some .done)), (275, 1, s.entriesIn (some .failed)), (276, 1, s.entriesIn (some .aborted)),
        (293, 1, s.handler.notices.length), (294, 1, s.handler.noticeLost.toNat)] ∧
    (∀ p, holdsFields b [(11 + (portIndex p).val, 1, (s.linkUp p).toNat), (295 + (portIndex p).val, 1, (s.link p).discard.toNat)]) ∧
    (∀ i : Fin 8, holdsFields b (mediaFields (s.ingest[i.val]).media (26 + 17 * i.val) ++
      [(277 + 2 * i.val, 1, (s.lamps[i.val]).mode.code), (278 + 2 * i.val, 1, (s.lamps[i.val]).computed.code)])) ∧
    ∀ d : Fin 6, holdsFields b (mediaFields (s.drives[d.val]).media (162 + 17 * d.val))

/-! ## What a frame that the part sends holds -/

/-- A port's code of Table 9-5. -/
def portNumber : Port → Nat
  | .ingest i => i.val
  | .drive d => 8 + d.val
  | .control => 15

/-- A notice's kind code of Table 9-5. -/
def Notice.number : Notice → Nat
  | .jobFinished _ _ _ _ _ => 1
  | .mediaChanged _ _ => 2
  | .targetSlow _ _ _ => 3
  | .targetRecovered _ _ => 4
  | .targetLost _ _ => 5
  | .shed _ _ => 6

/-- The kind, tag, generation and status or result of a frame the part sends, its sequence number and header bytes 8 to 15 (Tables 9-4 to
9-6; R171 for RESPONSE and NOTICE). The payload length is not among them. -/
def TxFrame.headerFields : TxFrame → List (Nat × Nat × Nat)
  | .blockRead k g a => [(0, 1, 0x01), (1, 1, k.val), (2, 1, g.toNat), (3, 1, 0), (6, 2, 0), (8, 5, a), (13, 3, 0)]
  | .blockWrite k g a _ => [(0, 1, 0x03), (1, 1, k.val), (2, 1, g.toNat), (3, 1, 0), (6, 2, 0), (8, 5, a), (13, 3, 0)]
  | .checkRead k g a => [(0, 1, 0x05), (1, 1, k.val), (2, 1, g.toNat), (3, 1, 0), (6, 2, 0), (8, 5, a), (13, 3, 0)]
  | .sinkWrite k g h v i _ =>
    [(0, 1, 0x0B), (1, 1, k.val), (2, 1, g.toNat), (3, 1, 0), (6, 2, 0), (8, 1, h.val), (9, 1, 0), (10, 2, v), (12, 4, i)]
  | .response r => [(0, 1, 0x09), (1, 1, 0), (2, 1, 0), (3, 1, r.result.code), (6, 2, r.seq.toNat), (8, 1, r.kind.toNat), (9, 7, 0)]
  | .notice n => [(0, 1, 0x0A), (1, 1, 0), (2, 1, 0), (3, 1, 0), (6, 2, 0), (8, 1, n.number), (9, 7, 0)]

/-- A notice's body (Table 9-11): its length and its fields. -/
def Notice.bodyFields : Notice → Nat × List (Nat × Nat × Nat)
  | .jobFinished h o c g i => (8, [(0, 1, h.val), (1, 1, o.code), (2, 1, jobCauseCode c), (3, 1, g), (4, 1, i.val), (5, 3, 0)])
  | .mediaChanged p m =>
    (24, [(0, 1, portNumber p), (1, 1, m.isSome.toNat), (2, 6, 0), (8, 8, wordOr0 (m.map Media.identity)),
      (16, 8, (m.map Media.capacity).getD 0)])
  | .targetSlow x streak rate => (8, [(0, 1, targetCode x), (1, 1, streak), (2, 2, 0), (4, 4, rate)])
  | .targetRecovered x rate => (8, [(0, 1, targetCode x), (1, 3, 0), (4, 4, rate)])
  | .targetLost x n => (8, [(0, 1, targetCode x), (1, 1, n), (2, 6, 0)])
  | .shed x n => (8, [(0, 1, targetCode x), (1, 1, n), (2, 6, 0)])

/-- The payload of a frame the part sends (Tables 9-6 and 9-11, R171). -/
def TxFrame.carries (f : TxFrame) (payload : List Byte) : Prop :=
  match f with
  | .blockRead _ _ _ | .checkRead _ _ _ => payload = []
  | .blockWrite _ _ _ d | .sinkWrite _ _ _ _ _ d => payload = d
  | .response r => payload = r.body
  | .notice n => payload.length = n.bodyFields.1 ∧ holdsFields payload n.bodyFields.2

/-- The bytes of a frame the part sends, between its delimiters: the header of Table 9-4, the payload, and the check over both, least
significant byte first (R163, R171). -/
def TxFrame.laidOutIn (f : TxFrame) (bytes : List Byte) : Prop :=
  ∃ header payload check : List Byte, bytes = header ++ payload ++ check ∧ header.length = 16 ∧ check.length = 4 ∧
    fieldAt header 4 2 = payload.length % 65536 ∧ holdsFields header f.headerFields ∧ f.carries payload ∧
    fieldAt check 0 4 = (frameCheck (header ++ payload)).toNat

/-- The commands that are a full reset as the state stands: RESET_N, and the two events that end a RESET_PART (R183). -/
def fullResets (c : Instr) (s : State) : Prop :=
  c = .resetNLow ∨ c = .resetNHigh ∨ (s.handler.taking = true ∧ (c = .linkDown .control ∨ c = .cTxEnd))

/-- A safe run: every step of it ends in a next state. -/
def runsSafely (k : Nat) (s : State) : Prop :=
  ∃ t, Host.Core.run { State := State, Fault := Fault, Refusal := Refusal, step := step, reset := State.reset } k s = .next t

end Sys2Proof.Machine
end

