-- ==== Sys2Proof/Certificates/Slice0/Obligations.lean ====
section
/-! DEFINITION. The statements for the provers, each from the rules its docstring names. A command that ends in grants (slots, reads,
writes, check reads, C's transmitter) is stated through the state `u` in which its own effects are in, written out field by field, and
`u.settlesTo t`, which says all that the grants may then do. -/

open Sys2Proof Sys2Proof.Machine

/-! ## The machine -/

/-- A step takes the command at the front of the queue, with the queue's rest. The queue is the model's own (notes/assumptions/19.md). -/
def Obligations.StepTakesTheFrontCommand : Prop :=
  ∀ (c : Instr) (rest : List Instr) (s : State), s.pending = c :: rest → step s = exec c { s with pending := rest }

/-- With no command waiting a step takes an expiry or a window end that a tick has found due (R59, R103, R125, R139), and with none due is
one reference clock, of which the one that completes 2^p is the tick (R135); nothing happens while RESET_N is low. That an idle step is
one of these is the model's choice (notes/assumptions/1.md, notes/assumptions/5.md). -/
def Obligations.IdleStepCountsOneClock : Prop :=
  ∀ s : State, s.pending = [] →
    ∃ t, step s = .next t ∧ (s.resetN = false → t = s) ∧
      ((∃ c, s.isDue c) → ∃ c, s.isDue c ∧ exec c s = .next t) ∧
      ((∀ c, ¬ s.isDue c) → s.resetN = true → s.timer.prescaler + 1 < 2 ^ s.timer.p →
        t = { s with timer := { s.timer with prescaler := s.timer.prescaler + 1 } }) ∧
      ((∀ c, ¬ s.isDue c) → s.resetN = true → 2 ^ s.timer.p ≤ s.timer.prescaler + 1 → exec .tick s = .next t)

/-- Every command answers a next state, and leaves the waiting commands and the node straps as they stand; RESET_N moves only by the
two commands that are its levels. That a command whose event cannot happen answers the state as it is (notes/assumptions/4.md), that no
command moves the straps (notes/assumptions/2.md), that they and the waiting commands stand across full reset (notes/assumptions/16.md), and
the queue itself (notes/assumptions/19.md) are the model's choices. -/
def Obligations.EveryCommandAnswersNext : Prop :=
  ∀ (c : Instr) (s : State),
    ∃ t, exec c s = .next t ∧ t.pending = s.pending ∧ t.nodeId0 = s.nodeId0 ∧ t.nodeId1 = s.nodeId1 ∧
      (c ≠ .resetNLow → c ≠ .resetNHigh → t.resetN = s.resetN)

/-- RESET_N low puts every block in full reset, and high releases it (R28, R135). While it is low no other command changes the part; that
a command which cannot happen leaves the state as it is is the model's choice (notes/assumptions/4.md). -/
def Obligations.ResetPinHoldsThePart : Prop :=
  ∀ s : State,
    exec .resetNLow s =
        .next { State.reset with resetN := false, nodeId0 := s.nodeId0, nodeId1 := s.nodeId1, pending := s.pending } ∧
      (s.resetN = false →
        exec .resetNHigh s = .next { State.reset with nodeId0 := s.nodeId0, nodeId1 := s.nodeId1, pending := s.pending }) ∧
      (s.resetN = true → exec .resetNHigh s = .next s) ∧
      (s.resetN = false → ∀ c, c ≠ .resetNLow → c ≠ .resetNHigh → exec c s = .next s)

/-- The part after full reset: every value of Tables 3-1, 5-1, 6-1, 7-2 and 8-1 and of the rules on full reset, and every invariant. -/
def Obligations.FullResetState : Prop :=
  State.reset.timer = ⟨0, 0, 17, none⟩ ∧ State.reset.blink = ⟨9, false⟩ ∧
    State.reset.digest = ⟨[], none⟩ ∧ State.reset.arbiter = ⟨.ingest 0, []⟩ ∧ State.reset.freeSlots = 32768 ∧
    State.reset.handler = ⟨[], false, [], false⟩ ∧ State.reset.control = ⟨0, [], none, .response⟩ ∧
    (∀ p, State.reset.link p = ⟨false, true, false, []⟩) ∧ (∀ h, State.reset.job? h = none) ∧
    (∀ i : Fin 8, State.reset.sessions[i.val] = ⟨0, 0, 0⟩ ∧ State.reset.lamps[i.val] = ⟨.auto, .off, false, false⟩ ∧
      State.reset.ingest[i.val] = ⟨none, [], none, Vector.replicate 8 ⟨.free, 0, false⟩, 500, 2⟩) ∧
    (∀ d : Fin 6, State.reset.drives[d.val] = ⟨none, none, none, 0⟩ ∧ State.reset.sides[d.val] = ⟨.write, 0, false, 3, 1⟩ ∧
      State.reset.readers[d.val] = ⟨[], none, [], Vector.replicate 8 ⟨.free, 0, false⟩⟩) ∧
    (∀ x, State.reset.writer x = ⟨[], [], Vector.replicate 16 ⟨.free, 0, false⟩, 2000, 2, .hold⟩ ∧
      State.reset.window x = ⟨999, 999, ⟨32768, 0, 0, 3⟩, ⟨32768, 0, 0, 3⟩, 0, 0, false, 0, 0, false, false⟩) ∧
    State.reset.poolOk ∧ State.reset.queuesOk ∧ State.reset.clockOk ∧ State.reset.lampsOk ∧ State.reset.settingsOk ∧
    State.reset.waitersOk ∧ State.reset.contextsOk ∧ State.reset.workNoted ∧ State.reset.endsAnnounced ∧ State.reset.rangesOk ∧
    State.reset.linksServed ∧ State.reset.sessionsOk ∧ State.reset.outcomesOk ∧ State.reset.headsActive ∧ State.reset.sequencersOk

/-! ## Invariants: each holds after every step from any state that has it -/

/-- The pool's slots stay distinct and below 32,768 (R29). -/
def Obligations.PoolStaysCanonical : Prop :=
  ∀ s t : State, s.poolOk → step s = .next t → t.poolOk

/-- The Notice Queue never holds more than 32 notices (R184), and the unanswered requests are those not yet taken and those whose
responses have not left, at most eight together (R169, R172). -/
def Obligations.QueuesStayBounded : Prop :=
  ∀ s t : State, s.queuesOk → step s = .next t → t.queuesOk

/-- After every event the waiting set holds exactly the requesters whose conditions of R31 hold, and while any waits no slot is FREE:
whoever can be served has been (R31, R32, R33). The premise `outcomesOk` (a terminal job's legs are terminal, R15, R22), which every step
keeps (OutcomesStandUntilRelease), rules out a released job whose leg still wants a slot, a state that no run reaches. -/
def Obligations.WaitersOnlyWhenNoSlotIsFree : Prop :=
  ∀ s t : State, s.waitersOk → s.outcomesOk → step s = .next t → t.waitersOk

/-- After every event each port's computed lamp state is that of the first row of Table 8-2 that holds for its media, its session counters
and its carry-over count as they then stand (R154, R155), and its lines are never on together (R158). -/
def Obligations.LampsFollowTheirInputs : Prop :=
  ∀ s t : State, s.lampsOk → step s = .next t → t.lampsOk

/-- Every setting, window value and clock value stays in the range its table gives, and T6 keeps policy HOLD and floor 0 (Tables 3-1,
5-1 and 7-2; R91, R131, R135, R136, R140, R145, R157). -/
def Obligations.SettingsStayInRange : Prop :=
  ∀ s t : State, s.settingsOk → s.clockOk → step s = .next t → t.settingsOk ∧ t.clockOk

/-- A and B of every digest context stay from 0 to M - 1 (R75). -/
def Obligations.DigestsStayInRange : Prop :=
  ∀ s t : State, s.contextsOk → step s = .next t → t.contextsOk

/-- A target whose write queue or retry list is not empty, or which has a tag BUSY, sent or waiting, has its had-work flag set (R143). -/
def Obligations.HadWorkFollowsTheWriters : Prop :=
  ∀ s t : State, s.workNoted → step s = .next t → t.workNoted

/-- Every job in a terminal state, and no other, has handed over its JOB_FINISHED, and the session counters stay what the jobs of the
session make them (R8, R24, R188). A job that ends in a step leaves the notice of its outcome, cause, GOOD legs and port in the Notice
Queue, or NOTICE_LOST set; and a session's done rises by the jobs of it that the event brings to DONE, stopping at 65,535. The mark that a
job has handed over its notice is the model's own (notes/assumptions/17.md). -/
def Obligations.EveryEndIsAnnounced : Prop :=
  (∀ s t : State, s.endsAnnounced → step s = .next t → t.endsAnnounced) ∧
    (∀ s t : State, s.sessionsOk → step s = .next t → t.sessionsOk) ∧
    (∀ (s t : State) (h : Fin 64) (k : Job), s.endsAnnounced → step s = .next t → t.job? h = some k → k.state.terminal = true →
      (∀ j, s.job? h = some j → j.state.terminal = false) →
      .jobFinished h k.state k.cause k.goodLegs k.port ∈ t.handler.notices ∨ t.handler.noticeLost = true) ∧
    ∀ (c : Instr) (s t : State) (i : Fin 8), s.sessionsOk → ¬ fullResets c s → (∀ m, c ≠ .ingestMediaReport i (some m)) →
      exec c s = .next t → (t.sessions[i.val]).done = min 65535 ((s.sessions[i.val]).done + s.newlyDone t i)

/-- The append pointer stays within its region or one past it, the assigned ranges of the legs on one drive never share an address, and
neither the unused tail of the current region nor a staged region ever reaches into one (R94, R95, R96). -/
def Obligations.AssignedRangesStayDisjoint : Prop :=
  ∀ s t : State, s.rangesOk → step s = .next t → t.rangesOk

/-- No target's arbiter stands IDLE beside an eligible side (R99, R131, R141), and C's transmitter never stands FREE beside a source with a
frame while C is UP (R168). -/
def Obligations.LinksNeverWaitIdle : Prop :=
  ∀ s t : State, s.linksServed → step s = .next t → t.linksServed

/-- Until RELEASE_JOB or full reset a job keeps what it was loaded with and never goes back in Table 1-5, its legs never go back in Table
1-6, a terminal state stands with its cause and timestamp, no count falls, digested included, and the counts and digest contexts of a
terminal job stand (R1, R4, R5, R6, R7, R22, R24). Outcomes stay sound: a terminal job's legs are terminal, a DONE job has its required
number of GOOD legs and a final ingest digest that no expected digest differs from, and a verify work list holds only the WRITTEN and
VERIFYING legs on its drive that are to be verified, each once, of which the head never stays WRITTEN (R9, R14, R15, R119, R120). A job ends
in the event that makes its end due, whether by an acknowledgement, a comparison, a failed write or check read, a lost or shed target or the
ingest finalisation: no event leaves the end of a job due that was not (a job still READING has no final digest, R14), and a job that an
event ends is DONE with enough GOOD legs, or FAILED, INSUFFICIENT_COPIES, with too few or none viable, or ended by a cause of its own: its
digest, the loss of the card on its own port, a read given up on its own port, or the cancel that names it (R14, R15, R16, R18, R19, R21,
R25). For this the Ingest Sequencers and the Job Table agree after every step: a port reads a READING job of its own, its BUSY tags are that
job's, its line-up holds its LOADED jobs, and a port that reads no job has an empty line-up: the event that ends a port's
reading, by arrival, failure, loss or cancel, also starts the next job (R9, R10, R12, R13, R53). -/
def Obligations.OutcomesStandUntilRelease : Prop :=
  (∀ (c : Instr) (s t : State), c ≠ .releaseJob → ¬ fullResets c s → exec c s = .next t → s.advancesTo t) ∧
    (∀ s t : State, s.outcomesOk → step s = .next t → t.outcomesOk ∧ (s.headsActive → t.headsActive)) ∧
    (∀ s t : State, s.outcomesOk → s.sequencersOk → step s = .next t → t.sequencersOk) ∧
    ∀ (c : Instr) (s t : State) (h : Fin 64) (k : Job), s.outcomesOk → exec c s = .next t → t.job? h = some k →
      (k.endDue → ∃ j, s.job? h = some j ∧ (j.endDue ∨ (j.state = .reading ∧ j.ingest.final ≠ none))) ∧
      (s.sequencersOk → k.state.terminal = true → (∃ j, s.job? h = some j ∧ j.state.terminal = true) ∨ k.endedBy h c s)

/-! ## What moves what: frames over all commands -/

/-- The FREE, RESERVED and HELD counts always sum to 32,768 (R29, R47). -/
def Obligations.SlotCountsSumToThePool : Prop :=
  ∀ s : State, s.poolOk → s.freeSlots + s.reservedSlots + s.heldSlots = 32768

/-- Outside full reset settings move only by their requests, staged values come into force only at a window end or a tick, and the tick
counter moves only at ticks (R72, R114, R132, R136, R137, R140, R149, R157, R159). A tick that comes before a due window end takes that
end too (notes/assumptions/5.md). -/
def Obligations.SettingsMoveOnlyByTheirEvents : Prop :=
  ∀ (c : Instr) (s t : State), ¬ fullResets c s → exec c s = .next t →
    (c ≠ .setIngest → ∀ i : Fin 8,
      (t.ingest[i.val]).timeout = (s.ingest[i.val]).timeout ∧ (t.ingest[i.val]).retryLimit = (s.ingest[i.val]).retryLimit) ∧
    (c ≠ .setTarget →
      (∀ x, (t.writer x).timeout = (s.writer x).timeout ∧ (t.writer x).retryLimit = (s.writer x).retryLimit ∧
        (t.writer x).policy = (s.writer x).policy ∧ (t.window x).latch = (s.window x).latch ∧
        (t.window x).staged = (s.window x).staged) ∧
      ∀ d : Fin 6, (t.sides[d.val]).writeWeight = (s.sides[d.val]).writeWeight ∧
        (t.sides[d.val]).checkWeight = (s.sides[d.val]).checkWeight) ∧
    (∀ x, c ≠ .windowEnd x → (c = .tick → (s.window x).endDue = false) →
      (t.window x).effective = (s.window x).effective ∧ (t.window x).rate = (s.window x).rate ∧
        (t.window x).streak = (s.window x).streak ∧ (t.window x).slow = (s.window x).slow ∧
        (c ≠ .tick → (t.window x).counter = (s.window x).counter ∧ (t.window x).endDue = (s.window x).endDue)) ∧
    (c ≠ .setLamp → ∀ i : Fin 8, (t.lamps[i.val]).mode = (s.lamps[i.val]).mode) ∧
    (c ≠ .setTick → t.blink.exponent = s.blink.exponent) ∧ (c ≠ .tick → t.blink.phase = s.blink.phase) ∧
    (c ≠ .setTick → c ≠ .tick → t.timer = s.timer) ∧
    (c ≠ .tick → t.timer.tick = s.timer.tick ∧ t.timer.p = s.timer.p ∧ t.timer.prescaler = s.timer.prescaler)

/-- Outside full reset a link is UP after LINK_UP and DOWN after LINK_DOWN, and no other event moves it (R161); a discard flag is set by
discards at its own port alone and cleared by QUERY_PART alone (R164, R166); a notice joins the Notice Queue at its tail, NOTICE_LOST is set
exactly where a notice is handed over while 32 wait and is cleared by QUERY_PART alone, and a notice leaves, from the head, only at C_TX_END
(R184). That a command outside Tables 9-2 and 9-3 is a frame which the
port of that command discards is the model's choice (notes/assumptions/10.md). -/
def Obligations.LinksAndFlagsFollowTheirEvents : Prop :=
  ∀ (c : Instr) (s t : State) (p : Port), ¬ fullResets c s → exec c s = .next t →
    (t.linkUp p =
      if s.resetN = true ∧ c = .linkUp p then true
      else if s.resetN = true ∧ c = .linkDown p then false
      else s.linkUp p) ∧
    (c ≠ .queryPart → (s.link p).discard = true → (t.link p).discard = true) ∧
    ((s.link p).discard = false → (t.link p).discard = true →
      (∃ rx, c = .frameDiscard p rx ∧ (rx.ended = .noDelimiter → 4116 < rx.bytes.length)) ∨
        (c.wellFormed = false ∧ ∃ bytes, frameFor c = some (p, bytes)) ∨
        (p = .control ∧ 8 ≤ s.control.unanswered ∧ ∃ seq kind body, c = .request seq kind body)) ∧
    (c ≠ .queryPart → c ≠ .cTxEnd → ∃ l, s.handler.hands l t.handler) ∧
    (c = .queryPart → t.handler.notices = s.handler.notices ∧ (t.handler.noticeLost = true → s.handler.noticeLost = true)) ∧
    (c = .cTxEnd → t.handler.noticeLost = s.handler.noticeLost ∧
      t.handler.notices = if s.resetN = true ∧ s.control.sending = some .notice then s.handler.notices.tail else s.handler.notices)

/-- R158 with Table 8-3 written out: a tick sets each port's line pair, after the phase test, from its mode, its computed state and the
phase; no other event but full reset moves a line. A tick moves no computed state, but by a window end of the tick before that it comes
before (notes/assumptions/5.md). -/
def Obligations.LampLinesAreSetAtTicks : Prop :=
  (∀ s : State, s.resetN = true →
    ∃ t, exec .tick s = .next t ∧
      t.blink.phase = (if (s.timer.tick + 1).toNat % 2 ^ s.blink.exponent = 0 then !s.blink.phase else s.blink.phase) ∧
      ∀ i : Fin 8, (t.lamps[i.val]).mode = (s.lamps[i.val]).mode ∧
        ((∀ x, (s.window x).endDue = false) → (t.lamps[i.val]).computed = (s.lamps[i.val]).computed) ∧
        ((t.lamps[i.val]).green, (t.lamps[i.val]).red) =
          match (s.lamps[i.val]).mode, (t.lamps[i.val]).computed with
          | .auto, .off => (false, false)
          | .auto, .busy => (!t.blink.phase, false)
          | .auto, .safe => (true, false)
          | .auto, .fault => (false, true)
          | .off, _ => (false, false)
          | .green, _ => (true, false)
          | .red, _ => (false, true)
          | .greenBlink, _ => (!t.blink.phase, false)
          | .redBlink, _ => (false, !t.blink.phase)) ∧
    (∀ (c : Instr) (s t : State), c ≠ .tick → ¬ fullResets c s → exec c s = .next t →
      ∀ i : Fin 8, (t.lamps[i.val]).green = (s.lamps[i.val]).green ∧ (t.lamps[i.val]).red = (s.lamps[i.val]).red) ∧
    ∀ (mode : LampMode) (computed : LampState) (phase : Bool), ¬ (linesOf mode computed phase = (true, true))

/-- Outside full reset a media record moves only by the port's MEDIA REPORT, its LINK_DOWN or a RESET_PORT; outside SET_TARGET a drive's
regions move only by a placement that adopts the staged one (R64, R69, R95, R109, R112). -/
def Obligations.MediaAndRegionsMoveOnlyByTheirEvents : Prop :=
  ∀ (c : Instr) (s t : State), ¬ fullResets c s → exec c s = .next t →
    (∀ i : Fin 8, (∀ r, c ≠ .ingestMediaReport i r) → c ≠ .linkDown (.ingest i) → c ≠ .resetPort →
      (t.ingest[i.val]).media = (s.ingest[i.val]).media) ∧
    (∀ d : Fin 6, (∀ r, c ≠ .targetMediaReport d r) → c ≠ .linkDown (.drive d) → c ≠ .resetPort →
      (t.drives[d.val]).media = (s.drives[d.val]).media) ∧
    (c ≠ .setTarget → ∀ d : Fin 6,
      ((t.drives[d.val]).current = (s.drives[d.val]).current ∧ (t.drives[d.val]).staged = (s.drives[d.val]).staged ∧
        (s.drives[d.val]).pointer ≤ (t.drives[d.val]).pointer) ∨
      ∃ q, (s.drives[d.val]).staged = some q ∧ (t.drives[d.val]).current = some q ∧ (t.drives[d.val]).staged = none ∧
        q.first ≤ (t.drives[d.val]).pointer)

/-! ## The digest -/

/-- R77: one word into the sums, and what the rule says of large words, of zero words and of the order of words. -/
def Obligations.DigestWordRule : Prop :=
  (∀ (c : DigestContext) (w : Nat), c.inRange → w < 2 ^ 32 →
    (digestWord c w).a = (c.a + w) % 4294967291 ∧ (digestWord c w).b = (c.b + (digestWord c w).a) % 4294967291 ∧
      (digestWord c w).next = c.next ∧ (digestWord c w).final = c.final ∧
      c.a + w ≤ 2 * 4294967291 + 3 ∧ c.b + (digestWord c w).a ≤ 2 * 4294967291 - 2 ∧
      (4294967291 ≤ w → w - 4294967291 ≤ 4 ∧ digestWord c w = digestWord c (w - 4294967291))) ∧
    (∀ (c : DigestContext) (k : Nat), c.inRange →
      (List.replicate k 0).foldl digestWord c = { c with b := (c.b + k * c.a) % 4294967291 }) ∧
    (∀ (c : DigestContext) (l m : List Nat), c.inRange → l.Perm m → (l.foldl digestWord c).a = (m.foldl digestWord c).a) ∧
    ∃ l m : List Nat, l.Perm m ∧ (l.foldl digestWord DigestContext.initial).b ≠ (m.foldl digestWord DigestContext.initial).b

/-- R78's arithmetic: the length folds into A and B, the digest is B_f in the high half and A_f in the low half, both below M, A and B
keep their values, and every zero-length file's digest is 0x00000001_00000001. -/
def Obligations.DigestFinalisation : Prop :=
  ∀ (c : DigestContext) (length : Nat),
    (finalDigest c length).toNat / 2 ^ 32 =
        (c.b + (c.a + length % 4294967291) % 4294967291) % 4294967291 ∧
      (finalDigest c length).toNat % 2 ^ 32 = (c.a + length % 4294967291) % 4294967291 ∧
      (finalDigest c length).toNat / 2 ^ 32 ≤ 0xFFFFFFFA ∧ (finalDigest c length).toNat % 2 ^ 32 ≤ 0xFFFFFFFA ∧
      finalise c length = { c with final := some (finalDigest c length) } ∧
      (length < 4294967291 → length % 4294967291 = length) ∧
      2 ^ 32 % 4294967291 = 5 ∧ (2 ^ 40 - 1) % 4294967291 = 1279 ∧
      finalDigest DigestContext.initial 0 = 0x0000000100000001

/-- Only a block's valid bytes reach the digest, and they are its first ones: 4,096 of every block but the last, and the file's blocks
together hold its L bytes; they give ceil(V / 4) words, each of four bytes least significant first, missing bytes being zero; and the
reference check value of the Offload Link is as the manual states it (R76, R163). -/
def Obligations.DigestTakesOnlyValidBytes : Prop :=
  (∀ (length : Nat) (data : List Byte) (i : Nat), data.length = 4096 → i < blockCount length →
    digestBytesOf length i data = data.take (validBytes length i) ∧ (digestBytesOf length i data).length = validBytes length i ∧
      1 ≤ validBytes length i ∧ validBytes length i ≤ 4096 ∧ (i + 1 < blockCount length → validBytes length i = 4096)) ∧
    (∀ length : Nat, ((List.range (blockCount length)).map (validBytes length)).sum = length) ∧
    (∀ bytes : List Byte, (wordsOf bytes).length = (bytes.length + 3) / 4 ∧
      ∀ j, j < (wordsOf bytes).length →
        (wordsOf bytes)[j]? =
          some ((bytes.getD (4 * j) 0).toNat + 256 * (bytes.getD (4 * j + 1) 0).toNat +
            65536 * (bytes.getD (4 * j + 2) 0).toNat + 16777216 * (bytes.getD (4 * j + 3) 0).toNat)) ∧
    frameCheck [0x31, 0x32, 0x33, 0x34, 0x35, 0x36, 0x37, 0x38, 0x39] = 0xCBF43926#32 ∧
    leBytes 4 0xCBF43926 = [0x26, 0x39, 0xF4, 0xCB]

/-! ## Frames -/

/-- A frame laid out by Tables 9-4, 9-6 and 9-7 with its check is read back as the command it stands for, with every operand; a REQUEST is
read while fewer than eight are unanswered (R163, R164, R169, R171). Every frame the part sends is the header of Table 9-4 with the kind and
the bytes of Tables 9-5 and 9-6, its payload (the block, the result body, or the notice body of Table 9-11), and the check over both (R163,
R171), with the result codes of Table 9-5. -/
def Obligations.ReceivedFramesAreReadBack : Prop :=
  (∀ (c : Instr) (p : Port) (bytes : List Byte) (unanswered : Nat),
    c.wellFormed = true → ((∃ seq kind body, c = .request seq kind body) → unanswered < 8) → frameFor c = some (p, bytes) →
    commandOf p unanswered ⟨bytes, .endDelimiter⟩ = some c) ∧
  (∀ f : TxFrame, f.laidOutIn f.bytes) ∧
  [Result.ok, .badRequest, .tableFull, .portDown, .noMedia, .wrongMedia, .runRange, .lengthMismatch, .badLegs, .noSuchJob, .notActive, .busy,
    .regionOverlap].map Result.code = [0, 1, 2, 3, 4, 5, 6, 7, 8, 9, 10, 11, 12]

/-- A received frame stands for no command exactly when a condition of Table 9-2 holds, with the kinds, statuses and payload lengths of
Table 9-3 for its port; that a MEDIA REPORT with present 0 is no fault whatever its capacity bytes hold is read from Table 9-7, by which
they are ignored (notes/assumptions/11.md). Then FRAME_DISCARD sets the port's flag and the port hunts (R162, R164, R165, R169): at a
delimiter, or, whatever follows, once the port has counted more than 4,116 bytes; bytes that no delimiter has followed and that the port has
not counted past 4,116 are a frame in progress, and the port goes on receiving it (R162; that the command then leaves the state as it is is
the model's choice, notes/assumptions/4.md). A command
whose operands such a frame would have carried is discarded in the same way; that, and that a frame is received in one command, is the
model's choice (notes/assumptions/10.md). -/
def Obligations.FaultyFramesAreDiscarded : Prop :=
  let fault (p : Port) (unanswered : Nat) (rx : RxFrame) : Prop :=
    let kind := fieldAt rx.bytes 0 1
    let status := fieldAt rx.bytes 3 1
    let payload := fieldAt rx.bytes 4 2
    let badAnswer : Prop := ¬ (status = 0 ∧ payload = 4096) ∧ ¬ (status = 1 ∧ payload = 0)
    let badReport : Prop :=
      payload ≠ 24 ∨ 1 < fieldAt rx.bytes 16 1 ∨ (fieldAt rx.bytes 16 1 = 1 ∧ 2 ^ 40 < fieldAt rx.bytes 32 8)
    rx.ended ≠ .endDelimiter ∨ 4096 < payload ∨ rx.bytes.length ≠ 16 + payload + 4 ∨
      (frameCheck (rx.bytes.take (16 + payload))).toNat ≠ fieldAt rx.bytes (16 + payload) 4 ∨
      match p with
      | .ingest _ => (kind ≠ 2 ∧ kind ≠ 7) ∨ (kind = 2 ∧ badAnswer) ∨ (kind = 7 ∧ badReport)
      | .drive _ =>
        (kind ≠ 4 ∧ kind ≠ 6 ∧ kind ≠ 7) ∨ (kind = 4 ∧ (payload ≠ 0 ∨ (status ≠ 0 ∧ status ≠ 2 ∧ status ≠ 3))) ∨
          (kind = 6 ∧ badAnswer) ∨ (kind = 7 ∧ badReport)
      | .control =>
        (kind ≠ 8 ∧ kind ≠ 12) ∨ (kind = 8 ∧ 8 ≤ unanswered) ∨ (kind = 12 ∧ (payload ≠ 0 ∨ (status ≠ 0 ∧ status ≠ 2)))
  (∀ (p : Port) (n : Nat) (rx : RxFrame), commandOf p n rx = none ↔ fault p n rx) ∧
  (∀ (s : State) (p : Port) (rx : RxFrame), s.resetN = true → s.linkUp p = true →
    (4116 < rx.bytes.length ∨ (rx.ended ≠ .noDelimiter ∧ fault p s.control.unanswered rx) →
      exec (.frameDiscard p rx) s =
        .next (s.modLink p fun l => { l with discard := true, hunting := decide (rx.ended ≠ .startDelimiter) })) ∧
    (rx.ended = .noDelimiter → rx.bytes.length ≤ 4116 → exec (.frameDiscard p rx) s = .next s)) ∧
  (∀ (s : State) (i : Fin 8) (tag : Byte) (gen : Gen) (data : List Byte), s.resetN = true → s.linkUp (.ingest i) = true →
    data.length ≠ 4096 →
    exec (.blockData i tag gen (.ok data)) s = .next (s.modLink (.ingest i) fun l => { l with discard := true, hunting := true })) ∧
  (∀ (s : State) (d : Fin 6) (tag : Byte) (gen : Gen) (data : List Byte), s.resetN = true → s.linkUp (.drive d) = true →
    data.length ≠ 4096 →
    exec (.checkData d tag gen (.ok data)) s = .next (s.modLink (.drive d) fun l => { l with discard := true, hunting := true })) ∧
  (∀ (s : State) (i : Fin 8) (m : Media), s.resetN = true → s.linkUp (.ingest i) = true → 2 ^ 40 < m.capacity →
    exec (.ingestMediaReport i (some m)) s = .next (s.modLink (.ingest i) fun l => { l with discard := true, hunting := true })) ∧
  (∀ (s : State) (d : Fin 6) (m : Media), s.resetN = true → s.linkUp (.drive d) = true → 2 ^ 40 < m.capacity →
    exec (.targetMediaReport d (some m)) s = .next (s.modLink (.drive d) fun l => { l with discard := true, hunting := true })) ∧
  ∀ (s : State) (seq : BitVec 16) (kind : Byte) (body : List Byte), s.resetN = true → s.linkUp .control = true → 4096 < body.length →
    exec (.request seq kind body) s = .next (s.modLink .control fun l => { l with discard := true, hunting := true })

/-! ## Links -/

/-- LINK_UP: the link is UP and its receiver hunts (R161, R165); nothing else of the part moves but what the link now lets through. -/
def Obligations.LinkUpOpensThePort : Prop :=
  ∀ (p : Port) (s : State), s.resetN = true → s.linkUp p = false →
    ∃ t, exec (.linkUp p) s = .next t ∧ (s.modLink p fun l => { l with up := true, hunting := true }).settlesTo t

/-- LINK_DOWN on an ingest port: a port reset (R69): every tag FREE a generation on, media absent, the card's LOADED and READING jobs lost
and its SETTLING jobs unchanged (R18); frames not sent are dropped (R167). -/
def Obligations.CardLinkDownResetsThePort : Prop :=
  ∀ (i : Fin 8) (s : State), s.resetN = true → s.linkUp (.ingest i) = true →
    ∃ t, exec (.linkDown (.ingest i)) s = .next t ∧ t.linkUp (.ingest i) = false ∧ (t.link (.ingest i)).tx = [] ∧
      (t.ingest[i.val]).media = none ∧
      (∀ k : Fin 8, (t.ingest[i.val]).tags[k.val] = ⟨.free, ((s.ingest[i.val]).tags[k.val]).gen + 1, false⟩) ∧
      ((s.ingest[i.val]).media ≠ none → s.cardLost i false t ∧ s.nextNotice t (.mediaChanged (.ingest i) none)) ∧
      s.advancesTo t

/-- LINK_DOWN on a drive: a port reset (R112, R130, R132): queue and retry lists empty, every tag FREE a generation on, the arbiter IDLE
on turn WRITE, media absent, its legs lost, TARGET_LOST first where it was available; nothing of the drive's work is left in its reader, its
writer or the pool (R40, R44, R106, R110); regions, pointer and weights stand. -/
def Obligations.DriveLinkDownResetsTheTarget : Prop :=
  ∀ (d : Fin 6) (s : State), s.resetN = true → s.linkUp (.drive d) = true →
    ∃ t, exec (.linkDown (.drive d)) s = .next t ∧ t.linkUp (.drive d) = false ∧ (t.link (.drive d)).tx = [] ∧
      t.drives[d.val] = { s.drives[d.val] with media := none } ∧
      (t.writer (.drive d)).queue = [] ∧ (t.writer (.drive d)).retry = [] ∧ (t.readers[d.val]).retry = [] ∧
      (∀ k : Fin 16, (t.writer (.drive d)).tags[k.val] = ⟨.free, ((s.writer (.drive d)).tags[k.val]).gen + 1, false⟩) ∧
      (∀ k : Fin 8, (t.readers[d.val]).tags[k.val] = ⟨.free, ((s.readers[d.val]).tags[k.val]).gen + 1, false⟩) ∧
      t.sides[d.val] = { s.sides[d.val] with turn := .write, count := 0, granted := false } ∧
      s.legsLost (.drive d) t ∧
      ((s.drives[d.val]).media ≠ none →
        s.nextNotice t (.targetLost (.drive d) (s.jobsWithLeg (.drive d) LegState.lostWithTarget).length)) ∧
      (s.outcomesOk → s.driveCleared d t) ∧ s.advancesTo t

/-- C's clean-up at LINK_DOWN (R170), with T6's port reset (R112), at which T6 leaves the pending-target sets of its lost WRITING legs' jobs
and the slots so left digested and owed to none are freed (R20, R40). A RESET_PART whose response has not left becomes the full reset
(R183); that the straps and the waiting commands stand across it is the model's choice (notes/assumptions/16.md). -/
def Obligations.ControlLinkDownCleansUp : Prop :=
  ∀ s : State, s.resetN = true → s.linkUp .control = true →
    (s.handler.taking = false →
      ∃ t, exec (.linkDown .control) s = .next t ∧ t.linkUp .control = false ∧ (t.link .control).tx = [] ∧
        t.control = { unanswered := 0, responses := [], sending := none, pointer := s.control.pointer } ∧
        t.handler.requests = [] ∧ t.handler.taking = false ∧ s.handler.notices <+: t.handler.notices ∧
        (t.writer .sink).queue = [] ∧ (t.writer .sink).retry = [] ∧
        (∀ k : Fin 16, (t.writer .sink).tags[k.val] = ⟨.free, ((s.writer .sink).tags[k.val]).gen + 1, false⟩) ∧
        s.legsLost .sink t ∧ s.nextNotice t (.targetLost .sink (s.jobsWithLeg .sink LegState.lostWithTarget).length) ∧
        (s.outcomesOk →
          (∀ h, s.legOnIs h .sink (fun z => decide (z = .writing)) = true → State.slotsSettled .sink h s t) ∧
            (s.owedByWriting .sink → t.occupancy .sink = 0)) ∧
        s.advancesTo t) ∧
    (s.handler.taking = true →
      exec (.linkDown .control) s =
        .next { State.reset with nodeId0 := s.nodeId0, nodeId1 := s.nodeId1, pending := s.pending })

/-! ## Card Ingest -/

/-- A BLOCK DATA OK on its BUSY tag that is not the job's last: the slot is HELD with the frame's bytes, the block joins the ready list
if it is next, the slot joins the write queue of each target that owes it, arrived rises and the tag is FREE (R37, R57, R81). A terminal
job's arrived stands (R6, R22). -/
def Obligations.BlockDataFillsItsSlot : Prop :=
  ∀ (s : State) (i k : Fin 8) (h : Fin 64) (index num attempt : Nat) (issued : Tick) (gen : Gen) (due : Bool) (data : List Byte)
    (x : Slot) (j : Job),
    s.resetN = true → s.linkUp (.ingest i) = true →
    (s.ingest[i.val]).tags[k.val] = ⟨.busy h index num issued attempt, gen, due⟩ → data.length = 4096 →
    s.slot? num = some x → x.owed.Nodup → s.job? h = some j → (j.arrived + 1 = j.blocks → j.state ≠ .reading) →
    ∃ t u : State, exec (.blockData i (BitVec.ofNat 8 k.val) gen (.ok data)) s = .next t ∧ u.settlesTo t ∧
      u = { s with links := u.links, slots := u.slots, ingest := u.ingest, jobs := u.jobs, digest := u.digest, writers := u.writers } ∧
      (∀ p, u.link p = if p = .ingest i then { s.link p with hunting := false } else s.link p) ∧
      (∀ n, u.slot? n = if n = num then some { x with held := some ⟨data, false, false, false⟩ } else s.slot? n) ∧
      (∀ m : Fin 8, u.ingest[m.val] =
        if m = i then { s.ingest[i.val] with tags := setEntry (s.ingest[i.val]).tags k fun _ => ⟨.free, gen, false⟩ }
        else s.ingest[m.val]) ∧
      (∀ g, u.job? g =
        if g = h then some { j with arrived := if j.state.terminal then j.arrived else j.arrived + 1 } else s.job? g) ∧
      u.digest = { s.digest with ready := if j.ingest.next = index then s.digest.ready ++ [num] else s.digest.ready } ∧
      ∀ y, u.writer y =
        match (if y ∈ x.owed then s.legOn h y else none) with
        | some r => { s.writer y with queue := (s.writer y).queue ++ [⟨num, r⟩] }
        | none => s.writer y

/-- The BLOCK DATA OK that brings a READING job's arrived count to n: the job is SETTLING with its arrived-all timestamp, the port reads no
job, and the block is stored, queued and made ready as any other (R13, R37, R57, R81); then the job at the head of the port's line-up
starts: each of its legs is placed (R11, R91, R95), and it is READING, or with no viable leg FAILED, INSUFFICIENT_COPIES (R10), or, of no
blocks, SETTLING with its ingest digest final, its legs GOOD or waiting WRITTEN, and ended when every leg has ended or its expected digest
differs (R12, R14, R15, R187); a LOADED job's ingest context is not final, as LOAD_JOB sets it and its start finds it (R11, R75). That the
job behind is then started in turn is `sequencersOk`, kept by every step. -/
def Obligations.LastBlockEndsTheReading : Prop :=
  ∀ (s : State) (i k : Fin 8) (h : Fin 64) (index num attempt : Nat) (issued : Tick) (gen : Gen) (due : Bool) (data : List Byte)
    (j : Job),
    s.resetN = true → s.linkUp (.ingest i) = true →
    (s.ingest[i.val]).tags[k.val] = ⟨.busy h index num issued attempt, gen, due⟩ → data.length = 4096 →
    s.job? h = some j → j.arrived + 1 = j.blocks → j.state = .reading →
    (∃ t m, exec (.blockData i (BitVec.ofNat 8 k.val) gen (.ok data)) s = .next t ∧ t.job? h = some m ∧
      2 ≤ m.state.rank ∧ m.arrivedAllAt = some s.now ∧ m.arrived = j.blocks ∧ (t.ingest[i.val]).reading ≠ some h ∧
      s.advancesTo t) ∧
    ∀ x : Slot, s.slot? num = some x → x.owed.Nodup →
      ∃ t u : State, exec (.blockData i (BitVec.ofNat 8 k.val) gen (.ok data)) s = .next t ∧
        u = { s with links := u.links, slots := u.slots, ingest := u.ingest, jobs := u.jobs, digest := u.digest, writers := u.writers } ∧
        (∀ p, u.link p = if p = .ingest i then { s.link p with hunting := false } else s.link p) ∧
        (∀ n, u.slot? n = if n = num then some { x with held := some ⟨data, false, false, false⟩ } else s.slot? n) ∧
        (∀ m : Fin 8, u.ingest[m.val] =
          if m = i then
            { s.ingest[i.val] with tags := setEntry (s.ingest[i.val]).tags k fun _ => ⟨.free, gen, false⟩, reading := none }
          else s.ingest[m.val]) ∧
        (∀ g, u.job? g =
          if g = h then some { j with arrived := j.blocks, state := .settling, arrivedAllAt := some s.now } else s.job? g) ∧
        u.digest = { s.digest with ready := if j.ingest.next = index then s.digest.ready ++ [num] else s.digest.ready } ∧
        (∀ y, u.writer y =
          match (if y ∈ x.owed then s.legOn h y else none) with
          | some r => { s.writer y with queue := (s.writer y).queue ++ [⟨num, r⟩] }
          | none => s.writer y) ∧
        ((s.ingest[i.val]).lineUp = [] → u.settlesTo t) ∧
        ∀ g rest q, (s.ingest[i.val]).lineUp = g :: rest → s.job? g = some q → q.state = .loaded → q.outcomeOk →
          let placed := q.legs.map (s.placedLeg q.blocks)
          ((∃ l ∈ placed, l.state = .writing) → q.blocks ≠ 0 →
            ∃ v : State, v.settlesTo t ∧ v = { u with drives := v.drives, jobs := v.jobs, ingest := v.ingest } ∧
              (∀ d : Fin 6, v.drives[d.val] = s.placedDrive q.blocks q.legs d) ∧
              (∀ f, v.job? f = if f = g then some { q with state := .reading, startedAt := some s.now, legs := placed } else u.job? f) ∧
              ∀ m : Fin 8, v.ingest[m.val] =
                if m = i then { u.ingest[m.val] with lineUp := rest, reading := some g } else u.ingest[m.val]) ∧
          ((∃ l ∈ placed, l.state = .writing) → q.blocks = 0 → s.outcomesOk → s.headsActive → q.ingest.final = none →
            s.emptyStart t g q rest ∧
              (rest = [] → (t.ingest[i.val]).reading = none ∧ (t.ingest[i.val]).lineUp = [] ∧
                ∀ d : Fin 6, t.drives[d.val] = s.placedDrive q.blocks q.legs d)) ∧
          ((∀ l ∈ placed, l.state ≠ .writing) →
            s.failedIn t g .insufficientCopies ∧ ∃ f, t.job? g = some f ∧ f.startedAt = some s.now ∧ f.legs = placed)

/-- A failed read with retries left, by READ_ERROR or by expiry: the same tag, block and slot, the generation and the attempt one
higher, a new issue tick, and a BLOCK READ of the same card address (R58, R59, R60). An expiry is a command taken while the tick's mark
stands, the model's choice (notes/assumptions/5.md). -/
def Obligations.ReadRetriesOnItsTag : Prop :=
  ∀ (s : State) (i k : Fin 8) (h : Fin 64) (index num attempt : Nat) (issued : Tick) (gen : Gen) (due : Bool) (j : Job),
    s.resetN = true → (s.ingest[i.val]).tags[k.val] = ⟨.busy h index num issued attempt, gen, due⟩ →
    attempt < (s.ingest[i.val]).retryLimit → s.job? h = some j →
    let retried (v : State) : State :=
      (v.modIngest i fun p =>
        { p with tags := setEntry p.tags k fun _ => ⟨.busy h index num s.now (attempt + 1), gen + 1, false⟩ }).modLink (.ingest i)
        fun l => { l with tx := l.tx ++ [.blockRead k (gen + 1) (cardAddress j.runs index)] }
    (s.linkUp (.ingest i) = true →
      ∃ t, exec (.blockData i (BitVec.ofNat 8 k.val) gen .readError) s = .next t ∧
        (retried (s.modLink (.ingest i) fun l => { l with hunting := false })).settlesTo t) ∧
    (due = true → ∃ t, exec (.readTagExpiry i k) s = .next t ∧ (retried s).settlesTo t)

/-- A failed read without retries left: the reading job fails SOURCE_READ_ERROR with teardown, its work is withdrawn from every block (Table
1-8), its other BUSY tags becoming ABANDONED, and the tag is FREE (R19, R22, R43, R53, R61, R86, R106, R129). An
expiry is a command taken while the tick's mark stands (notes/assumptions/5.md). -/
def Obligations.ExhaustedReadFailsTheJob : Prop :=
  ∀ (s : State) (i k : Fin 8) (h : Fin 64) (index num attempt : Nat) (issued : Tick) (gen : Gen) (due : Bool) (j : Job),
    s.resetN = true → (s.ingest[i.val]).tags[k.val] = ⟨.busy h index num issued attempt, gen, due⟩ →
    (s.ingest[i.val]).retryLimit ≤ attempt → s.job? h = some j → j.state.terminal = false →
    let freed : State := s.modIngest i fun p => { p with tags := setEntry p.tags k fun _ => ⟨.free, gen, false⟩ }
    let after (t : State) : Prop :=
      s.failedIn t h .sourceReadError ∧ State.workGone h s t ∧ State.readsAbandoned h freed t ∧
        (⟨.free, gen, false⟩ : ReadTag).issuesTo s.now ((t.ingest[i.val]).tags[k.val]) ∧ s.advancesTo t
    (s.linkUp (.ingest i) = true →
      ∃ t, exec (.blockData i (BitVec.ofNat 8 k.val) gen .readError) s = .next t ∧ after t) ∧
    (due = true → ∃ t, exec (.readTagExpiry i k) s = .next t ∧ after t)

/-- A stale answer changes nothing but that its port no longer hunts: a tag number its owner does not have, a FREE tag, a waiting tag, or
a BUSY tag of another generation (R62, R104, R126, R165). -/
def Obligations.StaleAnswersChangeNothing : Prop :=
  (∀ (s : State) (i : Fin 8) (tag : Byte) (gen : Gen) (a : ReadAnswer), s.resetN = true → s.linkUp (.ingest i) = true →
    a.wellFormed = true →
    (∀ k : Fin 8, tag = BitVec.ofNat 8 k.val →
      ((s.ingest[i.val]).tags[k.val]).state = .free ∨
        (∃ h index num issued attempt, ((s.ingest[i.val]).tags[k.val]).state = .busy h index num issued attempt) ∧
          gen ≠ ((s.ingest[i.val]).tags[k.val]).gen) →
    exec (.blockData i tag gen a) s = .next (s.modLink (.ingest i) fun l => { l with hunting := false })) ∧
  (∀ (s : State) (d : Fin 6) (tag : Byte) (gen : Gen) (x : WriteStatus), s.resetN = true → s.linkUp (.drive d) = true →
    (∀ k : Fin 16, tag = BitVec.ofNat 8 k.val →
      ((s.writer (.drive d)).tags[k.val]).state = .free ∨ (∃ w, ((s.writer (.drive d)).tags[k.val]).state = .waiting w) ∨
        (∃ w n, ((s.writer (.drive d)).tags[k.val]).state = .sent w n) ∧ gen ≠ ((s.writer (.drive d)).tags[k.val]).gen) →
    exec (.writeDone d tag gen x) s = .next (s.modLink (.drive d) fun l => { l with hunting := false })) ∧
  (∀ (s : State) (tag : Byte) (gen : Gen) (x : SinkStatus), s.resetN = true → s.linkUp .control = true →
    (∀ k : Fin 16, tag = BitVec.ofNat 8 k.val →
      ((s.writer .sink).tags[k.val]).state = .free ∨ (∃ w, ((s.writer .sink).tags[k.val]).state = .waiting w) ∨
        (∃ w n, ((s.writer .sink).tags[k.val]).state = .sent w n) ∧ gen ≠ ((s.writer .sink).tags[k.val]).gen) →
    exec (.sinkDone tag gen x) s = .next (s.modLink .control fun l => { l with hunting := false })) ∧
  ∀ (s : State) (d : Fin 6) (tag : Byte) (gen : Gen) (a : ReadAnswer), s.resetN = true → s.linkUp (.drive d) = true →
    a.wellFormed = true →
    (∀ k : Fin 8, tag = BitVec.ofNat 8 k.val →
      ((s.readers[d.val]).tags[k.val]).state = .free ∨ (∃ w, ((s.readers[d.val]).tags[k.val]).state = .waiting w) ∨
        (∃ w n, ((s.readers[d.val]).tags[k.val]).state = .sent w n) ∧ gen ≠ ((s.readers[d.val]).tags[k.val]).gen) →
    exec (.checkData d tag gen a) s = .next (s.modLink (.drive d) fun l => { l with hunting := false })

/-- An answer to an ABANDONED tag, whatever its generation and status, or its expiry, frees the tag with its generation kept and fills
no slot (R62, R104, R126). An expiry is a command taken while the tick's mark stands (notes/assumptions/5.md). -/
def Obligations.AbandonedTagsAreFreed : Prop :=
  (∀ (s : State) (i k : Fin 8) (issued : Tick) (due : Bool) (old gen : Gen) (a : ReadAnswer), s.resetN = true →
    (s.ingest[i.val]).tags[k.val] = ⟨.abandoned issued, old, due⟩ →
    let freed (v : State) : State := v.modIngest i fun p => { p with tags := setEntry p.tags k fun _ => ⟨.free, old, false⟩ }
    (s.linkUp (.ingest i) = true → a.wellFormed = true →
      ∃ t, exec (.blockData i (BitVec.ofNat 8 k.val) gen a) s = .next t ∧
        (freed (s.modLink (.ingest i) fun l => { l with hunting := false })).settlesTo t) ∧
    (due = true → ∃ t, exec (.readTagExpiry i k) s = .next t ∧ (freed s).settlesTo t)) ∧
  (∀ (s : State) (x : Target) (k : Fin 16) (issued : Tick) (due : Bool) (old gen : Gen), s.resetN = true →
    (s.writer x).tags[k.val] = ⟨.abandoned issued, old, due⟩ →
    let freed (v : State) : State := v.modWriter x fun w => { w with tags := setEntry w.tags k fun _ => ⟨.free, old, false⟩ }
    (∀ (d : Fin 6) (y : WriteStatus), x = .drive d → s.linkUp (.drive d) = true →
      ∃ t, exec (.writeDone d (BitVec.ofNat 8 k.val) gen y) s = .next t ∧
        (freed (s.modLink (.drive d) fun l => { l with hunting := false })).settlesTo t) ∧
    (∀ y : SinkStatus, x = .sink → s.linkUp .control = true →
      ∃ t, exec (.sinkDone (BitVec.ofNat 8 k.val) gen y) s = .next t ∧
        (freed (s.modLink .control fun l => { l with hunting := false })).settlesTo t) ∧
    (due = true → ∃ t, exec (.writeTagExpiry x k) s = .next t ∧ (freed s).settlesTo t)) ∧
  ∀ (s : State) (d : Fin 6) (k : Fin 8) (issued : Tick) (due : Bool) (old gen : Gen) (a : ReadAnswer), s.resetN = true →
    (s.readers[d.val]).tags[k.val] = ⟨.abandoned issued, old, due⟩ →
    let freed (v : State) : State := v.modReader d fun w => { w with tags := setEntry w.tags k fun _ => ⟨.free, old, false⟩ }
    (s.linkUp (.drive d) = true → a.wellFormed = true →
      ∃ t, exec (.checkData d (BitVec.ofNat 8 k.val) gen a) s = .next t ∧
        (freed (s.modLink (.drive d) fun l => { l with hunting := false })).settlesTo t) ∧
    (due = true → ∃ t, exec (.checkTagExpiry d k) s = .next t ∧ (freed s).settlesTo t)

/-- A MEDIA REPORT on an ingest port by Table 3-4: no change, an insertion, a capacity refresh, a removal, or an identity change, which is
a removal and then an insertion (R64 to R68, R8); at a removal the reading job's BUSY tags are ABANDONED and its work is withdrawn (Table
1-8), and the port's SETTLING jobs are unchanged (R18). -/
def Obligations.CardReportsChangeTheMedia : Prop :=
  ∀ (s : State) (i : Fin 8), s.resetN = true → s.linkUp (.ingest i) = true →
    let heard : State := s.modLink (.ingest i) fun l => { l with hunting := false }
    let abandoned (t : State) : Prop :=
      ∀ h j, (s.ingest[i.val]).reading = some h → s.job? h = some j → j.port = i → j.state = .reading → State.readsAbandoned h s t
    ((s.ingest[i.val]).media = none → exec (.ingestMediaReport i none) s = .next heard) ∧
    (∀ m : Media, m.capacity ≤ 2 ^ 40 → (s.ingest[i.val]).media = none →
      ∃ t u : State, exec (.ingestMediaReport i (some m)) s = .next t ∧ u.settlesTo t ∧
        u = { heard with ingest := u.ingest, sessions := u.sessions, jobs := u.jobs, handler := u.handler } ∧
        (∀ n : Fin 8, u.ingest[n.val] = if n = i then { s.ingest[i.val] with media := some m } else s.ingest[n.val]) ∧
        (∀ n : Fin 8, u.sessions[n.val] = if n = i then ⟨0, 0, 0⟩ else s.sessions[n.val]) ∧
        (∀ h, u.job? h = (s.job? h).map fun j => if j.port = i then { j with session := false } else j) ∧
        u.handler = (s.notify (.mediaChanged (.ingest i) (some m))).handler) ∧
    (∀ x m : Media, m.capacity ≤ 2 ^ 40 → (s.ingest[i.val]).media = some x → x.identity = m.identity →
      exec (.ingestMediaReport i (some m)) s = .next (heard.modIngest i fun p => { p with media := some m })) ∧
    (∀ x : Media, (s.ingest[i.val]).media = some x →
      ∃ t, exec (.ingestMediaReport i none) s = .next t ∧ (t.ingest[i.val]).media = none ∧ s.cardLost i false t ∧ abandoned t ∧
        s.nextNotice t (.mediaChanged (.ingest i) none) ∧ s.advancesTo t) ∧
    ∀ x m : Media, m.capacity ≤ 2 ^ 40 → (s.ingest[i.val]).media = some x → x.identity ≠ m.identity →
      ∃ t, exec (.ingestMediaReport i (some m)) s = .next t ∧ (t.ingest[i.val]).media = some m ∧ s.cardLost i true t ∧ abandoned t ∧
        t.sessions[i.val] = ⟨0, 0, 0⟩ ∧ (∀ h j, t.job? h = some j → j.port = i → j.session = false) ∧
        s.nextNotice t (.mediaChanged (.ingest i) none) ∧
        (.mediaChanged (.ingest i) (some m) ∈ t.handler.notices ∨ t.handler.noticeLost = true) ∧ s.advancesTo t

/-- The card address of block i: with P the sum of the counts of the runs before run k and P ≤ i < P + c_k, it is run k's start block
plus i - P (R3). -/
def Obligations.CardAddressesFollowTheRuns : Prop :=
  ∀ (before after : List Run) (r : Run) (i : Nat),
    (before.map Run.count).sum ≤ i → i < (before.map Run.count).sum + r.count →
    cardAddress (before ++ r :: after) i = r.start + (i - (before.map Run.count).sum)

/-! ## Targets -/

/-- A MEDIA REPORT on a drive by Table 5-5 (R109, R110): no change, an insertion, a capacity refresh, a removal that loses the target's
legs, or an identity change, which is a removal and then an insertion; a removal leaves nothing of the drive's work in its reader, its
writer or the pool, and the lost legs' sent tags are ABANDONED with generation and issue tick kept, their waiting ones FREE (R40, R44, R106,
R130). -/
def Obligations.DriveReportsChangeTheMedia : Prop :=
  ∀ (s : State) (d : Fin 6), s.resetN = true → s.linkUp (.drive d) = true →
    let heard : State := s.modLink (.drive d) fun l => { l with hunting := false }
    let lost : Notice := .targetLost (.drive d) (s.jobsWithLeg (.drive d) LegState.lostWithTarget).length
    ((s.drives[d.val]).media = none → exec (.targetMediaReport d none) s = .next heard) ∧
    (∀ m : Media, m.capacity ≤ 2 ^ 40 → (s.drives[d.val]).media = none →
      ∃ t, exec (.targetMediaReport d (some m)) s = .next t ∧
        ((heard.modDrive d fun v => { v with media := some m }).notify (.mediaChanged (.drive d) (some m))).settlesTo t) ∧
    (∀ x m : Media, m.capacity ≤ 2 ^ 40 → (s.drives[d.val]).media = some x → x.identity = m.identity →
      exec (.targetMediaReport d (some m)) s = .next (heard.modDrive d fun v => { v with media := some m })) ∧
    (∀ x : Media, (s.drives[d.val]).media = some x →
      ∃ t, exec (.targetMediaReport d none) s = .next t ∧ t.drives[d.val] = { s.drives[d.val] with media := none } ∧
        s.legsLost (.drive d) t ∧ s.nextNotice t lost ∧ (s.outcomesOk → s.driveCleared d t ∧ s.driveTagsWithdrawn d t) ∧
        s.advancesTo t) ∧
    ∀ x m : Media, m.capacity ≤ 2 ^ 40 → (s.drives[d.val]).media = some x → x.identity ≠ m.identity →
      ∃ t, exec (.targetMediaReport d (some m)) s = .next t ∧ t.drives[d.val] = { s.drives[d.val] with media := some m } ∧
        s.legsLost (.drive d) t ∧ s.nextNotice t lost ∧
        (.mediaChanged (.drive d) (some m) ∈ t.handler.notices ∨ t.handler.noticeLost = true) ∧
        (s.outcomesOk → s.driveCleared d t ∧ s.driveTagsWithdrawn d t) ∧ s.advancesTo t

/-- An acknowledgement on its sent tag, by WRITE DONE or SINK DONE with OK (R17, R39, R42, R102, R142): the leg's and the window's counts
rise, the target leaves the slot's set, the slot is freed if that leaves it digested and owed to none, the tag is FREE. With the leg's last
block a leg to be verified joins the tail of its drive's verify work list, VERIFYING at once where the list was empty and else WRITTEN
(R119, R120); any other leg is GOOD, and a SETTLING job that this completes is DONE, or FAILED, INSUFFICIENT_COPIES (R15). The counts of a
terminal job stand (R6, R22). -/
def Obligations.AcknowledgementsCompleteWrites : Prop :=
  ∀ (s : State) (x : Target) (k : Fin 16) (w : TagWork) (issued : Tick) (gen : Gen) (due : Bool) (l : Leg) (j : Job) (y : Slot),
    s.resetN = true → s.linkUp (targetPort x) = true → s.poolOk → (s.writer x).tags[k.val] = ⟨.sent w issued, gen, due⟩ →
    s.leg? w.ref = some l → s.job? w.ref.job = some j → s.slot? w.slot = some y →
    let last : Prop := j.state.terminal = false ∧ l.acked + 1 = j.blocks ∧ l.state = .writing
    (last → l.target = x ∧ s.outcomesOk ∧ s.headsActive) →
    let done : Instr :=
      match x with
      | .drive d => .writeDone d (BitVec.ofNat 8 k.val) gen .ok
      | .sink => .sinkDone (BitVec.ofNat 8 k.val) gen .ok
    let withLeg (m : Leg) : Job := { j with legs := j.legs.modify w.ref.leg fun _ => m }
    let written : Leg := { l with acked := l.acked + 1, written := some s.now }
    let good : Leg := { written with state := .good, cause := none, finished := some s.now }
    let settled (g : Job) : Prop :=
      g.state = .settling ∧ (∀ m ∈ g.legs, m.state.terminal = true) ∧
        ∃ v, g.ingest.final = some v ∧ (g.expected = none ∨ g.expected = some v)
    ∃ t u : State, exec done s = .next t ∧ u.settlesTo t ∧
      u = { s with
        links := u.links, slots := u.slots, jobs := u.jobs, sessions := u.sessions, writers := u.writers, readers := u.readers,
        windows := u.windows } ∧
      (∀ p, u.link p = if p = targetPort x then { s.link p with hunting := false } else s.link p) ∧
      (∀ z, u.window z = if z = x then { s.window x with acked := min ((s.window x).acked + 1) (2 ^ 32 - 1) } else s.window z) ∧
      (∀ z, u.writer z =
        if z = x then { s.writer x with tags := setEntry (s.writer x).tags k fun _ => ⟨.free, gen, false⟩ } else s.writer z) ∧
      (∀ n, u.slot? n = if n = w.slot then (if (y.settle x).freeable then none else some (y.settle x)) else s.slot? n) ∧
      (∀ g, g ≠ w.ref.job → u.job? g = s.job? g) ∧
      (¬ last →
        u.job? w.ref.job = some (if j.state.terminal then j else withLeg { l with acked := l.acked + 1 }) ∧
          u.sessions = s.sessions ∧ u.readers = s.readers) ∧
      (∀ d, last → l.verify = true → x = .drive d →
        u.sessions = s.sessions ∧
          (∀ e : Fin 6, u.readers[e.val] =
            if e = d then { s.readers[d.val] with work := (s.readers[d.val]).work ++ [w.ref] } else s.readers[e.val]) ∧
          u.job? w.ref.job =
            some (withLeg { written with state := if (s.readers[d.val]).work = [] then .verifying else .written })) ∧
      (last → l.verify = false ∨ x = .sink →
        u.readers = s.readers ∧
          (¬ settled (withLeg good) → u.job? w.ref.job = some (withLeg good) ∧ u.sessions = s.sessions) ∧
          (settled (withLeg good) →
            let copied : Bool := decide (j.required ≤ (withLeg good).goodLegs)
            u.job? w.ref.job =
                some { withLeg good with
                  state := if copied then .done else .failed
                  cause := if copied then none else some .insufficientCopies
                  finishedAt := some s.now } ∧
              ∀ i : Fin 8, u.sessions[i.val] =
                let c := s.sessions[i.val]
                if i = j.port ∧ j.session = true then
                  if copied then { c with live := c.live - 1, done := min (c.done + 1) 65535 }
                  else { c with live := c.live - 1, failed := min (c.failed + 1) 65535 }
                else c))

/-- A failed write attempt, by MEDIA_ERROR or by expiry: with retries left the tag waits at the tail of the retry list and nothing else
moves; without, or at NO_SPACE, the leg fails, its writes are withdrawn, the target leaves every pending-target set of the job and the slots
so left digested and owed to none are freed (R20, R40, R103, R106), and a READING or SETTLING job that has no viable leg left fails,
INSUFFICIENT_COPIES, with teardown (R16, R22, Table 1-8). For what follows from the pool and the verify work lists the premise is
`outcomesOk`, which every step keeps (OutcomesStandUntilRelease) and which bounds those lists. An expiry is a command taken while the tick's
mark stands (notes/assumptions/5.md). -/
def Obligations.WriteFailuresRetryOrFailTheLeg : Prop :=
  ∀ (s : State) (x : Target) (k : Fin 16) (w : TagWork) (issued : Tick) (gen : Gen) (due : Bool),
    s.resetN = true → (s.writer x).tags[k.val] = ⟨.sent w issued, gen, due⟩ →
    let heard : State := s.modLink (targetPort x) fun l => { l with hunting := false }
    let waits (v : State) : State :=
      v.modWriter x fun q => { q with tags := setEntry q.tags k fun _ => ⟨.waiting w, gen, false⟩, retry := q.retry ++ [k] }
    let freed : State := s.modWriter x fun q => { q with tags := setEntry q.tags k fun _ => ⟨.free, gen, false⟩ }
    let fails (t : State) (cause : LegCause) : Prop :=
      s.advancesTo t ∧ ∀ r l, s.legOn w.ref.job x = some r → s.leg? r = some l → l.state = .writing →
        s.legFailed t r cause ∧ State.writesWithdrawn x w.ref.job freed t ∧ (s.outcomesOk → State.slotsSettled x w.ref.job s t) ∧
          ∀ j, s.outcomesOk → s.job? w.ref.job = some j → j.state = .reading ∨ j.state = .settling →
            (∀ n m, j.legs[n]? = some m → n ≠ r.leg → m.state.viable = false) →
            s.failedIn t w.ref.job .insufficientCopies ∧ State.workGone w.ref.job freed t ∧ State.readsAbandoned w.ref.job s t
    ((w.attempt < (s.writer x).retryLimit →
        (∀ d, x = .drive d → s.linkUp (.drive d) = true →
          ∃ t, exec (.writeDone d (BitVec.ofNat 8 k.val) gen .mediaError) s = .next t ∧ (waits heard).settlesTo t) ∧
        (x = .sink → s.linkUp .control = true →
          ∃ t, exec (.sinkDone (BitVec.ofNat 8 k.val) gen .mediaError) s = .next t ∧ (waits heard).settlesTo t) ∧
        (due = true → ∃ t, exec (.writeTagExpiry x k) s = .next t ∧ (waits s).settlesTo t)) ∧
      ((s.writer x).retryLimit ≤ w.attempt →
        (∀ d, x = .drive d → s.linkUp (.drive d) = true →
          ∃ t, exec (.writeDone d (BitVec.ofNat 8 k.val) gen .mediaError) s = .next t ∧ fails t .writeError) ∧
        (x = .sink → s.linkUp .control = true →
          ∃ t, exec (.sinkDone (BitVec.ofNat 8 k.val) gen .mediaError) s = .next t ∧ fails t .writeError) ∧
        (due = true → ∃ t, exec (.writeTagExpiry x k) s = .next t ∧ fails t .writeError)) ∧
      ∀ d, x = .drive d → s.linkUp (.drive d) = true →
        ∃ t, exec (.writeDone d (BitVec.ofNat 8 k.val) gen .noSpace) s = .next t ∧ fails t .targetFull)

/-- The target arbiter (R131). The write side is eligible when the link is UP, the retry list or, with a FREE tag, the write queue is not
empty and the issued count is below the effective ceiling or that is 0 (R99, R141); the check side when the link is UP and the check retry
list is not empty or a slot awaits the link. An IDLE arbiter grants its turn's side if eligible, else the other side if eligible; only a
grant to the turn's side is counted, and at the side's weight the turn passes; the end of a transmission makes the arbiter IDLE and it
grants again, and the granted side issues: the writer a reissue of the head of its retry list, else a first write of the head of its queue
under the lowest FREE tag, with the address base + index, a BLOCK WRITE or a SINK WRITE with the valid-byte count (R99, R100, R101, R141);
the reader a check read in the same way, from its retry list or of the slot awaiting the link (R122). -/
def Obligations.TargetArbiterTakesTurns : Prop :=
  (∀ (a : TargetArbiter) (write check : Bool),
    let ok : Side → Bool := fun x => match x with | .write => write | .check => check
    a.choice write check = if ok a.turn then some a.turn else if ok a.turn.other then some a.turn.other else none) ∧
  (∀ (s : State) (x : Target), s.writeEligible x = true ↔ s.writeReady x) ∧
  (∀ (s : State) (d : Fin 6), s.checkEligible d = true ↔ s.checkReady d) ∧
  (∀ (a : TargetArbiter) (x : Side), x ≠ a.turn → a.charge x = { a with granted := true }) ∧
  (∀ a : TargetArbiter,
    a.charge a.turn =
      if a.weight a.turn ≤ a.count + 1 then { a with turn := a.turn.other, count := 0, granted := true }
      else { a with count := a.count + 1, granted := true }) ∧
  (∀ (s : State) (d : Fin 6), s.resetN = true → (s.sides[d.val]).granted = true →
    let a : TargetArbiter := { s.sides[d.val] with granted := false }
    let idle : State := s.modLink (.drive d) fun l => { l with tx := [] }
    ∃ t, exec (.targetTxEnd d) s = .next t ∧
      ((s.modSides d fun a => { a with granted := false }).modLink (.drive d) fun l => { l with tx := [] }).settlesTo t ∧
      (t.link (.drive d)).tx.length ≤ 1 ∧ (t.sides[d.val] = a ∨ ∃ x, t.sides[d.val] = a.charge x) ∧
      (a.turn = .write → s.writeEligible (.drive d) = true →
        t.sides[d.val] = a.charge .write ∧
          (s.poolOk → (∀ e rest, (s.writer (.drive d)).queue = e :: rest → s.slot? e.slot ≠ none) →
            t.writer (.drive d) = (idle.issueWrite (.drive d)).writer (.drive d) ∧
              (t.link (.drive d)).tx = ((idle.issueWrite (.drive d)).link (.drive d)).tx)) ∧
      (a.turn = .check ∨ s.writeEligible (.drive d) = false → s.checkEligible d = true →
        t.sides[d.val] = a.charge .check ∧
          (s.poolOk → (∀ n, (s.readers[d.val]).awaiting = some n → s.slot? n ≠ none) →
            (t.readers[d.val]).tags = ((idle.issueCheck d).readers[d.val]).tags ∧
              (t.readers[d.val]).retry = ((idle.issueCheck d).readers[d.val]).retry ∧
              (t.link (.drive d)).tx = ((idle.issueCheck d).link (.drive d)).tx)) ∧
      (s.writeEligible (.drive d) = true ∨ s.checkEligible d = true → ∃ x, t.sides[d.val] = a.charge x)) ∧
  (∀ (s : State) (x : Target) (k : Fin 16) (j : Job) (y : Slot) (b : HeldBlock), y.held = some b →
    let gen := ((s.writer x).tags[k.val]).gen + 1
    let issued (u : State) (w : TagWork) (queue : List WriteEntry) (retry : List (Fin 16)) : Prop :=
      u = { s with links := u.links, jobs := u.jobs, writers := u.writers, windows := u.windows } ∧
        (∀ z, u.writer z =
          if z = x then
            { s.writer x with
              queue := queue, retry := retry, tags := setEntry (s.writer x).tags k fun _ => ⟨.sent w s.now, gen, false⟩ }
          else s.writer z) ∧
        (∀ z, u.window z =
          if z = x then { s.window x with issued := min ((s.window x).issued + 1) (2 ^ 32 - 1) } else s.window z) ∧
        ∀ p, u.link p =
          if p = targetPort x then
            { s.link p with
              tx := (s.link p).tx ++
                [match x with
                  | .drive _ => .blockWrite k gen w.address b.data
                  | .sink =>
                    .sinkWrite k gen w.ref.job (if w.index + 1 = j.blocks then j.length - 4096 * w.index else 4096) w.index b.data] }
          else s.link p
    (∀ (rest : List (Fin 16)) (w : TagWork), (s.writer x).retry = k :: rest → ((s.writer x).tags[k.val]).state = .waiting w →
      s.slot? w.slot = some y → s.job? w.ref.job = some j →
      issued (s.issueWrite x) { w with attempt := w.attempt + 1 } (s.writer x).queue rest ∧ (s.issueWrite x).jobs = s.jobs) ∧
    ∀ (e : WriteEntry) (rest : List WriteEntry) (l : Leg) (base : Nat), (s.writer x).retry = [] → (s.writer x).queue = e :: rest →
      ((s.writer x).tags[k.val]).state = .free → (∀ m : Fin 16, m < k → ((s.writer x).tags[m.val]).state ≠ .free) →
      s.slot? e.slot = some y → s.job? e.ref.job = some j → s.leg? e.ref = some l → l.base = some base →
      issued (s.issueWrite x) ⟨e.slot, e.ref, y.index, base + y.index, 0⟩ rest [] ∧
        ∀ h, (s.issueWrite x).job? h =
          if h = e.ref.job then
            some (if j.state.terminal then j else { j with legs := j.legs.modify e.ref.leg fun l => { l with sent := l.sent + 1 } })
          else s.job? h) ∧
  ∀ (s : State) (d : Fin 6) (k : Fin 8),
    let gen := ((s.readers[d.val]).tags[k.val]).gen + 1
    let issued (u : State) (w : TagWork) (awaiting : Option Nat) (retry : List (Fin 8)) : Prop :=
      u = { s with links := u.links, jobs := u.jobs, readers := u.readers } ∧
        (∀ m : Fin 6, u.readers[m.val] =
          if m = d then
            { s.readers[d.val] with
              awaiting := awaiting, retry := retry
              tags := setEntry (s.readers[d.val]).tags k fun _ => ⟨.sent w s.now, gen, false⟩ }
          else s.readers[m.val]) ∧
        ∀ p, u.link p = if p = .drive d then { s.link p with tx := (s.link p).tx ++ [.checkRead k gen w.address] } else s.link p
    (∀ (rest : List (Fin 8)) (w : TagWork), (s.readers[d.val]).retry = k :: rest →
      ((s.readers[d.val]).tags[k.val]).state = .waiting w →
      issued (s.issueCheck d) { w with attempt := w.attempt + 1 } (s.readers[d.val]).awaiting rest ∧
        (s.issueCheck d).jobs = s.jobs) ∧
    ∀ (r : LegRef) (rest : List LegRef) (num : Nat) (y : Slot) (j : Job) (l : Leg) (base : Nat), (s.readers[d.val]).retry = [] →
      (s.readers[d.val]).awaiting = some num → (s.readers[d.val]).work = r :: rest →
      ((s.readers[d.val]).tags[k.val]).state = .free → (∀ m : Fin 8, m < k → ((s.readers[d.val]).tags[m.val]).state ≠ .free) →
      s.slot? num = some y → s.job? r.job = some j → s.leg? r = some l → l.base = some base →
      issued (s.issueCheck d) ⟨num, r, y.index, base + y.index, 0⟩ none [] ∧
        ∀ h, (s.issueCheck d).job? h =
          if h = r.job then
            some (if j.state.terminal then j else { j with legs := j.legs.modify r.leg fun l => { l with checked := l.checked + 1 } })
          else s.job? h

/-- The placement of a leg of n blocks on a drive, step by step (R95). -/
def Obligations.PlacementTakesThePointer : Prop :=
  ∀ (v : Drive) (n : Nat),
    let fits (r : Region) (pointer : Nat) : Prop := n = 0 ∨ pointer + n ≤ r.last + 1
    (∀ c, v.current = some c → fits c v.pointer → v.place n = ({ v with pointer := v.pointer + n }, some v.pointer)) ∧
    (v.staged = none → (∀ c, v.current = some c → ¬ fits c v.pointer) → v.place n = (v, none)) ∧
    ∀ q, v.staged = some q → (∀ c, v.current = some c → ¬ fits c v.pointer) →
      (fits q q.first →
        v.place n = ({ v with current := some q, staged := none, pointer := q.first + n }, some q.first)) ∧
      (¬ fits q q.first → v.place n = ({ v with current := some q, staged := none, pointer := q.first }, none))

/-- The slot grant arbiter. What a sequencer and a verify stream wait for, the quota admission check among it (R31, R46, R54, R121). Which
requester is served: with FREE slots the first that waits at or after the pointer, requester by requester; with none they join the waiting
set; freed slots go in the same way to those that were waiting and still do (R32, R33). What a grant does: to a sequencer, the slot is
RESERVED for the next block with the targets of the job's WRITING legs and its BLOCK READ is issued under the lowest FREE tag; to a verify
stream, the slot is RESERVED and awaits the link; either way the pointer moves to the requester after (R35, R36, R55). -/
def Obligations.GrantsReserveAndIssue : Prop :=
  (∀ (s : State) (i : Fin 8), s.wants (.ingest i) = true ↔
    ∃ h j, (s.ingest[i.val]).reading = some h ∧ s.job? h = some j ∧ s.linkUp (.ingest i) = true ∧ j.state = .reading ∧
      j.requested < j.blocks ∧ (∃ k : Fin 8, ((s.ingest[i.val]).tags[k.val]).state = .free) ∧ j.requested < j.ingest.next + 64 ∧
      ∀ l ∈ j.legs, l.state = .writing →
        (s.slots.filter fun y => decide (l.target ∈ y.owed)).length < (s.window l.target).effective.quota) ∧
  (∀ (s : State) (d : Fin 6), s.wants (.verify d) = true ↔
    ∃ r rest l j, (s.readers[d.val]).work = r :: rest ∧ s.leg? r = some l ∧ s.job? r.job = some j ∧ s.linkUp (.drive d) = true ∧
      (s.drives[d.val]).media ≠ none ∧ l.state = .verifying ∧ l.checked < j.blocks ∧ (s.readers[d.val]).awaiting = none ∧
      (∃ k : Fin 8, ((s.readers[d.val]).tags[k.val]).state = .free) ∧ l.checked < l.context.next + 16) ∧
  (∀ (s : State) (n : Nat),
    (∀ r, s.freeSlots ≠ 0 → s.wants r = true →
      (∀ q, s.wants q = true → s.arbiter.pointer.distance r ≤ s.arbiter.pointer.distance q) →
      State.serveNew (n + 1) s = State.serveNew n (s.grant r)) ∧
    (s.freeSlots = 0 ∨ (∀ q, s.wants q = false) →
      ∃ waiting, State.serveNew n s = { s with arbiter := { s.arbiter with waiting := waiting } } ∧
        ∀ q, q ∈ waiting ↔ s.wants q = true) ∧
    let v : State := { s with arbiter := { s.arbiter with waiting := s.arbiter.waiting.filter s.wants } }
    (∀ r, s.freeSlots ≠ 0 → r ∈ s.arbiter.waiting → s.wants r = true →
      (∀ q ∈ s.arbiter.waiting, s.wants q = true → s.arbiter.pointer.distance r ≤ s.arbiter.pointer.distance q) →
      State.handOn (n + 1) s = State.handOn n (v.grant r)) ∧
    (s.freeSlots = 0 ∨ (∀ q ∈ s.arbiter.waiting, s.wants q = false) → State.handOn n s = v)) ∧
  (∀ (s : State) (i : Fin 8) (h : Fin 64) (j : Job),
    (s.ingest[i.val]).reading = some h → s.job? h = some j → s.wants (.ingest i) = true → s.freeSlots ≠ 0 → s.poolOk →
    ∃ (k : Fin 8) (num : Nat),
      let u := s.grant (.ingest i)
      ((s.ingest[i.val]).tags[k.val]).state = .free ∧ (∀ m : Fin 8, m < k → ((s.ingest[i.val]).tags[m.val]).state ≠ .free) ∧
      s.slot? num = none ∧ num < 32768 ∧
      (∀ n, u.slot? n =
        if n = num then some ⟨num, h, j.requested, .ingest ((j.legs.filter fun l => decide (l.state = .writing)).map Leg.target), none⟩
        else s.slot? n) ∧
      u.ingest[i.val] =
        { s.ingest[i.val] with
          tags := setEntry (s.ingest[i.val]).tags k fun g => ⟨.busy h j.requested num s.now 0, g.gen + 1, false⟩ } ∧
      u.job? h = some { j with requested := j.requested + 1 } ∧
      (u.link (.ingest i)).tx =
        (s.link (.ingest i)).tx ++ [.blockRead k (((s.ingest[i.val]).tags[k.val]).gen + 1) (cardAddress j.runs j.requested)] ∧
      u.arbiter.pointer = (if i = 7 then .verify 0 else .ingest (i + 1))) ∧
  ∀ (s : State) (d : Fin 6) (r : LegRef) (rest : List LegRef) (l : Leg),
    (s.readers[d.val]).work = r :: rest → s.leg? r = some l → s.wants (.verify d) = true → s.freeSlots ≠ 0 → s.poolOk →
    ∃ num : Nat,
      let u := s.grant (.verify d)
      s.slot? num = none ∧ num < 32768 ∧
      (∀ n, u.slot? n = if n = num then some ⟨num, r.job, l.checked, .check r.leg, none⟩ else s.slot? n) ∧
      u.readers[d.val] = { s.readers[d.val] with awaiting := some num } ∧
      u.arbiter.pointer = (if d = 5 then .ingest 0 else .verify (d + 1))

/-! ## Verify Readers -/

/-- A CHECK DATA OK on its sent tag: the slot is HELD, the block joins the ready list if it is next, the tag is FREE (R38, R81, R124). -/
def Obligations.CheckDataFillsItsSlot : Prop :=
  ∀ (s : State) (d : Fin 6) (k : Fin 8) (w : TagWork) (issued : Tick) (gen : Gen) (due : Bool) (data : List Byte) (x : Slot) (l : Leg),
    s.resetN = true → s.linkUp (.drive d) = true → (s.readers[d.val]).tags[k.val] = ⟨.sent w issued, gen, due⟩ →
    data.length = 4096 → s.slot? w.slot = some x → s.leg? w.ref = some l →
    ∃ t u : State, exec (.checkData d (BitVec.ofNat 8 k.val) gen (.ok data)) s = .next t ∧ u.settlesTo t ∧
      u = { s with links := u.links, slots := u.slots, readers := u.readers, digest := u.digest } ∧
      (∀ p, u.link p = if p = .drive d then { s.link p with hunting := false } else s.link p) ∧
      (∀ n, u.slot? n = if n = w.slot then some { x with held := some ⟨data, false, false, false⟩ } else s.slot? n) ∧
      (∀ m : Fin 6, u.readers[m.val] =
        if m = d then { s.readers[d.val] with tags := setEntry (s.readers[d.val]).tags k fun _ => ⟨.free, gen, false⟩ }
        else s.readers[m.val]) ∧
      u.digest = { s.digest with ready := if l.context.next = w.index then s.digest.ready ++ [w.slot] else s.digest.ready }

/-- A failed check read, by READ_ERROR or by expiry: with retries left the tag waits at the tail of the check retry list; without, the leg
fails VERIFY_READ_ERROR and leaves the verify work list, its other sent tags becoming ABANDONED, its waiting tags leaving the retry list,
and its CHECK slots being freed or marked withdrawn with their entries in the ready list (R20, R44, R87, R125, R129). An expiry is a command
taken while the tick's mark stands (notes/assumptions/5.md). -/
def Obligations.CheckFailuresRetryOrFailTheLeg : Prop :=
  ∀ (s : State) (d : Fin 6) (k : Fin 8) (w : TagWork) (issued : Tick) (gen : Gen) (due : Bool),
    s.resetN = true → (s.readers[d.val]).tags[k.val] = ⟨.sent w issued, gen, due⟩ →
    (∀ j, s.job? w.ref.job = some j → j.state ≠ .loaded) →
    let waits (v : State) : State :=
      v.modReader d fun q => { q with tags := setEntry q.tags k fun _ => ⟨.waiting w, gen, false⟩, retry := q.retry ++ [k] }
    let freed : State := s.modReader d fun q => { q with tags := setEntry q.tags k fun _ => ⟨.free, gen, false⟩ }
    let fails (t : State) : Prop :=
      s.advancesTo t ∧ ∀ r l, s.legOn w.ref.job (.drive d) = some r → s.leg? r = some l → l.state = .verifying →
        s.legFailed t r .verifyReadError ∧ (∀ q ∈ (t.readers[d.val]).work, q.job ≠ w.ref.job) ∧
          (s.outcomesOk → r ∈ (s.readers[d.val]).work → State.verifyGone d r freed t)
    (w.attempt < (s.writer (.drive d)).retryLimit →
      (s.linkUp (.drive d) = true →
        ∃ t, exec (.checkData d (BitVec.ofNat 8 k.val) gen .readError) s = .next t ∧
          (waits (s.modLink (.drive d) fun l => { l with hunting := false })).settlesTo t) ∧
      (due = true → ∃ t, exec (.checkTagExpiry d k) s = .next t ∧ (waits s).settlesTo t)) ∧
    ((s.writer (.drive d)).retryLimit ≤ w.attempt →
      (s.linkUp (.drive d) = true →
        ∃ t, exec (.checkData d (BitVec.ofNat 8 k.val) gen .readError) s = .next t ∧ fails t) ∧
      (due = true → ∃ t, exec (.checkTagExpiry d k) s = .next t ∧ fails t))

/-- The completion of a CHECK block of a running job (R84, R124): the leg's verify context advances, the slot is freed, and the leg's next
block joins the ready list if HELD. With a VERIFYING leg's last block its digest is compared with the job's final ingest digest, and the leg
is GOOD or MISMATCH and the next leg of the verify work list becomes VERIFYING; or, the ingest digest not being final, the verify digest is
recorded and the leg waits VERIFYING (R120, R128). -/
def Obligations.VerificationComparesTheDigests : Prop :=
  ∀ (s : State) (num : Nat) (x : Slot) (b : HeldBlock) (n : Nat) (d : Fin 6) (j : Job) (l : Leg),
    s.resetN = true → s.digest.inFlight = some num → s.slot? num = some x → x.held = some b → b.withdrawn = false →
    x.kind = .check n → s.job? x.job = some j → s.leg? ⟨x.job, n⟩ = some l → l.target = .drive d → j.state.terminal = false →
    let c := digestBlock l.context (digestBytesOf j.length x.index b.data)
    (s.poolOk → b.inDigest = true → l.context.next + 1 < j.blocks →
      ∃ t u : State, exec .digestComplete s = .next t ∧ u.settlesTo t ∧
        u = { s with digest := u.digest, slots := u.slots, jobs := u.jobs } ∧
        u.digest = ⟨s.digest.ready ++ ((s.heldBlockAt (Slot.checkOf ⟨x.job, n⟩) (l.context.next + 1)).toList.map Slot.num), none⟩ ∧
        (∀ m, u.slot? m = if m = num then none else s.slot? m) ∧
        ∀ h, u.job? h =
          if h = x.job then some { j with legs := j.legs.modify n fun l => { l with context := c } } else s.job? h) ∧
    (l.state = .verifying → l.context.next + 1 = j.blocks →
      let v := finalDigest c j.length
      ∃ t m, exec .digestComplete s = .next t ∧ t.leg? ⟨x.job, n⟩ = some m ∧ s.advancesTo t ∧
        (∀ g, j.ingest.final = some g →
          m.state = (if v = g then .good else .mismatch) ∧ m.finished = some s.now ∧ ⟨x.job, n⟩ ∉ (t.readers[d.val]).work ∧
            ∀ r rest q i, s.outcomesOk → (s.readers[d.val]).work = ⟨x.job, n⟩ :: r :: rest → s.leg? r = some q → s.job? r.job = some i →
              i.blocks ≠ 0 → q.state = .written → ∃ f, t.leg? r = some f ∧ f.state = .verifying) ∧
        (j.ingest.final = none → m.state = .verifying ∧ m.context.final = some v))

/-! ## The Digest Unit -/

/-- DIGEST_START takes the head of the ready list as the block in flight and marks its slot in digest; nothing else moves (R41, R82).
That other commands may come between what makes the start possible and the start is the model's choice (notes/assumptions/23.md). -/
def Obligations.DigestStartTakesTheHead : Prop :=
  ∀ (s : State) (num : Nat) (rest : List Nat), s.resetN = true → s.digest = ⟨num :: rest, none⟩ →
    ∃ t, exec .digestStart s = .next t ∧ t = { s with digest := ⟨rest, some num⟩, slots := t.slots } ∧
      ∀ n, t.slot? n =
        if n = num then (s.slot? num).map fun x => { x with held := x.held.map fun b => { b with inDigest := true } } else s.slot? n

/-- DIGEST_COMPLETE of a withdrawn block only frees its slot, which goes to the first waiting requester at or after the pointer when no
other slot is FREE (R33, R88). Of any other INGEST block of a running job: its context advances by the block's valid bytes, the slot is
digested and freed if owed to none, and the next block joins the ready list if HELD (R41, R42, R84); with the last block the ingest digest
is final: a job whose expected digest differs fails SOURCE_MISMATCH with teardown (R22, Table 1-8), and otherwise each VERIFYING leg
whose verify digest waits is compared (R14). -/
def Obligations.DigestCompletionAdvancesTheContext : Prop :=
  ∀ (s : State) (num : Nat) (x : Slot) (b : HeldBlock), s.resetN = true → s.poolOk → s.digest.inFlight = some num →
    s.slot? num = some x → x.held = some b →
    (b.withdrawn = true →
      let u : State := { s with digest := { s.digest with inFlight := none }, slots := s.slots.filter fun y => decide (y.num ≠ num) }
      ∃ t, exec .digestComplete s = .next t ∧ u.settlesTo t ∧ (∀ n, u.slot? n = if n = num then none else s.slot? n) ∧
        (s.freeSlots = 0 → ∀ r ∈ s.arbiter.waiting, u.wants r = true →
          (∀ q ∈ s.arbiter.waiting, u.wants q = true → s.arbiter.pointer.distance r ≤ s.arbiter.pointer.distance q) →
          match r with
          | .ingest i => ∀ h j, (s.ingest[i.val]).reading = some h → s.job? h = some j →
            t.slot? num =
              some ⟨num, h, j.requested, .ingest ((j.legs.filter fun l => decide (l.state = .writing)).map Leg.target), none⟩
          | .verify d => ∀ f rest l, (s.readers[d.val]).work = f :: rest → s.leg? f = some l →
            t.slot? num = some ⟨num, f.job, l.checked, .check f.leg, none⟩)) ∧
    ∀ (owed : List Target) (j : Job), b.withdrawn = false → b.inDigest = true → x.kind = .ingest owed → s.job? x.job = some j →
      j.state.terminal = false →
      let c := digestBlock j.ingest (digestBytesOf j.length x.index b.data)
      ∃ t m, exec .digestComplete s = .next t ∧ t.digest.inFlight = none ∧ t.job? x.job = some m ∧ s.advancesTo t ∧
        m.ingest.next = j.ingest.next + 1 ∧ m.ingest.a = c.a ∧ m.ingest.b = c.b ∧
        (c.next < j.blocks → m.ingest = c ∧
          t.digest.ready = s.digest.ready ++ ((s.heldBlockAt (Slot.ingestOf x.job) c.next).toList.map Slot.num) ∧
          (owed ≠ [] → t.slot? num = some { x with held := some { b with digested := true, inDigest := false } }) ∧
          (owed = [] → ∀ y, t.slot? num = some y → y.held = none)) ∧
        (c.next = j.blocks →
          m.ingest.final = some (finalDigest c j.length) ∧
            (∀ e, j.expected = some e → e ≠ finalDigest c j.length →
              s.failedIn t x.job .sourceMismatch ∧ State.workGone x.job s t ∧ State.readsAbandoned x.job s t) ∧
            (j.expected = none ∨ j.expected = some (finalDigest c j.length) →
              ∀ n l v d, j.legs[n]? = some l → l.state = .verifying → l.context.final = some v → l.target = .drive d →
                ∃ f, t.leg? ⟨x.job, n⟩ = some f ∧ f.state = (if v = finalDigest c j.length then .good else .mismatch) ∧
                  f.finished = some s.now))

/-! ## Time -/

/-- TICK (R59, R103, R125, R135, R136, R137, R139, R156): the tick counter rises, the prescaler restarts, a staged p comes into force,
every tag is tested against the new tick and its owner's timeout, every window counter falls or its end is due, and the phase flips at a
multiple of 2^b; nothing but these and the lamps' lines moves. A window's end belongs to the tick that finds its counter at 0: the ends
which no WINDOW_END has taken when the next tick comes are taken there first, in target order, each as by its WINDOW_END, so that no tick
loses one. That expiries and window ends are marks here, taken by commands of their own, is the model's choice
(notes/assumptions/5.md). -/
def Obligations.TickActsOnEveryBlock : Prop :=
  (∀ (s u : State) (x : Target), s.resetN = true → allTargets.find? (fun y => (s.window y).endDue) = some x →
    exec (.windowEnd x) s = .next u →
      exec .tick s = exec .tick u ∧ (u.window x).counter = (s.window x).latch ∧ (u.window x).endDue = false ∧
        ∀ y, y ≠ x → (u.window y).endDue = (s.window y).endDue) ∧
  ∀ s : State, s.resetN = true → (∀ x, (s.window x).endDue = false) →
    let now := s.timer.tick + 1
    let old (issued : Tick) (timeout : Nat) : Bool := decide (timeout ≤ (now.toNat + 2 ^ 32 - issued.toNat) % 2 ^ 32)
    let test (g : BlockTag) (timeout : Nat) : BlockTag :=
      { g with
        due := match g.state with
          | .sent _ n => g.due || old n timeout
          | .abandoned n => g.due || old n timeout
          | .free => false
          | .waiting _ => false }
    ∃ t, exec .tick s = .next t ∧
      t = { s with timer := t.timer, ingest := t.ingest, writers := t.writers, readers := t.readers, windows := t.windows,
                   lamps := t.lamps, blink := t.blink } ∧
      t.timer = { tick := now, prescaler := 0, p := s.timer.stagedP.getD s.timer.p, stagedP := none } ∧
      (∀ i : Fin 8, t.ingest[i.val] = { s.ingest[i.val] with tags := (t.ingest[i.val]).tags } ∧
        ∀ k : Fin 8, (t.ingest[i.val]).tags[k.val] =
          { (s.ingest[i.val]).tags[k.val] with
            due := match ((s.ingest[i.val]).tags[k.val]).state with
              | .free => false
              | .busy _ _ _ n _ => ((s.ingest[i.val]).tags[k.val]).due || old n (s.ingest[i.val]).timeout
              | .abandoned n => ((s.ingest[i.val]).tags[k.val]).due || old n (s.ingest[i.val]).timeout }) ∧
      (∀ x, t.writer x = { s.writer x with tags := (t.writer x).tags } ∧
        ∀ k : Fin 16, (t.writer x).tags[k.val] = test (s.writer x).tags[k.val] (s.writer x).timeout) ∧
      (∀ d : Fin 6, t.readers[d.val] = { s.readers[d.val] with tags := (t.readers[d.val]).tags } ∧
        ∀ k : Fin 8, (t.readers[d.val]).tags[k.val] = test (s.readers[d.val]).tags[k.val] (s.writer (.drive d)).timeout) ∧
      (∀ x, t.window x =
        if (s.window x).counter = 0 then { s.window x with endDue := true }
        else { s.window x with counter := (s.window x).counter - 1 }) ∧
      (∀ i : Fin 8, t.lamps[i.val] = { s.lamps[i.val] with green := (t.lamps[i.val]).green, red := (t.lamps[i.val]).red }) ∧
      t.blink = { s.blink with phase := if now.toNat % 2 ^ s.blink.exponent = 0 then !s.blink.phase else s.blink.phase }

/-- WINDOW_END in the order of R144: rate, stall test, SLOW with its notice, shedding, and the reload, which clears both counts and the
had-work flag (R145, R146, R148, R149). At a shedding every WRITING leg on the target is DEFERRED, its entries leave the write queue, its
waiting tags the retry list, its sent tags are ABANDONED, and the target leaves every pending-target set of its job, so that only a job
which this event starts can be owed to the target anew (R21, R40, R106, R148). The writes that the event then issues are counted in the new
window, at most one here, and the flag is set again while the target has work (R131, R141, R143). A window end is a command taken while the
tick's mark stands (notes/assumptions/5.md). -/
def Obligations.WindowEndJudgesAndReloads : Prop :=
  ∀ (x : Target) (s : State), s.resetN = true → (s.window x).endDue = true →
    let w := s.window x
    let stalled : Bool := w.hadWork && decide (w.acked < w.effective.floor)
    let streak : Nat := if stalled then min (w.streak + 1) 15 else 0
    let slow : Bool := if w.slow then stalled else decide (w.effective.stallLimit ≤ streak)
    let sheds : Bool := decide ((s.writer x).policy = .shed) && decide (w.effective.stallLimit ≤ streak)
    let deferred := s.jobsWithLeg x fun y => decide (y = .writing)
    let ended : Window :=
      { counter := w.latch, latch := w.latch, staged := w.staged, effective := w.staged, issued := 0, acked := 0, hadWork := false,
        rate := w.acked, streak := if sheds then 0 else streak, slow := slow, endDue := false }
    ∃ t, exec (.windowEnd x) s = .next t ∧
      t.window x = { ended with issued := (t.window x).issued, hadWork := (t.window x).hadWork } ∧ (t.window x).issued ≤ 1 ∧
      ((t.window x).hadWork = true ↔ (t.writer x).toDo) ∧
      (s.linkUp (targetPort x) = false → (t.window x).issued = 0) ∧
      (∀ d, x = .drive d → (s.sides[d.val]).granted = true → (t.window x).issued = 0) ∧
      (x = .sink → s.control.sending ≠ none → (t.window x).issued = 0) ∧
      (w.slow = false → slow = true → s.nextNotice t (.targetSlow x streak w.acked)) ∧
      (w.slow = true → slow = false → s.nextNotice t (.targetRecovered x w.acked)) ∧
      (sheds = true → w.slow = slow → s.nextNotice t (.shed x deferred.length)) ∧
      (sheds = true → w.slow ≠ slow → s.handler.notices.length + 1 < 32 →
        t.handler.notices[s.handler.notices.length + 1]? = some (.shed x deferred.length)) ∧
      (sheds = true → ∀ h r l, s.legOn h x = some r → s.leg? r = some l → l.state = .writing →
        ∃ m, t.leg? r = some m ∧ m.state = .deferred ∧ m.cause = none ∧ m.finished = some s.now) ∧
      (sheds = true → s.outcomesOk →
        (∀ h ∈ deferred, State.writesWithdrawn x h s t ∧ State.slotsSettled x h s t) ∧
          (s.owedByWriting x →
            (∀ y ∈ t.slots, x ∈ y.owed → ∃ j, s.job? y.job = some j ∧ j.state = .loaded) ∧
              ((∀ h j, s.job? h = some j → j.state ≠ .loaded) → t.occupancy x = 0))) ∧
      (sheds = false →
        let notified : State :=
          if w.slow = slow then s else s.notify (if slow then .targetSlow x streak w.acked else .targetRecovered x w.acked)
        (notified.modWindow x fun _ => ended).settlesTo t) ∧
      s.advancesTo t

/-! ## Requests -/

/-- A REQUEST is accepted, counted and queued while fewer than eight are unanswered; the ninth is discarded with the flag set and
nothing counted (R164, R169, R172). That it is taken by a command of its own is the model's choice (notes/assumptions/18.md). -/
def Obligations.RequestsAreCountedAndQueued : Prop :=
  ∀ (s : State) (seq : BitVec 16) (kind : Byte) (body : List Byte), s.resetN = true → s.linkUp .control = true →
    (body.length ≤ 4096 → s.control.unanswered < 8 →
      exec (.request seq kind body) s =
        .next { s.modLink .control (fun l => { l with hunting := false }) with
          control := { s.control with unanswered := s.control.unanswered + 1 }
          handler := { s.handler with requests := s.handler.requests ++ [⟨seq, kind, body⟩] } }) ∧
    (8 ≤ s.control.unanswered →
      exec (.request seq kind body) s = .next (s.modLink .control fun l => { l with discard := true, hunting := true }))

/-- A refused request is answered with its result and no body, and changes nothing else (R173, R174): an unknown kind, a malformed body
(every body's length, presence bytes, codes and ranges by Tables 9-8 and 10-1; the places are read from R171, notes/assumptions/13.md, and
a region with an address of 2^40 or above is malformed for T6 too, notes/assumptions/12.md),
a LOAD_JOB check that fails, in the order of Table 10-3 (R175, R176), a handle that is FREE, a cancel of a terminal job, a release of one
that is not, a region in the way, a port that the request does not take. That a QUERY_PART with a body is refused, as R174 says of a
malformed body, where R173 says that QUERY_PART is never refused, is the model's choice (notes/assumptions/22.md). -/
def Obligations.RefusalsChangeNothing : Prop :=
  (∀ body : List Byte, readLoad body = none ↔
    body.length ≠ 40 + 12 * fieldAt body 2 1 ∨ 16 < fieldAt body 2 1 ∨ 7 < fieldAt body 0 1 ∨ 1 < fieldAt body 4 1 ∨
      2 ^ 40 ≤ fieldAt body 16 8 ∨
      (∃ n, n < fieldAt body 1 1 ∧ n < 4 ∧ (15 < fieldAt body (32 + 2 * n) 1 ∨ 1 < fieldAt body (33 + 2 * n) 1)) ∨
      ∃ n, n < fieldAt body 2 1 ∧ 2 ^ 40 ≤ fieldAt body (40 + 12 * n) 8) ∧
  (∀ body : List Byte,
    (readHandle body = none ↔ body.length ≠ 1 ∨ 63 < fieldAt body 0 1) ∧ (∀ h, readHandle body = some h → h.val = fieldAt body 0 1) ∧
    (readPortCode body = none ↔ body.length ≠ 1 ∨ 15 < fieldAt body 0 1) ∧ (∀ c, readPortCode body = some c → c = fieldAt body 0 1) ∧
    (readTarget body = none ↔
      body.length ≠ 43 ∨ 15 < fieldAt body 0 1 ∨
        (∃ o ∈ [1, 18, 21, 24, 27, 30, 32, 35, 37, 39, 41], 1 < fieldAt body o 1) ∨
        (fieldAt body 1 1 = 1 ∧ (2 ^ 40 ≤ fieldAt body 2 8 ∨ 2 ^ 40 ≤ fieldAt body 10 8)) ∨
        (fieldAt body 41 1 = 1 ∧ 1 < fieldAt body 42 1)) ∧
    (readIngest body = none ↔ body.length ≠ 6 ∨ 15 < fieldAt body 0 1 ∨ 1 < fieldAt body 1 1 ∨ 1 < fieldAt body 4 1) ∧
    (readLamp body = none ↔ body.length ≠ 2 ∨ 15 < fieldAt body 0 1 ∨ 5 < fieldAt body 1 1) ∧
    (readTick body = none ↔ body.length ≠ 4 ∨ 1 < fieldAt body 0 1 ∨ 1 < fieldAt body 2 1)) ∧
  (∀ (s : State) (b : LoadBody),
    let media := (s.ingest[b.port.val]).media
    let down (e : Nat × Nat) : Bool := decide (∃ d : Fin 6, e.1 = 8 + d.val ∧ s.linkUp (.drive d) = false)
    let checks : List (Bool × Result) :=
      [(decide (∀ h, s.job? h ≠ none), .tableFull),
        (!s.linkUp (.ingest b.port) || b.entries.any down, .portDown),
        (media.isNone, .noMedia),
        (media.any fun m => decide (m.identity ≠ b.identity), .wrongMedia),
        (media.any fun m => b.runs.any fun r => decide (1 ≤ r.count ∧ m.capacity ≤ r.start + r.count - 1), .runRange),
        (decide ((∃ r ∈ b.runs, r.count = 0) ∨ (b.runs.map Run.count).sum ≠ blockCount b.length ∨ (b.runs = [] ∧ b.length ≠ 0)),
          .lengthMismatch),
        (decide (b.legCount = 0 ∨ 4 < b.legCount ∨ ¬ (b.entries.map Prod.fst).Nodup ∨ (∃ e ∈ b.entries, e.1 < 8 ∨ 14 < e.1) ∨
          (14, 1) ∈ b.entries ∨ b.required = 0 ∨ b.legCount < b.required), .badLegs)]
    s.loadCheck b = ((checks.find? Prod.fst).map Prod.snd).getD .ok) ∧
  ∀ (s : State) (r : Request) (rest : List Request), s.takes r rest →
    let refused (c : Instr) (result : Result) : Prop := ∃ t, exec c s = .next t ∧ (s.answered r rest result []).settlesTo t
    ((r.kind = 0 ∨ 12 < r.kind.toNat) → refused .unknownRequest .badRequest) ∧
    (r.kind = 1 → (readLoad r.body = none → refused .loadJob .badRequest) ∧
      ((∃ b, readLoad r.body = some b) → (∀ h, s.job? h ≠ none) → refused .loadJob .tableFull) ∧
      ∀ b, readLoad r.body = some b → s.loadCheck b ≠ .ok → refused .loadJob (s.loadCheck b)) ∧
    (r.kind = 2 → (readHandle r.body = none → refused .cancelJob .badRequest) ∧
      ∀ h, readHandle r.body = some h → (s.job? h = none → refused .cancelJob .noSuchJob) ∧
        ∀ j, s.job? h = some j → j.state.terminal = true → refused .cancelJob .notActive) ∧
    (r.kind = 3 → (readHandle r.body = none → refused .releaseJob .badRequest) ∧
      ∀ h, readHandle r.body = some h → (s.job? h = none → refused .releaseJob .noSuchJob) ∧
        ∀ j, s.job? h = some j → j.state.terminal = false → refused .releaseJob .busy) ∧
    (r.kind = 4 → (readHandle r.body = none → refused .queryJob .badRequest) ∧
      ∀ h, readHandle r.body = some h → s.job? h = none → refused .queryJob .noSuchJob) ∧
    (r.kind = 5 → (readTarget r.body = none → refused .setTarget .badRequest) ∧
      ∀ b, readTarget r.body = some b → (targetOfCode b.code = none → refused .setTarget .badRequest) ∧
        ∀ d q, targetOfCode b.code = some (.drive d) → b.region = some q →
          (q.last < q.first → refused .setTarget .badRequest) ∧
          (q.first ≤ q.last → ∀ a, q.holds a → s.protects d a → refused .setTarget .regionOverlap)) ∧
    (r.kind = 6 → (∀ c, readPortCode r.body = some c → targetOfCode c = none → refused .queryTarget .badRequest) ∧
      (readPortCode r.body = none → refused .queryTarget .badRequest)) ∧
    (r.kind = 7 → (readIngest r.body = none → refused .setIngest .badRequest) ∧
      ∀ c timeout limit, readIngest r.body = some (c, timeout, limit) → 8 ≤ c → refused .setIngest .badRequest) ∧
    (r.kind = 8 → (readLamp r.body = none → refused .setLamp .badRequest) ∧
      ∀ c m, readLamp r.body = some (c, m) → 8 ≤ c → refused .setLamp .badRequest) ∧
    (r.kind = 9 → readTick r.body = none → refused .setTick .badRequest) ∧
    (r.kind = 10 → r.body ≠ [] → refused .queryPart .badRequest) ∧
    (r.kind = 11 → (readPortCode r.body = none → refused .resetPort .badRequest) ∧
      (readPortCode r.body = some 15 → refused .resetPort .badRequest)) ∧
    (r.kind = 12 → r.body ≠ [] → refused .resetPart .badRequest)

/-- LOAD_JOB with every check passed (R1, R2, R4, R9, R10): the lowest FREE entry holds the job that the fields of its body give at the
offsets of Table 9-8, every other field of Tables 1-1 and 1-3 at its initial value; the response carries the handle, and the job joins the
tail of its port's line-up with live one higher while the port reads, or starts at once where the port reads nothing and waits for
nothing. -/
def Obligations.LoadJobFillsTheLowestEntry : Prop :=
  (∀ (body : List Byte) (b : LoadBody), readLoad body = some b →
    b.port.val = fieldAt body 0 1 ∧ b.legCount = fieldAt body 1 1 ∧ b.required = fieldAt body 3 1 ∧
      b.expected = (if fieldAt body 4 1 = 1 then some (BitVec.ofNat 64 (fieldAt body 24 8)) else none) ∧
      b.identity = BitVec.ofNat 64 (fieldAt body 8 8) ∧ b.length = fieldAt body 16 8 ∧ b.entries.length = min (fieldAt body 1 1) 4 ∧
      (∀ (n : Nat) (e : Nat × Nat), b.entries[n]? = some e → e = (fieldAt body (32 + 2 * n) 1, fieldAt body (33 + 2 * n) 1)) ∧
      b.runs.length = fieldAt body 2 1 ∧
      ∀ (n : Nat) (q : Run), b.runs[n]? = some q → q = ⟨fieldAt body (40 + 12 * n) 8, fieldAt body (48 + 12 * n) 4⟩) ∧
  ∀ (s : State) (r : Request) (rest : List Request) (b : LoadBody) (h : Fin 64),
    s.takes r rest → r.kind = 1 → readLoad r.body = some b → s.loadCheck b = .ok →
    s.job? h = none → (∀ g, g < h → s.job? g ≠ none) →
    let leg (e : Nat × Nat) : Leg :=
      { target := if h : 8 ≤ e.1 ∧ e.1 < 14 then .drive ⟨e.1 - 8, by omega⟩ else .sink
        verify := decide (e.2 = 1), state := .idle, base := none, sent := 0, acked := 0, context := ⟨1, 0, 0, none⟩, checked := 0,
        written := none, finished := none, cause := none }
    let loaded : Job :=
      { state := .loaded, port := b.port, identity := b.identity, length := b.length, runs := b.runs, required := b.required
        expected := b.expected, legs := b.entries.map leg, requested := 0, arrived := 0, ingest := ⟨1, 0, 0, none⟩, loadedAt := s.now
        startedAt := none, arrivedAllAt := none, finishedAt := none, session := true, cause := none, announced := false }
    ∃ t k, exec .loadJob s = .next t ∧ t.job? h = some k ∧ loaded.advancesTo k ∧ s.advancesTo t ∧
      (∀ g, g ≠ h → s.job? g = none → t.job? g = none) ∧ t.handler.requests = rest ∧
      t.control.responses = s.control.responses ++ [⟨r.seq, r.kind, .ok, [BitVec.ofNat 8 h.val]⟩] ∧
      ((s.ingest[b.port.val]).reading ≠ none →
        (t.ingest[b.port.val]).lineUp = (s.ingest[b.port.val]).lineUp ++ [h] ∧ loaded.issuesTo k ∧
          t.sessions[b.port.val] = { s.sessions[b.port.val] with live := (s.sessions[b.port.val]).live + 1 }) ∧
      ((s.ingest[b.port.val]).reading = none → (s.ingest[b.port.val]).lineUp = [] →
        k.startedAt = some s.now ∧ k.state ≠ .loaded ∧ h ∉ (t.ingest[b.port.val]).lineUp)

/-- The start of a job at its LOAD_JOB (R10, R11, R91, R95): each leg on an unavailable target fails LOST, a leg on T6 is WRITING at base
0, a leg on a drive is WRITING at the base its placement gives or fails TARGET_FULL; without a viable leg the job is FAILED,
INSUFFICIENT_COPIES. With one, a job of n ≥ 1 blocks is READING; a job of no blocks is SETTLING with its arrived-all timestamp at its start
and its ingest digest final (R12): an expected digest that differs fails it SOURCE_MISMATCH (R14, R187); otherwise each WRITING leg is
WRITTEN, then GOOD, but a leg to be verified behind others of its drive's list waits there WRITTEN (R120), and when every leg has ended the
job is DONE, or FAILED, INSUFFICIENT_COPIES (R15). -/
def Obligations.StartPlacesTheLegs : Prop :=
  ∀ (s : State) (r : Request) (rest : List Request) (b : LoadBody) (h : Fin 64),
    s.takes r rest → r.kind = 1 → readLoad r.body = some b → s.loadCheck b = .ok →
    s.job? h = none → (∀ g, g < h → s.job? g ≠ none) →
    (s.ingest[b.port.val]).reading = none → (s.ingest[b.port.val]).lineUp = [] →
    let n := blockCount b.length
    let placed := (b.job s.now).legs.map (s.placedLeg n)
    let started : State := s.answered r rest .ok [BitVec.ofNat 8 h.val]
    ∃ t k, exec .loadJob s = .next t ∧ t.job? h = some k ∧
      (n ≠ 0 ∨ s.outcomesOk ∧ s.headsActive → ∀ d : Fin 6, t.drives[d.val] = s.placedDrive n (b.job s.now).legs d) ∧
      ((∀ l ∈ placed, l.state ≠ .writing) →
        k.state = .failed ∧ k.cause = some .insufficientCopies ∧ k.finishedAt = some s.now ∧ k.startedAt = some s.now ∧
          k.legs = placed ∧ (t.ingest[b.port.val]).reading = none) ∧
      ((∃ l ∈ placed, l.state = .writing) → n ≠ 0 →
        k.state = .reading ∧ (t.ingest[b.port.val]).reading = some h ∧
          ∃ u : State, u.settlesTo t ∧
            u = { started with drives := u.drives, jobs := u.jobs, ingest := u.ingest, sessions := u.sessions } ∧
            (∀ g, u.job? g =
              if g = h then some { b.job s.now with state := .reading, startedAt := some s.now, legs := placed } else s.job? g) ∧
            (∀ i : Fin 8, u.ingest[i.val] = if i = b.port then { s.ingest[i.val] with reading := some h } else s.ingest[i.val]) ∧
            ∀ i : Fin 8, u.sessions[i.val] =
              if i = b.port then { s.sessions[i.val] with live := (s.sessions[i.val]).live + 1 } else s.sessions[i.val]) ∧
      ((∃ l ∈ placed, l.state = .writing) → n = 0 → s.outcomesOk → s.headsActive →
        (t.ingest[b.port.val]).reading = none ∧ s.emptyStart t h (b.job s.now) [])

/-- CANCEL_JOB ends a LOADED, READING or SETTLING job ABORTED, CANCELLED, with its legs, line-up place and work (R22, R25, Table 1-8);
RELEASE_JOB frees the entry of a terminal job and takes a FAILED job of the session off the count (R8, R26). -/
def Obligations.CancelAndReleaseEndJobs : Prop :=
  ∀ (s : State) (r : Request) (rest : List Request) (h : Fin 64) (j : Job),
    s.takes r rest → readHandle r.body = some h → s.job? h = some j →
    (r.kind = 2 → j.state.terminal = false →
      ∃ t, exec .cancelJob s = .next t ∧ s.abortedIn t h ∧ s.advancesTo t ∧ t.handler.requests = rest ∧
        t.control.responses = s.control.responses ++ [⟨r.seq, r.kind, .ok, []⟩] ∧
        (j.state = .loaded → h ∉ (t.ingest[j.port.val]).lineUp) ∧
        (j.state = .reading ∨ j.state = .settling →
          State.workGone h s t ∧ State.readsAbandoned h s t ∧
            ((s.ingest[j.port.val]).reading = some h → (t.ingest[j.port.val]).reading ≠ some h))) ∧
    (r.kind = 3 → j.state.terminal = true →
      ∃ t u : State, exec .releaseJob s = .next t ∧ u.settlesTo t ∧
        u = { s.answered r rest .ok [] with jobs := u.jobs, sessions := u.sessions } ∧
        (∀ g, u.job? g = if g = h then none else s.job? g) ∧
        ∀ i : Fin 8, u.sessions[i.val] =
          if i = j.port ∧ j.state = .failed ∧ j.session = true then
            { s.sessions[i.val] with failed := (s.sessions[i.val]).failed - 1 }
          else s.sessions[i.val])

/-- The queries report the state that stands when they are taken, field by field at the offsets of their tables, with the codes of Tables
9-5 and 10-2, and change nothing, the Notice Queue and NOTICE_LOST included, but that QUERY_PART clears NOTICE_LOST and the fifteen discard
flags, after reporting them (R27, R115, R133, R166, R177, R180, R181, R184). The places of the bytes in the bodies of QUERY_TARGET and
QUERY_PART are read from R171 (notes/assumptions/13.md). -/
def Obligations.QueriesReportTheState : Prop :=
  (∀ (s : State) (r : Request) (rest : List Request), s.takes r rest →
    (∀ h j, r.kind = 4 → readHandle r.body = some h → s.job? h = some j →
      ∃ b, j.reportedIn h b ∧ ∃ t, exec .queryJob s = .next t ∧ (s.answered r rest .ok b).settlesTo t ∧
        t.handler = (s.answered r rest .ok b).handler) ∧
    (∀ c x, r.kind = 6 → readPortCode r.body = some c → targetOfCode c = some x →
      ∃ b, s.targetReportedIn x b ∧ ∃ t, exec .queryTarget s = .next t ∧ (s.answered r rest .ok b).settlesTo t ∧
        t.handler = (s.answered r rest .ok b).handler) ∧
    (r.kind = 10 → r.body = [] →
      ∃ b, s.partReportedIn b ∧ ∃ t u : State, exec .queryPart s = .next t ∧ u.settlesTo t ∧
        u = { s.answered r rest .ok b with
          links := u.links, handler := { (s.answered r rest .ok b).handler with noticeLost := false } } ∧
        (∀ p, u.link p = { s.link p with discard := false }) ∧ t.handler = u.handler ∧ t.handler.noticeLost = false ∧
        ∀ p, (t.link p).discard = false)) ∧
  [JobState.loaded, .reading, .settling, .done, .failed, .aborted].map JobState.code = [1, 2, 3, 4, 5, 6] ∧
  [none, some JobCause.sourceLost, some .sourceReadError, some .sourceMismatch, some .insufficientCopies, some .cancelled].map
    jobCauseCode = [0, 1, 2, 3, 4, 5] ∧
  [LegState.idle, .writing, .written, .verifying, .good, .mismatch, .failed, .deferred, .abandoned].map LegState.code =
    [0, 1, 2, 3, 4, 5, 6, 7, 8] ∧
  [none, some LegCause.targetFull, some .writeError, some .verifyReadError, some .lost].map legCauseCode = [0, 1, 2, 3, 4] ∧
  [LampMode.auto, .off, .green, .red, .greenBlink, .redBlink].map LampMode.code = [0, 1, 2, 3, 4, 5] ∧
  [LampState.off, .busy, .safe, .fault].map LampState.code = [0, 1, 2, 3] ∧ [Policy.hold, .shed].map Policy.code = [0, 1] ∧
  (∀ d : Fin 6, targetCode (.drive d) = 8 + d.val) ∧ targetCode .sink = 14 ∧
  ∀ c x, targetOfCode c = some x ↔ c = targetCode x

/-- The settings requests store each value present, clamped to its range, at its owner, and report the values as they stand; an absent
value leaves the stored one (R72, R91, R94, R114, R132, R136, R140, R157, R159, R178, R179). A region for a drive is accepted if it does not
end before its start and holds no protected address (R94), and its disposition is Table 10-2's. The values stand in the request body in the
order of Table 10-1; the places of the bytes in the requests and the responses are read from R171 (notes/assumptions/13.md). -/
def Obligations.SettingsRequestsStoreTheirValues : Prop :=
  (∀ (s : State) (r : Request) (rest : List Request), s.takes r rest →
    let stored (lo hi : Nat) (given : Option Nat) (old : Nat) : Nat :=
      match given with | some n => if n < lo then lo else if hi < n then hi else n | none => old
    (∀ b x, r.kind = 5 → readTarget r.body = some b → targetOfCode b.code = some x →
      (∀ d q, x = .drive d → b.region = some q → q.first ≤ q.last ∧ ∀ a, q.holds a → ¬ s.protects d a) →
      let disposition : Nat :=
        match b.region, x with
        | none, _ => 0
        | some _, .sink => 3
        | some _, .drive d => if (s.drives[d.val]).current = none then 1 else 2
      ∃ (t u : State) (report : List Byte), exec .setTarget s = .next t ∧ u.settlesTo t ∧ u.targetSetIn x disposition report ∧
        u = { s.answered r rest .ok report with
          drives := u.drives, writers := u.writers, windows := u.windows, sides := u.sides } ∧
        (∀ y, u.writer y =
          if y = x then
            { s.writer x with
              timeout := stored 1 65535 b.timeout (s.writer x).timeout
              retryLimit := stored 0 3 b.retryLimit (s.writer x).retryLimit
              policy := if x = .sink then (s.writer x).policy else b.policy.getD (s.writer x).policy }
          else s.writer y) ∧
        (∀ y, u.window y =
          if y = x then
            { s.window x with
              latch := stored 0 65535 b.latch (s.window x).latch
              staged :=
                { quota := stored 1 32768 b.quota (s.window x).staged.quota
                  floor := if x = .sink then (s.window x).staged.floor else stored 0 65535 b.floor (s.window x).staged.floor
                  ceiling := stored 0 65535 b.ceiling (s.window x).staged.ceiling
                  stallLimit := stored 1 15 b.stallLimit (s.window x).staged.stallLimit } }
          else s.window y) ∧
        (∀ d : Fin 6, u.sides[d.val] =
          if x = .drive d then
            { s.sides[d.val] with
              writeWeight := stored 1 15 b.writeWeight (s.sides[d.val]).writeWeight
              checkWeight := stored 1 15 b.checkWeight (s.sides[d.val]).checkWeight }
          else s.sides[d.val]) ∧
        ∀ d : Fin 6, u.drives[d.val] =
          match (if x = .drive d then b.region else none), (s.drives[d.val]).current with
          | some q, none => { s.drives[d.val] with current := some q, pointer := q.first }
          | some q, some _ => { s.drives[d.val] with staged := some q }
          | none, _ => s.drives[d.val]) ∧
    (∀ c given again (i : Fin 8), r.kind = 7 → readIngest r.body = some (c, given, again) → c = i.val →
      let timeout := stored 1 65535 given (s.ingest[i.val]).timeout
      let limit := stored 0 3 again (s.ingest[i.val]).retryLimit
      ∃ t, exec .setIngest s = .next t ∧
        ((s.answered r rest .ok (leBytes 1 i.val ++ leBytes 2 timeout ++ leBytes 1 limit)).modIngest i fun p =>
          { p with timeout := timeout, retryLimit := limit }).settlesTo t) ∧
    (∀ c m (i : Fin 8), r.kind = 8 → readLamp r.body = some (c, m) → c = i.val →
      ∃ t, exec .setLamp s = .next t ∧
        ((s.answered r rest .ok (leBytes 1 m.code ++ leBytes 1 (s.lamps[i.val]).computed.code)).modLamp i fun l =>
          { l with mode := m }).settlesTo t) ∧
    ∀ p e, r.kind = 9 → readTick r.body = some (p, e) →
      let staged : Option Nat := match p with | some n => some (stored 8 24 (some n) 0) | none => s.timer.stagedP
      let exponent := stored 0 15 e s.blink.exponent
      ∃ t, exec .setTick s = .next t ∧
        ({ s.answered r rest .ok (leBytes 1 (staged.getD s.timer.p) ++ leBytes 1 exponent) with
          timer := { s.timer with stagedP := staged }, blink := { s.blink with exponent := exponent } } : State).settlesTo t) ∧
  ∀ body : List Byte,
    (∀ b, readTarget body = some b →
      b.code = fieldAt body 0 1 ∧
        b.region = (if fieldAt body 1 1 = 1 then some ⟨fieldAt body 2 8, fieldAt body 10 8⟩ else none) ∧
        b.latch = optField body 18 2 ∧ b.quota = optField body 21 2 ∧ b.floor = optField body 24 2 ∧ b.ceiling = optField body 27 2 ∧
        b.stallLimit = optField body 30 1 ∧ b.timeout = optField body 32 2 ∧ b.retryLimit = optField body 35 1 ∧
        b.writeWeight = optField body 37 1 ∧ b.checkWeight = optField body 39 1 ∧ b.policy.map Policy.code = optField body 41 1) ∧
    (∀ c timeout limit, readIngest body = some (c, timeout, limit) →
      c = fieldAt body 0 1 ∧ timeout = optField body 1 2 ∧ limit = optField body 4 1) ∧
    (∀ c m, readLamp body = some (c, m) → c = fieldAt body 0 1 ∧ m.code = fieldAt body 1 1) ∧
    ∀ p e, readTick body = some (p, e) → p = optField body 0 1 ∧ e = optField body 2 1

/-- RESET_PORT does the port reset of the port it names, whether its link is UP or DOWN, and is answered OK (R69, R70, R112, R113, R130,
R132, R182); that the frame a drive's link was sending leaves its list with the grant is the model's choice (notes/assumptions/15.md).
RESET_PART is answered OK and leaves the handler TAKING (R172, R183). -/
def Obligations.ResetRequestsResetPorts : Prop :=
  ∀ (s : State) (r : Request) (rest : List Request), s.takes r rest →
    let ok (t : State) : Prop :=
      t.handler.requests = rest ∧ t.control.responses = s.control.responses ++ [⟨r.seq, r.kind, .ok, []⟩] ∧ s.advancesTo t
    (∀ i : Fin 8, r.kind = 11 → readPortCode r.body = some i.val →
      ∃ t, exec .resetPort s = .next t ∧ ok t ∧ t.linkUp (.ingest i) = s.linkUp (.ingest i) ∧ (t.ingest[i.val]).media = none ∧
        (∀ k : Fin 8, (⟨.free, ((s.ingest[i.val]).tags[k.val]).gen + 1, false⟩ : ReadTag).issuesTo s.now
          ((t.ingest[i.val]).tags[k.val])) ∧
        ((s.ingest[i.val]).media ≠ none → s.cardLost i false t ∧ s.nextNotice t (.mediaChanged (.ingest i) none))) ∧
    (∀ c x, r.kind = 11 → readPortCode r.body = some c → targetOfCode c = some x →
      ∃ t, exec .resetPort s = .next t ∧ ok t ∧ t.linkUp (targetPort x) = s.linkUp (targetPort x) ∧
        (t.writer x).queue = [] ∧ (t.writer x).retry = [] ∧
        (∀ k : Fin 16, (t.writer x).tags[k.val] = ⟨.free, ((s.writer x).tags[k.val]).gen + 1, false⟩) ∧
        s.legsLost x t ∧
        (s.available x = true → s.nextNotice t (.targetLost x (s.jobsWithLeg x LegState.lostWithTarget).length)) ∧
        (s.outcomesOk → ∀ h, s.legOnIs h x (fun z => decide (z = .writing)) = true → State.slotsSettled x h s t) ∧
        ∀ d, x = .drive d →
          t.drives[d.val] = { s.drives[d.val] with media := none } ∧
            t.sides[d.val] = { s.sides[d.val] with turn := .write, count := 0, granted := false } ∧
            (t.readers[d.val]).retry = [] ∧ (t.readers[d.val]).awaiting = none ∧
            (∀ k : Fin 8, (t.readers[d.val]).tags[k.val] = ⟨.free, ((s.readers[d.val]).tags[k.val]).gen + 1, false⟩) ∧
            (t.link (.drive d)).tx = [] ∧ (s.outcomesOk → s.driveCleared d t)) ∧
    (r.kind = 12 → r.body = [] →
      ∃ t, exec .resetPart s = .next t ∧
        ((s.answered r rest .ok []).modHandler fun q => { q with taking := true }).settlesTo t)

/-- The end of a frame on C (R168, R169): a response leaves its queue and the unanswered count falls, a notice leaves its queue, and the
transmitter, FREE, grants the first source with a frame from its pointer, which moves to the source after; the head of a granted queue is
sent, or T6's writer issues one write (R99, R100); a source has a frame when its queue is not empty, or, for T6, when its write side meets
R99; the end of RESET_PART's own response is the full reset (R183). That the straps and the
waiting commands stand across it is the model's choice (notes/assumptions/16.md). -/
def Obligations.ControlTransmitterTakesTurns : Prop :=
  (∀ (s : State) (x : Source), s.sourceHas x = true ↔ s.sourceReady x) ∧
  ∀ (s : State) (x : Source), s.resetN = true → s.control.sending = some x →
    let u : State :=
      { s.modLink .control (fun l => { l with tx := [] }) with
        control := { s.control with
          sending := none
          unanswered := if x = .response ∧ s.control.responses ≠ [] then s.control.unanswered - 1 else s.control.unanswered
          responses := if x = .response then s.control.responses.tail else s.control.responses }
        handler := { s.handler with notices := if x = .notice then s.handler.notices.tail else s.handler.notices } }
    let order : List Source :=
      match s.control.pointer with
      | .response => [.response, .notice, .sink]
      | .notice => [.notice, .sink, .response]
      | .sink => [.sink, .response, .notice]
    (¬ (x = .response ∧ s.handler.taking = true ∧ ∃ a more, s.control.responses = a :: more ∧ a.kind = 12 ∧ a.result = .ok) →
      ∃ t, exec .cTxEnd s = .next t ∧ u.settlesTo t ∧
        (s.linkUp .control = true → t.control.sending = order.find? u.sourceHas ∧
          (t.control.pointer =
            match order.find? u.sourceHas with
            | some .response => .notice
            | some .notice => .sink
            | some .sink => .response
            | none => s.control.pointer) ∧
          (order.find? u.sourceHas = some .response → (t.link .control).tx = u.control.responses.head?.toList.map .response) ∧
          (order.find? u.sourceHas = some .notice → (t.link .control).tx = u.handler.notices.head?.toList.map .notice) ∧
          (order.find? u.sourceHas = some .sink → t.writer .sink = (u.issueWrite .sink).writer .sink ∧
            (t.link .control).tx = ((u.issueWrite .sink).link .control).tx) ∧
          (order.find? u.sourceHas = none → (t.link .control).tx = []))) ∧
    ((x = .response ∧ s.handler.taking = true ∧ ∃ a more, s.control.responses = a :: more ∧ a.kind = 12 ∧ a.result = .ok) →
      exec .cTxEnd s = .next { State.reset with nodeId0 := s.nodeId0, nodeId1 := s.nodeId1, pending := s.pending })
end

