-- ==== Sys2Proof/Laws/State.lean ====
section
/-! SUPPORT. What each update of Machine/Ops.lean does to each field of State: one lemma per field per update, so that no later
proof unfolds a record update. -/

namespace Sys2Proof.Machine

variable (s : State)

section
variable (p : Port) (g : LinkPort → LinkPort)
@[simp] theorem State.modLink_resetN : (s.modLink p g).resetN = s.resetN := rfl
@[simp] theorem State.modLink_nodeId0 : (s.modLink p g).nodeId0 = s.nodeId0 := rfl
@[simp] theorem State.modLink_nodeId1 : (s.modLink p g).nodeId1 = s.nodeId1 := rfl
@[simp] theorem State.modLink_timer : (s.modLink p g).timer = s.timer := rfl
@[simp] theorem State.modLink_links : (s.modLink p g).links = setEntry s.links (portIndex p) g := rfl
@[simp] theorem State.modLink_jobs : (s.modLink p g).jobs = s.jobs := rfl
@[simp] theorem State.modLink_sessions : (s.modLink p g).sessions = s.sessions := rfl
@[simp] theorem State.modLink_slots : (s.modLink p g).slots = s.slots := rfl
@[simp] theorem State.modLink_arbiter : (s.modLink p g).arbiter = s.arbiter := rfl
@[simp] theorem State.modLink_ingest : (s.modLink p g).ingest = s.ingest := rfl
@[simp] theorem State.modLink_digest : (s.modLink p g).digest = s.digest := rfl
@[simp] theorem State.modLink_drives : (s.modLink p g).drives = s.drives := rfl
@[simp] theorem State.modLink_writers : (s.modLink p g).writers = s.writers := rfl
@[simp] theorem State.modLink_readers : (s.modLink p g).readers = s.readers := rfl
@[simp] theorem State.modLink_sides : (s.modLink p g).sides = s.sides := rfl
@[simp] theorem State.modLink_windows : (s.modLink p g).windows = s.windows := rfl
@[simp] theorem State.modLink_lamps : (s.modLink p g).lamps = s.lamps := rfl
@[simp] theorem State.modLink_blink : (s.modLink p g).blink = s.blink := rfl
@[simp] theorem State.modLink_handler : (s.modLink p g).handler = s.handler := rfl
@[simp] theorem State.modLink_control : (s.modLink p g).control = s.control := rfl
@[simp] theorem State.modLink_pending : (s.modLink p g).pending = s.pending := rfl
end

section
variable (h : Fin 64) (g : Job → Job)
@[simp] theorem State.modJob_resetN : (s.modJob h g).resetN = s.resetN := rfl
@[simp] theorem State.modJob_nodeId0 : (s.modJob h g).nodeId0 = s.nodeId0 := rfl
@[simp] theorem State.modJob_nodeId1 : (s.modJob h g).nodeId1 = s.nodeId1 := rfl
@[simp] theorem State.modJob_timer : (s.modJob h g).timer = s.timer := rfl
@[simp] theorem State.modJob_links : (s.modJob h g).links = s.links := rfl
@[simp] theorem State.modJob_jobs : (s.modJob h g).jobs = setEntry s.jobs h fun e => e.map g := rfl
@[simp] theorem State.modJob_sessions : (s.modJob h g).sessions = s.sessions := rfl
@[simp] theorem State.modJob_slots : (s.modJob h g).slots = s.slots := rfl
@[simp] theorem State.modJob_arbiter : (s.modJob h g).arbiter = s.arbiter := rfl
@[simp] theorem State.modJob_ingest : (s.modJob h g).ingest = s.ingest := rfl
@[simp] theorem State.modJob_digest : (s.modJob h g).digest = s.digest := rfl
@[simp] theorem State.modJob_drives : (s.modJob h g).drives = s.drives := rfl
@[simp] theorem State.modJob_writers : (s.modJob h g).writers = s.writers := rfl
@[simp] theorem State.modJob_readers : (s.modJob h g).readers = s.readers := rfl
@[simp] theorem State.modJob_sides : (s.modJob h g).sides = s.sides := rfl
@[simp] theorem State.modJob_windows : (s.modJob h g).windows = s.windows := rfl
@[simp] theorem State.modJob_lamps : (s.modJob h g).lamps = s.lamps := rfl
@[simp] theorem State.modJob_blink : (s.modJob h g).blink = s.blink := rfl
@[simp] theorem State.modJob_handler : (s.modJob h g).handler = s.handler := rfl
@[simp] theorem State.modJob_control : (s.modJob h g).control = s.control := rfl
@[simp] theorem State.modJob_pending : (s.modJob h g).pending = s.pending := rfl
end

section
variable (r : LegRef) (g : Leg → Leg)
@[simp] theorem State.modLeg_resetN : (s.modLeg r g).resetN = s.resetN := rfl
@[simp] theorem State.modLeg_nodeId0 : (s.modLeg r g).nodeId0 = s.nodeId0 := rfl
@[simp] theorem State.modLeg_nodeId1 : (s.modLeg r g).nodeId1 = s.nodeId1 := rfl
@[simp] theorem State.modLeg_timer : (s.modLeg r g).timer = s.timer := rfl
@[simp] theorem State.modLeg_links : (s.modLeg r g).links = s.links := rfl
@[simp] theorem State.modLeg_jobs : (s.modLeg r g).jobs = setEntry s.jobs r.job fun e => e.map fun j => { j with legs := j.legs.modify r.leg g } := rfl
@[simp] theorem State.modLeg_sessions : (s.modLeg r g).sessions = s.sessions := rfl
@[simp] theorem State.modLeg_slots : (s.modLeg r g).slots = s.slots := rfl
@[simp] theorem State.modLeg_arbiter : (s.modLeg r g).arbiter = s.arbiter := rfl
@[simp] theorem State.modLeg_ingest : (s.modLeg r g).ingest = s.ingest := rfl
@[simp] theorem State.modLeg_digest : (s.modLeg r g).digest = s.digest := rfl
@[simp] theorem State.modLeg_drives : (s.modLeg r g).drives = s.drives := rfl
@[simp] theorem State.modLeg_writers : (s.modLeg r g).writers = s.writers := rfl
@[simp] theorem State.modLeg_readers : (s.modLeg r g).readers = s.readers := rfl
@[simp] theorem State.modLeg_sides : (s.modLeg r g).sides = s.sides := rfl
@[simp] theorem State.modLeg_windows : (s.modLeg r g).windows = s.windows := rfl
@[simp] theorem State.modLeg_lamps : (s.modLeg r g).lamps = s.lamps := rfl
@[simp] theorem State.modLeg_blink : (s.modLeg r g).blink = s.blink := rfl
@[simp] theorem State.modLeg_handler : (s.modLeg r g).handler = s.handler := rfl
@[simp] theorem State.modLeg_control : (s.modLeg r g).control = s.control := rfl
@[simp] theorem State.modLeg_pending : (s.modLeg r g).pending = s.pending := rfl
end

section
variable (h : Fin 64) (g : Job → Job)
@[simp] theorem State.count_resetN : (s.count h g).resetN = s.resetN := rfl
@[simp] theorem State.count_nodeId0 : (s.count h g).nodeId0 = s.nodeId0 := rfl
@[simp] theorem State.count_nodeId1 : (s.count h g).nodeId1 = s.nodeId1 := rfl
@[simp] theorem State.count_timer : (s.count h g).timer = s.timer := rfl
@[simp] theorem State.count_links : (s.count h g).links = s.links := rfl
@[simp] theorem State.count_jobs : (s.count h g).jobs = setEntry s.jobs h fun e => e.map fun j => if j.state.terminal then j else g j := rfl
@[simp] theorem State.count_sessions : (s.count h g).sessions = s.sessions := rfl
@[simp] theorem State.count_slots : (s.count h g).slots = s.slots := rfl
@[simp] theorem State.count_arbiter : (s.count h g).arbiter = s.arbiter := rfl
@[simp] theorem State.count_ingest : (s.count h g).ingest = s.ingest := rfl
@[simp] theorem State.count_digest : (s.count h g).digest = s.digest := rfl
@[simp] theorem State.count_drives : (s.count h g).drives = s.drives := rfl
@[simp] theorem State.count_writers : (s.count h g).writers = s.writers := rfl
@[simp] theorem State.count_readers : (s.count h g).readers = s.readers := rfl
@[simp] theorem State.count_sides : (s.count h g).sides = s.sides := rfl
@[simp] theorem State.count_windows : (s.count h g).windows = s.windows := rfl
@[simp] theorem State.count_lamps : (s.count h g).lamps = s.lamps := rfl
@[simp] theorem State.count_blink : (s.count h g).blink = s.blink := rfl
@[simp] theorem State.count_handler : (s.count h g).handler = s.handler := rfl
@[simp] theorem State.count_control : (s.count h g).control = s.control := rfl
@[simp] theorem State.count_pending : (s.count h g).pending = s.pending := rfl
end

section
variable (r : LegRef) (g : Leg → Leg)
@[simp] theorem State.countLeg_resetN : (s.countLeg r g).resetN = s.resetN := rfl
@[simp] theorem State.countLeg_nodeId0 : (s.countLeg r g).nodeId0 = s.nodeId0 := rfl
@[simp] theorem State.countLeg_nodeId1 : (s.countLeg r g).nodeId1 = s.nodeId1 := rfl
@[simp] theorem State.countLeg_timer : (s.countLeg r g).timer = s.timer := rfl
@[simp] theorem State.countLeg_links : (s.countLeg r g).links = s.links := rfl
@[simp] theorem State.countLeg_jobs : (s.countLeg r g).jobs = setEntry s.jobs r.job fun e => e.map fun j => if j.state.terminal then j else { j with legs := j.legs.modify r.leg g } := rfl
@[simp] theorem State.countLeg_sessions : (s.countLeg r g).sessions = s.sessions := rfl
@[simp] theorem State.countLeg_slots : (s.countLeg r g).slots = s.slots := rfl
@[simp] theorem State.countLeg_arbiter : (s.countLeg r g).arbiter = s.arbiter := rfl
@[simp] theorem State.countLeg_ingest : (s.countLeg r g).ingest = s.ingest := rfl
@[simp] theorem State.countLeg_digest : (s.countLeg r g).digest = s.digest := rfl
@[simp] theorem State.countLeg_drives : (s.countLeg r g).drives = s.drives := rfl
@[simp] theorem State.countLeg_writers : (s.countLeg r g).writers = s.writers := rfl
@[simp] theorem State.countLeg_readers : (s.countLeg r g).readers = s.readers := rfl
@[simp] theorem State.countLeg_sides : (s.countLeg r g).sides = s.sides := rfl
@[simp] theorem State.countLeg_windows : (s.countLeg r g).windows = s.windows := rfl
@[simp] theorem State.countLeg_lamps : (s.countLeg r g).lamps = s.lamps := rfl
@[simp] theorem State.countLeg_blink : (s.countLeg r g).blink = s.blink := rfl
@[simp] theorem State.countLeg_handler : (s.countLeg r g).handler = s.handler := rfl
@[simp] theorem State.countLeg_control : (s.countLeg r g).control = s.control := rfl
@[simp] theorem State.countLeg_pending : (s.countLeg r g).pending = s.pending := rfl
end

section
variable (h : Fin 64) (e : Option Job)
@[simp] theorem State.setJob_resetN : (s.setJob h e).resetN = s.resetN := rfl
@[simp] theorem State.setJob_nodeId0 : (s.setJob h e).nodeId0 = s.nodeId0 := rfl
@[simp] theorem State.setJob_nodeId1 : (s.setJob h e).nodeId1 = s.nodeId1 := rfl
@[simp] theorem State.setJob_timer : (s.setJob h e).timer = s.timer := rfl
@[simp] theorem State.setJob_links : (s.setJob h e).links = s.links := rfl
@[simp] theorem State.setJob_jobs : (s.setJob h e).jobs = setEntry s.jobs h fun _ => e := rfl
@[simp] theorem State.setJob_sessions : (s.setJob h e).sessions = s.sessions := rfl
@[simp] theorem State.setJob_slots : (s.setJob h e).slots = s.slots := rfl
@[simp] theorem State.setJob_arbiter : (s.setJob h e).arbiter = s.arbiter := rfl
@[simp] theorem State.setJob_ingest : (s.setJob h e).ingest = s.ingest := rfl
@[simp] theorem State.setJob_digest : (s.setJob h e).digest = s.digest := rfl
@[simp] theorem State.setJob_drives : (s.setJob h e).drives = s.drives := rfl
@[simp] theorem State.setJob_writers : (s.setJob h e).writers = s.writers := rfl
@[simp] theorem State.setJob_readers : (s.setJob h e).readers = s.readers := rfl
@[simp] theorem State.setJob_sides : (s.setJob h e).sides = s.sides := rfl
@[simp] theorem State.setJob_windows : (s.setJob h e).windows = s.windows := rfl
@[simp] theorem State.setJob_lamps : (s.setJob h e).lamps = s.lamps := rfl
@[simp] theorem State.setJob_blink : (s.setJob h e).blink = s.blink := rfl
@[simp] theorem State.setJob_handler : (s.setJob h e).handler = s.handler := rfl
@[simp] theorem State.setJob_control : (s.setJob h e).control = s.control := rfl
@[simp] theorem State.setJob_pending : (s.setJob h e).pending = s.pending := rfl
end

section
variable (i : Fin 8) (g : Session → Session)
@[simp] theorem State.modSession_resetN : (s.modSession i g).resetN = s.resetN := rfl
@[simp] theorem State.modSession_nodeId0 : (s.modSession i g).nodeId0 = s.nodeId0 := rfl
@[simp] theorem State.modSession_nodeId1 : (s.modSession i g).nodeId1 = s.nodeId1 := rfl
@[simp] theorem State.modSession_timer : (s.modSession i g).timer = s.timer := rfl
@[simp] theorem State.modSession_links : (s.modSession i g).links = s.links := rfl
@[simp] theorem State.modSession_jobs : (s.modSession i g).jobs = s.jobs := rfl
@[simp] theorem State.modSession_sessions : (s.modSession i g).sessions = setEntry s.sessions i g := rfl
@[simp] theorem State.modSession_slots : (s.modSession i g).slots = s.slots := rfl
@[simp] theorem State.modSession_arbiter : (s.modSession i g).arbiter = s.arbiter := rfl
@[simp] theorem State.modSession_ingest : (s.modSession i g).ingest = s.ingest := rfl
@[simp] theorem State.modSession_digest : (s.modSession i g).digest = s.digest := rfl
@[simp] theorem State.modSession_drives : (s.modSession i g).drives = s.drives := rfl
@[simp] theorem State.modSession_writers : (s.modSession i g).writers = s.writers := rfl
@[simp] theorem State.modSession_readers : (s.modSession i g).readers = s.readers := rfl
@[simp] theorem State.modSession_sides : (s.modSession i g).sides = s.sides := rfl
@[simp] theorem State.modSession_windows : (s.modSession i g).windows = s.windows := rfl
@[simp] theorem State.modSession_lamps : (s.modSession i g).lamps = s.lamps := rfl
@[simp] theorem State.modSession_blink : (s.modSession i g).blink = s.blink := rfl
@[simp] theorem State.modSession_handler : (s.modSession i g).handler = s.handler := rfl
@[simp] theorem State.modSession_control : (s.modSession i g).control = s.control := rfl
@[simp] theorem State.modSession_pending : (s.modSession i g).pending = s.pending := rfl
end

section
variable (i : Fin 8) (g : IngestPort → IngestPort)
@[simp] theorem State.modIngest_resetN : (s.modIngest i g).resetN = s.resetN := rfl
@[simp] theorem State.modIngest_nodeId0 : (s.modIngest i g).nodeId0 = s.nodeId0 := rfl
@[simp] theorem State.modIngest_nodeId1 : (s.modIngest i g).nodeId1 = s.nodeId1 := rfl
@[simp] theorem State.modIngest_timer : (s.modIngest i g).timer = s.timer := rfl
@[simp] theorem State.modIngest_links : (s.modIngest i g).links = s.links := rfl
@[simp] theorem State.modIngest_jobs : (s.modIngest i g).jobs = s.jobs := rfl
@[simp] theorem State.modIngest_sessions : (s.modIngest i g).sessions = s.sessions := rfl
@[simp] theorem State.modIngest_slots : (s.modIngest i g).slots = s.slots := rfl
@[simp] theorem State.modIngest_arbiter : (s.modIngest i g).arbiter = s.arbiter := rfl
@[simp] theorem State.modIngest_ingest : (s.modIngest i g).ingest = setEntry s.ingest i g := rfl
@[simp] theorem State.modIngest_digest : (s.modIngest i g).digest = s.digest := rfl
@[simp] theorem State.modIngest_drives : (s.modIngest i g).drives = s.drives := rfl
@[simp] theorem State.modIngest_writers : (s.modIngest i g).writers = s.writers := rfl
@[simp] theorem State.modIngest_readers : (s.modIngest i g).readers = s.readers := rfl
@[simp] theorem State.modIngest_sides : (s.modIngest i g).sides = s.sides := rfl
@[simp] theorem State.modIngest_windows : (s.modIngest i g).windows = s.windows := rfl
@[simp] theorem State.modIngest_lamps : (s.modIngest i g).lamps = s.lamps := rfl
@[simp] theorem State.modIngest_blink : (s.modIngest i g).blink = s.blink := rfl
@[simp] theorem State.modIngest_handler : (s.modIngest i g).handler = s.handler := rfl
@[simp] theorem State.modIngest_control : (s.modIngest i g).control = s.control := rfl
@[simp] theorem State.modIngest_pending : (s.modIngest i g).pending = s.pending := rfl
end

section
variable (d : Fin 6) (g : Drive → Drive)
@[simp] theorem State.modDrive_resetN : (s.modDrive d g).resetN = s.resetN := rfl
@[simp] theorem State.modDrive_nodeId0 : (s.modDrive d g).nodeId0 = s.nodeId0 := rfl
@[simp] theorem State.modDrive_nodeId1 : (s.modDrive d g).nodeId1 = s.nodeId1 := rfl
@[simp] theorem State.modDrive_timer : (s.modDrive d g).timer = s.timer := rfl
@[simp] theorem State.modDrive_links : (s.modDrive d g).links = s.links := rfl
@[simp] theorem State.modDrive_jobs : (s.modDrive d g).jobs = s.jobs := rfl
@[simp] theorem State.modDrive_sessions : (s.modDrive d g).sessions = s.sessions := rfl
@[simp] theorem State.modDrive_slots : (s.modDrive d g).slots = s.slots := rfl
@[simp] theorem State.modDrive_arbiter : (s.modDrive d g).arbiter = s.arbiter := rfl
@[simp] theorem State.modDrive_ingest : (s.modDrive d g).ingest = s.ingest := rfl
@[simp] theorem State.modDrive_digest : (s.modDrive d g).digest = s.digest := rfl
@[simp] theorem State.modDrive_drives : (s.modDrive d g).drives = setEntry s.drives d g := rfl
@[simp] theorem State.modDrive_writers : (s.modDrive d g).writers = s.writers := rfl
@[simp] theorem State.modDrive_readers : (s.modDrive d g).readers = s.readers := rfl
@[simp] theorem State.modDrive_sides : (s.modDrive d g).sides = s.sides := rfl
@[simp] theorem State.modDrive_windows : (s.modDrive d g).windows = s.windows := rfl
@[simp] theorem State.modDrive_lamps : (s.modDrive d g).lamps = s.lamps := rfl
@[simp] theorem State.modDrive_blink : (s.modDrive d g).blink = s.blink := rfl
@[simp] theorem State.modDrive_handler : (s.modDrive d g).handler = s.handler := rfl
@[simp] theorem State.modDrive_control : (s.modDrive d g).control = s.control := rfl
@[simp] theorem State.modDrive_pending : (s.modDrive d g).pending = s.pending := rfl
end

section
variable (t : Target) (g : Writer → Writer)
@[simp] theorem State.modWriter_resetN : (s.modWriter t g).resetN = s.resetN := rfl
@[simp] theorem State.modWriter_nodeId0 : (s.modWriter t g).nodeId0 = s.nodeId0 := rfl
@[simp] theorem State.modWriter_nodeId1 : (s.modWriter t g).nodeId1 = s.nodeId1 := rfl
@[simp] theorem State.modWriter_timer : (s.modWriter t g).timer = s.timer := rfl
@[simp] theorem State.modWriter_links : (s.modWriter t g).links = s.links := rfl
@[simp] theorem State.modWriter_jobs : (s.modWriter t g).jobs = s.jobs := rfl
@[simp] theorem State.modWriter_sessions : (s.modWriter t g).sessions = s.sessions := rfl
@[simp] theorem State.modWriter_slots : (s.modWriter t g).slots = s.slots := rfl
@[simp] theorem State.modWriter_arbiter : (s.modWriter t g).arbiter = s.arbiter := rfl
@[simp] theorem State.modWriter_ingest : (s.modWriter t g).ingest = s.ingest := rfl
@[simp] theorem State.modWriter_digest : (s.modWriter t g).digest = s.digest := rfl
@[simp] theorem State.modWriter_drives : (s.modWriter t g).drives = s.drives := rfl
@[simp] theorem State.modWriter_writers : (s.modWriter t g).writers = setEntry s.writers (targetIndex t) g := rfl
@[simp] theorem State.modWriter_readers : (s.modWriter t g).readers = s.readers := rfl
@[simp] theorem State.modWriter_sides : (s.modWriter t g).sides = s.sides := rfl
@[simp] theorem State.modWriter_windows : (s.modWriter t g).windows = s.windows := rfl
@[simp] theorem State.modWriter_lamps : (s.modWriter t g).lamps = s.lamps := rfl
@[simp] theorem State.modWriter_blink : (s.modWriter t g).blink = s.blink := rfl
@[simp] theorem State.modWriter_handler : (s.modWriter t g).handler = s.handler := rfl
@[simp] theorem State.modWriter_control : (s.modWriter t g).control = s.control := rfl
@[simp] theorem State.modWriter_pending : (s.modWriter t g).pending = s.pending := rfl
end

section
variable (d : Fin 6) (g : VerifyReader → VerifyReader)
@[simp] theorem State.modReader_resetN : (s.modReader d g).resetN = s.resetN := rfl
@[simp] theorem State.modReader_nodeId0 : (s.modReader d g).nodeId0 = s.nodeId0 := rfl
@[simp] theorem State.modReader_nodeId1 : (s.modReader d g).nodeId1 = s.nodeId1 := rfl
@[simp] theorem State.modReader_timer : (s.modReader d g).timer = s.timer := rfl
@[simp] theorem State.modReader_links : (s.modReader d g).links = s.links := rfl
@[simp] theorem State.modReader_jobs : (s.modReader d g).jobs = s.jobs := rfl
@[simp] theorem State.modReader_sessions : (s.modReader d g).sessions = s.sessions := rfl
@[simp] theorem State.modReader_slots : (s.modReader d g).slots = s.slots := rfl
@[simp] theorem State.modReader_arbiter : (s.modReader d g).arbiter = s.arbiter := rfl
@[simp] theorem State.modReader_ingest : (s.modReader d g).ingest = s.ingest := rfl
@[simp] theorem State.modReader_digest : (s.modReader d g).digest = s.digest := rfl
@[simp] theorem State.modReader_drives : (s.modReader d g).drives = s.drives := rfl
@[simp] theorem State.modReader_writers : (s.modReader d g).writers = s.writers := rfl
@[simp] theorem State.modReader_readers : (s.modReader d g).readers = setEntry s.readers d g := rfl
@[simp] theorem State.modReader_sides : (s.modReader d g).sides = s.sides := rfl
@[simp] theorem State.modReader_windows : (s.modReader d g).windows = s.windows := rfl
@[simp] theorem State.modReader_lamps : (s.modReader d g).lamps = s.lamps := rfl
@[simp] theorem State.modReader_blink : (s.modReader d g).blink = s.blink := rfl
@[simp] theorem State.modReader_handler : (s.modReader d g).handler = s.handler := rfl
@[simp] theorem State.modReader_control : (s.modReader d g).control = s.control := rfl
@[simp] theorem State.modReader_pending : (s.modReader d g).pending = s.pending := rfl
end

section
variable (d : Fin 6) (g : TargetArbiter → TargetArbiter)
@[simp] theorem State.modSides_resetN : (s.modSides d g).resetN = s.resetN := rfl
@[simp] theorem State.modSides_nodeId0 : (s.modSides d g).nodeId0 = s.nodeId0 := rfl
@[simp] theorem State.modSides_nodeId1 : (s.modSides d g).nodeId1 = s.nodeId1 := rfl
@[simp] theorem State.modSides_timer : (s.modSides d g).timer = s.timer := rfl
@[simp] theorem State.modSides_links : (s.modSides d g).links = s.links := rfl
@[simp] theorem State.modSides_jobs : (s.modSides d g).jobs = s.jobs := rfl
@[simp] theorem State.modSides_sessions : (s.modSides d g).sessions = s.sessions := rfl
@[simp] theorem State.modSides_slots : (s.modSides d g).slots = s.slots := rfl
@[simp] theorem State.modSides_arbiter : (s.modSides d g).arbiter = s.arbiter := rfl
@[simp] theorem State.modSides_ingest : (s.modSides d g).ingest = s.ingest := rfl
@[simp] theorem State.modSides_digest : (s.modSides d g).digest = s.digest := rfl
@[simp] theorem State.modSides_drives : (s.modSides d g).drives = s.drives := rfl
@[simp] theorem State.modSides_writers : (s.modSides d g).writers = s.writers := rfl
@[simp] theorem State.modSides_readers : (s.modSides d g).readers = s.readers := rfl
@[simp] theorem State.modSides_sides : (s.modSides d g).sides = setEntry s.sides d g := rfl
@[simp] theorem State.modSides_windows : (s.modSides d g).windows = s.windows := rfl
@[simp] theorem State.modSides_lamps : (s.modSides d g).lamps = s.lamps := rfl
@[simp] theorem State.modSides_blink : (s.modSides d g).blink = s.blink := rfl
@[simp] theorem State.modSides_handler : (s.modSides d g).handler = s.handler := rfl
@[simp] theorem State.modSides_control : (s.modSides d g).control = s.control := rfl
@[simp] theorem State.modSides_pending : (s.modSides d g).pending = s.pending := rfl
end

section
variable (t : Target) (g : Window → Window)
@[simp] theorem State.modWindow_resetN : (s.modWindow t g).resetN = s.resetN := rfl
@[simp] theorem State.modWindow_nodeId0 : (s.modWindow t g).nodeId0 = s.nodeId0 := rfl
@[simp] theorem State.modWindow_nodeId1 : (s.modWindow t g).nodeId1 = s.nodeId1 := rfl
@[simp] theorem State.modWindow_timer : (s.modWindow t g).timer = s.timer := rfl
@[simp] theorem State.modWindow_links : (s.modWindow t g).links = s.links := rfl
@[simp] theorem State.modWindow_jobs : (s.modWindow t g).jobs = s.jobs := rfl
@[simp] theorem State.modWindow_sessions : (s.modWindow t g).sessions = s.sessions := rfl
@[simp] theorem State.modWindow_slots : (s.modWindow t g).slots = s.slots := rfl
@[simp] theorem State.modWindow_arbiter : (s.modWindow t g).arbiter = s.arbiter := rfl
@[simp] theorem State.modWindow_ingest : (s.modWindow t g).ingest = s.ingest := rfl
@[simp] theorem State.modWindow_digest : (s.modWindow t g).digest = s.digest := rfl
@[simp] theorem State.modWindow_drives : (s.modWindow t g).drives = s.drives := rfl
@[simp] theorem State.modWindow_writers : (s.modWindow t g).writers = s.writers := rfl
@[simp] theorem State.modWindow_readers : (s.modWindow t g).readers = s.readers := rfl
@[simp] theorem State.modWindow_sides : (s.modWindow t g).sides = s.sides := rfl
@[simp] theorem State.modWindow_windows : (s.modWindow t g).windows = setEntry s.windows (targetIndex t) g := rfl
@[simp] theorem State.modWindow_lamps : (s.modWindow t g).lamps = s.lamps := rfl
@[simp] theorem State.modWindow_blink : (s.modWindow t g).blink = s.blink := rfl
@[simp] theorem State.modWindow_handler : (s.modWindow t g).handler = s.handler := rfl
@[simp] theorem State.modWindow_control : (s.modWindow t g).control = s.control := rfl
@[simp] theorem State.modWindow_pending : (s.modWindow t g).pending = s.pending := rfl
end

section
variable (i : Fin 8) (g : Lamp → Lamp)
@[simp] theorem State.modLamp_resetN : (s.modLamp i g).resetN = s.resetN := rfl
@[simp] theorem State.modLamp_nodeId0 : (s.modLamp i g).nodeId0 = s.nodeId0 := rfl
@[simp] theorem State.modLamp_nodeId1 : (s.modLamp i g).nodeId1 = s.nodeId1 := rfl
@[simp] theorem State.modLamp_timer : (s.modLamp i g).timer = s.timer := rfl
@[simp] theorem State.modLamp_links : (s.modLamp i g).links = s.links := rfl
@[simp] theorem State.modLamp_jobs : (s.modLamp i g).jobs = s.jobs := rfl
@[simp] theorem State.modLamp_sessions : (s.modLamp i g).sessions = s.sessions := rfl
@[simp] theorem State.modLamp_slots : (s.modLamp i g).slots = s.slots := rfl
@[simp] theorem State.modLamp_arbiter : (s.modLamp i g).arbiter = s.arbiter := rfl
@[simp] theorem State.modLamp_ingest : (s.modLamp i g).ingest = s.ingest := rfl
@[simp] theorem State.modLamp_digest : (s.modLamp i g).digest = s.digest := rfl
@[simp] theorem State.modLamp_drives : (s.modLamp i g).drives = s.drives := rfl
@[simp] theorem State.modLamp_writers : (s.modLamp i g).writers = s.writers := rfl
@[simp] theorem State.modLamp_readers : (s.modLamp i g).readers = s.readers := rfl
@[simp] theorem State.modLamp_sides : (s.modLamp i g).sides = s.sides := rfl
@[simp] theorem State.modLamp_windows : (s.modLamp i g).windows = s.windows := rfl
@[simp] theorem State.modLamp_lamps : (s.modLamp i g).lamps = setEntry s.lamps i g := rfl
@[simp] theorem State.modLamp_blink : (s.modLamp i g).blink = s.blink := rfl
@[simp] theorem State.modLamp_handler : (s.modLamp i g).handler = s.handler := rfl
@[simp] theorem State.modLamp_control : (s.modLamp i g).control = s.control := rfl
@[simp] theorem State.modLamp_pending : (s.modLamp i g).pending = s.pending := rfl
end

section
variable (g : Handler → Handler)
@[simp] theorem State.modHandler_resetN : (s.modHandler g).resetN = s.resetN := rfl
@[simp] theorem State.modHandler_nodeId0 : (s.modHandler g).nodeId0 = s.nodeId0 := rfl
@[simp] theorem State.modHandler_nodeId1 : (s.modHandler g).nodeId1 = s.nodeId1 := rfl
@[simp] theorem State.modHandler_timer : (s.modHandler g).timer = s.timer := rfl
@[simp] theorem State.modHandler_links : (s.modHandler g).links = s.links := rfl
@[simp] theorem State.modHandler_jobs : (s.modHandler g).jobs = s.jobs := rfl
@[simp] theorem State.modHandler_sessions : (s.modHandler g).sessions = s.sessions := rfl
@[simp] theorem State.modHandler_slots : (s.modHandler g).slots = s.slots := rfl
@[simp] theorem State.modHandler_arbiter : (s.modHandler g).arbiter = s.arbiter := rfl
@[simp] theorem State.modHandler_ingest : (s.modHandler g).ingest = s.ingest := rfl
@[simp] theorem State.modHandler_digest : (s.modHandler g).digest = s.digest := rfl
@[simp] theorem State.modHandler_drives : (s.modHandler g).drives = s.drives := rfl
@[simp] theorem State.modHandler_writers : (s.modHandler g).writers = s.writers := rfl
@[simp] theorem State.modHandler_readers : (s.modHandler g).readers = s.readers := rfl
@[simp] theorem State.modHandler_sides : (s.modHandler g).sides = s.sides := rfl
@[simp] theorem State.modHandler_windows : (s.modHandler g).windows = s.windows := rfl
@[simp] theorem State.modHandler_lamps : (s.modHandler g).lamps = s.lamps := rfl
@[simp] theorem State.modHandler_blink : (s.modHandler g).blink = s.blink := rfl
@[simp] theorem State.modHandler_handler : (s.modHandler g).handler = g s.handler := rfl
@[simp] theorem State.modHandler_control : (s.modHandler g).control = s.control := rfl
@[simp] theorem State.modHandler_pending : (s.modHandler g).pending = s.pending := rfl
end

section
variable (g : ControlPort → ControlPort)
@[simp] theorem State.modControl_resetN : (s.modControl g).resetN = s.resetN := rfl
@[simp] theorem State.modControl_nodeId0 : (s.modControl g).nodeId0 = s.nodeId0 := rfl
@[simp] theorem State.modControl_nodeId1 : (s.modControl g).nodeId1 = s.nodeId1 := rfl
@[simp] theorem State.modControl_timer : (s.modControl g).timer = s.timer := rfl
@[simp] theorem State.modControl_links : (s.modControl g).links = s.links := rfl
@[simp] theorem State.modControl_jobs : (s.modControl g).jobs = s.jobs := rfl
@[simp] theorem State.modControl_sessions : (s.modControl g).sessions = s.sessions := rfl
@[simp] theorem State.modControl_slots : (s.modControl g).slots = s.slots := rfl
@[simp] theorem State.modControl_arbiter : (s.modControl g).arbiter = s.arbiter := rfl
@[simp] theorem State.modControl_ingest : (s.modControl g).ingest = s.ingest := rfl
@[simp] theorem State.modControl_digest : (s.modControl g).digest = s.digest := rfl
@[simp] theorem State.modControl_drives : (s.modControl g).drives = s.drives := rfl
@[simp] theorem State.modControl_writers : (s.modControl g).writers = s.writers := rfl
@[simp] theorem State.modControl_readers : (s.modControl g).readers = s.readers := rfl
@[simp] theorem State.modControl_sides : (s.modControl g).sides = s.sides := rfl
@[simp] theorem State.modControl_windows : (s.modControl g).windows = s.windows := rfl
@[simp] theorem State.modControl_lamps : (s.modControl g).lamps = s.lamps := rfl
@[simp] theorem State.modControl_blink : (s.modControl g).blink = s.blink := rfl
@[simp] theorem State.modControl_handler : (s.modControl g).handler = s.handler := rfl
@[simp] theorem State.modControl_control : (s.modControl g).control = g s.control := rfl
@[simp] theorem State.modControl_pending : (s.modControl g).pending = s.pending := rfl
end

section
variable (g : List Slot → List Slot)
@[simp] theorem State.modSlots_resetN : (s.modSlots g).resetN = s.resetN := rfl
@[simp] theorem State.modSlots_nodeId0 : (s.modSlots g).nodeId0 = s.nodeId0 := rfl
@[simp] theorem State.modSlots_nodeId1 : (s.modSlots g).nodeId1 = s.nodeId1 := rfl
@[simp] theorem State.modSlots_timer : (s.modSlots g).timer = s.timer := rfl
@[simp] theorem State.modSlots_links : (s.modSlots g).links = s.links := rfl
@[simp] theorem State.modSlots_jobs : (s.modSlots g).jobs = s.jobs := rfl
@[simp] theorem State.modSlots_sessions : (s.modSlots g).sessions = s.sessions := rfl
@[simp] theorem State.modSlots_slots : (s.modSlots g).slots = g s.slots := rfl
@[simp] theorem State.modSlots_arbiter : (s.modSlots g).arbiter = s.arbiter := rfl
@[simp] theorem State.modSlots_ingest : (s.modSlots g).ingest = s.ingest := rfl
@[simp] theorem State.modSlots_digest : (s.modSlots g).digest = s.digest := rfl
@[simp] theorem State.modSlots_drives : (s.modSlots g).drives = s.drives := rfl
@[simp] theorem State.modSlots_writers : (s.modSlots g).writers = s.writers := rfl
@[simp] theorem State.modSlots_readers : (s.modSlots g).readers = s.readers := rfl
@[simp] theorem State.modSlots_sides : (s.modSlots g).sides = s.sides := rfl
@[simp] theorem State.modSlots_windows : (s.modSlots g).windows = s.windows := rfl
@[simp] theorem State.modSlots_lamps : (s.modSlots g).lamps = s.lamps := rfl
@[simp] theorem State.modSlots_blink : (s.modSlots g).blink = s.blink := rfl
@[simp] theorem State.modSlots_handler : (s.modSlots g).handler = s.handler := rfl
@[simp] theorem State.modSlots_control : (s.modSlots g).control = s.control := rfl
@[simp] theorem State.modSlots_pending : (s.modSlots g).pending = s.pending := rfl
end

section
variable (g : DigestUnit → DigestUnit)
@[simp] theorem State.modDigest_resetN : (s.modDigest g).resetN = s.resetN := rfl
@[simp] theorem State.modDigest_nodeId0 : (s.modDigest g).nodeId0 = s.nodeId0 := rfl
@[simp] theorem State.modDigest_nodeId1 : (s.modDigest g).nodeId1 = s.nodeId1 := rfl
@[simp] theorem State.modDigest_timer : (s.modDigest g).timer = s.timer := rfl
@[simp] theorem State.modDigest_links : (s.modDigest g).links = s.links := rfl
@[simp] theorem State.modDigest_jobs : (s.modDigest g).jobs = s.jobs := rfl
@[simp] theorem State.modDigest_sessions : (s.modDigest g).sessions = s.sessions := rfl
@[simp] theorem State.modDigest_slots : (s.modDigest g).slots = s.slots := rfl
@[simp] theorem State.modDigest_arbiter : (s.modDigest g).arbiter = s.arbiter := rfl
@[simp] theorem State.modDigest_ingest : (s.modDigest g).ingest = s.ingest := rfl
@[simp] theorem State.modDigest_digest : (s.modDigest g).digest = g s.digest := rfl
@[simp] theorem State.modDigest_drives : (s.modDigest g).drives = s.drives := rfl
@[simp] theorem State.modDigest_writers : (s.modDigest g).writers = s.writers := rfl
@[simp] theorem State.modDigest_readers : (s.modDigest g).readers = s.readers := rfl
@[simp] theorem State.modDigest_sides : (s.modDigest g).sides = s.sides := rfl
@[simp] theorem State.modDigest_windows : (s.modDigest g).windows = s.windows := rfl
@[simp] theorem State.modDigest_lamps : (s.modDigest g).lamps = s.lamps := rfl
@[simp] theorem State.modDigest_blink : (s.modDigest g).blink = s.blink := rfl
@[simp] theorem State.modDigest_handler : (s.modDigest g).handler = s.handler := rfl
@[simp] theorem State.modDigest_control : (s.modDigest g).control = s.control := rfl
@[simp] theorem State.modDigest_pending : (s.modDigest g).pending = s.pending := rfl
end

section
variable (g : SlotArbiter → SlotArbiter)
@[simp] theorem State.modArbiter_resetN : (s.modArbiter g).resetN = s.resetN := rfl
@[simp] theorem State.modArbiter_nodeId0 : (s.modArbiter g).nodeId0 = s.nodeId0 := rfl
@[simp] theorem State.modArbiter_nodeId1 : (s.modArbiter g).nodeId1 = s.nodeId1 := rfl
@[simp] theorem State.modArbiter_timer : (s.modArbiter g).timer = s.timer := rfl
@[simp] theorem State.modArbiter_links : (s.modArbiter g).links = s.links := rfl
@[simp] theorem State.modArbiter_jobs : (s.modArbiter g).jobs = s.jobs := rfl
@[simp] theorem State.modArbiter_sessions : (s.modArbiter g).sessions = s.sessions := rfl
@[simp] theorem State.modArbiter_slots : (s.modArbiter g).slots = s.slots := rfl
@[simp] theorem State.modArbiter_arbiter : (s.modArbiter g).arbiter = g s.arbiter := rfl
@[simp] theorem State.modArbiter_ingest : (s.modArbiter g).ingest = s.ingest := rfl
@[simp] theorem State.modArbiter_digest : (s.modArbiter g).digest = s.digest := rfl
@[simp] theorem State.modArbiter_drives : (s.modArbiter g).drives = s.drives := rfl
@[simp] theorem State.modArbiter_writers : (s.modArbiter g).writers = s.writers := rfl
@[simp] theorem State.modArbiter_readers : (s.modArbiter g).readers = s.readers := rfl
@[simp] theorem State.modArbiter_sides : (s.modArbiter g).sides = s.sides := rfl
@[simp] theorem State.modArbiter_windows : (s.modArbiter g).windows = s.windows := rfl
@[simp] theorem State.modArbiter_lamps : (s.modArbiter g).lamps = s.lamps := rfl
@[simp] theorem State.modArbiter_blink : (s.modArbiter g).blink = s.blink := rfl
@[simp] theorem State.modArbiter_handler : (s.modArbiter g).handler = s.handler := rfl
@[simp] theorem State.modArbiter_control : (s.modArbiter g).control = s.control := rfl
@[simp] theorem State.modArbiter_pending : (s.modArbiter g).pending = s.pending := rfl
end

end Sys2Proof.Machine
end

