-- ==== Sys2Proof/Laws/Tables.lean ====
section
/-! SUPPORT. Entries of tables: what `setEntry` leaves at each place, and what the named reads of Machine/Ops.lean give after the
named changes. -/

namespace Sys2Proof.Machine

/-- Reading any entry after one was changed. -/
theorem setEntry_getElem {α : Type} {n : Nat} (v : Vector α n) (i j : Fin n) (f : α → α) :
    (setEntry v i f)[j.val] = if i = j then f v[i.val] else v[j.val] := by
  unfold setEntry
  rw [Vector.getElem_set]
  simp only [Fin.ext_iff]

/-- The entry that was changed. -/
@[simp] theorem setEntry_same {α : Type} {n : Nat} (v : Vector α n) (i : Fin n) (f : α → α) :
    (setEntry v i f)[i.val] = f v[i.val] := by
  rw [setEntry_getElem, if_pos rfl]

/-- An entry that was not changed. -/
theorem setEntry_other {α : Type} {n : Nat} (v : Vector α n) (i j : Fin n) (f : α → α) (h : i ≠ j) :
    (setEntry v i f)[j.val] = v[j.val] := by
  rw [setEntry_getElem, if_neg h]

/-- A view of the entries that the change does not touch. -/
theorem setEntry_map {α β : Type} {n : Nat} (v : Vector α n) (i : Fin n) (f : α → α) (g : α → β)
    (h : g (f v[i.val]) = g v[i.val]) : (setEntry v i f).map g = v.map g := by
  apply Vector.ext
  intro j hj
  rw [Vector.getElem_map, Vector.getElem_map]
  have := setEntry_getElem v i ⟨j, hj⟩ f
  simp only at this
  rw [this]
  split
  · next e => subst e; exact h
  · rfl

/-- A change that leaves the entry as it was. -/
theorem setEntry_id {α : Type} {n : Nat} (v : Vector α n) (i : Fin n) (f : α → α) (h : f v[i.val] = v[i.val]) :
    setEntry v i f = v := by
  have := setEntry_map v i f id h
  simpa using this

/-- Two places of the target table are one target's. -/
theorem targetIndex_inj {t u : Target} : targetIndex t = targetIndex u ↔ t = u := by
  constructor
  · intro h
    cases t <;> cases u <;> simp_all [targetIndex, Fin.ext_iff] <;> omega
  · intro h
    rw [h]

/-- Two places of the port table are one port's. -/
theorem portIndex_inj {p q : Port} : portIndex p = portIndex q ↔ p = q := by
  constructor
  · intro h
    cases p <;> cases q <;> simp_all [portIndex, Fin.ext_iff] <;> omega
  · intro h
    rw [h]

variable (s : State)

theorem State.link_modLink (p q : Port) (g : LinkPort → LinkPort) :
    (s.modLink p g).link q = if p = q then g (s.link p) else s.link q := by
  unfold State.link
  rw [State.modLink_links, setEntry_getElem]
  simp only [portIndex_inj]

theorem State.job?_modJob (h k : Fin 64) (g : Job → Job) :
    (s.modJob h g).job? k = if h = k then (s.job? h).map g else s.job? k := by
  unfold State.job?
  rw [State.modJob_jobs, setEntry_getElem]

theorem State.job?_modLeg (r : LegRef) (k : Fin 64) (g : Leg → Leg) :
    (s.modLeg r g).job? k =
      if r.job = k then (s.job? r.job).map (fun j => { j with legs := j.legs.modify r.leg g }) else s.job? k :=
  State.job?_modJob s r.job k _

/-- A count changes its job's record while the job is not terminal. -/
theorem State.job?_count (h k : Fin 64) (g : Job → Job) :
    (s.count h g).job? k =
      if h = k then (s.job? h).map (fun j => if j.state.terminal then j else g j) else s.job? k :=
  State.job?_modJob s h k _

theorem State.job?_setJob (h k : Fin 64) (e : Option Job) :
    (s.setJob h e).job? k = if h = k then e else s.job? k := by
  unfold State.job?
  rw [State.setJob_jobs, setEntry_getElem]

theorem State.writer_modWriter (t u : Target) (g : Writer → Writer) :
    (s.modWriter t g).writer u = if t = u then g (s.writer t) else s.writer u := by
  unfold State.writer
  rw [State.modWriter_writers, setEntry_getElem]
  simp only [targetIndex_inj]

theorem State.window_modWindow (t u : Target) (g : Window → Window) :
    (s.modWindow t g).window u = if t = u then g (s.window t) else s.window u := by
  unfold State.window
  rw [State.modWindow_windows, setEntry_getElem]
  simp only [targetIndex_inj]

/-! ## Reads by field -/

variable {s} {t : State}

theorem State.link_congr (h : t.links = s.links) (p : Port) : t.link p = s.link p := by
  unfold State.link; rw [h]

theorem State.job?_congr (h : t.jobs = s.jobs) (k : Fin 64) : t.job? k = s.job? k := by
  unfold State.job?; rw [h]

theorem State.writer_congr (h : t.writers = s.writers) (u : Target) : t.writer u = s.writer u := by
  unfold State.writer; rw [h]

theorem State.window_congr (h : t.windows = s.windows) (u : Target) : t.window u = s.window u := by
  unfold State.window; rw [h]

theorem State.slot?_congr (h : t.slots = s.slots) (n : Nat) : t.slot? n = s.slot? n := by
  unfold State.slot?; rw [h]

end Sys2Proof.Machine
end

