-- ==== Sys2Proof/Laws/Frames.lean ====
section
/-! SUPPORT. Frames of the shared operations: the fields that the Job Table's events (`State.cascade`) never touch, and the fields
that the grants at the end of an event (`State.settle`) never touch. -/

namespace Sys2Proof.Machine

/-- A view that each step of a fold keeps. -/
theorem foldl_keeps {σ β : Type} {α : Sort _} (f : σ → α) (g : σ → β → σ) (h : ∀ s b, f (g s b) = f s) (l : List β) (s : σ) :
    f (l.foldl g s) = f s := by
  induction l generalizing s with
  | nil => rfl
  | cons b rest ih => rw [List.foldl_cons, ih, h]

/-- A property that each step of a fold keeps. -/
theorem foldl_inv {σ β : Type} (P : σ → Prop) (g : σ → β → σ) (h : ∀ s b, P s → P (g s b)) (l : List β) (s : σ) (hs : P s) :
    P (l.foldl g s) := by
  induction l generalizing s with
  | nil => exact hs
  | cons b rest ih => exact ih _ (h s b hs)

/-! ## The Job Table's events -/

/-- What no event of the Job Table touches. -/
def State.cascadeFrame (s : State) :=
  (s.resetN, s.nodeId0, s.nodeId1, s.timer, s.links, s.sides, s.windows, s.lamps, s.blink, s.handler, s.control, s.pending)

section
variable (s : State)

@[simp] theorem endLeg_frame (r : LegRef) (x : LegState) (c : Option LegCause) :
    (s.endLeg r x c).cascadeFrame = s.cascadeFrame := rfl
@[simp] theorem abandonLegs_frame (h : Fin 64) : (s.abandonLegs h).cascadeFrame = s.cascadeFrame := rfl
@[simp] theorem modJob_frame (h : Fin 64) (g : Job → Job) : (s.modJob h g).cascadeFrame = s.cascadeFrame := rfl
@[simp] theorem modLeg_frame (r : LegRef) (g : Leg → Leg) : (s.modLeg r g).cascadeFrame = s.cascadeFrame := rfl
@[simp] theorem count_frame (h : Fin 64) (g : Job → Job) : (s.count h g).cascadeFrame = s.cascadeFrame := rfl
@[simp] theorem countLeg_frame (r : LegRef) (g : Leg → Leg) : (s.countLeg r g).cascadeFrame = s.cascadeFrame := rfl
@[simp] theorem setJob_frame (h : Fin 64) (e : Option Job) : (s.setJob h e).cascadeFrame = s.cascadeFrame := rfl
@[simp] theorem modSession_frame (i : Fin 8) (g : Session → Session) : (s.modSession i g).cascadeFrame = s.cascadeFrame := rfl
@[simp] theorem modIngest_frame (i : Fin 8) (g : IngestPort → IngestPort) :
    (s.modIngest i g).cascadeFrame = s.cascadeFrame := rfl
@[simp] theorem modDrive_frame (d : Fin 6) (g : Drive → Drive) : (s.modDrive d g).cascadeFrame = s.cascadeFrame := rfl
@[simp] theorem modWriter_frame (t : Target) (g : Writer → Writer) : (s.modWriter t g).cascadeFrame = s.cascadeFrame := rfl
@[simp] theorem modReader_frame (d : Fin 6) (g : VerifyReader → VerifyReader) :
    (s.modReader d g).cascadeFrame = s.cascadeFrame := rfl
@[simp] theorem modSlots_frame (g : List Slot → List Slot) : (s.modSlots g).cascadeFrame = s.cascadeFrame := rfl
@[simp] theorem modDigest_frame (g : DigestUnit → DigestUnit) : (s.modDigest g).cascadeFrame = s.cascadeFrame := rfl
@[simp] theorem modArbiter_frame (g : SlotArbiter → SlotArbiter) : (s.modArbiter g).cascadeFrame = s.cascadeFrame := rfl
@[simp] theorem withdrawSlots_frame (mine : Slot → Bool) : (s.withdrawSlots mine).cascadeFrame = s.cascadeFrame := rfl
@[simp] theorem settleJobSlots_frame (h : Fin 64) (t : Target) : (s.settleJobSlots h t).cascadeFrame = s.cascadeFrame := rfl

@[simp] theorem finishJob_frame (h : Fin 64) (o : JobState) (c : Option JobCause) :
    (s.finishJob h o c).cascadeFrame = s.cascadeFrame := by
  unfold State.finishJob
  repeat' (first | rfl | split)

@[simp] theorem dropReading_frame (h : Fin 64) : (s.dropReading h).cascadeFrame = s.cascadeFrame := by
  unfold State.dropReading
  repeat' (first | rfl | split)

@[simp] theorem withdrawVerify_frame (d : Fin 6) (h : Fin 64) : (s.withdrawVerify d h).cascadeFrame = s.cascadeFrame := by
  unfold State.withdrawVerify
  repeat' (first | rfl | split | dsimp only)

@[simp] theorem teardown_frame (h : Fin 64) (o : JobState) (c : JobCause) : (s.teardown h o c).cascadeFrame = s.cascadeFrame := by
  simp only [State.teardown]
  rw [foldl_keeps State.cascadeFrame _ (fun s d => withdrawVerify_frame s d h)]
  rw [foldl_keeps State.cascadeFrame (fun s t => s.modWriter t fun w => w.withdraw h) (fun s t => modWriter_frame s t _)]
  simp

@[simp] theorem tearJob_frame (h : Fin 64) (o : JobState) (c : JobCause) :
    (s.tearJob h o c).1.cascadeFrame = s.cascadeFrame := by
  unfold State.tearJob
  split
  · rfl
  · split
    · rfl
    · dsimp only
      rw [teardown_frame]

@[simp] theorem dropLeg_frame (h : Fin 64) (t : Target) (x : LegState) (c : Option LegCause) :
    (s.dropLeg h t x c).cascadeFrame = s.cascadeFrame := by
  unfold State.dropLeg
  split
  · rfl
  · split
    · rfl
    · split
      · split
        · exact withdrawVerify_frame _ _ _
        · rfl
      · rfl

@[simp] theorem compareLeg_frame (d : Fin 6) (r : LegRef) : (s.compareLeg d r).1.cascadeFrame = s.cascadeFrame := by
  unfold State.compareLeg
  repeat' (first | rfl | split)

@[simp] theorem verifyFinal_frame (d : Fin 6) (r : LegRef) : (s.verifyFinal d r).1.cascadeFrame = s.cascadeFrame := by
  unfold State.verifyFinal
  split
  · rfl
  · split
    · rfl
    · exact compareLeg_frame _ d r

@[simp] theorem activateHead_frame (d : Fin 6) : (s.activateHead d).1.cascadeFrame = s.cascadeFrame := by
  unfold State.activateHead
  split
  · rfl
  · split
    · split
      · simp only
        split
        · exact verifyFinal_frame _ _ _
        · rfl
      · rfl
    · rfl

@[simp] theorem legWritten_frame (r : LegRef) : (s.legWritten r).1.cascadeFrame = s.cascadeFrame := by
  unfold State.legWritten
  repeat' (first | rfl | split)

@[simp] theorem placeLeg_frame (r : LegRef) : (s.placeLeg r).cascadeFrame = s.cascadeFrame := by
  unfold State.placeLeg
  repeat' (first | rfl | split | dsimp only)

theorem eachLeg_keeps {α : Sort _} (f : State → α) (g : State → LegRef → State × List Todo) (h : ∀ s r, f (g s r).1 = f s) :
    ∀ l s, f (eachLeg g l s).1 = f s
  | [], _ => rfl
  | r :: rest, s => by
    simp only [eachLeg]
    rw [eachLeg_keeps f g h rest, h]

@[simp] theorem writtenIfWriting_frame (r : LegRef) : (s.writtenIfWriting r).1.cascadeFrame = s.cascadeFrame := by
  unfold State.writtenIfWriting
  split
  · split
    · exact legWritten_frame s r
    · rfl
  · rfl

@[simp] theorem startJob_frame (i : Fin 8) (h : Fin 64) : (s.startJob i h).1.cascadeFrame = s.cascadeFrame := by
  unfold State.startJob
  simp only
  split
  · rw [foldl_keeps State.cascadeFrame _ placeLeg_frame]; rfl
  · split
    · rw [finishJob_frame, foldl_keeps State.cascadeFrame _ placeLeg_frame]; rfl
    · split
      · simp only
        rw [eachLeg_keeps State.cascadeFrame _ writtenIfWriting_frame, modJob_frame, foldl_keeps State.cascadeFrame _ placeLeg_frame]
        rfl
      · rw [modIngest_frame, modJob_frame, foldl_keeps State.cascadeFrame _ placeLeg_frame]; rfl

@[simp] theorem testStart_frame (i : Fin 8) : (s.testStart i).1.cascadeFrame = s.cascadeFrame := by
  unfold State.testStart
  split
  · split
    · split
      · exact startJob_frame s _ _
      · rfl
    · rfl
  · rfl

@[simp] theorem testJob_frame (h : Fin 64) : (s.testJob h).1.cascadeFrame = s.cascadeFrame := by
  unfold State.testJob
  split
  · rfl
  · split
    · split
      · exact tearJob_frame s _ _ _
      · split
        · split
          · exact finishJob_frame s _ _ _
          · exact finishJob_frame s _ _ _
        · rfl
    · rfl

@[simp] theorem compareWaiting_frame (r : LegRef) : (s.compareWaiting r).cascadeFrame = s.cascadeFrame := by
  unfold State.compareWaiting
  split
  · split
    · exact compareLeg_frame s _ _
    · rfl
  · rfl

@[simp] theorem ingestFinalised_frame (h : Fin 64) : (s.ingestFinalised h).1.cascadeFrame = s.cascadeFrame := by
  unfold State.ingestFinalised
  split
  · rfl
  · split
    · rfl
    · simp only
      split
      · simp only
        rw [foldl_keeps State.cascadeFrame _ compareWaiting_frame]
        rfl
      · rw [tearJob_frame]
        rfl

@[simp] theorem perform_frame (x : Todo) : (s.perform x).1.cascadeFrame = s.cascadeFrame := by
  cases x <;> simp [State.perform]

end

/-- A view that every step of the Job Table keeps is kept by a whole cascade. -/
theorem run_keeps {α : Sort _} (f : State → α) (h : ∀ s x, f (State.perform s x).1 = f s) :
    ∀ k l s, f (State.run k l s) = f s
  | 0, _, _ => rfl
  | _ + 1, [], _ => rfl
  | k + 1, x :: rest, s => by
    simp only [State.run]
    rw [run_keeps f h k, h]

/-- A property that every step of the Job Table keeps is kept by a whole cascade. -/
theorem run_inv (P : State → Prop) (h : ∀ s x, P s → P (State.perform s x).1) : ∀ k l s, P s → P (State.run k l s)
  | 0, _, _, hs => hs
  | _ + 1, [], _, hs => hs
  | k + 1, x :: _, s, hs => run_inv P h k _ _ (h s x hs)

/-- An event without anything left to do in the Job Table. -/
@[simp] theorem cascade_nil (s : State) : s.cascade [] = s := rfl

@[simp] theorem cascade_frame (s : State) (l : List Todo) : (s.cascade l).cascadeFrame = s.cascadeFrame :=
  run_keeps State.cascadeFrame perform_frame _ l s

@[simp] theorem cascadeOf_frame (out : State × List Todo) : (cascadeOf out).cascadeFrame = out.1.cascadeFrame :=
  cascade_frame out.1 out.2

/-! ## The grants -/

/-- What no grant touches. -/
def State.settleFrame (s : State) :=
  (s.resetN, s.nodeId0, s.nodeId1, s.timer, s.sessions, s.digest, s.drives, s.lamps, s.blink, s.handler, s.pending)

section
variable (s : State)

@[simp] theorem modJob_settled (h : Fin 64) (g : Job → Job) : (s.modJob h g).settleFrame = s.settleFrame := rfl
@[simp] theorem modIngest_settled (i : Fin 8) (g : IngestPort → IngestPort) : (s.modIngest i g).settleFrame = s.settleFrame := rfl
@[simp] theorem send_settled (p : Port) (f : TxFrame) : (s.send p f).settleFrame = s.settleFrame := rfl
@[simp] theorem modArbiter_settled (g : SlotArbiter → SlotArbiter) : (s.modArbiter g).settleFrame = s.settleFrame := rfl
@[simp] theorem lapse_settled : s.lapse.settleFrame = s.settleFrame := rfl
@[simp] theorem joinWaiting_settled : s.joinWaiting.settleFrame = s.settleFrame := rfl
@[simp] theorem putWrite_settled (t : Target) (k : Fin 16) (w : TagWork) : (s.putWrite t k w).settleFrame = s.settleFrame := rfl
@[simp] theorem putCheck_settled (d : Fin 6) (k : Fin 8) (w : TagWork) : (s.putCheck d k w).settleFrame = s.settleFrame := rfl

@[simp] theorem grantIngest_settled (i : Fin 8) : (s.grantIngest i).settleFrame = s.settleFrame := by
  unfold State.grantIngest
  repeat' (first | rfl | split)

@[simp] theorem grantVerify_settled (d : Fin 6) : (s.grantVerify d).settleFrame = s.settleFrame := by
  unfold State.grantVerify
  repeat' (first | rfl | split)

@[simp] theorem grant_settled (r : Requester) : (s.grant r).settleFrame = s.settleFrame := by
  cases r <;> simp [State.grant]

@[simp] theorem issueWrite_settled (t : Target) : (s.issueWrite t).settleFrame = s.settleFrame := by
  unfold State.issueWrite
  repeat' (first | rfl | split | dsimp only)

@[simp] theorem issueCheck_settled (d : Fin 6) : (s.issueCheck d).settleFrame = s.settleFrame := by
  unfold State.issueCheck
  repeat' (first | rfl | split | dsimp only)

@[simp] theorem arbitrate_settled (d : Fin 6) : (s.arbitrate d).settleFrame = s.settleFrame := by
  unfold State.arbitrate
  split
  · rfl
  · split
    · rfl
    · rw [issueWrite_settled]; rfl
    · rw [issueCheck_settled]; rfl

@[simp] theorem sendFrom_settled (c : Source) : (s.sendFrom c).settleFrame = s.settleFrame := by
  cases c with
  | response => simp only [State.sendFrom]; split <;> rfl
  | notice => simp only [State.sendFrom]; split <;> rfl
  | sink => exact issueWrite_settled s _

@[simp] theorem transmit_settled : s.transmit.settleFrame = s.settleFrame := by
  unfold State.transmit
  split
  · split
    · rfl
    · rw [sendFrom_settled]; rfl
  · rfl

@[simp] theorem noteWork_settled : s.noteWork.settleFrame = s.settleFrame := by
  unfold State.noteWork
  apply foldl_keeps State.settleFrame
  intro s t
  rfl

end

/-- A view that every grant keeps is kept by the hand-over of freed slots. -/
theorem handOn_keeps {α : Sort _} (f : State → α) (hl : ∀ s, f (State.lapse s) = f s) (hg : ∀ s r, f (State.grant s r) = f s) :
    ∀ k s, f (State.handOn k s) = f s
  | 0, s => hl s
  | k + 1, s => by
    simp only [State.handOn]
    split
    · exact hl s
    · split
      · exact hl s
      · rw [handOn_keeps f hl hg k, hg, hl]

/-- A view that every grant keeps is kept by the admission of new requesters. -/
theorem serveNew_keeps {α : Sort _} (f : State → α) (hj : ∀ s, f (State.joinWaiting s) = f s) (hg : ∀ s r, f (State.grant s r) = f s) :
    ∀ k s, f (State.serveNew k s) = f s
  | 0, s => hj s
  | k + 1, s => by
    simp only [State.serveNew]
    split
    · exact hj s
    · split
      · exact hj s
      · rw [serveNew_keeps f hj hg k, hg]

/-- A view that every grant keeps is kept by the end of an event. -/
theorem settle_keeps {α : Sort _} (f : State → α) (hl : ∀ s, f (State.lapse s) = f s) (hj : ∀ s, f (State.joinWaiting s) = f s)
    (hg : ∀ s r, f (State.grant s r) = f s) (ha : ∀ s d, f (State.arbitrate s d) = f s) (ht : ∀ s, f (State.transmit s) = f s)
    (hn : ∀ s, f (State.noteWork s) = f s) (s : State) : f s.settle = f s := by
  simp only [State.settle]
  rw [hn, ht, serveNew_keeps f hj hg, foldl_keeps f _ ha, serveNew_keeps f hj hg, handOn_keeps f hl hg]

@[simp] theorem handOn_settled (k : Nat) (s : State) : (State.handOn k s).settleFrame = s.settleFrame :=
  handOn_keeps State.settleFrame lapse_settled grant_settled k s

@[simp] theorem settle_settled (s : State) : s.settle.settleFrame = s.settleFrame :=
  settle_keeps State.settleFrame lapse_settled joinWaiting_settled grant_settled arbitrate_settled transmit_settled
    noteWork_settled s

/-! ## Notices and lamps -/

theorem announceJob_cases (s : State) (h : Fin 64) :
    s.announceJob h = s ∨
      ∃ j, s.job? h = some j ∧ j.state.terminal = true ∧ j.announced = false ∧
        s.announceJob h =
          (s.modJob h fun j => { j with announced := true }).notify (.jobFinished h j.state j.cause j.goodLegs j.port) := by
  unfold State.announceJob
  split
  · exact .inl rfl
  · next j hj =>
    split
    · next c => exact .inr ⟨j, hj, by simp_all, by simp_all, rfl⟩
    · exact .inl rfl

/-- What the JOB_FINISHED notices do not touch. -/
def State.announceFrame (s : State) :=
  (s.resetN, s.nodeId0, s.nodeId1, s.timer, s.links, s.sessions, s.slots, s.arbiter, s.ingest, s.digest, s.drives, s.writers,
    s.readers, s.sides, s.windows, s.lamps, s.blink, s.control, s.pending, s.handler.requests, s.handler.taking)

@[simp] theorem notify_announced (s : State) (n : Notice) : (s.notify n).announceFrame = s.announceFrame := by
  unfold State.notify State.announceFrame
  simp only [State.modHandler]
  split <;> rfl

@[simp] theorem announce_announced (s : State) : s.announce.announceFrame = s.announceFrame := by
  unfold State.announce
  apply foldl_keeps State.announceFrame
  intro s h
  rcases announceJob_cases s h with e | ⟨j, -, -, -, e⟩ <;> rw [e]
  rw [notify_announced]
  rfl

/-- What the lamps' recomputation does not touch. -/
def State.relampFrame (s : State) :=
  (s.resetN, s.nodeId0, s.nodeId1, s.timer, s.links, s.jobs, s.sessions, s.slots, s.arbiter, s.ingest, s.digest, s.drives, s.writers,
    s.readers, s.sides, s.windows, s.blink, s.handler, s.control, s.pending)

@[simp] theorem relamp_relamped (s : State) : s.relamp.relampFrame = s.relampFrame := by
  unfold State.relamp
  apply foldl_keeps State.relampFrame
  intro s i
  rfl

/-! ## The frames, field by field -/

@[simp] theorem cascade_fields (s : State) (l : List Todo) :
      (s.cascade l).resetN = s.resetN ∧ (s.cascade l).nodeId0 = s.nodeId0 ∧ (s.cascade l).nodeId1 = s.nodeId1 ∧
      (s.cascade l).timer = s.timer ∧ (s.cascade l).links = s.links ∧ (s.cascade l).sides = s.sides ∧
      (s.cascade l).windows = s.windows ∧ (s.cascade l).lamps = s.lamps ∧ (s.cascade l).blink = s.blink ∧
      (s.cascade l).handler = s.handler ∧ (s.cascade l).control = s.control ∧ (s.cascade l).pending = s.pending := by
  have h := cascade_frame s l
  simp only [State.cascadeFrame, Prod.mk.injEq] at h
  exact h

@[simp] theorem settle_fields (s : State) :
      s.settle.resetN = s.resetN ∧ s.settle.nodeId0 = s.nodeId0 ∧ s.settle.nodeId1 = s.nodeId1 ∧
      s.settle.timer = s.timer ∧ s.settle.sessions = s.sessions ∧ s.settle.digest = s.digest ∧
      s.settle.drives = s.drives ∧ s.settle.lamps = s.lamps ∧ s.settle.blink = s.blink ∧
      s.settle.handler = s.handler ∧ s.settle.pending = s.pending := by
  have h := settle_settled s
  simp only [State.settleFrame, Prod.mk.injEq] at h
  exact h

@[simp] theorem transmit_fields (s : State) :
      s.transmit.resetN = s.resetN ∧ s.transmit.nodeId0 = s.nodeId0 ∧ s.transmit.nodeId1 = s.nodeId1 ∧
      s.transmit.timer = s.timer ∧ s.transmit.sessions = s.sessions ∧ s.transmit.digest = s.digest ∧
      s.transmit.drives = s.drives ∧ s.transmit.lamps = s.lamps ∧ s.transmit.blink = s.blink ∧
      s.transmit.handler = s.handler ∧ s.transmit.pending = s.pending := by
  have h := transmit_settled s
  simp only [State.settleFrame, Prod.mk.injEq] at h
  exact h

@[simp] theorem handOn_fields (s : State) (k : Nat) :
      (State.handOn k s).resetN = s.resetN ∧ (State.handOn k s).nodeId0 = s.nodeId0 ∧
      (State.handOn k s).nodeId1 = s.nodeId1 ∧ (State.handOn k s).timer = s.timer ∧
      (State.handOn k s).sessions = s.sessions ∧ (State.handOn k s).digest = s.digest ∧
      (State.handOn k s).drives = s.drives ∧ (State.handOn k s).lamps = s.lamps ∧
      (State.handOn k s).blink = s.blink ∧ (State.handOn k s).handler = s.handler ∧
      (State.handOn k s).pending = s.pending := by
  have h := handOn_settled k s
  simp only [State.settleFrame, Prod.mk.injEq] at h
  exact h

@[simp] theorem announce_fields (s : State) :
      s.announce.resetN = s.resetN ∧ s.announce.nodeId0 = s.nodeId0 ∧ s.announce.nodeId1 = s.nodeId1 ∧
      s.announce.timer = s.timer ∧ s.announce.links = s.links ∧ s.announce.sessions = s.sessions ∧
      s.announce.slots = s.slots ∧ s.announce.arbiter = s.arbiter ∧ s.announce.ingest = s.ingest ∧
      s.announce.digest = s.digest ∧ s.announce.drives = s.drives ∧ s.announce.writers = s.writers ∧
      s.announce.readers = s.readers ∧ s.announce.sides = s.sides ∧ s.announce.windows = s.windows ∧
      s.announce.lamps = s.lamps ∧ s.announce.blink = s.blink ∧ s.announce.control = s.control ∧
      s.announce.pending = s.pending ∧ s.announce.handler.requests = s.handler.requests ∧
      s.announce.handler.taking = s.handler.taking := by
  have h := announce_announced s
  simp only [State.announceFrame, Prod.mk.injEq] at h
  exact h

@[simp] theorem relamp_fields (s : State) :
      s.relamp.resetN = s.resetN ∧ s.relamp.nodeId0 = s.nodeId0 ∧ s.relamp.nodeId1 = s.nodeId1 ∧
      s.relamp.timer = s.timer ∧ s.relamp.links = s.links ∧ s.relamp.jobs = s.jobs ∧
      s.relamp.sessions = s.sessions ∧ s.relamp.slots = s.slots ∧ s.relamp.arbiter = s.arbiter ∧
      s.relamp.ingest = s.ingest ∧ s.relamp.digest = s.digest ∧ s.relamp.drives = s.drives ∧
      s.relamp.writers = s.writers ∧ s.relamp.readers = s.readers ∧ s.relamp.sides = s.sides ∧
      s.relamp.windows = s.windows ∧ s.relamp.blink = s.blink ∧ s.relamp.handler = s.handler ∧
      s.relamp.control = s.control ∧ s.relamp.pending = s.pending := by
  have h := relamp_relamped s
  simp only [State.relampFrame, Prod.mk.injEq] at h
  exact h

end Sys2Proof.Machine
end

