-- ==== Sys2Proof/Laws/Pool.lean ====
section
/-! SUPPORT. The Block Pool's list keeps its canonical form under every pool operation, and a granted slot is a FREE one. -/

namespace Sys2Proof.Machine

/-- The canonical form as an order on slot numbers. -/
theorem poolWf_iff (l : List Slot) :
    poolWf l = true ↔ (l.map Slot.num).Pairwise (· < ·) ∧ ∀ x ∈ l, x.num < Config.poolSlots := by
  induction l with
  | nil => simp [poolWf]
  | cons x rest ih =>
    cases rest with
    | nil => simp [poolWf]
    | cons y rest =>
      simp only [poolWf, Bool.and_eq_true, decide_eq_true_eq, ih]
      simp only [List.map_cons, List.pairwise_cons, List.mem_cons, forall_eq_or_imp]
      constructor
      · rintro ⟨h, ⟨h1, h2⟩, h3, h4⟩
        refine ⟨⟨⟨h, ?_⟩, h1, h2⟩, by omega, h3, h4⟩
        intro a ha
        have := h1 a ha
        omega
      · rintro ⟨⟨⟨h, -⟩, h1, h2⟩, -, h3, h4⟩
        exact ⟨h, ⟨h1, h2⟩, h3, h4⟩

/-- A list whose slot numbers are a sublist of a canonical list's is canonical. -/
theorem poolWf_sublist {l m : List Slot} (h : (m.map Slot.num).Sublist (l.map Slot.num)) (hl : poolWf l = true) :
    poolWf m = true := by
  rw [poolWf_iff] at *
  refine ⟨hl.1.sublist h, fun x hx => ?_⟩
  have := h.subset (List.mem_map_of_mem hx)
  obtain ⟨y, hy, e⟩ := List.mem_map.mp this
  rw [← e]
  exact hl.2 y hy

/-- A change of records that keeps their numbers. -/
theorem poolWf_map {l : List Slot} (f : Slot → Slot) (hf : ∀ x, (f x).num = x.num) (hl : poolWf l = true) :
    poolWf (l.map f) = true := by
  apply poolWf_sublist _ hl
  have : (l.map f).map Slot.num = l.map Slot.num := by
    rw [List.map_map]
    exact List.map_congr_left fun x _ => hf x
  rw [this]

theorem poolWf_filter {l : List Slot} (p : Slot → Bool) (hl : poolWf l = true) : poolWf (l.filter p) = true :=
  poolWf_sublist (List.Sublist.map _ List.filter_sublist) hl

theorem poolWf_filterMap {l : List Slot} (f : Slot → Option Slot) (hf : ∀ x y, f x = some y → y.num = x.num)
    (hl : poolWf l = true) : poolWf (l.filterMap f) = true := by
  apply poolWf_sublist _ hl
  clear hl
  induction l with
  | nil => exact List.Sublist.refl _
  | cons x rest ih =>
    rw [List.filterMap_cons]
    split
    · exact List.Sublist.cons _ ih
    · next y h => rw [List.map_cons, List.map_cons, hf x y h]; exact ih.cons_cons _

/-! ## Reserving -/

theorem insertSlot_mem (x y : Slot) (l : List Slot) : y ∈ insertSlot x l ↔ y = x ∨ y ∈ l := by
  induction l with
  | nil => simp [insertSlot]
  | cons z rest ih =>
    simp only [insertSlot]
    split
    · simp
    · simp only [List.mem_cons, ih]
      tauto

theorem insertSlot_length (x : Slot) (l : List Slot) : (insertSlot x l).length = l.length + 1 := by
  induction l with
  | nil => rfl
  | cons z rest ih =>
    simp only [insertSlot]
    split
    · rfl
    · simp [ih]

/-- A slot of a new number joins a canonical list at its place. -/
theorem poolWf_insert {l : List Slot} (x : Slot) (hx : x.num < Config.poolSlots) (hn : ∀ y ∈ l, y.num ≠ x.num)
    (hl : poolWf l = true) : poolWf (insertSlot x l) = true := by
  rw [poolWf_iff] at *
  obtain ⟨ho, hb⟩ := hl
  refine ⟨?_, fun y hy => ?_⟩
  · clear hb
    induction l with
    | nil => simp [insertSlot]
    | cons z rest ih =>
      simp only [List.map_cons, List.pairwise_cons, List.mem_map, forall_exists_index, and_imp, forall_apply_eq_imp_iff₂] at ho
      simp only [insertSlot]
      split
      · next h =>
        simp only [List.map_cons, List.pairwise_cons, List.mem_cons, List.mem_map]
        refine ⟨?_, ?_, ho.2⟩
        · rintro a (e | ⟨w, hw, e⟩)
          · omega
          · have := ho.1 w hw; omega
        · rintro a ⟨w, hw, e⟩
          have := ho.1 w hw
          omega
      · next h =>
        simp only [List.map_cons, List.pairwise_cons, List.mem_map]
        refine ⟨?_, ih (fun y hy => hn y (List.mem_cons_of_mem _ hy)) ho.2⟩
        rintro a ⟨w, hw, e⟩
        rcases (insertSlot_mem x w rest).mp hw with e' | hw'
        · have := hn z (List.mem_cons_self ..)
          subst e'
          omega
        · have := ho.1 w hw'
          omega
  · rcases (insertSlot_mem x y l).mp hy with e | h
    · rw [e]; exact hx
    · exact hb y h

theorem lowestGap_spec (l : List Slot) (k : Nat) (ho : (l.map Slot.num).Pairwise (· < ·)) (hk : ∀ x ∈ l, k ≤ x.num) :
    k ≤ lowestGap k l ∧ lowestGap k l ≤ k + l.length ∧ ∀ x ∈ l, x.num ≠ lowestGap k l := by
  induction l generalizing k with
  | nil => simp [lowestGap]
  | cons x rest ih =>
    simp only [List.map_cons, List.pairwise_cons, List.mem_map, forall_exists_index, and_imp, forall_apply_eq_imp_iff₂] at ho
    simp only [lowestGap]
    split
    · next e =>
      have := ih (k + 1) ho.2 (fun y hy => by have := ho.1 y hy; omega)
      refine ⟨by omega, by simp only [List.length_cons]; omega, ?_⟩
      intro y hy
      rcases List.mem_cons.mp hy with h | h
      · subst h; omega
      · exact this.2.2 y h
    · next e =>
      refine ⟨by omega, by omega, ?_⟩
      intro y hy
      rcases List.mem_cons.mp hy with h | h
      · subst h; exact e
      · have := ho.1 y h
        have := hk x (List.mem_cons_self ..)
        omega

/-- The slot a grant takes is FREE, and it is a slot of the pool while the pool has a FREE one (R32). -/
theorem freeSlot_spec (s : State) (h : poolWf s.slots = true) :
    (∀ x ∈ s.slots, x.num ≠ s.freeSlot) ∧ (s.freeSlots ≠ 0 → s.freeSlot < Config.poolSlots) := by
  have := lowestGap_spec s.slots 0 ((poolWf_iff _).mp h).1 (fun _ _ => Nat.zero_le _)
  refine ⟨this.2.2, fun hf => ?_⟩
  unfold State.freeSlots at hf
  unfold State.freeSlot
  omega

theorem reserve_poolWf (s : State) (h : Fin 64) (i : Nat) (k : SlotKind) (hf : s.freeSlots ≠ 0) (hl : poolWf s.slots = true) :
    poolWf (s.reserve h i k).slots = true := by
  unfold State.reserve
  rw [State.modSlots_slots]
  exact poolWf_insert _ ((freeSlot_spec s hl).2 hf) (freeSlot_spec s hl).1 hl

/-! ## Filling, settling and freeing -/

theorem fill_poolWf (s : State) (n : Nat) (d : List Byte) (hl : poolWf s.slots = true) : poolWf (s.fill n d).slots = true :=
  poolWf_map _ (fun x => by split <;> rfl) hl

theorem modHeld_poolWf (s : State) (n : Nat) (f : HeldBlock → HeldBlock) (hl : poolWf s.slots = true) :
    poolWf (s.modHeld n f).slots = true :=
  poolWf_map _ (fun x => by split <;> rfl) hl

theorem freeSlotNum_poolWf (s : State) (n : Nat) (hl : poolWf s.slots = true) : poolWf (s.freeSlotNum n).slots = true :=
  poolWf_filter _ hl

theorem freeIfDone_poolWf (s : State) (n : Nat) (hl : poolWf s.slots = true) : poolWf (s.freeIfDone n).slots = true :=
  poolWf_filter _ hl

@[simp] theorem Slot.settle_num (x : Slot) (t : Target) : (x.settle t).num = x.num := by
  unfold Slot.settle
  split <;> rfl

theorem settleSlot_poolWf (s : State) (n : Nat) (t : Target) (hl : poolWf s.slots = true) :
    poolWf (s.settleSlot n t).slots = true :=
  poolWf_map _ (fun x => by split <;> simp) hl

theorem settleJobSlots_poolWf (s : State) (h : Fin 64) (t : Target) (hl : poolWf s.slots = true) :
    poolWf (s.settleJobSlots h t).slots = true :=
  poolWf_filter _ (poolWf_map _ (fun x => by split <;> simp) hl)

theorem Slot.withdraw_num (x y : Slot) (h : x.withdraw = some y) : y.num = x.num := by
  unfold Slot.withdraw at h
  split at h
  · split at h
    · cases h; rfl
    · cases h
  · cases h

theorem withdrawSlots_poolWf (s : State) (mine : Slot → Bool) (hl : poolWf s.slots = true) :
    poolWf (s.withdrawSlots mine).slots = true := by
  unfold State.withdrawSlots
  refine poolWf_filterMap _ (fun x y h => ?_) hl
  split at h
  · exact Slot.withdraw_num x y h
  · cases h; rfl

end Sys2Proof.Machine
end

