-- ==== Sys2Proof/Laws/PoolSteps.lean ====
section
/-! SUPPORT. The Block Pool's canonical form through the Job Table's events and the grants. -/

namespace Sys2Proof.Machine

variable (s : State)

/-! ## Operations that leave the pool alone -/

@[simp] theorem finishJob_slots (h : Fin 64) (o : JobState) (c : Option JobCause) : (s.finishJob h o c).slots = s.slots := by
  unfold State.finishJob
  repeat' (first | rfl | split)

@[simp] theorem abandonLegs_slots (h : Fin 64) : (s.abandonLegs h).slots = s.slots := rfl

@[simp] theorem endLeg_slots (r : LegRef) (x : LegState) (c : Option LegCause) : (s.endLeg r x c).slots = s.slots := rfl

@[simp] theorem dropReading_slots (h : Fin 64) : (s.dropReading h).slots = s.slots := by
  unfold State.dropReading
  repeat' (first | rfl | split)

@[simp] theorem compareLeg_slots (d : Fin 6) (r : LegRef) : (s.compareLeg d r).1.slots = s.slots := by
  unfold State.compareLeg
  repeat' (first | rfl | split)

@[simp] theorem verifyFinal_slots (d : Fin 6) (r : LegRef) : (s.verifyFinal d r).1.slots = s.slots := by
  unfold State.verifyFinal
  split
  · rfl
  · split
    · rfl
    · exact compareLeg_slots _ d r

@[simp] theorem activateHead_slots (d : Fin 6) : (s.activateHead d).1.slots = s.slots := by
  unfold State.activateHead
  split
  · rfl
  · split
    · split
      · dsimp only
        split
        · exact verifyFinal_slots _ _ _
        · rfl
      · rfl
    · rfl

@[simp] theorem legWritten_slots (r : LegRef) : (s.legWritten r).1.slots = s.slots := by
  unfold State.legWritten
  repeat' (first | rfl | split)

@[simp] theorem placeLeg_slots (r : LegRef) : (s.placeLeg r).slots = s.slots := by
  unfold State.placeLeg
  repeat' (first | rfl | split | dsimp only)

@[simp] theorem writtenIfWriting_slots (r : LegRef) : (s.writtenIfWriting r).1.slots = s.slots := by
  unfold State.writtenIfWriting
  split
  · split
    · exact legWritten_slots s r
    · rfl
  · rfl

@[simp] theorem compareWaiting_slots (r : LegRef) : (s.compareWaiting r).slots = s.slots := by
  unfold State.compareWaiting
  split
  · split
    · exact compareLeg_slots s _ _
    · rfl
  · rfl

@[simp] theorem startJob_slots (i : Fin 8) (h : Fin 64) : (s.startJob i h).1.slots = s.slots := by
  unfold State.startJob
  dsimp only
  split
  · rw [foldl_keeps State.slots _ placeLeg_slots]; rfl
  · split
    · rw [finishJob_slots, foldl_keeps State.slots _ placeLeg_slots]; rfl
    · split
      · dsimp only
        rw [eachLeg_keeps State.slots _ writtenIfWriting_slots, State.modJob_slots, foldl_keeps State.slots _ placeLeg_slots]
        rfl
      · rw [State.modIngest_slots, State.modJob_slots, foldl_keeps State.slots _ placeLeg_slots]; rfl

@[simp] theorem testStart_slots (i : Fin 8) : (s.testStart i).1.slots = s.slots := by
  unfold State.testStart
  repeat' (first | rfl | split | exact startJob_slots s _ _)

/-! ## Withdrawals -/

theorem withdrawVerify_poolWf (d : Fin 6) (h : Fin 64) (hl : poolWf s.slots = true) :
    poolWf (s.withdrawVerify d h).slots = true := by
  unfold State.withdrawVerify
  dsimp only
  split
  · exact hl
  · split
    · rw [State.modArbiter_slots]; exact withdrawSlots_poolWf _ _ hl
    · exact withdrawSlots_poolWf _ _ hl

theorem teardown_poolWf (h : Fin 64) (o : JobState) (c : JobCause) (hl : poolWf s.slots = true) :
    poolWf (s.teardown h o c).slots = true := by
  unfold State.teardown
  dsimp only
  apply foldl_inv (fun s => poolWf s.slots = true) _ (fun s d hs => withdrawVerify_poolWf s d h hs)
  rw [foldl_keeps State.slots (fun s t => s.modWriter t fun w => w.withdraw h) (fun _ _ => rfl)]
  apply withdrawSlots_poolWf
  simpa using hl

theorem tearJob_poolWf (h : Fin 64) (o : JobState) (c : JobCause) (hl : poolWf s.slots = true) :
    poolWf (s.tearJob h o c).1.slots = true := by
  unfold State.tearJob
  split
  · exact hl
  · split
    · exact hl
    · exact teardown_poolWf s h o c hl

theorem dropLeg_poolWf (h : Fin 64) (t : Target) (x : LegState) (c : Option LegCause) (hl : poolWf s.slots = true) :
    poolWf (s.dropLeg h t x c).slots = true := by
  unfold State.dropLeg
  split
  · exact hl
  · split
    · rw [State.modWriter_slots]; exact settleJobSlots_poolWf _ _ _ hl
    · split
      · split
        · exact withdrawVerify_poolWf _ _ _ hl
        · exact hl
      · exact hl

theorem testJob_poolWf (h : Fin 64) (hl : poolWf s.slots = true) : poolWf (s.testJob h).1.slots = true := by
  unfold State.testJob
  split
  · exact hl
  · split
    · split
      · exact tearJob_poolWf s _ _ _ hl
      · split
        · split <;> simpa using hl
        · exact hl
    · exact hl

theorem ingestFinalised_poolWf (h : Fin 64) (hl : poolWf s.slots = true) : poolWf (s.ingestFinalised h).1.slots = true := by
  unfold State.ingestFinalised
  split
  · exact hl
  · split
    · exact hl
    · dsimp only
      split
      · dsimp only
        rw [foldl_keeps State.slots _ compareWaiting_slots]
        exact hl
      · exact tearJob_poolWf _ _ _ _ hl

theorem perform_poolWf (x : Todo) (hl : poolWf s.slots = true) : poolWf (s.perform x).1.slots = true := by
  cases x with
  | activate d => simpa [State.perform] using hl
  | test h => exact testJob_poolWf s h hl
  | ingestFinal h => exact ingestFinalised_poolWf s h hl
  | start i => simpa [State.perform] using hl

theorem cascade_poolWf (l : List Todo) (hl : poolWf s.slots = true) : poolWf (s.cascade l).slots = true :=
  run_inv (fun s => poolWf s.slots = true) perform_poolWf _ l s hl

/-! ## Grants -/

theorem grantIngest_poolWf (i : Fin 8) (hf : s.freeSlots ≠ 0) (hl : poolWf s.slots = true) :
    poolWf (s.grantIngest i).slots = true := by
  unfold State.grantIngest
  split
  · split
    · exact hl
    · exact reserve_poolWf s _ _ _ hf hl
  · exact hl

theorem grantVerify_poolWf (d : Fin 6) (hf : s.freeSlots ≠ 0) (hl : poolWf s.slots = true) :
    poolWf (s.grantVerify d).slots = true := by
  unfold State.grantVerify
  split
  · exact hl
  · split
    · exact hl
    · exact reserve_poolWf s _ _ _ hf hl

theorem grant_poolWf (r : Requester) (hf : s.freeSlots ≠ 0) (hl : poolWf s.slots = true) : poolWf (s.grant r).slots = true := by
  cases r with
  | ingest i => exact grantIngest_poolWf s i hf hl
  | verify d => exact grantVerify_poolWf s d hf hl

theorem handOn_poolWf (k : Nat) (hl : poolWf s.slots = true) : poolWf (State.handOn k s).slots = true := by
  induction k generalizing s with
  | zero => exact hl
  | succ k ih =>
    simp only [State.handOn]
    split
    · exact hl
    · next hf =>
      split
      · exact hl
      · exact ih _ (grant_poolWf _ _ hf hl)

theorem serveNew_poolWf (k : Nat) (hl : poolWf s.slots = true) : poolWf (State.serveNew k s).slots = true := by
  induction k generalizing s with
  | zero => exact hl
  | succ k ih =>
    simp only [State.serveNew]
    split
    · exact hl
    · next hf =>
      split
      · exact hl
      · exact ih _ (grant_poolWf _ _ hf hl)

@[simp] theorem issueWrite_slots (t : Target) : (s.issueWrite t).slots = s.slots := by
  unfold State.issueWrite
  repeat' (first | rfl | split | dsimp only)

@[simp] theorem issueCheck_slots (d : Fin 6) : (s.issueCheck d).slots = s.slots := by
  unfold State.issueCheck
  repeat' (first | rfl | split | dsimp only)

@[simp] theorem arbitrate_slots (d : Fin 6) : (s.arbitrate d).slots = s.slots := by
  unfold State.arbitrate
  split
  · rfl
  · split
    · rfl
    · rw [issueWrite_slots]; rfl
    · rw [issueCheck_slots]; rfl

@[simp] theorem sendFrom_slots (c : Source) : (s.sendFrom c).slots = s.slots := by
  cases c with
  | response => simp only [State.sendFrom]; split <;> rfl
  | notice => simp only [State.sendFrom]; split <;> rfl
  | sink => exact issueWrite_slots s _

@[simp] theorem transmit_slots : s.transmit.slots = s.slots := by
  unfold State.transmit
  split
  · split
    · rfl
    · rw [sendFrom_slots]; rfl
  · rfl

@[simp] theorem noteWork_slots : s.noteWork.slots = s.slots := by
  unfold State.noteWork
  apply foldl_keeps State.slots
  intro s t
  rfl

@[simp] theorem notify_slots (n : Notice) : (s.notify n).slots = s.slots := rfl

theorem settle_poolWf (hl : poolWf s.slots = true) : poolWf s.settle.slots = true := by
  unfold State.settle
  dsimp only
  rw [noteWork_slots, transmit_slots]
  apply serveNew_poolWf
  rw [foldl_keeps State.slots _ arbitrate_slots]
  exact serveNew_poolWf _ _ (handOn_poolWf _ _ hl)

theorem close_poolWf (hl : poolWf s.slots = true) : poolWf s.close.slots = true := by
  unfold State.close
  apply settle_poolWf
  simpa using hl

end Sys2Proof.Machine
end

