-- ==== Sys2Proof/Laws/Events.lean ====
section
/-! SUPPORT. What a command's outcome is made of: every command answers a next state, its own effect where the event can happen and
no change where it cannot. -/

namespace Sys2Proof.Machine

/-- A property kept by a command's effect is kept by the command. -/
theorem event_inv (P : State → Prop) {s t : State} {en : Bool} {f : State → State} (h : s.event en f = .next t) (hs : P s)
    (hf : s.resetN = true → en = true → P (f s)) : P t := by
  unfold State.event at h
  cases h
  split
  · next c =>
    simp only [Bool.and_eq_true] at c
    exact hf c.1 c.2
  · exact hs

/-- Where the event can happen, the outcome is its effect. -/
theorem event_enabled {s : State} {en : Bool} {f : State → State} (hr : s.resetN = true) (he : en = true) :
    s.event en f = .next (f s) := by
  unfold State.event
  rw [hr, he]
  rfl

/-- The taking of the head request, spelt out. -/
theorem take_eq {s : State} {r : Request} {rest : List Request} (apply : List Byte → State → Answer)
    (h : s.handler.requests = r :: rest) :
    s.take apply =
      (apply r.body (s.modHandler fun q => { q with requests := rest })).state.respond
        ⟨r.seq, r.kind, (apply r.body (s.modHandler fun q => { q with requests := rest })).result,
          (apply r.body (s.modHandler fun q => { q with requests := rest })).body⟩ := by
  unfold State.take
  rw [h]

/-- A property kept by a request's application and by the hand-over of its response is kept by its taking. -/
theorem take_inv (P : State → Prop) {s : State} {apply : List Byte → State → Answer} (hs : P s)
    (h : ∀ r rest, s.handler.requests = r :: rest →
      P ((apply r.body (s.modHandler fun q => { q with requests := rest })).state.respond
        ⟨r.seq, r.kind, (apply r.body (s.modHandler fun q => { q with requests := rest })).result,
          (apply r.body (s.modHandler fun q => { q with requests := rest })).body⟩)) : P (s.take apply) := by
  unfold State.take
  split
  · exact hs
  · next r rest e => exact h r rest e

/-- A request can be taken exactly when the handler is IDLE and the head of its queue is of the kind. -/
theorem canTake_iff (s : State) (wanted : Byte → Bool) :
    s.canTake wanted = true ↔ s.handler.taking = false ∧ ∃ r rest, s.handler.requests = r :: rest ∧ wanted r.kind = true := by
  unfold State.canTake
  split
  · next r rest h1 h2 => simp [h1, h2]
  · next h =>
    constructor
    · intro x; cases x
    · rintro ⟨h1, r, rest, h2, -⟩
      exact absurd h2 (h r rest h1)

/-- A property kept by every window end holds after the late ones (R139). -/
theorem lateEnds_inv (P : State → Prop) (hP : ∀ s t, (s.window t).endDue = true → P s → P (windowEndEffect t s)) {s : State} (h : P s) :
    P s.lateEnds := by
  unfold State.lateEnds
  generalize allTargets = l
  induction l generalizing s with
  | nil => exact h
  | cons t rest ih =>
    refine ih ?_
    dsimp only
    split
    · next e => exact hP s t e h
    · exact h

/-- With no window's end due, none is late. -/
theorem lateEnds_of_none {s : State} (h : ∀ t, (s.window t).endDue = false) : s.lateEnds = s := by
  unfold State.lateEnds
  generalize allTargets = l
  induction l with
  | nil => rfl
  | cons t rest ih => simpa [h t] using ih

/-- The event an idle step takes is one that is due. -/
theorem isDue_of_dueEvent {s : State} {c : Instr} (h : s.dueEvent = some c) : s.isDue c := by
  have m := List.mem_of_mem_head? h
  simp only [List.mem_append, List.mem_flatMap, List.mem_filterMap] at m
  rcases m with ((⟨i, -, k, -, e⟩ | ⟨t, -, k, -, e⟩) | ⟨d, -, k, -, e⟩) | ⟨t, -, e⟩ <;> split at e <;> cases e <;> assumption

end Sys2Proof.Machine
end

