-- ==== Sys2Proof/Laws/Jobs.lean ====
section
/-! SUPPORT. Jobs and legs only go forward: each shared operation of the Job Table, and each grant, advances the records it touches and
leaves the others (`State.advancesTo`). -/

namespace Sys2Proof.Machine

/-! ## The relation -/

theorem Leg.advancesTo_refl (l : Leg) : l.advancesTo l :=
  ⟨rfl, rfl, Nat.le_refl _, fun _ => ⟨rfl, rfl, rfl⟩, fun _ => rfl, fun _ => rfl, Nat.le_refl _, Nat.le_refl _, Nat.le_refl _,
    Nat.le_refl _⟩

theorem Leg.countsStand_refl (l : Leg) : l.countsStand l :=
  ⟨rfl, rfl, rfl, rfl⟩

theorem Leg.countsStand.trans {l m n : Leg} (h : l.countsStand m) (g : m.countsStand n) : l.countsStand n :=
  ⟨g.1.trans h.1, g.2.1.trans h.2.1, g.2.2.1.trans h.2.2.1, g.2.2.2.trans h.2.2.2⟩

theorem LegState.terminal_iff_rank (x : LegState) : x.terminal = true ↔ x.rank = 4 := by
  cases x <;> simp [LegState.terminal, LegState.rank]

theorem LegState.idle_iff_rank (x : LegState) : x = .idle ↔ x.rank = 0 := by
  cases x <;> simp [LegState.rank]

theorem JobState.terminal_iff_rank (x : JobState) : x.terminal = true ↔ x.rank = 3 := by
  cases x <;> simp [JobState.terminal, JobState.rank]

theorem Leg.advancesTo.trans {l m n : Leg} (h : l.advancesTo m) (g : m.advancesTo n) : l.advancesTo n := by
  obtain ⟨h1, h2, h3, h4, h5, h9, h6, h7, h8, h10⟩ := h
  obtain ⟨g1, g2, g3, g4, g5, g9, g6, g7, g8, g10⟩ := g
  refine ⟨g1.trans h1, g2.trans h2, h3.trans g3, fun t => ?_, fun i => ?_, fun w => (g9 (w.trans h3)).trans (h9 w), h6.trans g6,
    h7.trans g7, h8.trans g8, h10.trans g10⟩
  · have a := h4 t
    have b := g4 (a.1 ▸ t)
    exact ⟨b.1.trans a.1, b.2.1.trans a.2.1, b.2.2.trans a.2.2⟩
  · have : m.state ≠ .idle := by
      rw [ne_eq, LegState.idle_iff_rank] at *
      omega
    exact (g5 this).trans (h5 i)

theorem loaded_rank {x y : JobState} (h : x.rank ≤ y.rank) (n : x ≠ .loaded) : y ≠ .loaded := by
  cases x <;> cases y <;> simp_all [JobState.rank]

theorem Job.advancesTo_refl (j : Job) : j.advancesTo j :=
  ⟨rfl, rfl, rfl, rfl, rfl, rfl, rfl, Nat.le_refl _, fun _ => ⟨rfl, rfl, rfl⟩, fun _ => rfl, fun _ => rfl, Nat.le_refl _,
    Nat.le_refl _, Nat.le_refl _, rfl, fun _ l h => ⟨l, h, l.advancesTo_refl, fun _ => l.countsStand_refl⟩, fun _ => ⟨rfl, rfl, rfl⟩⟩

theorem Job.advancesTo.trans {j k m : Job} (h : j.advancesTo k) (g : k.advancesTo m) : j.advancesTo m := by
  obtain ⟨h1, h2, h3, h4, h5, h6, h7, h8, h9, ha, hb, h10, h11, hd, h12, h13, hs⟩ := h
  obtain ⟨g1, g2, g3, g4, g5, g6, g7, g8, g9, ga, gb, g10, g11, gd, g12, g13, gs⟩ := g
  refine ⟨g1.trans h1, g2.trans h2, g3.trans h3, g4.trans h4, g5.trans h5, g6.trans h6, g7.trans h7, h8.trans g8, fun t => ?_,
    fun n => (ga (loaded_rank h8 n)).trans (ha n), fun r => (gb (r.trans h8)).trans (hb r), h10.trans g10, h11.trans g11, hd.trans gd,
    g12.trans h12, fun n l e => ?_, fun t => ?_⟩
  · have a := h9 t
    have b := g9 (a.1 ▸ t)
    exact ⟨b.1.trans a.1, b.2.1.trans a.2.1, b.2.2.trans a.2.2⟩
  · obtain ⟨x, hx, ha, hc⟩ := h13 n l e
    obtain ⟨y, hy, hb, gc⟩ := g13 n x hx
    exact ⟨y, hy, ha.trans hb, fun t => (hc t).trans (gc ((h9 t).1 ▸ t))⟩
  · have a := hs t
    have b := gs ((h9 t).1 ▸ t)
    exact ⟨b.1.trans a.1, b.2.1.trans a.2.1, b.2.2.trans a.2.2⟩

theorem State.advancesTo_refl (s : State) : s.advancesTo s :=
  ⟨fun _ j h => ⟨j, h, j.advancesTo_refl⟩⟩

theorem State.advancesTo.trans {s t u : State} (h : s.advancesTo t) (g : t.advancesTo u) : s.advancesTo u := by
  refine ⟨fun k j e => ?_⟩
  obtain ⟨x, hx, a⟩ := h.jobs k j e
  obtain ⟨y, hy, b⟩ := g.jobs k x hx
  exact ⟨y, hy, a.trans b⟩

theorem State.advancesTo_of_jobs {s t : State} (h : t.jobs = s.jobs) : s.advancesTo t := by
  refine ⟨fun k j e => ?_⟩
  exact ⟨j, by rw [State.job?_congr h]; exact e, j.advancesTo_refl⟩

/-- An advance, then a change of nothing in the Job Table. -/
theorem State.advancesTo.andJobs {s t u : State} (h : s.advancesTo t) (g : u.jobs = t.jobs) : s.advancesTo u :=
  h.trans (State.advancesTo_of_jobs g)

/-- A change of nothing in the Job Table, then an advance. -/
theorem State.advancesTo.afterJobs {s t u : State} (h : t.advancesTo u) (g : t.jobs = s.jobs) : s.advancesTo u :=
  (State.advancesTo_of_jobs g).trans h

/-- A fold of operations that each advance. -/
theorem foldl_advances {β : Type} (g : State → β → State) (h : ∀ (s : State) b, s.advancesTo (g s b)) (l : List β) (s : State) :
    s.advancesTo (l.foldl g s) := by
  induction l generalizing s with
  | nil => exact s.advancesTo_refl
  | cons b rest ih => exact (h s b).trans (ih _)

/-! ## Changes of a job and of a leg -/

variable (s : State)

theorem modJob_advances (h : Fin 64) (g : Job → Job) (hg : ∀ j, s.job? h = some j → j.advancesTo (g j)) :
    s.advancesTo (s.modJob h g) := by
  refine ⟨fun k j e => ?_⟩
  rw [State.job?_modJob]
  split
  · next heq => subst heq; rw [e]; exact ⟨g j, rfl, hg j e⟩
  · exact ⟨j, e, j.advancesTo_refl⟩

/-- A change of a job's legs alone. -/
theorem Job.advancesTo_legs (j : Job) (f : List Leg) (hl : f.length = j.legs.length)
    (hf : ∀ (n : Nat) (l : Leg), j.legs[n]? = some l →
      ∃ m, f[n]? = some m ∧ l.advancesTo m ∧ (j.state.terminal = true → l.countsStand m)) : j.advancesTo { j with legs := f } :=
  ⟨rfl, rfl, rfl, rfl, rfl, rfl, rfl, Nat.le_refl _, fun _ => ⟨rfl, rfl, rfl⟩, fun _ => rfl, fun _ => rfl, Nat.le_refl _,
    Nat.le_refl _, Nat.le_refl _, hl, hf, fun _ => ⟨rfl, rfl, rfl⟩⟩

/-- A change of one leg that advances it, and leaves its counts alone if the job is terminal. -/
theorem modLeg_advances_of (r : LegRef) (g : Leg → Leg)
    (hg : ∀ j l, s.job? r.job = some j → s.leg? r = some l → l.advancesTo (g l) ∧ (j.state.terminal = true → l.countsStand (g l))) :
    s.advancesTo (s.modLeg r g) := by
  refine modJob_advances s r.job _ fun j hj => Job.advancesTo_legs j _ (by simp) fun n l hn => ?_
  rw [List.getElem?_modify]
  split
  · next e =>
    subst e
    rw [hn]
    refine ⟨g l, rfl, hg j l hj ?_⟩
    unfold State.leg?
    rw [hj]
    exact hn
  · rw [hn]
    exact ⟨l, rfl, l.advancesTo_refl, fun _ => l.countsStand_refl⟩

theorem modLeg_advances (r : LegRef) (g : Leg → Leg) (hg : ∀ l, s.leg? r = some l → l.advancesTo (g l))
    (hc : ∀ l : Leg, l.countsStand (g l) := by exact fun _ => ⟨rfl, rfl, rfl, rfl⟩) : s.advancesTo (s.modLeg r g) :=
  modLeg_advances_of s r g fun _ l _ hl => ⟨hg l hl, fun _ => hc l⟩

/-- A change of one leg's counts that advances it, unless its job is terminal. -/
theorem countLeg_advances (r : LegRef) (g : Leg → Leg) (hg : ∀ l : Leg, l.advancesTo (g l)) : s.advancesTo (s.countLeg r g) := by
  refine modJob_advances s r.job _ fun j _ => ?_
  dsimp only
  split
  · exact j.advancesTo_refl
  · next ht =>
    refine Job.advancesTo_legs j _ (by simp) fun n l hn => ?_
    rw [List.getElem?_modify, hn]
    refine ⟨_, rfl, ?_, fun t => absurd t ht⟩
    split
    · exact hg l
    · exact l.advancesTo_refl

theorem Leg.advancesTo_end (l : Leg) (x : LegState) (c : Option LegCause) (f : Option Tick) (hx : x.terminal = true) :
    l.advancesTo (if l.state.terminal then l else { l with state := x, cause := c, finished := f }) := by
  split
  · exact l.advancesTo_refl
  · next h =>
    refine ⟨rfl, rfl, ?_, fun t => absurd t h, fun _ => rfl, fun _ => rfl, Nat.le_refl _, Nat.le_refl _, Nat.le_refl _, Nat.le_refl _⟩
    have := (LegState.terminal_iff_rank x).mp hx
    have : l.state.rank ≤ 4 := by cases l.state <;> simp [LegState.rank]
    simp only
    omega

theorem endLeg_advances (r : LegRef) (x : LegState) (c : Option LegCause) (hx : x.terminal = true) :
    s.advancesTo (s.endLeg r x c) :=
  modLeg_advances s r _ (fun l _ => Leg.advancesTo_end l x c _ hx) fun l => by
    split <;> exact ⟨rfl, rfl, rfl, rfl⟩

theorem abandonLegs_advances (h : Fin 64) : s.advancesTo (s.abandonLegs h) := by
  refine modJob_advances s h _ fun j _ => Job.advancesTo_legs j _ (by simp) fun n l hn => ?_
  rw [List.getElem?_map, hn]
  refine ⟨_, rfl, ?_⟩
  dsimp only
  split
  · exact ⟨l.advancesTo_refl, fun _ => l.countsStand_refl⟩
  · next ht =>
    refine ⟨⟨rfl, rfl, ?_, fun t => absurd t ht, fun _ => rfl, fun _ => rfl, Nat.le_refl _, Nat.le_refl _, Nat.le_refl _, Nat.le_refl _⟩,
      fun _ => ⟨rfl, rfl, rfl, rfl⟩⟩
    cases l.state <;> simp [LegState.rank]

/-- A change that leaves everything a record's advance looks at. -/
theorem Job.advancesTo_of {j k : Job} (h1 : k.port = j.port) (h2 : k.identity = j.identity) (h3 : k.length = j.length)
    (h4 : k.runs = j.runs) (h5 : k.required = j.required) (h6 : k.expected = j.expected) (h7 : k.loadedAt = j.loadedAt)
    (h8 : j.state.rank ≤ k.state.rank)
    (h9 : j.state.terminal = true → k.state = j.state ∧ k.cause = j.cause ∧ k.finishedAt = j.finishedAt)
    (ha : j.state ≠ .loaded → k.startedAt = j.startedAt) (hb : 2 ≤ j.state.rank → k.arrivedAllAt = j.arrivedAllAt)
    (h10 : j.requested ≤ k.requested) (h11 : j.arrived ≤ k.arrived) (h12 : k.legs = j.legs) (hd : j.ingest.next ≤ k.ingest.next)
    (hs : j.state.terminal = true → k.requested = j.requested ∧ k.arrived = j.arrived ∧ k.ingest = j.ingest) : j.advancesTo k :=
  ⟨h1, h2, h3, h4, h5, h6, h7, h8, h9, ha, hb, h10, h11, hd, by rw [h12],
    fun _ l e => ⟨l, by rw [h12]; exact e, l.advancesTo_refl, fun _ => l.countsStand_refl⟩, hs⟩

theorem Job.rank_le (j : Job) : j.state.rank ≤ 3 := by
  cases j.state <;> simp [JobState.rank]

theorem finishJob_advances (h : Fin 64) (o : JobState) (c : Option JobCause) (ho : o.terminal = true) :
    s.advancesTo (s.finishJob h o c) := by
  unfold State.finishJob
  split
  · exact s.advancesTo_refl
  · next j hj =>
    split
    · exact s.advancesTo_refl
    · next ht =>
      have : s.advancesTo (s.modJob h fun j => { j with state := o, cause := c, finishedAt := some s.now }) := by
        refine modJob_advances s h _ fun k hk => ?_
        cases hj.symm.trans hk
        have e := (JobState.terminal_iff_rank o).mp ho
        have := Job.rank_le j
        exact Job.advancesTo_of rfl rfl rfl rfl rfl rfl rfl (by simp only; omega) (fun t => absurd t ht) (fun _ => rfl)
          (fun _ => rfl) (Nat.le_refl _) (Nat.le_refl _) rfl (Nat.le_refl _) (fun _ => ⟨rfl, rfl, rfl⟩)
      dsimp only
      split
      · exact this.trans (State.advancesTo_of_jobs rfl)
      · exact this

theorem dropReading_advances (h : Fin 64) : s.advancesTo (s.dropReading h) := by
  unfold State.dropReading
  repeat' (first | exact State.advancesTo_of_jobs rfl | split)

theorem withdrawVerify_jobs (d : Fin 6) (h : Fin 64) : (s.withdrawVerify d h).jobs = s.jobs := by
  unfold State.withdrawVerify
  repeat' (first | rfl | split | dsimp only)

theorem teardown_advances (h : Fin 64) (o : JobState) (c : JobCause) (ho : o.terminal = true) :
    s.advancesTo (s.teardown h o c) := by
  unfold State.teardown
  dsimp only
  refine State.advancesTo.trans ?_ (State.advancesTo_of_jobs (foldl_keeps State.jobs _ (fun s d => withdrawVerify_jobs s d h) _ _))
  refine State.advancesTo.trans ?_
    (State.advancesTo_of_jobs (foldl_keeps State.jobs (fun s t => s.modWriter t fun w => w.withdraw h) (fun _ _ => rfl) _ _))
  exact (((finishJob_advances s h o _ ho).trans (abandonLegs_advances _ h)).trans (dropReading_advances _ h)).andJobs rfl

theorem tearJob_advances (h : Fin 64) (o : JobState) (c : JobCause) (ho : o.terminal = true) :
    s.advancesTo (s.tearJob h o c).1 := by
  unfold State.tearJob
  split
  · exact s.advancesTo_refl
  · split
    · exact s.advancesTo_refl
    · dsimp only
      exact teardown_advances s h o c ho

theorem dropLeg_advances (h : Fin 64) (t : Target) (x : LegState) (c : Option LegCause) (hx : x.terminal = true) :
    s.advancesTo (s.dropLeg h t x c) := by
  unfold State.dropLeg
  split
  · exact s.advancesTo_refl
  · next r _ =>
    split
    · exact (endLeg_advances s r x c hx).trans (State.advancesTo_of_jobs rfl)
    · split
      · split
        · exact (endLeg_advances s r x c hx).trans (State.advancesTo_of_jobs (withdrawVerify_jobs _ _ _))
        · exact endLeg_advances s r x c hx
      · exact s.advancesTo_refl

theorem compareLeg_advances (d : Fin 6) (r : LegRef) : s.advancesTo (s.compareLeg d r).1 := by
  unfold State.compareLeg
  split
  · split
    · split
      · refine (endLeg_advances s r _ none ?_).trans (State.advancesTo_of_jobs rfl)
        split <;> rfl
      · exact s.advancesTo_refl
    · exact s.advancesTo_refl
  · exact s.advancesTo_refl

theorem verifyFinal_advances (d : Fin 6) (r : LegRef) : s.advancesTo (s.verifyFinal d r).1 := by
  unfold State.verifyFinal
  split
  · exact s.advancesTo_refl
  · next j hj =>
    split
    · exact s.advancesTo_refl
    · next ht =>
      refine State.advancesTo.trans (modLeg_advances_of s r _ fun k l hk _ => ⟨?_, fun t => ?_⟩) (compareLeg_advances _ d r)
      · exact ⟨rfl, rfl, Nat.le_refl _, fun _ => ⟨rfl, rfl, rfl⟩, fun _ => rfl, fun _ => rfl, Nat.le_refl _, Nat.le_refl _, Nat.le_refl _,
          Nat.le_refl _⟩
      · cases hj.symm.trans hk
        exact absurd t ht

theorem activateHead_advances (d : Fin 6) : s.advancesTo (s.activateHead d).1 := by
  unfold State.activateHead
  split
  · exact s.advancesTo_refl
  · next r _ _ =>
    split
    · next l j hl _ =>
      split
      · next hw =>
        have : s.advancesTo (s.modLeg r fun l => { l with state := .verifying }) := by
          refine modLeg_advances s r _ fun m hm => ?_
          cases hl.symm.trans hm
          refine ⟨rfl, rfl, ?_, fun t => ?_, fun _ => rfl, fun _ => rfl, Nat.le_refl _, Nat.le_refl _, Nat.le_refl _, Nat.le_refl _⟩
          · rw [hw]; simp [LegState.rank]
          · rw [hw] at t; cases t
        dsimp only
        split
        · exact this.trans (verifyFinal_advances _ d r)
        · exact this
      · exact s.advancesTo_refl
    · exact s.advancesTo_refl

theorem legWritten_advances (r : LegRef) (hr : ∀ l, s.leg? r = some l → l.state = .writing) :
    s.advancesTo (s.legWritten r).1 := by
  unfold State.legWritten
  split
  · exact s.advancesTo_refl
  · have : s.advancesTo (s.modLeg r fun l => { l with state := .written, written := some s.now }) := by
      refine modLeg_advances s r _ fun m hm => ?_
      have hw := hr m hm
      refine ⟨rfl, rfl, ?_, fun t => ?_, fun _ => rfl, fun w => absurd w (by rw [hw]; decide), Nat.le_refl _, Nat.le_refl _, Nat.le_refl _,
        Nat.le_refl _⟩
      · rw [hw]; simp [LegState.rank]
      · rw [hw] at t; cases t
    dsimp only
    split
    · exact this.trans (State.advancesTo_of_jobs rfl)
    · exact this.trans (endLeg_advances _ r _ _ rfl)

theorem writtenIfWriting_advances (r : LegRef) : s.advancesTo (s.writtenIfWriting r).1 := by
  unfold State.writtenIfWriting
  split
  · next l hl =>
    split
    · next hw => exact legWritten_advances s r fun m hm => by cases hl.symm.trans hm; exact hw
    · exact s.advancesTo_refl
  · exact s.advancesTo_refl

theorem placeLeg_advances (r : LegRef) : s.advancesTo (s.placeLeg r) := by
  unfold State.placeLeg
  split
  · next l j hl hj =>
    have hw : ∀ (s' : State), s'.jobs = s.jobs → l.state = .idle → ∀ b,
        s'.advancesTo (s'.modLeg r fun l => { l with state := .writing, base := some b }) := by
      intro s' hs' hi b
      refine modLeg_advances s' r _ fun m hm => ?_
      have hm' : s.leg? r = some m := by
        unfold State.leg? at *
        rwa [State.job?_congr hs'] at hm
      cases hl.symm.trans hm'
      refine ⟨rfl, rfl, ?_, fun t => ?_, fun n => absurd hi n, fun _ => rfl, Nat.le_refl _, Nat.le_refl _, Nat.le_refl _,
        Nat.le_refl _⟩
      · rw [hi]; simp [LegState.rank]
      · rw [hi] at t; cases t
    split
    · exact s.advancesTo_refl
    · next hi =>
      have hi : l.state = .idle := by simpa using hi
      split
      · split
        · exact hw s rfl hi 0
        · dsimp only
          split
          · next d _ _ b _ =>
            exact (hw (s.modDrive d fun _ => ((s.drives[d.val]).place j.blocks).1) rfl hi b).afterJobs rfl
          · exact (endLeg_advances _ r _ _ rfl).afterJobs rfl
      · exact endLeg_advances s r _ _ rfl
  · exact s.advancesTo_refl

/-! ## Starts, tests, finalisation -/

theorem modLeg_state (r : LegRef) (g : Leg → Leg) (h : Fin 64) :
    ((s.modLeg r g).job? h).map Job.state = (s.job? h).map Job.state := by
  unfold State.modLeg
  rw [State.job?_modJob]
  split
  · next e => subst e; rw [Option.map_map]; rfl
  · rfl

theorem placeLeg_state (r : LegRef) (h : Fin 64) : ((s.placeLeg r).job? h).map Job.state = (s.job? h).map Job.state := by
  unfold State.placeLeg
  split
  · split
    · rfl
    · split
      · split
        · exact modLeg_state s r _ h
        · dsimp only
          split
          · rw [modLeg_state]; rfl
          · unfold State.endLeg; rw [modLeg_state]; rfl
      · exact modLeg_state s r _ h
  · rfl

theorem eachLeg_advances (g : State → LegRef → State × List Todo) (hg : ∀ (s : State) r, s.advancesTo (g s r).1)
    (l : List LegRef) (s : State) : s.advancesTo (eachLeg g l s).1 := by
  induction l generalizing s with
  | nil => exact s.advancesTo_refl
  | cons r rest ih => exact (hg s r).trans (ih _)

/-- A job that has not ended changes its state for a later one. -/
theorem Job.advancesTo_state (j : Job) (x : JobState) (a : Option Tick) (hx : j.state.rank ≤ x.rank) (ht : j.state.rank < 2) :
    j.advancesTo { j with state := x, arrivedAllAt := a } :=
  Job.advancesTo_of rfl rfl rfl rfl rfl rfl rfl hx (fun t => by rw [JobState.terminal_iff_rank] at t; omega) (fun _ => rfl)
    (fun t => by omega) (Nat.le_refl _) (Nat.le_refl _) rfl (Nat.le_refl _) (fun _ => ⟨rfl, rfl, rfl⟩)

theorem startJob_advances (i : Fin 8) (h : Fin 64) (hl : (s.job? h).map Job.state = some .loaded) :
    s.advancesTo (s.startJob i h).1 := by
  unfold State.startJob
  dsimp only
  generalize hs1 : ((s.modIngest i fun p => { p with lineUp := p.lineUp.tail }).modJob h fun j => { j with startedAt := some s.now }) = s1
  have a1 : s.advancesTo s1 := by
    rw [← hs1]
    refine (modJob_advances (s.modIngest i _) h _ fun j hj => ?_).afterJobs rfl
    have e : j.state = .loaded := by
      have hj : s.job? h = some j := hj
      rw [hj] at hl
      simpa using hl
    exact Job.advancesTo_of rfl rfl rfl rfl rfl rfl rfl (Nat.le_refl _) (fun _ => ⟨rfl, rfl, rfl⟩) (fun n => absurd e n)
      (fun _ => rfl) (Nat.le_refl _) (Nat.le_refl _) rfl (Nat.le_refl _) (fun _ => ⟨rfl, rfl, rfl⟩)
  have e1 : (s1.job? h).map Job.state = some .loaded := by
    rw [← hs1, State.job?_modJob, if_pos rfl, Option.map_map]
    exact hl
  generalize hs2 : (s1.legRefs h).foldl State.placeLeg s1 = s2
  have a2 : s.advancesTo s2 := hs2 ▸ a1.trans (foldl_advances State.placeLeg placeLeg_advances _ _)
  have e2 : (s2.job? h).map Job.state = some .loaded := by
    rw [← hs2, foldl_keeps (fun s => (s.job? h).map Job.state) _ (fun s r => placeLeg_state s r h)]
    exact e1
  have toState : ∀ (x : JobState) (a : Job → Option Tick), 1 ≤ x.rank →
      s2.advancesTo (s2.modJob h fun j => { j with state := x, arrivedAllAt := a j }) := by
    intro x a hx
    refine modJob_advances s2 h _ fun j hj => ?_
    rw [hj] at e2
    have e : j.state = .loaded := by simpa using e2
    exact Job.advancesTo_state j x _ (by rw [e]; exact Nat.zero_le _) (by rw [e]; decide)
  split
  · exact a2
  · split
    · exact a2.trans (finishJob_advances s2 h _ _ rfl)
    · split
      · exact (a2.trans (toState .settling _ (by decide))).trans (eachLeg_advances _ writtenIfWriting_advances _ _)
      · exact (a2.trans (toState .reading Job.arrivedAllAt (by decide))).andJobs rfl

theorem testStart_advances (i : Fin 8) : s.advancesTo (s.testStart i).1 := by
  unfold State.testStart
  split
  · split
    · next j hj =>
      split
      · next e => exact startJob_advances s i _ (by rw [hj, Option.map_some, e])
      · exact s.advancesTo_refl
    · exact s.advancesTo_refl
  · exact s.advancesTo_refl

theorem testJob_advances (h : Fin 64) : s.advancesTo (s.testJob h).1 := by
  unfold State.testJob
  split
  · exact s.advancesTo_refl
  · split
    · split
      · exact tearJob_advances s h _ _ rfl
      · split
        · split
          · exact finishJob_advances s h _ _ rfl
          · exact finishJob_advances s h _ _ rfl
        · exact s.advancesTo_refl
    · exact s.advancesTo_refl

theorem compareWaiting_advances (r : LegRef) : s.advancesTo (s.compareWaiting r) := by
  unfold State.compareWaiting
  split
  · split
    · exact compareLeg_advances s _ r
    · exact s.advancesTo_refl
  · exact s.advancesTo_refl

/-- A change of what a record's advance does not look at, or of the counts of a job that is not terminal. -/
theorem modJob_advances_of (h : Fin 64) (g : Job → Job)
    (hg : ∀ j, s.job? h = some j → (g j).port = j.port ∧ (g j).identity = j.identity ∧ (g j).length = j.length ∧ (g j).runs = j.runs ∧
      (g j).required = j.required ∧ (g j).expected = j.expected ∧ (g j).loadedAt = j.loadedAt ∧ (g j).state = j.state ∧
      (g j).cause = j.cause ∧ (g j).finishedAt = j.finishedAt ∧ (g j).startedAt = j.startedAt ∧
      (g j).arrivedAllAt = j.arrivedAllAt ∧ j.requested ≤ (g j).requested ∧ j.arrived ≤ (g j).arrived ∧
      (g j).legs = j.legs ∧ j.ingest.next ≤ (g j).ingest.next ∧
      (j.state.terminal = true → (g j).requested = j.requested ∧ (g j).arrived = j.arrived ∧ (g j).ingest = j.ingest)) :
    s.advancesTo (s.modJob h g) := by
  refine modJob_advances s h g fun j hj => ?_
  obtain ⟨h1, h2, h3, h4, h5, h6, h7, h8, h9, h10, ha, hb, h11, h12, h13, h14, h15⟩ := hg j hj
  exact Job.advancesTo_of h1 h2 h3 h4 h5 h6 h7 (by rw [h8]) (fun _ => ⟨h8, h9, h10⟩) (fun _ => ha) (fun _ => hb) h11 h12 h13 h14 h15

theorem ingestFinalised_advances (h : Fin 64) : s.advancesTo (s.ingestFinalised h).1 := by
  unfold State.ingestFinalised
  split
  · exact s.advancesTo_refl
  · next j hj =>
    split
    · exact s.advancesTo_refl
    · next ht =>
      have : s.advancesTo (s.modJob h fun j => { j with ingest := finalise j.ingest j.length }) :=
        modJob_advances_of s h _ fun k hk => by
          cases hj.symm.trans hk
          simp [finalise, ht]
      dsimp only
      split
      · exact this.trans (foldl_advances State.compareWaiting compareWaiting_advances _ _)
      · exact this.trans (tearJob_advances _ h _ _ rfl)

theorem perform_advances (x : Todo) : s.advancesTo (s.perform x).1 := by
  cases x with
  | activate d => exact activateHead_advances s d
  | test h => exact testJob_advances s h
  | ingestFinal h => exact ingestFinalised_advances s h
  | start i => exact testStart_advances s i

theorem cascade_advances (l : List Todo) : s.advancesTo (s.cascade l) :=
  run_inv (fun t => s.advancesTo t) (fun t x h => h.trans (perform_advances t x)) _ l s s.advancesTo_refl

theorem cascadeOf_advances (out : State × List Todo) : out.1.advancesTo (cascadeOf out) :=
  cascade_advances out.1 out.2

/-! ## The grants and the end of an event -/

theorem grantIngest_advances (i : Fin 8) : s.advancesTo (s.grantIngest i) := by
  unfold State.grantIngest
  split
  · split
    · exact s.advancesTo_refl
    · next h k _ _ _ j _ =>
      have : s.advancesTo ((s.reserve h j.requested (.ingest j.writingTargets)).count h fun j => { j with requested := j.requested + 1 }) :=
        (modJob_advances_of (s.reserve h _ _) _ _ fun j _ => by split <;> simp_all).afterJobs rfl
      exact this.andJobs rfl
  · exact s.advancesTo_refl

theorem grantVerify_advances (d : Fin 6) : s.advancesTo (s.grantVerify d) := by
  unfold State.grantVerify
  repeat' (first | exact State.advancesTo_of_jobs rfl | split)

theorem grant_advances (r : Requester) : s.advancesTo (s.grant r) := by
  cases r with
  | ingest i => exact (grantIngest_advances s i).andJobs rfl
  | verify d => exact (grantVerify_advances s d).andJobs rfl

theorem handOn_advances (k : Nat) : s.advancesTo (State.handOn k s) := by
  induction k generalizing s with
  | zero => exact State.advancesTo_of_jobs rfl
  | succ k ih =>
    simp only [State.handOn]
    split
    · exact State.advancesTo_of_jobs rfl
    · split
      · exact State.advancesTo_of_jobs rfl
      · exact ((grant_advances s.lapse _).trans (ih _)).afterJobs rfl

theorem serveNew_advances (k : Nat) : s.advancesTo (State.serveNew k s) := by
  induction k generalizing s with
  | zero => exact State.advancesTo_of_jobs rfl
  | succ k ih =>
    simp only [State.serveNew]
    split
    · exact State.advancesTo_of_jobs rfl
    · split
      · exact State.advancesTo_of_jobs rfl
      · exact (grant_advances s _).trans (ih _)

/-- A leg's counts rise. -/
theorem modCounts_advances (r : LegRef) (a b c : Nat) :
    s.advancesTo (s.countLeg r fun l => { l with sent := l.sent + a, acked := l.acked + b, checked := l.checked + c }) :=
  countLeg_advances s r _ fun _ =>
    ⟨rfl, rfl, Nat.le_refl _, fun _ => ⟨rfl, rfl, rfl⟩, fun _ => rfl, fun _ => rfl, Nat.le_add_right _ _, Nat.le_add_right _ _,
      Nat.le_add_right _ _, Nat.le_refl _⟩

theorem issueWrite_advances (t : Target) : s.advancesTo (s.issueWrite t) := by
  unfold State.issueWrite
  dsimp only
  split
  · split
    · exact State.advancesTo_of_jobs rfl
    · exact State.advancesTo_of_jobs rfl
  · split
    · split
      · exact ((modCounts_advances _ _ 1 0 0).afterJobs rfl).andJobs rfl
      · exact State.advancesTo_of_jobs rfl
    · exact s.advancesTo_refl

theorem issueCheck_advances (d : Fin 6) : s.advancesTo (s.issueCheck d) := by
  unfold State.issueCheck
  dsimp only
  split
  · split
    · exact State.advancesTo_of_jobs rfl
    · exact State.advancesTo_of_jobs rfl
  · split
    · split
      · exact ((modCounts_advances _ _ 0 0 1).afterJobs rfl).andJobs rfl
      · exact State.advancesTo_of_jobs rfl
    · exact s.advancesTo_refl

theorem arbitrate_advances (d : Fin 6) : s.advancesTo (s.arbitrate d) := by
  unfold State.arbitrate
  split
  · exact s.advancesTo_refl
  · split
    · exact s.advancesTo_refl
    · exact (issueWrite_advances _ _).afterJobs rfl
    · exact (issueCheck_advances _ _).afterJobs rfl

theorem transmit_advances : s.advancesTo s.transmit := by
  unfold State.transmit
  split
  · split
    · exact s.advancesTo_refl
    · next c _ =>
      cases c with
      | response => simp only [State.sendFrom]; split <;> exact State.advancesTo_of_jobs rfl
      | notice => simp only [State.sendFrom]; split <;> exact State.advancesTo_of_jobs rfl
      | sink => exact (issueWrite_advances _ _).afterJobs rfl
  · exact s.advancesTo_refl

theorem noteWork_jobs : s.noteWork.jobs = s.jobs := by
  unfold State.noteWork
  apply foldl_keeps State.jobs
  intro _ _
  rfl

theorem settle_advances : s.advancesTo s.settle := by
  unfold State.settle
  dsimp only
  refine State.advancesTo.andJobs ?_ (noteWork_jobs _)
  exact ((((handOn_advances s _).trans (serveNew_advances _ _)).trans (foldl_advances State.arbitrate arbitrate_advances _ _)).trans
    (serveNew_advances _ _)).trans (transmit_advances _)

theorem announce_advances : s.advancesTo s.announce := by
  unfold State.announce
  refine foldl_advances State.announceJob (fun s h => ?_) _ _
  rcases announceJob_cases s h with e | ⟨j, -, -, -, e⟩ <;> rw [e]
  · exact s.advancesTo_refl
  · exact (modJob_advances_of s h (fun j => { j with announced := true }) fun j _ => ⟨rfl, rfl, rfl, rfl, rfl, rfl, rfl, rfl, rfl, rfl, rfl, rfl, Nat.le_refl _,
      Nat.le_refl _, rfl, Nat.le_refl _, fun _ => ⟨rfl, rfl, rfl⟩⟩).andJobs rfl

theorem relamp_jobs : s.relamp.jobs = s.jobs := by
  unfold State.relamp
  apply foldl_keeps State.jobs
  intro _ _
  rfl

theorem close_advances : s.advancesTo s.close :=
  ((announce_advances s).andJobs (relamp_jobs _)).trans (settle_advances _)

end Sys2Proof.Machine
end

