-- ==== Sys2Proof/Laws/Close.lean ====
section
/-! SUPPORT. What the end of an event may do (`State.settlesTo`): each grant, each notice and each lamp, and so `State.settle` and
`State.close` as wholes. -/

namespace Sys2Proof.Machine

/-! ## The relations are preorders -/

theorem Leg.issuesTo.refl (l : Leg) : l.issuesTo l :=
  ⟨rfl, Nat.le_refl _, Nat.le_refl _⟩

theorem Leg.issuesTo.trans {l m n : Leg} (h : l.issuesTo m) (g : m.issuesTo n) : l.issuesTo n := by
  obtain ⟨a, b, c⟩ := h
  obtain ⟨d, e, f⟩ := g
  refine ⟨?_, b.trans e, c.trans f⟩
  rw [d, a]

theorem Job.issuesTo.refl (j : Job) : j.issuesTo j :=
  ⟨rfl, Nat.le_refl _, fun h => h, rfl, fun _ l h => ⟨l, h, .refl l⟩⟩

theorem Job.issuesTo.trans {j k m : Job} (h : j.issuesTo k) (g : k.issuesTo m) : j.issuesTo m := by
  obtain ⟨a1, a2, a3, a4, a5⟩ := h
  obtain ⟨b1, b2, b3, b4, b5⟩ := g
  refine ⟨?_, a2.trans b2, fun t => b3 (a3 t), b4.trans a4, fun n l e => ?_⟩
  · rw [b1, a1]
  · obtain ⟨x, hx, r⟩ := a5 n l e
    obtain ⟨y, hy, q⟩ := b5 n x hx
    exact ⟨y, hy, r.trans q⟩

theorem ReadTag.issuesTo.trans {n : Tick} {f g h : ReadTag} (a : f.issuesTo n g) (b : g.issuesTo n h) : f.issuesTo n h := by
  rcases a with a | ⟨a, j, i, x, e⟩
  · rw [← a]; exact b
  · rcases b with b | ⟨b, _⟩
    · exact .inr ⟨a, j, i, x, b.trans e⟩
    · rw [e] at b; cases b

theorem IngestPort.issuesTo.refl (n : Tick) (p : IngestPort) : p.issuesTo n p :=
  ⟨rfl, fun _ => .inl rfl⟩

theorem IngestPort.issuesTo.trans {n : Tick} {p q r : IngestPort} (a : p.issuesTo n q) (b : q.issuesTo n r) : p.issuesTo n r := by
  refine ⟨?_, fun k => (a.tags k).trans (b.tags k)⟩
  rw [b.rest, a.rest]

theorem Writer.issuesTo.refl (w : Writer) : w.issuesTo w :=
  ⟨rfl, List.suffix_refl _, List.suffix_refl _, fun _ _ _ => rfl⟩

theorem Writer.issuesTo.trans {u v w : Writer} (a : u.issuesTo v) (b : v.issuesTo w) : u.issuesTo w := by
  refine ⟨?_, b.queue.trans a.queue, b.retry.trans a.retry, fun k hk hr => ?_⟩
  · rw [b.rest, a.rest]
  · have e := a.tags k hk hr
    rw [← e]
    exact b.tags k (by rw [e]; exact hk) fun h => hr (a.retry.subset h)

theorem VerifyReader.issuesTo.refl (w : VerifyReader) : w.issuesTo w :=
  ⟨rfl, List.suffix_refl _, fun _ _ _ => rfl⟩

theorem VerifyReader.issuesTo.trans {u v w : VerifyReader} (a : u.issuesTo v) (b : v.issuesTo w) : u.issuesTo w := by
  refine ⟨b.work.trans a.work, b.retry.trans a.retry, fun k hk hr => ?_⟩
  have e := a.tags k hk hr
  rw [← e]
  exact b.tags k (by rw [e]; exact hk) fun h => hr (a.retry.subset h)

theorem TargetArbiter.issuesTo.refl (a : TargetArbiter) : a.issuesTo a :=
  ⟨fun _ => rfl, rfl, rfl⟩

theorem TargetArbiter.issuesTo.trans {a b c : TargetArbiter} (h : a.issuesTo b) (g : b.issuesTo c) : a.issuesTo c := by
  refine ⟨fun t => ?_, g.2.1.trans h.2.1, g.2.2.trans h.2.2⟩
  have e := h.1 t
  rw [e] at g
  exact g.1 t

theorem Window.issuesTo.refl (w : Window) : w.issuesTo w :=
  ⟨rfl, Nat.min_le_left _ _, fun h => h⟩

theorem Window.issuesTo.trans {u v w : Window} (h : u.issuesTo v) (g : v.issuesTo w) : u.issuesTo w := by
  refine ⟨?_, ?_, fun t => g.2.2 (h.2.2 t)⟩
  · rw [g.1, h.1]
  · have := h.2.1
    have := g.2.1
    omega

theorem LinkPort.issuesTo.refl (l : LinkPort) : l.issuesTo l :=
  ⟨rfl, List.prefix_refl _⟩

theorem LinkPort.issuesTo.trans {l m n : LinkPort} (h : l.issuesTo m) (g : m.issuesTo n) : l.issuesTo n := by
  refine ⟨?_, h.2.trans g.2⟩
  rw [g.1, h.1]

theorem State.slotsIssueTo.trans {s t u : State} (h : s.slotsIssueTo t) (g : t.slotsIssueTo u) : s.slotsIssueTo u := by
  intro ok
  obtain ⟨a1, a2, a3⟩ := h ok
  obtain ⟨b1, b2, b3⟩ := g a1
  refine ⟨b1, fun n x e => b2 n x (a2 n x e), fun n x e => ?_⟩
  rcases b3 n x e with c | c
  · exact a3 n x c
  · exact .inr c

theorem State.slotsIssueTo.of_slots {s t : State} (h : t.slots = s.slots) : s.slotsIssueTo t := by
  intro ok
  unfold State.poolOk at *
  refine ⟨by rw [h]; exact ok, fun n x e => ?_, fun n x e => .inl ?_⟩
  · rw [State.slot?_congr h]; exact e
  · rw [State.slot?_congr h] at e; exact e

theorem Handler.hands.nil (q : Handler) : q.hands [] q :=
  ⟨by simp, by simp⟩

theorem Handler.hands.append {q r u : Handler} {l m : List Notice} (a : q.hands l r) (b : r.hands m u) : q.hands (l ++ m) u := by
  obtain ⟨a1, a2⟩ := a
  obtain ⟨b1, b2⟩ := b
  have room : 32 - r.notices.length = 32 - q.notices.length - l.length := by
    rw [a1, List.length_append, List.length_take]
    omega
  refine ⟨?_, ?_⟩
  · rw [b1, room, a1, List.append_assoc, List.take_append]
  · rw [b2, a2, room, Bool.or_assoc]
    congr 1
    rw [List.length_append, Bool.eq_iff_iff]
    simp only [Bool.or_eq_true, decide_eq_true_eq]
    omega

theorem notify_hands (s : State) (n : Notice) : s.handler.hands [n] (s.notify n).handler := by
  unfold State.notify State.modHandler Handler.hands
  simp only
  split
  · next h =>
    have h : s.handler.notices.length < 32 := h
    obtain ⟨k, e⟩ : ∃ k, 32 - s.handler.notices.length = k + 1 := ⟨31 - s.handler.notices.length, by omega⟩
    simp [e]
  · next h =>
    have h : ¬ s.handler.notices.length < 32 := h
    have e : 32 - s.handler.notices.length = 0 := by omega
    simp [e]

theorem Job.issuesTo.goodLegs {j k : Job} (h : j.issuesTo k) : k.goodLegs = j.goodLegs := by
  have e : k.legs.map Leg.state = j.legs.map Leg.state := by
    refine List.ext_getElem? fun n => ?_
    rw [List.getElem?_map, List.getElem?_map]
    cases c : j.legs[n]? with
    | none =>
      have : k.legs[n]? = none := by
        rw [List.getElem?_eq_none_iff] at c ⊢
        rw [h.legCount]
        exact c
      rw [this]
    | some l =>
      obtain ⟨m, hm, i⟩ := h.legs n l c
      rw [hm, Option.map_some, Option.map_some, i.1]
  have f (x : Job) : x.goodLegs = ((x.legs.map Leg.state).filter fun y => decide (y = .good)).length := by
    rw [List.filter_map, List.length_map]
    rfl
  rw [f, f, e]

/-- A JOB_FINISHED still owed after part of an event's end was owed before it. -/
theorem owesNotice_of_settled {s t : State} (absent : ∀ h, s.job? h = none → t.job? h = none)
    (job : ∀ h j, s.job? h = some j → ∃ k, t.job? h = some k ∧ j.issuesTo k) {n : Notice} (o : t.owesNotice n) : s.owesNotice n := by
  obtain ⟨h, k, hk, e, f, rfl⟩ := o
  cases c : s.job? h with
  | none => rw [absent h c] at hk; cases hk
  | some j =>
    obtain ⟨m, hm, i⟩ := job h j c
    cases hk.symm.trans hm
    refine ⟨h, j, c, ?_, ?_, ?_⟩
    · rw [i.rest] at e; exact e
    · cases a : j.announced with
      | false => rfl
      | true => rw [i.announced a] at f; cases f
    · rw [i.goodLegs, i.rest]

theorem State.settlesTo.refl (s : State) : s.settlesTo s where
  pins := ⟨rfl, rfl, rfl, rfl⟩
  time := ⟨rfl, rfl⟩
  kept := ⟨rfl, rfl, rfl⟩
  handler := ⟨rfl, rfl⟩
  notices := ⟨[], .nil _, fun _ h => nomatch h⟩
  control := ⟨rfl, rfl, fun _ => rfl⟩
  links _ := .refl _
  lamps _ := rfl
  jobs _ h := h
  job _ j h := ⟨j, h, .refl j⟩
  slots := .of_slots rfl
  ingest _ := .refl _ _
  writers _ := .refl _
  readers _ := .refl _
  sides _ := .refl _
  windows _ := .refl _

theorem State.settlesTo.trans {s t u : State} (a : s.settlesTo t) (b : t.settlesTo u) : s.settlesTo u where
  pins := ⟨b.pins.1.trans a.pins.1, b.pins.2.1.trans a.pins.2.1, b.pins.2.2.1.trans a.pins.2.2.1, b.pins.2.2.2.trans a.pins.2.2.2⟩
  time := ⟨b.time.1.trans a.time.1, b.time.2.trans a.time.2⟩
  kept := ⟨b.kept.1.trans a.kept.1, b.kept.2.1.trans a.kept.2.1, b.kept.2.2.trans a.kept.2.2⟩
  handler := ⟨b.handler.1.trans a.handler.1, b.handler.2.trans a.handler.2⟩
  notices := by
    obtain ⟨l, hl, ol⟩ := a.notices
    obtain ⟨m, hm, om⟩ := b.notices
    exact ⟨l ++ m, hl.append hm, fun n hn => (List.mem_append.mp hn).elim (ol n) fun hn => owesNotice_of_settled a.jobs a.job (om n hn)⟩
  control := by
    refine ⟨b.control.1.trans a.control.1, b.control.2.1.trans a.control.2.1, fun h => ?_⟩
    have e := a.control.2.2 h
    rw [← e] at h ⊢
    exact b.control.2.2 h
  links p := (a.links p).trans (b.links p)
  lamps i := by rw [b.lamps i, a.lamps i]
  jobs h e := b.jobs h (a.jobs h e)
  job h j e := by
    obtain ⟨k, hk, r⟩ := a.job h j e
    obtain ⟨m, hm, q⟩ := b.job h k hk
    exact ⟨m, hm, r.trans q⟩
  slots := a.slots.trans b.slots
  ingest i := by
    have e : s.now = t.now := by unfold State.now; rw [a.time.1]
    exact (a.ingest i).trans (e ▸ b.ingest i)
  writers x := (a.writers x).trans (b.writers x)
  readers d := (a.readers d).trans (b.readers d)
  sides d := (a.sides d).trans (b.sides d)
  windows x := (a.windows x).trans (b.windows x)

theorem foldl_settles {β : Type} (g : State → β → State) (h : ∀ (s : State) b, s.settlesTo (g s b)) (l : List β) (s : State) :
    s.settlesTo (l.foldl g s) := by
  induction l generalizing s with
  | nil => exact .refl s
  | cons b rest ih => exact (h s b).trans (ih _)

/-! ## One change -/

variable (s : State)

theorem modArbiter_settles (g : SlotArbiter → SlotArbiter) : s.settlesTo (s.modArbiter g) :=
  { State.settlesTo.refl s with }

theorem modIngest_settles (i : Fin 8) (g : IngestPort → IngestPort) (hg : (s.ingest[i.val]).issuesTo s.now (g s.ingest[i.val])) :
    s.settlesTo (s.modIngest i g) :=
  { State.settlesTo.refl s with
    ingest := fun k => by
      unfold State.modIngest
      simp only
      rw [setEntry_getElem]
      split
      · next e => subst e; exact hg
      · exact .refl _ _ }

theorem modReader_settles (d : Fin 6) (g : VerifyReader → VerifyReader) (hg : (s.readers[d.val]).issuesTo (g s.readers[d.val])) :
    s.settlesTo (s.modReader d g) :=
  { State.settlesTo.refl s with
    readers := fun k => by
      unfold State.modReader
      simp only
      rw [setEntry_getElem]
      split
      · next e => subst e; exact hg
      · exact .refl _ }

theorem modSides_settles (d : Fin 6) (g : TargetArbiter → TargetArbiter) (hg : (s.sides[d.val]).issuesTo (g s.sides[d.val])) :
    s.settlesTo (s.modSides d g) :=
  { State.settlesTo.refl s with
    sides := fun k => by
      unfold State.modSides
      simp only
      rw [setEntry_getElem]
      split
      · next e => subst e; exact hg
      · exact .refl _ }

theorem modLamp_settles (i : Fin 8) (g : Lamp → Lamp)
    (hg : g s.lamps[i.val] = { s.lamps[i.val] with computed := (g s.lamps[i.val]).computed }) : s.settlesTo (s.modLamp i g) :=
  { State.settlesTo.refl s with
    lamps := fun k => by
      unfold State.modLamp
      simp only
      rw [setEntry_getElem]
      split
      · next e => subst e; exact hg
      · rfl }

theorem modWriter_settles (x : Target) (g : Writer → Writer) (hg : (s.writer x).issuesTo (g (s.writer x))) :
    s.settlesTo (s.modWriter x g) :=
  { State.settlesTo.refl s with
    writers := fun y => by
      rw [State.writer_modWriter]
      split
      · next e => subst e; exact hg
      · exact .refl _ }

theorem modWindow_settles (x : Target) (g : Window → Window) (hg : (s.window x).issuesTo (g (s.window x))) :
    s.settlesTo (s.modWindow x g) :=
  { State.settlesTo.refl s with
    windows := fun y => by
      rw [State.window_modWindow]
      split
      · next e => subst e; exact hg
      · exact .refl _ }

theorem send_settles (p : Port) (f : TxFrame) : s.settlesTo (s.send p f) :=
  { State.settlesTo.refl s with
    links := fun q => by
      unfold State.send
      rw [State.link_modLink]
      split
      · next e => subst e; exact ⟨rfl, List.prefix_append _ _⟩
      · exact .refl _ }

theorem modControl_settles (g : ControlPort → ControlPort) (h1 : (g s.control).unanswered = s.control.unanswered)
    (h2 : (g s.control).responses = s.control.responses) (h3 : s.control.sending = none) : s.settlesTo (s.modControl g) :=
  { State.settlesTo.refl s with control := ⟨h1, h2, fun h => absurd h3 h⟩ }

/-- A notice that an ended job owes is handed over. -/
theorem notify_settles (n : Notice) (hn : s.owesNotice n) : s.settlesTo (s.notify n) := by
  refine { State.settlesTo.refl s with handler := ?_, notices := ⟨[n], notify_hands s n, fun m hm => ?_⟩ }
  · unfold State.notify State.modHandler
    simp only
    split <;> exact ⟨rfl, rfl⟩
  · rw [List.mem_singleton.mp hm]
    exact hn

theorem modJob_settles (h : Fin 64) (g : Job → Job) (hg : ∀ j, s.job? h = some j → j.issuesTo (g j)) : s.settlesTo (s.modJob h g) :=
  { State.settlesTo.refl s with
    jobs := fun k e => by
      rw [State.job?_modJob]
      split
      · next x => subst x; rw [e]; rfl
      · exact e
    job := fun k j e => by
      rw [State.job?_modJob]
      split
      · next x => subst x; rw [e]; exact ⟨g j, rfl, hg j e⟩
      · exact ⟨j, e, .refl j⟩ }

theorem count_settles (h : Fin 64) (g : Job → Job) (hg : ∀ j : Job, j.issuesTo (g j)) : s.settlesTo (s.count h g) :=
  modJob_settles s h _ fun j _ => by
    split
    · exact .refl j
    · exact hg j

theorem countLeg_settles (r : LegRef) (a b : Nat) :
    s.settlesTo (s.countLeg r fun l => { l with sent := l.sent + a, checked := l.checked + b }) := by
  refine count_settles s r.job _ fun j => ⟨rfl, Nat.le_refl _, fun h => h, by simp, fun n l e => ?_⟩
  rw [List.getElem?_modify, e]
  split
  · exact ⟨_, rfl, rfl, Nat.le_add_right _ _, Nat.le_add_right _ _⟩
  · exact ⟨_, rfl, .refl l⟩

theorem insertSlot_find (x : Slot) (l : List Slot) (hn : ∀ y ∈ l, y.num ≠ x.num) (n : Nat) :
    (insertSlot x l).find? (fun y => y.num == n) = if x.num = n then some x else l.find? fun y => y.num == n := by
  induction l with
  | nil => simp only [insertSlot, List.find?_cons, List.find?_nil]; split <;> simp_all
  | cons y rest ih =>
    have hy := hn y (by simp)
    have := ih fun z hz => hn z (by simp [hz])
    simp only [insertSlot]
    split
    · simp only [List.find?_cons]
      split <;> simp_all
    · simp only [List.find?_cons, this]
      split
      · next e => rw [if_neg]; intro h; simp at e; omega
      · rfl

theorem reserve_settles (h : Fin 64) (i : Nat) (k : SlotKind) (hf : s.freeSlots ≠ 0) : s.settlesTo (s.reserve h i k) := by
  refine { State.settlesTo.refl s with slots := ?_ }
  intro ok
  have fresh := freeSlot_spec s ok
  refine ⟨reserve_poolWf s h i k hf ok, fun n x e => ?_, fun n x e => ?_⟩
  · show (insertSlot _ s.slots).find? _ = _
    rw [insertSlot_find _ _ fresh.1]
    split
    · next c =>
      exfalso
      have hx := List.find?_some e
      have hm := List.mem_of_find?_eq_some e
      simp at hx
      have := fresh.1 x hm
      simp only at c
      omega
    · exact e
  · change (insertSlot _ s.slots).find? _ = _ at e
    rw [insertSlot_find _ _ fresh.1] at e
    split at e
    · cases e; exact .inr rfl
    · exact .inl e

/-! ## The grants -/

theorem grantIngest_settles (i : Fin 8) (hf : s.freeSlots ≠ 0) : s.settlesTo (s.grantIngest i) := by
  unfold State.grantIngest
  split
  · next h k _ hk =>
    split
    · exact .refl s
    · next j _ =>
      have free : ((s.ingest[i.val]).tags[k.val]).state = .free := by
        have := List.find?_some hk
        simpa using this
      have a := reserve_settles s h j.requested (.ingest j.writingTargets) hf
      have b := count_settles (s.reserve h j.requested (.ingest j.writingTargets)) h (fun j => { j with requested := j.requested + 1 })
        fun j => ⟨rfl, Nat.le_add_right _ _, fun h => h, rfl, fun _ l e => ⟨l, e, .refl l⟩⟩
      refine (a.trans (b.trans (modIngest_settles _ i _ ⟨rfl, fun m => ?_⟩))).trans (send_settles _ _ _)
      change ((s.ingest[i.val]).tags[m.val]).issuesTo s.now ((setEntry (s.ingest[i.val]).tags k _)[m.val])
      rw [setEntry_getElem]
      split
      · next e => subst e; exact .inr ⟨free, h, j.requested, s.freeSlot, rfl⟩
      · exact .inl rfl
  · exact .refl s

theorem grantVerify_settles (d : Fin 6) (hf : s.freeSlots ≠ 0) : s.settlesTo (s.grantVerify d) := by
  unfold State.grantVerify
  split
  · exact .refl s
  · split
    · exact .refl s
    · next r _ _ _ l _ =>
      exact (reserve_settles s r.job l.checked (.check r.leg) hf).trans
        (modReader_settles _ d _ ⟨rfl, List.suffix_refl _, fun _ _ _ => rfl⟩)

theorem grant_settles (r : Requester) (hf : s.freeSlots ≠ 0) : s.settlesTo (s.grant r) := by
  cases r with
  | ingest i => exact (grantIngest_settles s i hf).trans (modArbiter_settles _ _)
  | verify d => exact (grantVerify_settles s d hf).trans (modArbiter_settles _ _)

theorem handOn_settles (k : Nat) : s.settlesTo (State.handOn k s) := by
  induction k generalizing s with
  | zero =>
    unfold State.handOn
    exact modArbiter_settles s _
  | succ k ih =>
    simp only [State.handOn]
    split
    · exact modArbiter_settles s _
    · next hf =>
      split
      · exact modArbiter_settles s _
      · exact (modArbiter_settles s _).trans ((grant_settles s.lapse _ hf).trans (ih _))

theorem serveNew_settles (k : Nat) : s.settlesTo (State.serveNew k s) := by
  induction k generalizing s with
  | zero =>
    unfold State.serveNew
    exact modArbiter_settles s _
  | succ k ih =>
    simp only [State.serveNew]
    split
    · exact modArbiter_settles s _
    · next hf =>
      split
      · exact modArbiter_settles s _
      · exact (grant_settles s _ hf).trans (ih _)

/-! ## Writes and check reads -/

/-- A write is counted in its window. -/
theorem countUp_issues (w : Window) : w.issuesTo { w with issued := countUp w.issued } :=
  ⟨rfl, by unfold countUp; simp only; omega, fun x => x⟩

/-- Two changes of one writer are one. -/
theorem modWriter_modWriter (t : Target) (f g : Writer → Writer) :
    (s.modWriter t f).modWriter t g = s.modWriter t fun w => g (f w) := by
  unfold State.modWriter
  simp only [setEntry, Vector.getElem_set_self, Vector.set_set]

/-- Two changes of one reader are one. -/
theorem modReader_modReader (d : Fin 6) (f g : VerifyReader → VerifyReader) :
    (s.modReader d f).modReader d g = s.modReader d fun w => g (f w) := by
  unfold State.modReader
  simp only [setEntry, Vector.getElem_set_self, Vector.set_set]

/-- A write of a tag at the head of the retry list, or of a FREE tag. -/
theorem writer_issues (w : Writer) (k : Fin 16) (g : BlockTag) (q : List WriteEntry) (r : List (Fin 16)) (hq : q <:+ w.queue)
    (hr : r <:+ w.retry) (hk : (w.tags[k.val]).state = .free ∨ k ∈ w.retry) :
    w.issuesTo { w with queue := q, retry := r, tags := setEntry w.tags k fun _ => g } := by
  refine ⟨rfl, hq, hr, fun m hm hn => ?_⟩
  rw [setEntry_getElem]
  split
  · next e => subst e; rcases hk with h | h <;> contradiction
  · rfl

theorem freeWriteTag_free {tags : Vector BlockTag 16} {k : Fin 16} (h : freeWriteTag tags = some k) :
    (tags[k.val]).state = .free := by
  have := List.find?_some h
  simpa using this

theorem freeCheckTag_free {tags : Vector BlockTag 8} {k : Fin 8} (h : freeCheckTag tags = some k) :
    (tags[k.val]).state = .free := by
  have := List.find?_some h
  simpa using this

theorem freeReadTag_free {tags : Vector ReadTag 8} {k : Fin 8} (h : freeReadTag tags = some k) :
    (tags[k.val]).state = .free := by
  have := List.find?_some h
  simpa using this

theorem issueWrite_settles (t : Target) : s.settlesTo (s.issueWrite t) := by
  unfold State.issueWrite
  dsimp only
  split
  · next k rest hr =>
    split
    · next work _ =>
      unfold State.putWrite
      dsimp only
      rw [modWriter_modWriter]
      refine ((modWriter_settles s t _ ?_).trans (modWindow_settles _ t _ (countUp_issues _))).trans (send_settles _ _ _)
      exact writer_issues _ k _ _ rest (List.suffix_refl _) (by rw [hr]; exact List.suffix_cons _ _) (.inr (by rw [hr]; simp))
    · exact modWriter_settles s t _ ⟨rfl, List.suffix_refl _, by rw [hr]; exact List.suffix_cons _ _, fun _ _ _ => rfl⟩
  · split
    · next e rest k hq hk =>
      have a : s.settlesTo (s.modWriter t fun q => { q with queue := rest }) :=
        modWriter_settles s t _ ⟨rfl, by rw [hq]; exact List.suffix_cons _ _, List.suffix_refl _, fun _ _ _ => rfl⟩
      split
      · next x _ =>
        unfold State.putWrite
        dsimp only
        refine (((a.trans (countLeg_settles _ e.ref 1 0)).trans (modWriter_settles _ t _ ?_)).trans
          (modWindow_settles _ t _ (countUp_issues _))).trans (send_settles _ _ _)
        refine writer_issues _ k _ _ _ (List.suffix_refl _) (List.suffix_refl _) (.inl ?_)
        change (((s.modWriter t _).writer t).tags[k.val]).state = _
        rw [State.writer_modWriter, if_pos rfl]
        exact freeWriteTag_free hk
      · exact a
    · exact .refl s

theorem reader_issues (w : VerifyReader) (k : Fin 8) (g : BlockTag) (a : Option Nat) (r : List (Fin 8)) (hr : r <:+ w.retry)
    (hk : (w.tags[k.val]).state = .free ∨ k ∈ w.retry) :
    w.issuesTo { w with awaiting := a, retry := r, tags := setEntry w.tags k fun _ => g } := by
  refine ⟨rfl, hr, fun m hm hn => ?_⟩
  rw [setEntry_getElem]
  split
  · next e => subst e; rcases hk with h | h <;> contradiction
  · rfl

theorem issueCheck_settles (d : Fin 6) : s.settlesTo (s.issueCheck d) := by
  unfold State.issueCheck
  dsimp only
  split
  · next k rest hr =>
    split
    · next work _ =>
      unfold State.putCheck
      dsimp only
      rw [modReader_modReader]
      refine (modReader_settles s d _ ?_).trans (send_settles _ _ _)
      exact reader_issues _ k _ _ rest (by rw [hr]; exact List.suffix_cons _ _) (.inr (by rw [hr]; simp))
    · exact modReader_settles s d _ ⟨rfl, by rw [hr]; exact List.suffix_cons _ _, fun _ _ _ => rfl⟩
  · split
    · next num r _ k _ _ hk =>
      have a : s.settlesTo (s.modReader d fun v => { v with awaiting := none }) :=
        modReader_settles s d _ ⟨rfl, List.suffix_refl _, fun _ _ _ => rfl⟩
      split
      · next x _ =>
        unfold State.putCheck
        dsimp only
        refine ((a.trans (countLeg_settles _ r 0 1)).trans (modReader_settles _ d _ ?_)).trans (send_settles _ _ _)
        refine reader_issues _ k _ _ _ (List.suffix_refl _) (.inl ?_)
        change ((setEntry s.readers d _)[d.val].tags[k.val]).state = _
        rw [setEntry_same]
        exact freeCheckTag_free hk
      · exact a
    · exact .refl s

theorem TargetArbiter.charge_issues (a : TargetArbiter) (x : Side) (h : a.granted = false) : a.issuesTo (a.charge x) := by
  have (b : TargetArbiter) (h1 : b.writeWeight = a.writeWeight) (h2 : b.checkWeight = a.checkWeight) : a.issuesTo b :=
    ⟨fun t => absurd (h.symm.trans t) (by decide), h1, h2⟩
  unfold TargetArbiter.charge
  split
  · split <;> exact this _ rfl rfl
  · exact this _ rfl rfl

theorem arbitrate_settles (d : Fin 6) : s.settlesTo (s.arbitrate d) := by
  unfold State.arbitrate
  split
  · exact .refl s
  · next h =>
    have h : (s.sides[d.val]).granted = false := by simpa using h
    split
    · exact .refl s
    · exact (modSides_settles s d _ (TargetArbiter.charge_issues _ _ h)).trans (issueWrite_settles _ _)
    · exact (modSides_settles s d _ (TargetArbiter.charge_issues _ _ h)).trans (issueCheck_settles _ _)

theorem sendFrom_settles (c : Source) : s.settlesTo (s.sendFrom c) := by
  cases c with
  | response =>
    simp only [State.sendFrom]
    split
    · exact send_settles s _ _
    · exact .refl s
  | notice =>
    simp only [State.sendFrom]
    split
    · exact send_settles s _ _
    · exact .refl s
  | sink => exact issueWrite_settles s .sink

theorem transmit_settles : s.settlesTo s.transmit := by
  unfold State.transmit
  split
  · next h =>
    split
    · exact .refl s
    · have : s.control.sending = none := by
        have := h
        simp at this
        exact this.2
      exact (modControl_settles s _ rfl rfl this).trans (sendFrom_settles _ _)
  · exact .refl s

theorem noteWork_settles : s.settlesTo s.noteWork := by
  unfold State.noteWork
  refine foldl_settles _ (fun s t => modWindow_settles s t _ ⟨rfl, Nat.min_le_left _ _, fun h => ?_⟩) _ _
  simp [h]

/-! ## The end of an event -/

theorem settle_settles : s.settlesTo s.settle :=
  ((((handOn_settles s _).trans (serveNew_settles _ _)).trans (foldl_settles State.arbitrate arbitrate_settles _ _)).trans
    (serveNew_settles _ _)).trans ((transmit_settles _).trans (noteWork_settles _))

theorem announceJob_settles (h : Fin 64) : s.settlesTo (s.announceJob h) := by
  rcases announceJob_cases s h with e | ⟨j, hj, d, f, e⟩ <;> rw [e]
  · exact .refl s
  · exact (notify_settles s _ ⟨h, j, hj, d, f, rfl⟩).trans (modJob_settles _ h (fun j => { j with announced := true })
      fun j _ => ⟨rfl, Nat.le_refl _, fun _ => rfl, rfl, fun _ l e => ⟨l, e, .refl l⟩⟩)

theorem announce_settles : s.settlesTo s.announce :=
  foldl_settles State.announceJob announceJob_settles _ _

theorem relamp_settles : s.settlesTo s.relamp := by
  unfold State.relamp
  exact foldl_settles (fun (s : State) i => s.modLamp i fun l => { l with computed := s.lampState i })
    (fun s i => modLamp_settles s i _ rfl) _ _

/-- The end of an event does what `State.settlesTo` says and no more. -/
theorem close_settles : s.settlesTo s.close :=
  ((announce_settles s).trans (relamp_settles _)).trans (settle_settles _)

/-! ## What runs on -/

theorem State.settlesTo.runsOn {s t : State} (h : s.settlesTo t) (ha : s.advancesTo t) : s.runsOnTo t where
  pins := h.pins
  time := h.time
  handler := h.handler
  notices := h.notices.imp fun _ hl => hl.1
  control := h.control
  links := h.links
  lamps := h.lamps
  absent := h.jobs
  jobs := ha
  pool ok := (h.slots ok).1
  cards i := by rw [(h.ingest i).rest]; exact ⟨rfl, rfl, rfl⟩
  media d := by rw [h.kept.2.2]
  writers x := by rw [(h.writers x).rest]; exact ⟨rfl, rfl, rfl⟩
  sides := h.sides
  windows := h.windows

theorem State.runsOnTo.trans {s t u : State} (a : s.runsOnTo t) (b : t.runsOnTo u) : s.runsOnTo u where
  pins := ⟨b.pins.1.trans a.pins.1, b.pins.2.1.trans a.pins.2.1, b.pins.2.2.1.trans a.pins.2.2.1, b.pins.2.2.2.trans a.pins.2.2.2⟩
  time := ⟨b.time.1.trans a.time.1, b.time.2.trans a.time.2⟩
  handler := ⟨b.handler.1.trans a.handler.1, b.handler.2.trans a.handler.2⟩
  notices := by
    obtain ⟨l, hl⟩ := a.notices
    obtain ⟨m, hm⟩ := b.notices
    exact ⟨l ++ m, hl.append hm⟩
  control := by
    refine ⟨b.control.1.trans a.control.1, b.control.2.1.trans a.control.2.1, fun h => ?_⟩
    have e := a.control.2.2 h
    rw [← e] at h ⊢
    exact b.control.2.2 h
  links p := (a.links p).trans (b.links p)
  lamps i := by rw [b.lamps i, a.lamps i]
  absent h e := b.absent h (a.absent h e)
  jobs := a.jobs.trans b.jobs
  pool h := b.pool (a.pool h)
  cards i := ⟨(b.cards i).1.trans (a.cards i).1, (b.cards i).2.1.trans (a.cards i).2.1, (b.cards i).2.2.trans (a.cards i).2.2⟩
  media d := (b.media d).trans (a.media d)
  writers x := ⟨(b.writers x).1.trans (a.writers x).1, (b.writers x).2.1.trans (a.writers x).2.1, (b.writers x).2.2.trans (a.writers x).2.2⟩
  sides d := (a.sides d).trans (b.sides d)
  windows x := (a.windows x).trans (b.windows x)

theorem State.runsOnTo.refl (s : State) : s.runsOnTo s :=
  (State.settlesTo.refl s).runsOn s.advancesTo_refl

theorem close_runsOn : s.runsOnTo s.close :=
  (close_settles s).runsOn (close_advances s)

theorem settle_runsOn : s.runsOnTo s.settle :=
  (settle_settles s).runsOn (settle_advances s)

theorem announce_runsOn : s.runsOnTo s.announce :=
  (announce_settles s).runsOn (announce_advances s)

/-- The records no step of the Job Table touches: media, settings, and which entries hold a job. -/
def State.recordFrame (s : State) :=
  (s.drives.map Drive.media, s.ingest.map fun p => (p.media, p.timeout, p.retryLimit),
    s.writers.map fun w => (w.timeout, w.retryLimit, w.policy), s.jobs.map Option.isSome)

@[simp] theorem modJob_records (h : Fin 64) (g : Job → Job) : (s.modJob h g).recordFrame = s.recordFrame := by
  have : (s.modJob h g).jobs.map Option.isSome = s.jobs.map Option.isSome := setEntry_map _ _ _ _ (by simp)
  unfold State.recordFrame
  rw [this]
  rfl

theorem modIngest_records (i : Fin 8) (g : IngestPort → IngestPort)
    (hg : ∀ p, (g p).media = p.media ∧ (g p).timeout = p.timeout ∧ (g p).retryLimit = p.retryLimit) :
    (s.modIngest i g).recordFrame = s.recordFrame := by
  have : (s.modIngest i g).ingest.map (fun p => (p.media, p.timeout, p.retryLimit)) =
      s.ingest.map fun p => (p.media, p.timeout, p.retryLimit) := setEntry_map _ _ _ _ (by simp [hg])
  unfold State.recordFrame
  rw [this]
  rfl

theorem modDrive_records (d : Fin 6) (g : Drive → Drive) (hg : (g s.drives[d.val]).media = (s.drives[d.val]).media) :
    (s.modDrive d g).recordFrame = s.recordFrame := by
  have : (s.modDrive d g).drives.map Drive.media = s.drives.map Drive.media := setEntry_map _ _ _ _ hg
  unfold State.recordFrame
  rw [this]
  rfl

theorem modWriter_records (x : Target) (g : Writer → Writer)
    (hg : ∀ w, (g w).timeout = w.timeout ∧ (g w).retryLimit = w.retryLimit ∧ (g w).policy = w.policy) :
    (s.modWriter x g).recordFrame = s.recordFrame := by
  have : (s.modWriter x g).writers.map (fun w => (w.timeout, w.retryLimit, w.policy)) =
      s.writers.map fun w => (w.timeout, w.retryLimit, w.policy) := setEntry_map _ _ _ _ (by simp [hg])
  unfold State.recordFrame
  rw [this]
  rfl

@[simp] theorem count_records (h : Fin 64) (g : Job → Job) : (s.count h g).recordFrame = s.recordFrame :=
  modJob_records s h _

@[simp] theorem countLeg_records (r : LegRef) (g : Leg → Leg) : (s.countLeg r g).recordFrame = s.recordFrame :=
  count_records s _ _

@[simp] theorem modLeg_records (r : LegRef) (g : Leg → Leg) : (s.modLeg r g).recordFrame = s.recordFrame :=
  modJob_records s _ _

@[simp] theorem endLeg_records (r : LegRef) (x : LegState) (c : Option LegCause) : (s.endLeg r x c).recordFrame = s.recordFrame :=
  modJob_records s _ _

@[simp] theorem abandonLegs_records (h : Fin 64) : (s.abandonLegs h).recordFrame = s.recordFrame :=
  modJob_records s _ _

@[simp] theorem finishJob_records (h : Fin 64) (o : JobState) (c : Option JobCause) :
    (s.finishJob h o c).recordFrame = s.recordFrame := by
  unfold State.finishJob
  split
  · rfl
  · split
    · rfl
    · dsimp only
      split
      · exact modJob_records s _ _
      · exact modJob_records s _ _

@[simp] theorem dropReading_records (h : Fin 64) : (s.dropReading h).recordFrame = s.recordFrame := by
  unfold State.dropReading
  split
  · rfl
  · split <;> exact modIngest_records s _ _ fun _ => ⟨rfl, rfl, rfl⟩

@[simp] theorem withdrawVerify_records (d : Fin 6) (h : Fin 64) : (s.withdrawVerify d h).recordFrame = s.recordFrame := by
  unfold State.withdrawVerify
  repeat' (first | rfl | split | dsimp only)

/-- What emptying a lost drive's Verify Reader leaves alone: jobs, and what no Job Table step moves; the pool keeps its form. -/
theorem emptyReader_spec (x : Target) :
    (s.emptyReader x).jobs = s.jobs ∧ (s.emptyReader x).cascadeFrame = s.cascadeFrame ∧
      (s.emptyReader x).recordFrame = s.recordFrame ∧ (poolWf s.slots = true → poolWf (s.emptyReader x).slots = true) := by
  cases x with
  | sink => exact ⟨rfl, rfl, rfl, id⟩
  | drive d =>
    unfold State.emptyReader
    dsimp only
    split
    · exact ⟨rfl, rfl, rfl, fun h => freeSlotNum_poolWf s _ h⟩
    · exact ⟨rfl, rfl, rfl, id⟩

/-- The reader of a lost drive is left with no leg, no slot awaiting the link and nothing to retry (R130). -/
theorem emptyReader_readers (d : Fin 6) :
    (s.emptyReader (.drive d)).readers[d.val] =
      { s.readers[d.val] with work := [], awaiting := none, retry := [] } := by
  unfold State.emptyReader
  dsimp only
  split <;> simp [State.freeSlotNum]

@[simp] theorem withdrawWriter_records (x : Target) (h : Fin 64) :
    (s.modWriter x fun w => w.withdraw h).recordFrame = s.recordFrame :=
  modWriter_records s _ _ fun _ => ⟨rfl, rfl, rfl⟩

@[simp] theorem tearJob_records (h : Fin 64) (o : JobState) (c : JobCause) : (s.tearJob h o c).1.recordFrame = s.recordFrame := by
  unfold State.tearJob
  split
  · rfl
  · split
    · rfl
    · unfold State.teardown
      dsimp only
      rw [foldl_keeps State.recordFrame _ (fun s d => withdrawVerify_records s d h),
        foldl_keeps State.recordFrame (fun s x => s.modWriter x fun w => w.withdraw h) (fun s x => withdrawWriter_records s x h)]
      change (((s.finishJob h o (some c)).abandonLegs h).dropReading h).recordFrame = _
      simp

@[simp] theorem dropLeg_records (h : Fin 64) (x : Target) (y : LegState) (c : Option LegCause) :
    (s.dropLeg h x y c).recordFrame = s.recordFrame := by
  unfold State.dropLeg
  split
  · rfl
  · split
    · rw [withdrawWriter_records]
      exact modJob_records s _ _
    · split
      · split
        · rw [withdrawVerify_records]; exact modJob_records s _ _
        · exact modJob_records s _ _
      · rfl

@[simp] theorem compareLeg_records (d : Fin 6) (r : LegRef) : (s.compareLeg d r).1.recordFrame = s.recordFrame := by
  unfold State.compareLeg
  repeat' (first | rfl | exact modJob_records s _ _ | split)

@[simp] theorem verifyFinal_records (d : Fin 6) (r : LegRef) : (s.verifyFinal d r).1.recordFrame = s.recordFrame := by
  unfold State.verifyFinal
  split
  · rfl
  · split
    · rfl
    · dsimp only
      rw [compareLeg_records, modLeg_records]

@[simp] theorem activateHead_records (d : Fin 6) : (s.activateHead d).1.recordFrame = s.recordFrame := by
  unfold State.activateHead
  split
  · rfl
  · split
    · split
      · dsimp only
        split
        · rw [verifyFinal_records, modLeg_records]
        · exact modJob_records s _ _
      · rfl
    · rfl

@[simp] theorem legWritten_records (r : LegRef) : (s.legWritten r).1.recordFrame = s.recordFrame := by
  unfold State.legWritten
  split
  · rfl
  · dsimp only
    split
    · exact modJob_records s _ _
    · rw [endLeg_records, modLeg_records]

@[simp] theorem writtenIfWriting_records (r : LegRef) : (s.writtenIfWriting r).1.recordFrame = s.recordFrame := by
  unfold State.writtenIfWriting
  split
  · split
    · exact legWritten_records s r
    · rfl
  · rfl

theorem Drive.place_media (v : Drive) (n : Nat) : (v.place n).1.media = v.media := by
  unfold Drive.place Drive.take Drive.adopt
  repeat' (first | rfl | split)

@[simp] theorem placeLeg_records (r : LegRef) : (s.placeLeg r).recordFrame = s.recordFrame := by
  unfold State.placeLeg
  split
  · split
    · rfl
    · split
      · split
        · exact modJob_records s _ _
        · dsimp only
          split
          · rw [modLeg_records, modDrive_records]; exact Drive.place_media _ _
          · rw [endLeg_records, modDrive_records]; exact Drive.place_media _ _
      · exact modJob_records s _ _
  · rfl

@[simp] theorem startJob_records (i : Fin 8) (h : Fin 64) : (s.startJob i h).1.recordFrame = s.recordFrame := by
  have a (i : Fin 8) (l : List (Fin 64) → List (Fin 64)) : (s.modIngest i fun p => { p with lineUp := l p.lineUp }).recordFrame =
      s.recordFrame := modIngest_records s _ _ fun _ => ⟨rfl, rfl, rfl⟩
  have b (t : State) (i : Fin 8) (x : Option (Fin 64)) : (t.modIngest i fun p => { p with reading := x }).recordFrame = t.recordFrame :=
    modIngest_records t _ _ fun _ => ⟨rfl, rfl, rfl⟩
  unfold State.startJob
  dsimp only
  split
  · rw [foldl_keeps State.recordFrame _ placeLeg_records, modJob_records, a i List.tail]
  · split
    · rw [finishJob_records, foldl_keeps State.recordFrame _ placeLeg_records, modJob_records, a i List.tail]
    · split
      · dsimp only
        rw [eachLeg_keeps State.recordFrame _ writtenIfWriting_records, modJob_records,
          foldl_keeps State.recordFrame _ placeLeg_records, modJob_records, a i List.tail]
      · rw [b, modJob_records, foldl_keeps State.recordFrame _ placeLeg_records, modJob_records, a i List.tail]

@[simp] theorem perform_records (x : Todo) : (s.perform x).1.recordFrame = s.recordFrame := by
  cases x with
  | activate d => exact activateHead_records s d
  | test h =>
    simp only [State.perform]
    unfold State.testJob
    split
    · rfl
    · split
      · split
        · exact tearJob_records s _ _ _
        · split
          · split
            · exact finishJob_records s _ _ _
            · exact finishJob_records s _ _ _
          · rfl
      · rfl
  | ingestFinal h =>
    simp only [State.perform]
    unfold State.ingestFinalised
    split
    · rfl
    · split
      · rfl
      · dsimp only
        split
        · dsimp only
          rw [foldl_keeps State.recordFrame State.compareWaiting, modJob_records]
          intro s r
          unfold State.compareWaiting
          split
          · split
            · exact compareLeg_records s _ _
            · rfl
          · rfl
        · rw [tearJob_records, modJob_records]
  | start i =>
    simp only [State.perform]
    unfold State.testStart
    split
    · split
      · split
        · exact startJob_records s _ _
        · rfl
      · rfl
    · rfl

@[simp] theorem cascade_records (l : List Todo) : (s.cascade l).recordFrame = s.recordFrame :=
  run_keeps State.recordFrame perform_records _ l s

/-- Two states whose records agree, entry by entry. -/
theorem recordFrame_entries {s t : State} (h : t.recordFrame = s.recordFrame) :
    (∀ d : Fin 6, (t.drives[d.val]).media = (s.drives[d.val]).media) ∧
    (∀ i : Fin 8, (t.ingest[i.val]).media = (s.ingest[i.val]).media ∧ (t.ingest[i.val]).timeout = (s.ingest[i.val]).timeout ∧
      (t.ingest[i.val]).retryLimit = (s.ingest[i.val]).retryLimit) ∧
    (∀ x, (t.writer x).timeout = (s.writer x).timeout ∧ (t.writer x).retryLimit = (s.writer x).retryLimit ∧
      (t.writer x).policy = (s.writer x).policy) ∧
    ∀ k, (t.job? k).isSome = (s.job? k).isSome := by
  simp only [State.recordFrame, Prod.mk.injEq] at h
  obtain ⟨h1, h2, h3, h4⟩ := h
  refine ⟨fun d => ?_, fun i => ?_, fun x => ?_, fun k => ?_⟩
  · have := congrArg (fun v : Vector (Option Media) 6 => v[d.val]) h1
    simpa using this
  · have := congrArg (fun v => v[i.val]) h2
    simpa using this
  · have := congrArg (fun v => v[(targetIndex x).val]) h3
    simpa [State.writer] using this
  · have := congrArg (fun v => v[k.val]) h4
    simpa [State.job?] using this

theorem cascade_runsOn (l : List Todo) : s.runsOnTo (s.cascade l) := by
  obtain ⟨f1, f2, f3, f4, f5, f6, f7, f8, f9, f10, f11, f12⟩ := cascade_fields s l
  obtain ⟨r1, r2, r3, r4⟩ := recordFrame_entries (cascade_records s l)
  exact
    { pins := ⟨f1, f2, f3, f12⟩
      time := ⟨f4, f9⟩
      handler := by rw [f10]; exact ⟨rfl, rfl⟩
      notices := by rw [f10]; exact ⟨[], .nil _⟩
      control := by rw [f11]; exact ⟨rfl, rfl, fun _ => rfl⟩
      links := fun p => by rw [State.link_congr f5]; exact .refl _
      lamps := fun i => by rw [f8]
      absent := fun h e => by
        have := r4 h
        rw [e] at this
        simpa using this
      jobs := cascade_advances s l
      pool := cascade_poolWf s l
      cards := r2
      media := r1
      writers := r3
      sides := fun d => by rw [f6]; exact .refl _
      windows := fun x => by rw [State.window_congr f7]; exact .refl _ }

/-- An event that works a list off and closes. -/
theorem cascade_close_runsOn (l : List Todo) : s.runsOnTo (s.cascade l).close :=
  (cascade_runsOn s l).trans (close_runsOn _)

end Sys2Proof.Machine
end

