-- ==== Sys2Proof/Tests/Slice0.lean ====
section
/-! SUPPORT. The model's own tests: the refusals of WellFormed, the manual's worked numbers, one step of each command on a small state,
and, for each statement of Certificates/Slice0/Obligations.lean that has hypotheses, a state and operands that meet them (`witness_…`,
after the statement's name). Each test's comment names the rule its expected values come from. -/

namespace Sys2Proof.Tests

set_option Elab.async false

open Sys2Proof Sys2Proof.Machine

/-! ## Small states -/

/-- The state after a command. -/
def after (c : Instr) (s : State) : State :=
  match exec c s with
  | .next t => t
  | .fault _ | .refused _ => s

/-- A command answers a next state that passes a test. -/
def gives (c : Instr) (s : State) (test : State → Bool) : Bool :=
  match exec c s with
  | .next t => test t
  | .fault _ | .refused _ => false

/-- Every link UP, a card in I0, a drive on T0 with the region 1,000 to 1,099. -/
def linked : State :=
  ({ State.reset with links := Vector.replicate 15 ⟨true, false, false, []⟩ }.modIngest 0 fun p => { p with media := some ⟨7, 100⟩ }).modDrive 0
    fun v => { v with media := some ⟨9, 5000⟩, current := some ⟨1000, 1099⟩, pointer := 1000 }

/-- A block of zeros. -/
def zeros : List Byte :=
  List.replicate 4096 0

/-- A leg on a target in a state, placed at a base. -/
def legOf (t : Target) (verify : Bool) (st : LegState) (base : Nat) : Leg :=
  { target := t, verify := verify, state := st, base := some base, sent := 1, acked := 0, context := DigestContext.initial, checked := 0,
    written := none, finished := none, cause := none }

/-- A job of I0 with a leg on T0, to be verified, and a leg on T6. -/
def jobOf (st : JobState) (legs : LegState) (length : Nat) : Job :=
  { state := st, port := 0, identity := 7, length := length, runs := [⟨50, blockCount length⟩], required := 1, expected := none,
    legs := [legOf (.drive 0) true legs 1000, legOf .sink false legs 0], requested := 2, arrived := 1, ingest := DigestContext.initial,
    loadedAt := 0, startedAt := some 0, arrivedAllAt := none, finishedAt := none, session := true, cause := none, announced := false }

/-- Job 0 is READING on I0: block 0 is HELD in slot 0, being written to T0 and T6, and waits in the ready list; block 1 is being read
into slot 1. -/
def reading (length : Nat) : State :=
  let s := (linked.setJob 0 (some (jobOf .reading .writing length))).modSession 0 fun c => { c with live := 1 }
  let s := s.modIngest 0 fun p => { p with reading := some 0, tags := setEntry p.tags 0 fun _ => ⟨.busy 0 1 1 0 0, 1, false⟩ }
  let s := { s with
    slots := [⟨0, 0, 0, .ingest [.drive 0, .sink], some ⟨zeros, false, false, false⟩⟩, ⟨1, 0, 1, .ingest [.drive 0, .sink], none⟩]
    digest := ⟨[0], none⟩ }
  let s := (s.modWriter (.drive 0) fun w => { w with tags := setEntry w.tags 0 fun _ => ⟨.sent ⟨0, ⟨0, 0⟩, 0, 1000, 0⟩ 0, 1, false⟩ }).modWriter
    .sink fun w => { w with tags := setEntry w.tags 0 fun _ => ⟨.sent ⟨0, ⟨0, 1⟩, 0, 0, 0⟩ 0, 1, false⟩ }
  let s := (s.modWindow (.drive 0) fun w => { w with hadWork := true }).modWindow .sink fun w => { w with hadWork := true }
  let s := (s.modSides 0 fun a => { a with granted := true }).modControl fun c => { c with sending := some .sink }
  (s.modDrive 0 fun v => { v with pointer := 1000 + blockCount length }).modLamp 0 fun l => { l with computed := .busy }

/-- Job 0 is SETTLING: its leg on T0 is VERIFYING with block 0 of two being read back into slot 2. -/
def verifying : State :=
  let s := linked.setJob 0 (some { jobOf .settling .verifying 8192 with ingest := ⟨5, 6, 2, some 0x0000000500000006⟩ })
  let s := { s with slots := [⟨2, 0, 0, .check 0, none⟩] }
  s.modReader 0 fun v => { v with work := [⟨0, 0⟩], tags := setEntry v.tags 3 fun _ => ⟨.sent ⟨2, ⟨0, 0⟩, 0, 1000, 0⟩ 0, 4, false⟩ }

/-- One request waits to be taken. -/
def asked (kind : Byte) (body : List Byte) (s : State) : State :=
  { s with handler := { s.handler with requests := [⟨9, kind, body⟩] }, control := { s.control with unanswered := 1 } }

/-- The LOAD_JOB body of Table 9-8: port I0, two legs (T0 verified, T6), two good legs required, identity 7, no expected digest. -/
def loadBody (length start count : Nat) : List Byte :=
  [0, 2, 1, 2, 0, 0, 0, 0] ++ leBytes 8 7 ++ leBytes 8 length ++ leBytes 8 0 ++ [8, 1, 14, 0, 0, 0, 0, 0] ++ leBytes 8 start ++ leBytes 4 count

/-- A SET_TARGET body that gives every value, in the order of Table 10-1: all far above their ranges but the region and the policy. -/
def targetBody (code : Byte) : List Byte :=
  [code, 1] ++ leBytes 8 2000 ++ leBytes 8 2999 ++ [1] ++ leBytes 2 7 ++ [1] ++ leBytes 2 40000 ++ [1] ++ leBytes 2 5 ++ [1] ++ leBytes 2 9 ++
    [1, 200, 1, 0, 0, 1, 9, 1, 0, 1, 99, 1, 1]

/-- A Request Handler whose Notice Queue holds 32 notices, with NOTICE_LOST set. -/
def fullQueue : Handler :=
  { requests := [], taking := false, notices := List.replicate 32 (.shed .sink 0), noticeLost := true }

/-- The result of the first response in the queue. -/
def firstResult (s : State) : Option Result :=
  s.control.responses.head?.map Response.result

/-! ## WellFormed: each check refuses -/

theorem test_blockData_short_refused : (Instr.blockData 0 0 0 (.ok [1, 2, 3])).wellFormed = false := by decide
theorem test_checkData_short_refused : (Instr.checkData 0 0 0 (.ok [])).wellFormed = false := by decide
theorem test_ingestReport_capacity_refused : (Instr.ingestMediaReport 0 (some ⟨1, 2 ^ 40 + 1⟩)).wellFormed = false := by decide
theorem test_targetReport_capacity_refused : (Instr.targetMediaReport 0 (some ⟨1, 2 ^ 40 + 1⟩)).wellFormed = false := by decide
theorem test_ingestReport_capacity_taken : (Instr.ingestMediaReport 0 (some ⟨1, 2 ^ 40⟩)).wellFormed = true := by decide
theorem test_request_long_refused : (Instr.request 0 1 (List.replicate 4097 0)).wellFormed = false := by
  decide +kernel
theorem test_frame_long_refused :
    (∀ n ∈ [0, 4116, 4118], (Instr.frameDiscard .control ⟨List.replicate n 0, .noDelimiter⟩).wellFormed = false) ∧
      (Instr.frameDiscard .control ⟨List.replicate 4117 0, .endDelimiter⟩).wellFormed = false ∧
      (Instr.frameDiscard .control ⟨List.replicate 4117 0, .noDelimiter⟩).wellFormed = true ∧
      (Instr.frameDiscard .control ⟨List.replicate 4116 0, .startDelimiter⟩).wellFormed = true := by decide +kernel

/-- No row of the table gives bits. -/
theorem test_decodeTableWord_none : decodeTableWord 16 0xFFFF = none := by decide

/-! ## The manual's worked numbers -/

/-- Table 1-2. -/
theorem test_cardAddress_table_1_2 :
    [0, 99, 100, 150, 244].map (cardAddress [⟨4096, 100⟩, ⟨8000, 145⟩]) = [4096, 4195, 8000, 8050, 8144] := by decide

/-- Chapter 1's example: block 244 of L = 1,000,000 holds 576 valid bytes. -/
theorem test_validBytes_example : validBytes 1000000 244 = 576 ∧ blockCount 1000000 = 245 := by decide

/-- Table 4-4, and the four-byte file after it. -/
theorem test_digest_table_4_4 :
    finalDigest (digestBlock DigestContext.initial [1, 0, 0, 0, 2, 0]) 6 = 0x000000100000000A ∧
      finalDigest (digestBlock DigestContext.initial [0xFF, 0xFF, 0xFF, 0xFF]) 4 = 0x0000000E00000009 := by decide +kernel

/-- Table 4-6: A_f of the longest file, and of L = M - 1. -/
theorem test_digest_table_4_6 :
    (finalDigest ⟨1, 0, 0, none⟩ (2 ^ 40 - 1)).toNat % 2 ^ 32 = 1280 ∧ (finalDigest ⟨1, 0, 0, none⟩ 4294967290).toNat % 2 ^ 32 = 0 := by
  decide +kernel

/-- R163's reference. -/
theorem test_frameCheck_reference : frameCheck [0x31, 0x32, 0x33, 0x34, 0x35, 0x36, 0x37, 0x38, 0x39] = 0xCBF43926#32 := by decide +kernel

/-- Table 5-3: the placements of jobs 30, 31, 32 and 33. -/
theorem test_place_table_5_3 :
    (Drive.place ⟨none, some ⟨1000, 1099⟩, some ⟨5000, 5999⟩, 1090⟩ 8).2 = some 1090 ∧
      Drive.place ⟨none, some ⟨1000, 1099⟩, some ⟨5000, 5999⟩, 1098⟩ 5 = (⟨none, some ⟨5000, 5999⟩, none, 5005⟩, some 5000) ∧
      Drive.place ⟨none, some ⟨5000, 5999⟩, none, 5005⟩ 0 = (⟨none, some ⟨5000, 5999⟩, none, 5005⟩, some 5005) ∧
      Drive.place ⟨none, some ⟨5000, 5999⟩, some ⟨1098, 1200⟩, 5005⟩ 1000 = (⟨none, some ⟨1098, 1200⟩, none, 1098⟩, none) := by decide

/-- Table 6-4's first two grants, with weights 3 and 1. -/
theorem test_charge_table_6_4 :
    TargetArbiter.charge ⟨.write, 0, false, 3, 1⟩ .write = ⟨.write, 1, true, 3, 1⟩ ∧
      TargetArbiter.charge ⟨.write, 2, false, 3, 1⟩ .write = ⟨.check, 0, true, 3, 1⟩ := by decide

/-! ## One step of each command -/

/-- R28. -/
theorem test_resetNLow : gives .resetNLow (reading 8192) (fun t => !t.resetN && t.slots.isEmpty && (t.job? 0).isNone) = true := by
  decide +kernel

/-- R135: the part leaves full reset with the prescaler at 0. -/
theorem test_resetNHigh : gives .resetNHigh (after .resetNLow linked) (fun t => t.resetN && decide (t.timer.prescaler = 0)) = true := by
  decide +kernel

/-- R161, R165. -/
theorem test_linkUp : gives (.linkUp (.drive 5)) State.reset (fun t => t.linkUp (.drive 5) && (t.link (.drive 5)).hunting) = true := by
  decide +kernel

/-- R112, R110: the one leg on T0 fails LOST and the notice counts it. -/
theorem test_linkDown_target :
    gives (.linkDown (.drive 0)) (reading 8192) (fun t =>
      decide ((t.leg? ⟨0, 0⟩).map Leg.cause = some (some .lost)) && decide (t.handler.notices = [.targetLost (.drive 0) 1])) = true := by
  decide +kernel

/-- R164, R162: a frame cut short by a start delimiter. -/
theorem test_frameDiscard :
    gives (.frameDiscard (.ingest 0) ⟨[2, 0], .startDelimiter⟩) linked (fun t =>
      (t.link (.ingest 0)).discard && !(t.link (.ingest 0)).hunting) = true := by decide +kernel

/-- R162: with no delimiter the port discards at the byte that makes it more than 4,116, and not before. -/
theorem test_frameDiscard_count :
    gives (.frameDiscard (.ingest 0) ⟨List.replicate 4117 0, .noDelimiter⟩) linked (fun t =>
      (t.link (.ingest 0)).discard && (t.link (.ingest 0)).hunting) = true ∧
    gives (.frameDiscard (.ingest 0) ⟨List.replicate 4116 0, .noDelimiter⟩) linked (fun t =>
      !(t.link (.ingest 0)).discard && !(t.link (.ingest 0)).hunting) = true := by decide +kernel

/-- R13: the last block makes the job SETTLING. -/
theorem test_blockData_last :
    gives (.blockData 0 0 1 (.ok zeros)) (reading 8192) (fun t => decide ((t.job? 0).map Job.state = some .settling)) = true := by
  decide +kernel

/-- R62: another generation is stale. -/
theorem test_blockData_stale :
    gives (.blockData 0 0 2 (.ok zeros)) (reading 8192) (fun t => decide ((t.job? 0).map Job.arrived = some 1)) = true := by decide +kernel

/-- R66, R18: the card is pulled. -/
theorem test_ingestMediaReport_removal :
    gives (.ingestMediaReport 0 none) (reading 8192) (fun t =>
      decide ((t.job? 0).map Job.cause = some (some .sourceLost)) &&
        decide (t.handler.notices = [.mediaChanged (.ingest 0) none, .jobFinished 0 .failed (some .sourceLost) 0 0])) = true := by
  decide +kernel

/-- R109: an insertion. -/
theorem test_targetMediaReport_insertion :
    gives (.targetMediaReport 1 (some ⟨4, 77⟩)) linked (fun t => decide (t.handler.notices = [.mediaChanged (.drive 1) (some ⟨4, 77⟩)])) = true := by
  decide +kernel

/-- R39, R102: T0 leaves the slot's set; the tag is FREE with its generation. -/
theorem test_writeDone :
    gives (.writeDone 0 0 1 .ok) (reading 8192) (fun t =>
      decide ((t.slot? 0).map Slot.kind = some (.ingest [.sink])) && decide ((t.writer (.drive 0)).tags[0] = ⟨.free, 1, false⟩)) = true := by
  decide +kernel

/-- R102: T6's leg counts the acknowledgement. -/
theorem test_sinkDone : gives (.sinkDone 0 1 .ok) (reading 8192) (fun t => decide ((t.leg? ⟨0, 1⟩).map Leg.acked = some 1)) = true := by
  decide +kernel

/-- R124, R81: the slot is HELD and joins the ready list. -/
theorem test_checkData :
    gives (.checkData 0 3 4 (.ok zeros)) verifying (fun t => decide (t.digest.ready = [2]) && decide (t.heldSlots = 1)) = true := by
  decide +kernel

/-- R169: the ninth request is discarded. -/
theorem test_request_ninth :
    gives (.request 1 4 [0]) { linked with control := { linked.control with unanswered := 8 } } (fun t =>
      (t.link .control).discard && decide (t.control.unanswered = 8)) = true := by decide +kernel

/-- R10, R11: the port reads nothing, so the job starts and its leg on T0 takes the pointer. -/
theorem test_loadJob_starts :
    gives .loadJob (asked 1 (loadBody 8192 50 2) linked) (fun t =>
      decide ((t.job? 0).map Job.state = some .reading) && decide ((t.leg? ⟨0, 0⟩).map Leg.base = some (some 1000)) &&
        decide ((t.drives[0]).pointer = 1002)) = true := by decide +kernel

/-- Table 10-3, check 6: the run ends at the capacity. -/
theorem test_loadJob_runRange :
    gives .loadJob (asked 1 (loadBody 8192 99 2) linked) (fun t => decide (firstResult t = some .runRange)) = true := by
  decide +kernel

/-- R25: a READING job ends ABORTED and its port reads nothing. -/
theorem test_cancelJob :
    gives .cancelJob (asked 2 [0] (reading 8192)) (fun t =>
      decide ((t.job? 0).map Job.state = some .aborted) && decide ((t.ingest[0]).reading = none)) = true := by decide +kernel

/-- R26: only a terminal job is released. -/
theorem test_releaseJob_busy :
    gives .releaseJob (asked 3 [0] (reading 8192)) (fun t => decide (firstResult t = some .busy) && (t.job? 0).isSome) = true := by
  decide +kernel

/-- R177: 96 bytes, 64 for each of two legs, 12 for the run. -/
theorem test_queryJob :
    gives .queryJob (asked 4 [0] (reading 8192)) (fun t =>
      decide (t.control.responses.head?.map (fun r => r.body.length) = some (96 + 2 * 64 + 12))) = true := by decide +kernel

/-- R178, R114, R132, R140: every value is clamped; the region is staged beside the current one. -/
theorem test_setTarget :
    gives .setTarget (asked 5 (targetBody 8) linked) (fun t =>
      decide ((t.drives[0]).staged = some ⟨2000, 2999⟩) && decide ((t.window (.drive 0)).staged = ⟨32768, 5, 9, 15⟩) &&
        decide ((t.window (.drive 0)).latch = 7) && decide ((t.writer (.drive 0)).timeout = 1) &&
        decide ((t.writer (.drive 0)).retryLimit = 3) && decide ((t.writer (.drive 0)).policy = .shed) &&
        decide (((t.sides[0]).writeWeight, (t.sides[0]).checkWeight) = (1, 15))) = true := by decide +kernel

/-- R180: a code that is no target's. -/
theorem test_queryTarget_badRequest :
    gives .queryTarget (asked 6 [7] linked) (fun t => decide (firstResult t = some .badRequest)) = true := by decide +kernel

/-- R72: a timeout of 0 takes 1, a retry limit of 9 takes 3. -/
theorem test_setIngest :
    gives .setIngest (asked 7 [2, 1, 0, 0, 1, 9] linked) (fun t =>
      decide ((t.ingest[2]).timeout = 1) && decide ((t.ingest[2]).retryLimit = 3)) = true := by decide +kernel

/-- R159. -/
theorem test_setLamp : gives .setLamp (asked 8 [7, 5] linked) (fun t => decide ((t.lamps[7]).mode = .redBlink)) = true := by decide +kernel

/-- R136, R157: p is staged at 24, b is stored at 15. -/
theorem test_setTick :
    gives .setTick (asked 9 [1, 25, 1, 16] linked) (fun t =>
      decide (t.timer.stagedP = some 24) && decide (t.timer.p = 17) && decide (t.blink.exponent = 15)) = true := by decide +kernel

/-- R181: the flags are cleared after they are reported. -/
theorem test_queryPart :
    gives .queryPart (asked 10 [] (linked.discard (.ingest 1) .endDelimiter)) (fun t => !(t.link (.ingest 1)).discard) = true ∧
      gives .queryPart (asked 10 [] { linked with handler := fullQueue }) (fun t =>
        !t.handler.noticeLost && decide (t.handler.notices.length = 32)) = true := by
  decide +kernel

/-- R182, R69: every read tag is FREE a generation on; the card's job is lost. -/
theorem test_resetPort :
    gives .resetPort (asked 11 [0] (reading 8192)) (fun t =>
      decide (((t.ingest[0]).tags[0]) = ⟨.free, 2, false⟩) && decide ((t.job? 0).map Job.cause = some (some .sourceLost))) = true := by
  decide +kernel

/-- R183: the handler stays TAKING. -/
theorem test_resetPart : gives .resetPart (asked 12 [] linked) (fun t => t.handler.taking && decide (firstResult t = some .ok)) = true := by
  decide +kernel

/-- R173: kind 13 is no request. -/
theorem test_unknownRequest : gives .unknownRequest (asked 13 [] linked) (fun t => decide (firstResult t = some .badRequest)) = true := by
  decide +kernel

/-- R59: a read 500 ticks old is found expired. -/
theorem test_tick_expiry :
    gives .tick { reading 8192 with timer := ⟨499, 0, 17, none⟩ } (fun t => ((t.ingest[0]).tags[0]).due) = true := by decide +kernel

/-- R156: the phase flips for the first time at tick 512. -/
theorem test_tick_phase : gives .tick { linked with timer := ⟨511, 0, 17, none⟩ } (fun t => t.blink.phase) = true := by decide +kernel

/-- R60: the tag's read goes out again under the next generation. -/
theorem test_readTagExpiry :
    gives (.readTagExpiry 0 0) (after .tick { reading 8192 with timer := ⟨499, 0, 17, none⟩ }) (fun t =>
      decide (((t.ingest[0]).tags[0]) = ⟨.busy 0 1 1 500 1, 2, false⟩)) = true := by decide +kernel

/-- R103: the write waits at the tail of the retry list, the link being GRANTED. -/
theorem test_writeTagExpiry :
    gives (.writeTagExpiry (.drive 0) 0) (after .tick { reading 8192 with timer := ⟨1999, 0, 17, none⟩ }) (fun t =>
      decide ((t.writer (.drive 0)).retry = [0])) = true := by decide +kernel

/-- R125, R122: the check read's timeout is its target's; the IDLE link sends it again. -/
theorem test_checkTagExpiry :
    gives (.checkTagExpiry 0 3) (after .tick { verifying with timer := ⟨1999, 0, 17, none⟩ }) (fun t =>
      decide (((t.readers[0]).tags[3]) = ⟨.sent ⟨2, ⟨0, 0⟩, 0, 1000, 1⟩ 2000, 5, false⟩)) = true := by decide +kernel

/-- R145, R146: a third stalled window makes the target SLOW. -/
theorem test_windowEnd_slow :
    gives (.windowEnd (.drive 0))
      (linked.modWindow (.drive 0) fun w =>
        { w with endDue := true, hadWork := true, acked := 4, streak := 2, effective := ⟨32768, 5, 0, 3⟩ }) (fun t =>
      (t.window (.drive 0)).slow && decide (t.handler.notices = [.targetSlow (.drive 0) 3 4])) = true := by decide +kernel

/-- R82, R41. -/
theorem test_digestStart :
    gives .digestStart (reading 8192) (fun t => decide (t.digest = ⟨[], some 0⟩) &&
      decide ((t.slot? 0).map (fun x => x.inFlight) = some true)) = true := by decide +kernel

/-- R84: a block is digested; its slot stays HELD while it is owed. -/
theorem test_digestComplete :
    gives .digestComplete (after .digestStart (reading 8192)) (fun t =>
      decide ((t.job? 0).map Job.digested = some 1) && decide (t.heldSlots = 1) && t.digest.inFlight.isNone) = true := by decide +kernel

/-- R131: with no side eligible the arbiter is IDLE. -/
theorem test_targetTxEnd : gives (.targetTxEnd 0) (reading 8192) (fun t => !(t.sides[0]).granted) = true := by decide +kernel

/-- R168: after the sink's write the waiting notice goes out, and the pointer moves past it. -/
theorem test_cTxEnd :
    gives .cTxEnd (({ reading 8192 with control := { linked.control with sending := some .sink } }).notify (.shed .sink 0)) (fun t =>
      decide (t.control.sending = some .notice) && decide (t.control.pointer = .sink)) = true := by decide +kernel

/-! ## Witnesses: states and operands that meet each statement's hypotheses -/

/-- A command answers a next state. -/
theorem next_of_exec (c : Instr) (s : State) (h : gives c s (fun _ => true) = true) : exec c s = .next (after c s) := by
  unfold gives at h
  unfold after
  split at h <;> simp_all

/-- A state with a command waiting steps to a next state. -/
theorem step_of_exec (c : Instr) (s : State) (hq : s.pending = []) (h : gives c s (fun _ => true) = true) :
    step { s with pending := [c] } = .next (after c s) := by
  show exec c { s with pending := [] } = _
  rw [show ({ s with pending := [] } : State) = s by rw [← hq]]
  exact next_of_exec c s h

/-- The command most witnesses of the invariants run: the last block of job 0 arrives. -/
def lastBlock : Instr :=
  .blockData 0 0 1 (.ok zeros)

/-- The state most witnesses of the invariants start from, with its command waiting. -/
def waitingBlock : State :=
  { reading 8192 with pending := [lastBlock] }

theorem lastBlock_next : exec lastBlock (reading 8192) = .next (after lastBlock (reading 8192)) :=
  next_of_exec _ _ (by decide +kernel)

theorem waitingBlock_next : step waitingBlock = .next (after lastBlock (reading 8192)) :=
  step_of_exec _ _ (by decide +kernel) (by decide +kernel)

/-- The one job of the state. -/
theorem waitingBlock_job (h : Fin 64) (j : Job) (e : waitingBlock.job? h = some j) : j = jobOf .reading .writing 8192 := by
  have : ∀ h : Fin 64, waitingBlock.job? h = none ∨ waitingBlock.job? h = some (jobOf .reading .writing 8192) := by decide +kernel
  rcases this h with n | y
  · rw [n] at e; cases e
  · rw [y] at e; exact (Option.some.inj e).symm

/-- A job of a small state is sound: not DONE, its legs on distinct targets, IDLE while it is LOADED and terminal once it is terminal. -/
def soundJob (j : Job) : Bool :=
  decide (j.state ≠ .done) && decide ((j.legs.map Leg.target).Nodup) &&
    (decide (j.state ≠ .loaded) || j.legs.all fun l => decide (l.state = .idle)) &&
    (!j.state.terminal || j.legs.all fun l => l.state.terminal)

theorem outcomeOk_of_soundJob (j : Job) (h : soundJob j = true) : j.outcomeOk := by
  simp only [soundJob, Bool.and_eq_true, Bool.or_eq_true, decide_eq_true_eq, List.all_eq_true, Bool.not_eq_true',
    ne_eq] at h
  obtain ⟨⟨⟨h1, h2⟩, h3⟩, h4⟩ := h
  refine ⟨h2, fun e => ?_, fun e => ?_, fun e => absurd e h1⟩
  · exact h3.resolve_left fun n => n e
  · exact h4.resolve_left fun n => by rw [e] at n; cases n

/-- Every job of a small state is sound, every entry of its verify work lists too, and no head of one stands WRITTEN. -/
def soundState (s : State) : Bool :=
  (allHandles.all fun h => (s.job? h).all soundJob) &&
    allDrives.all fun d =>
      decide (s.readers[d.val]).work.Nodup &&
        ((s.readers[d.val]).work.all fun r => (s.leg? r).any fun l =>
          decide (l.target = .drive d) && l.verify && (decide (l.state = .written) || decide (l.state = .verifying))) &&
        ((s.readers[d.val]).work.head?.all fun r => (s.leg? r).all fun l => decide (l.state ≠ .written))

theorem ok_of_soundState (s : State) (h : soundState s = true) : s.outcomesOk ∧ s.headsActive := by
  simp only [soundState, Bool.and_eq_true, List.all_eq_true, decide_eq_true_eq] at h
  obtain ⟨hj, hd⟩ := h
  have mem : ∀ h : Fin 64, h ∈ allHandles := by decide
  have hd := fun d : Fin 6 => hd d (by revert d; decide)
  refine ⟨⟨fun h j e => ?_, fun d => ⟨(hd d).1.1, fun r hr => ?_⟩⟩, fun d r rest l e el => ?_⟩
  · have := hj h (mem h)
    rw [e] at this
    exact outcomeOk_of_soundJob j this
  · have := (hd d).1.2 r hr
    match e : s.leg? r with
    | none => rw [e] at this; cases this
    | some l =>
      rw [e] at this
      simp only [Option.any_some, Bool.and_eq_true, Bool.or_eq_true, decide_eq_true_eq] at this
      exact ⟨l, rfl, this.1.1, this.1.2, this.2⟩
  · have := (hd d).2
    rw [e] at this
    simp only [List.head?_cons, Option.all_some, el, decide_eq_true_eq] at this
    exact this

theorem witness_StepTakesTheFrontCommand : waitingBlock.pending = lastBlock :: [] := rfl

/-- One read tag of I0 set. -/
def withReadTag (g : ReadTag) : State :=
  (reading 8192).modIngest 0 fun p => { p with tags := setEntry p.tags 0 fun _ => g }

/-- After reset nothing is due, whatever the timer. -/
theorem reset_not_isDue (timer : Timer) (c : Instr) : ¬ ({ State.reset with timer := timer } : State).isDue c := by
  have reads : ∀ i k : Fin 8, ¬ ((State.reset.ingest[i.val]).tags[k.val]).due = true := by decide +kernel
  have writes : ∀ t ∈ allTargets, ∀ k : Fin 16, ¬ ((State.reset.writer t).tags[k.val]).due = true := by decide +kernel
  have checks : ∀ (d : Fin 6) (k : Fin 8), ¬ ((State.reset.readers[d.val]).tags[k.val]).due = true := by decide +kernel
  have ends : ∀ t ∈ allTargets, ¬ (State.reset.window t).endDue = true := by decide +kernel
  have all : ∀ t : Target, t ∈ allTargets := fun t => by
    cases t with
    | drive d => revert d; decide
    | sink => decide
  cases c with
  | readTagExpiry i k => exact reads i k
  | writeTagExpiry t k => exact writes t (all t) k
  | checkTagExpiry d k => exact checks d k
  | windowEnd t => exact ends t (all t)
  | _ => exact id

/-- The prescaler's last value but one, its last value, the held part, and an event of each kind due. -/
theorem witness_IdleStepCountsOneClock :
    (∃ s : State, s.pending = [] ∧ s.resetN = false) ∧
      (∃ s : State, s.pending = [] ∧ (∀ c, ¬ s.isDue c) ∧ s.resetN = true ∧ s.timer.prescaler + 1 < 2 ^ s.timer.p ∧
        ¬ (s.timer.prescaler + 2 < 2 ^ s.timer.p)) ∧
      (∃ s : State, s.pending = [] ∧ (∀ c, ¬ s.isDue c) ∧ s.resetN = true ∧ 2 ^ s.timer.p ≤ s.timer.prescaler + 1 ∧
        ¬ (2 ^ s.timer.p ≤ s.timer.prescaler)) ∧
      (withReadTag ⟨.busy 0 1 1 0 0, 1, true⟩).isDue (.readTagExpiry 0 0) ∧
      ((reading 8192).modWindow .sink fun w => { w with endDue := true }).isDue (.windowEnd .sink) :=
  ⟨⟨{ State.reset with resetN := false }, by decide +kernel⟩,
    ⟨{ State.reset with timer := ⟨0, 131070, 17, none⟩ }, rfl, reset_not_isDue _, by decide +kernel⟩,
    ⟨{ State.reset with timer := ⟨0, 131071, 17, none⟩ }, rfl, reset_not_isDue _, by decide +kernel⟩,
    by show _ = true; decide +kernel, by show _ = true; decide +kernel⟩

/-- R139: in an idle run the tick 1,000 after reset finds every window's counter at 0, and the idle steps that follow take the seven
window ends before a further clock. -/
theorem test_idle_window_ends :
    let idle (s : State) : State := match step s with
      | .next t => t
      | .fault _ | .refused _ => s
    let tick999 : State := { State.reset with timer := ⟨999, 131071, 17, none⟩, windows := State.reset.windows.map fun w => { w with counter := 0 } }
    let tick1000 := idle tick999
    let ended := idle (idle (idle (idle (idle (idle (idle tick1000))))))
    tick1000.timer = ⟨1000, 0, 17, none⟩ ∧ (∀ t ∈ allTargets, (tick1000.window t).endDue = true) ∧
      ended.timer = ⟨1000, 0, 17, none⟩ ∧ (∀ t ∈ allTargets, (ended.window t).counter = 999 ∧ (ended.window t).endDue = false) := by
  decide +kernel

/-- R139: with W = 0 every tick ends a window, and with W = 1 every second tick, though no WINDOW_END is taken between the ticks. -/
theorem test_tick_late_ends :
    let s : State := (linked.modWindow .sink fun w => { w with counter := 0, latch := 0, acked := 4 }).modWindow (.drive 0) fun w =>
      { w with counter := 0, latch := 1 }
    let two := after .tick (after .tick s)
    (two.window .sink).rate = 4 ∧ (two.window .sink).acked = 0 ∧ (two.window .sink).endDue = true ∧
      (two.window (.drive 0)).counter = 0 ∧ (two.window (.drive 0)).endDue = false ∧
      ((after .tick two).window (.drive 0)).endDue = true := by decide +kernel

theorem witness_ResetPinHoldsThePart :
    (after .resetNLow linked).resetN = false ∧ linked.resetN = true ∧ Instr.tick ≠ .resetNLow ∧ Instr.tick ≠ .resetNHigh := by
  decide +kernel

theorem witness_PoolStaysCanonical : ∃ s t, s.slots ≠ [] ∧ s.poolOk ∧ step s = .next t :=
  ⟨waitingBlock, _, by decide +kernel, by unfold State.poolOk; decide +kernel, waitingBlock_next⟩

theorem witness_QueuesStayBounded : ∃ s t, s.queuesOk ∧ s.control.unanswered = 1 ∧ step s = .next t :=
  ⟨{ asked 4 [0] (reading 8192) with pending := [.queryJob] }, _, by unfold State.queuesOk; decide +kernel, by decide +kernel,
    step_of_exec .queryJob (asked 4 [0] (reading 8192)) (by decide +kernel) (by decide +kernel)⟩

/-- Nobody waits for a slot here: I0 has requested every block of its job, and no other port or drive has work. -/
theorem witness_WaitersOnlyWhenNoSlotIsFree : ∃ s t, s.waitersOk ∧ s.outcomesOk ∧ step s = .next t := by
  refine ⟨waitingBlock, _, ⟨fun r => ?_, by decide +kernel⟩, (ok_of_soundState _ (by decide +kernel)).1, waitingBlock_next⟩
  have empty : waitingBlock.arbiter.waiting = [] := by decide +kernel
  have ports : ∀ i : Fin 8, waitingBlock.wants (.ingest i) = false := by decide +kernel
  have drives : ∀ d : Fin 6, waitingBlock.wants (.verify d) = false := by decide +kernel
  cases r with
  | ingest i => simp [empty, ports i]
  | verify d => simp [empty, drives d]

theorem witness_LampsFollowTheirInputs : ∃ s t, s.lampsOk ∧ (s.lamps[0]).computed = .busy ∧ step s = .next t :=
  ⟨waitingBlock, _, by unfold State.lampsOk; decide +kernel, by decide +kernel, waitingBlock_next⟩

theorem witness_SettingsStayInRange : ∃ s t, s.settingsOk ∧ s.clockOk ∧ step s = .next t := by
  refine ⟨waitingBlock, _, ⟨?_, ?_, ?_, ?_⟩, ?_, waitingBlock_next⟩
  · unfold IngestPort.inRange; decide +kernel
  · have h : ∀ t ∈ allTargets, (waitingBlock.writer t).inRange ∧ (waitingBlock.window t).inRange := by
      unfold Writer.inRange Window.inRange Pacing.inRange; decide +kernel
    intro t
    refine h t ?_
    cases t with
    | drive d => revert d; decide
    | sink => decide
  · unfold TargetArbiter.inRange; decide +kernel
  · decide +kernel
  · refine ⟨by decide +kernel, by decide +kernel, ?_, by decide +kernel, by decide +kernel⟩
    intro q hq
    have : waitingBlock.timer.stagedP = none := by decide +kernel
    rw [this] at hq
    cases hq

theorem witness_DigestsStayInRange : ∃ s t, s.contextsOk ∧ (s.job? 0).isSome = true ∧ step s = .next t := by
  refine ⟨waitingBlock, _, ?_, by decide +kernel, waitingBlock_next⟩
  intro h j e
  rw [waitingBlock_job h j e]
  unfold DigestContext.inRange
  decide

theorem witness_HadWorkFollowsTheWriters : ∃ s t, s.workNoted ∧ (s.writer (.drive 0)).toDo ∧ step s = .next t := by
  refine ⟨waitingBlock, _, fun t w => ?_, .inr (.inr ⟨0, .inl ⟨⟨0, ⟨0, 0⟩, 0, 1000, 0⟩, 0, by decide +kernel⟩⟩), waitingBlock_next⟩
  have h : ∀ t ∈ allTargets, (waitingBlock.window t).hadWork = true ∨
      ((waitingBlock.writer t).queue = [] ∧ (waitingBlock.writer t).retry = [] ∧
        ∀ k : Fin 16, ((waitingBlock.writer t).tags[k.val]).state = .free) := by decide +kernel
  have all : t ∈ allTargets := by
    clear w
    cases t with
    | drive d => revert d; decide
    | sink => decide
  rcases h t all with y | ⟨q, r, f⟩
  · exact y
  · rcases w with w | w | ⟨k, ⟨v, n, w⟩ | ⟨v, w⟩⟩
    · exact absurd q w
    · exact absurd r w
    · rw [f k] at w; cases w
    · rw [f k] at w; cases w

/-- The invariants hold, and the loss of the card ends job 0 in the step. -/
theorem witness_EveryEndIsAnnounced :
    ∃ s t k, s.endsAnnounced ∧ s.sessionsOk ∧ ¬ fullResets (.ingestMediaReport 0 none) s ∧
      exec (.ingestMediaReport 0 none) s = .next t ∧ step { s with pending := [.ingestMediaReport 0 none] } = .next t ∧
      t.job? 0 = some k ∧ k.state.terminal = true ∧ (∀ j, s.job? 0 = some j → j.state.terminal = false) := by
  have hk : ∃ k, (after (.ingestMediaReport 0 none) (reading 8192)).job? 0 = some k ∧ k.state.terminal = true :=
    have h : ((after (.ingestMediaReport 0 none) (reading 8192)).job? 0).any (fun k => k.state.terminal) = true := by decide +kernel
    match e : (after (.ingestMediaReport 0 none) (reading 8192)).job? 0 with
    | some k => ⟨k, rfl, by rw [e] at h; exact h⟩
    | none => by rw [e] at h; cases h
  obtain ⟨k, e, ht⟩ := hk
  refine ⟨reading 8192, _, k, ?_, by unfold State.sessionsOk; decide +kernel, by unfold fullResets; decide +kernel,
    next_of_exec _ _ (by decide +kernel), step_of_exec _ _ (by decide +kernel) (by decide +kernel), e, ht, ?_⟩
  · intro h j e
    rw [waitingBlock_job h j e]
    decide
  · intro j e
    rw [waitingBlock_job 0 j e]
    decide

theorem witness_AssignedRangesStayDisjoint : ∃ s t, s.rangesOk ∧ s.assignedRanges 0 = [⟨1000, 1001⟩] ∧ step s = .next t := by
  refine ⟨waitingBlock, _, ?_, by decide +kernel, waitingBlock_next⟩
  intro d
  have h : ∀ d : Fin 6, (waitingBlock.drives[d.val]).staged = none ∧
      (waitingBlock.assignedRanges d = [] ∨
        waitingBlock.assignedRanges d = [⟨1000, 1001⟩] ∧ (waitingBlock.drives[d.val]).pointer = 1002) ∧
      ((waitingBlock.drives[d.val]).current = none ∨
        (waitingBlock.drives[d.val]).current = some ⟨1000, 1099⟩ ∧ (waitingBlock.drives[d.val]).pointer = 1002) := by decide +kernel
  obtain ⟨hs, hr, hc⟩ := h d
  refine ⟨?_, ?_, ?_, ?_⟩
  · intro c e
    rcases hc with n | ⟨y, p⟩
    · rw [n] at e; cases e
    · rw [y] at e; cases e; rw [p]; decide
  · rcases hr with n | ⟨y, -⟩ <;> simp_all
  · rcases hr with n | ⟨y, p⟩
    · simp [n]
    · rw [y]
      rintro r hr a ⟨h1, h2⟩ ⟨c, -, h3, -⟩
      simp only [List.mem_singleton] at hr
      subst hr
      rw [p] at h3
      simp only at h2
      omega
  · intro q e
    rw [hs] at e
    cases e

theorem witness_LinksNeverWaitIdle : ∃ s t, s.linksServed ∧ step s = .next t := by
  refine ⟨waitingBlock, _, ⟨by unfold State.writeReady State.checkReady; decide +kernel, ?_⟩, waitingBlock_next⟩
  intro _ e
  have : waitingBlock.control.sending = some .sink := by decide +kernel
  rw [this] at e
  cases e

/-- Job 0 is SETTLING with one leg still WRITING, on T6: its last write is out; the ingest digest is final. -/
def lastWrite (required : Nat) : State :=
  ((reading 4096).modJob 0 fun j =>
    { j with
      state := .settling, required := required, ingest := ⟨1, 0, 1, some 5⟩
      legs := [legOf (.drive 0) true .deferred 1000, legOf .sink false .writing 0] }).modIngest 0 fun p => { p with reading := none }

/-- T0's verify work list is not empty. -/
def busyList : State :=
  (((reading 4096).setJob 1 (some { jobOf .settling .verifying 8192 with legs := [legOf (.drive 0) true .verifying 1010] })).modReader 0
    fun v => { v with work := [⟨1, 0⟩] })

/-- For OutcomesStandUntilRelease and the four statements on what moves what. -/
theorem witness_OutcomesStandUntilRelease :
    (∃ c s t, c ≠ .releaseJob ∧ ¬ fullResets c s ∧ exec c s = .next t ∧ (s.job? 0).isSome = true ∧ c ≠ .tick) ∧
      ∃ s t, s.outcomesOk ∧ s.headsActive ∧ (s.readers[0]).work ≠ [] ∧ step s = .next t :=
  ⟨⟨lastBlock, reading 8192, _, by decide +kernel, by unfold fullResets; decide +kernel, lastBlock_next, by decide +kernel, by decide +kernel⟩,
    { verifying with pending := [.tick] }, _, (ok_of_soundState _ (by decide +kernel)).1, (ok_of_soundState _ (by decide +kernel)).2,
    by decide +kernel, step_of_exec .tick verifying (by decide +kernel) (by decide +kernel)⟩

/-- A LOADED job 1 with one leg waits in I0's line-up. -/
def linedUp (t : Target) : State :=
  let leg : Leg := { legOf t false .idle 0 with base := none, sent := 0 }
  ((reading 8192).setJob 1 (some { jobOf .loaded .idle 4096 with legs := [leg], requested := 0, arrived := 0 })).modIngest 0 fun p => { p with lineUp := [1] }

/-- The clauses of sequencersOk, read off a state. -/
def soundSequencers (s : State) : Bool :=
  (allIngest.all fun i =>
    let p := s.ingest[i.val]
    (p.reading.all fun h => p.media.isSome && (s.job? h).any fun j => decide (j.port = i) && decide (j.state = .reading) &&
        decide (j.arrived + p.busyReads = j.requested) && decide (j.requested ≤ j.blocks)) &&
      (allIngest.all fun k => match (p.tags[k.val]).state with | .busy h _ _ _ _ => decide (p.reading = some h) | .free | .abandoned _ => true) &&
      (decide p.lineUp.Nodup && (p.lineUp.all fun h => (s.job? h).any fun j => decide (j.port = i) && decide (j.state = .loaded)) &&
        (p.reading.isSome || decide (p.lineUp = [])))) &&
    allHandles.all fun h => (s.job? h).all fun j =>
      let p := s.ingest[j.port.val]
      (decide (j.state ≠ .reading) || decide (p.reading = some h)) &&
        (decide (j.state ≠ .loaded) || (decide (h ∈ p.lineUp) && decide (j.requested = 0) && decide (j.arrived = 0) && p.media.isSome))

theorem sequencersOk_of_sound (s : State) (h : soundSequencers s = true) : s.sequencersOk := by
  simp only [soundSequencers, Bool.and_eq_true, List.all_eq_true, decide_eq_true_eq, Bool.or_eq_true, Option.any_eq_true,
    Option.all_eq_true, ne_eq] at h
  obtain ⟨hp, hj⟩ := h
  have all : ∀ i : Fin 8, i ∈ allIngest := by decide
  have port := fun i => hp i (all i)
  have job := fun h : Fin 64 => hj h (by revert h; decide)
  refine ⟨fun i h e => ?_, fun h j e r => ?_, fun i k h a b c d e => ?_, fun i => ⟨(port i).2.1.1, fun h m => ?_⟩, fun h j e l => ?_, fun i e => ?_⟩
  · obtain ⟨m, j, ej, ⟨⟨⟨a, b⟩, c⟩, d⟩⟩ := (port i).1.1 h e
    exact ⟨Option.isSome_iff_ne_none.mp m, j, ej, a, b, c, d⟩
  · exact ((job h j e).1).resolve_left fun n => n r
  · have := (port i).1.2 k (all k)
    rw [e] at this
    exact of_decide_eq_true this
  · obtain ⟨j, ej, a, b⟩ := (port i).2.1.2 h m
    exact ⟨j, ej, a, b⟩
  · obtain ⟨⟨⟨a, b⟩, c⟩, d⟩ := ((job h j e).2).resolve_left fun n => n l
    exact ⟨a, b, c, Option.isSome_iff_ne_none.mp d⟩
  · exact (port i).2.2.resolve_left fun n => by rw [e] at n; cases n

/-- A port that reads and one whose line-up waits; and the ends of the reading job by its own port's card, read and cancel. -/
theorem witness_OutcomesStandUntilRelease_sequencers :
    (∃ s t, s.outcomesOk ∧ s.sequencersOk ∧ step s = .next t) ∧
      (∀ s ∈ [reading 8192, linedUp (.drive 0), verifying, asked 2 [0] (reading 8192)], soundSequencers s = true ∧ soundState s = true) ∧
      (∀ x ∈ [(Instr.ingestMediaReport 0 none, reading 8192, JobCause.sourceLost),
          (.readTagExpiry 0 0, withReadTag ⟨.busy 0 1 1 0 2, 1, true⟩, .sourceReadError), (.cancelJob, asked 2 [0] (reading 8192), .cancelled)],
        soundSequencers x.2.1 = true ∧ gives x.1 x.2.1 (fun t => (t.job? 0).any fun k =>
          decide (k.port = 0) && decide (k.cause = some x.2.2)) = true) :=
  ⟨⟨waitingBlock, _, (ok_of_soundState _ (by decide +kernel)).1, sequencersOk_of_sound _ (by decide +kernel), waitingBlock_next⟩, by decide +kernel, by decide +kernel⟩

/-- An acknowledgement that ends the job, DONE or FAILED; and an end that was due before, which a tick leaves due. -/
theorem witness_OutcomesStandUntilRelease_ends :
    (∀ x ∈ [(1, JobState.done), (2, .failed)],
      soundState (lastWrite x.1) = true ∧ ((lastWrite x.1).job? 0).map Job.state = some .settling ∧
        gives (.sinkDone 0 1 .ok) (lastWrite x.1) (fun t => (t.job? 0).any fun k => decide (k.state = x.2)) = true) ∧
      (let s := (reading 8192).modJob 0 fun j => { j with legs := j.legs.map fun l => { l with state := .failed } };
        soundState s = true ∧ gives .tick s (fun t => (t.job? 0).any fun k =>
          decide (k.state = .reading) && k.legs.all fun l => !l.state.viable) = true) := by decide +kernel

theorem witness_SlotCountsSumToThePool : (reading 8192).poolOk ∧ (reading 8192).heldSlots = 1 ∧ (reading 8192).reservedSlots = 1 := by
  unfold State.poolOk
  decide +kernel

theorem witness_SettingsMoveOnlyByTheirEvents : ∃ c s t,
    ¬ fullResets c s ∧ exec c s = .next t ∧ c ≠ .setIngest ∧ c ≠ .setTarget ∧ (∀ x, c ≠ .windowEnd x) ∧ c ≠ .setLamp ∧ c ≠ .setTick ∧
      c ≠ .tick ∧ (s.window .sink).endDue = false :=
  ⟨lastBlock, reading 8192, _, by unfold fullResets; decide +kernel, lastBlock_next, by decide +kernel, by decide +kernel,
    fun _ h => by simp [lastBlock] at h, by decide +kernel, by decide +kernel, by decide +kernel, by decide +kernel⟩

/-- A notice that finds 31 in the queue, one that finds 32, and the end of a notice's transmission, after which the queue has room. -/
theorem witness_LinksAndFlagsFollowTheirEvents_notices :
    let removed : Instr := .ingestMediaReport 0 none
    let s (n : Nat) : State := { linked with handler := { fullQueue with notices := fullQueue.notices.take n, noticeLost := false } }
    (∀ n ∈ [31, 32], (¬ fullResets removed (s n)) ∧ gives removed (s n) (fun t =>
      decide (t.handler.notices.length = 32) && decide (t.handler.noticeLost = decide (n = 32))) = true) ∧
      (let busy := { s 32 with control := { linked.control with sending := some .notice } };
        (¬ fullResets .cTxEnd busy) ∧ gives .cTxEnd busy (fun t => decide (t.handler.notices.length = 31)) = true) := by
  unfold fullResets
  decide +kernel

/-- A flag that is set by the event (by a discard, by a command that no frame can be, by a ninth request), and one that stands through it. -/
theorem witness_LinksAndFlagsFollowTheirEvents :
    (∀ x ∈ [(Port.ingest 0, Instr.frameDiscard (.ingest 0) ⟨[2, 0], .startDelimiter⟩), (.ingest 0, .blockData 0 0 0 (.ok [])),
        (.control, .request 0 1 [])],
      let s := { linked with control := { linked.control with unanswered := 8 } }
      gives x.2 s (fun _ => true) = true ∧ (s.link x.1).discard = false ∧ ((after x.2 s).link x.1).discard = true) ∧
      (¬ fullResets (.blockData 0 0 0 (.ok [])) linked) ∧
      ∃ c s t, ¬ fullResets c s ∧ exec c s = .next t ∧ c ≠ .queryPart ∧ (s.link (.ingest 1)).discard = true :=
  ⟨by decide +kernel, by unfold fullResets; decide +kernel,
    ⟨.linkDown (.drive 0), linked.discard (.ingest 1) .endDelimiter, _, by unfold fullResets; decide +kernel,
      next_of_exec _ _ (by decide +kernel), by decide +kernel, by decide +kernel⟩⟩

/-- The tick, and another command. -/
theorem witness_LampLinesAreSetAtTicks :
    (reading 8192).resetN = true ∧ (∀ x ∈ allTargets, ((reading 8192).window x).endDue = false) ∧ ∃ c s t, c ≠ .tick ∧ ¬ fullResets c s ∧ exec c s = .next t :=
  ⟨by decide +kernel, by decide +kernel, lastBlock, reading 8192, _, by decide +kernel, by unfold fullResets; decide +kernel, lastBlock_next⟩

theorem witness_MediaAndRegionsMoveOnlyByTheirEvents : ∃ c s t,
    ¬ fullResets c s ∧ exec c s = .next t ∧ (∀ r, c ≠ .ingestMediaReport 0 r) ∧ c ≠ .linkDown (.ingest 0) ∧
      (∀ r, c ≠ .targetMediaReport 0 r) ∧ c ≠ .linkDown (.drive 0) ∧ c ≠ .resetPort ∧ c ≠ .setTarget ∧ (s.drives[0]).media ≠ none :=
  ⟨lastBlock, reading 8192, _, by unfold fullResets; decide +kernel, lastBlock_next, fun _ h => by simp [lastBlock] at h, by decide +kernel,
    fun _ h => by simp [lastBlock] at h, by decide +kernel, by decide +kernel, by decide +kernel, by decide +kernel⟩

/-- The largest A and B, the largest word, the modulus itself and the word below it. -/
theorem witness_DigestWordRule :
    (DigestContext.mk 4294967290 4294967290 0 none).inRange ∧ 4294967295 < 2 ^ 32 ∧ 4294967291 ≤ 4294967295 ∧ ¬ (4294967291 ≤ 4294967290) ∧
      [1, 2, 3].Perm [3, 1, 2] := by
  refine ⟨by unfold DigestContext.inRange; decide, by decide, by decide, by decide, by decide⟩

theorem witness_DigestFinalisation : 4294967290 < 4294967291 := by decide

/-- The first and the last block of 4,097 bytes. -/
theorem witness_DigestTakesOnlyValidBytes :
    zeros.length = 4096 ∧ 0 < blockCount 4097 ∧ 0 + 1 < blockCount 4097 ∧ 1 < blockCount 4097 ∧ ¬ (1 + 1 < blockCount 4097) ∧
      0 < (wordsOf [1, 2, 3, 4, 5]).length := by decide +kernel

/-- The greatest operands, at the greatest count that leaves room; and a frame that is no REQUEST at the count that leaves none. -/
theorem witness_ReceivedFramesAreReadBack :
    (∃ (c : Instr) (p : Port) (bytes : List Byte) (unanswered : Nat),
      c.wellFormed = true ∧ unanswered < 8 ∧ ¬ (unanswered + 1 < 8) ∧ frameFor c = some (p, bytes)) ∧
    ∃ (c : Instr) (p : Port) (bytes : List Byte), c.wellFormed = true ∧ ((∃ seq kind body, c = .request seq kind body) → 8 < 8) ∧
      frameFor c = some (p, bytes) :=
  ⟨⟨.request 0xFFFF 0xFF (List.replicate 4096 0xFF), .control, _, 7, by decide +kernel, by decide, by decide, rfl⟩,
    ⟨.sinkDone 255 15 .ok, .control, _, by decide, (fun ⟨_, _, _, e⟩ => by cases e), rfl⟩⟩

/-- A frame with a good check: its header and its payload. -/
def framed (kind status : Nat) (payload : List Byte) : RxFrame :=
  ⟨withCheck (headerBytes kind 0 0 status payload.length 0 [] ++ payload), .endDelimiter⟩

/-- A row of Table 9-2 or of Table 9-3 that each frame breaks, beside frames that break none. -/
theorem witness_FaultyFramesAreDiscarded :
    (∀ x ∈ [(Port.ingest 0, 0, RxFrame.mk [2, 0] .startDelimiter), (.ingest 0, 0, ⟨[], .noDelimiter⟩),
        (.ingest 0, 0, ⟨List.replicate 20 0, .endDelimiter⟩), (.ingest 0, 0, framed 4 0 []), (.drive 0, 0, framed 2 1 []),
        (.control, 0, framed 7 0 (List.replicate 24 0)), (.ingest 0, 0, framed 2 0 [1, 2, 3, 4]), (.drive 0, 0, framed 4 0 [0]),
        (.drive 0, 0, framed 4 1 []), (.control, 0, framed 12 3 []), (.ingest 0, 0, framed 7 0 (2 :: List.replicate 23 0)),
        (.drive 0, 0, framed 7 0 ([1] ++ List.replicate 15 0 ++ leBytes 8 (2 ^ 40 + 1))), (.control, 8, framed 8 0 [])],
      commandOf x.1 x.2.1 x.2.2 = none) ∧
    (∀ x ∈ [(Port.ingest 0, 0, framed 2 1 []), (.drive 0, 0, framed 4 3 []), (.control, 0, framed 12 2 []),
        (.drive 0, 0, framed 7 0 ([1] ++ List.replicate 15 0 ++ leBytes 8 (2 ^ 40))), (.control, 7, framed 8 0 [])],
      commandOf x.1 x.2.1 x.2.2 ≠ none) := by decide +kernel

/-- A state for each discard, with operands that no frame can carry. -/
theorem witness_FaultyFramesAreDiscarded_discards :
    linked.resetN = true ∧ linked.linkUp (.ingest 0) = true ∧ linked.linkUp (.drive 0) = true ∧ linked.linkUp .control = true ∧
      (RxFrame.mk [2, 0] .startDelimiter).ended ≠ .endDelimiter ∧ ([] : List Byte).length ≠ 4096 ∧
      2 ^ 40 < (Media.mk 1 (2 ^ 40 + 1)).capacity ∧ 4096 < (List.replicate 4097 (0 : Byte)).length := by decide +kernel

/-- A delimiter, the byte that makes the count pass 4,116, and the last byte before it. -/
theorem witness_FaultyFramesAreDiscarded_count :
    (RxFrame.mk [2, 0] .startDelimiter).ended ≠ .noDelimiter ∧ 4116 < (List.replicate 4117 (0 : Byte)).length ∧
      (RxFrame.mk (List.replicate 4116 0) .noDelimiter).ended = .noDelimiter ∧ (List.replicate 4116 (0 : Byte)).length ≤ 4116 := by
  decide +kernel

theorem witness_LinkUpOpensThePort : State.reset.resetN = true ∧ State.reset.linkUp .control = false := by decide +kernel

theorem witness_CardLinkDownResetsThePort :
    (reading 8192).resetN = true ∧ (reading 8192).linkUp (.ingest 0) = true ∧ ((reading 8192).ingest[0]).media ≠ none := by decide +kernel

/-- A SETTLING job of a port that reads nothing, and of one that reads a job without a leg in a verify work list. -/
theorem witness_CardLinkDownResetsThePort_settling :
    verifying.headsActive ∧ (verifying.job? 0).map (fun j => (j.port, j.state)) = some (0, .settling) ∧
      (verifying.ingest[0]).reading = none ∧ (verifying.ingest[0]).media ≠ none ∧
      (busyList.job? 1).map (fun j => (j.port, j.state)) = some (0, .settling) ∧ (busyList.ingest[0]).reading = some 0 ∧
      (busyList.readers[0]).work = [⟨1, 0⟩] ∧ busyList.headsActive :=
  ⟨(ok_of_soundState _ (by decide +kernel)).2, by decide +kernel, by decide +kernel, by decide +kernel, by decide +kernel, by decide +kernel,
    by decide +kernel, (ok_of_soundState _ (by decide +kernel)).2⟩

/-- What a WRITING leg that ends otherwise takes with it, on T0 and on T6: a slot that names the target, one that is digested and owed to
no other, and a sent tag of the writer. -/
def owedOnly (x : Target) : State :=
  { reading 8192 with slots := [⟨0, 0, 0, .ingest [x], some ⟨zeros, true, false, false⟩⟩, ⟨1, 0, 1, .ingest [x], none⟩], digest := ⟨[], none⟩ }

theorem witness_slotsSettled :
    (∀ x ∈ [Target.drive 0, .sink], soundState (owedOnly x) = true ∧ poolWf (owedOnly x).slots = true ∧
      (owedOnly x).legOnIs 0 x (fun z => decide (z = .writing)) = true ∧
      ((owedOnly x).slot? 0).map (fun y => (y.job, y.owed, y.held.map HeldBlock.digested)) = some (0, [x], some true) ∧
      (((owedOnly x).writer x).tags[0]).isFor 0 = true) ∧
    (∀ x ∈ [Target.drive 0, .sink], (owedOnly x).owedByWriting x) ∧ ∀ h j, (owedOnly .sink).job? h = some j → j.state ≠ .loaded := by
  refine ⟨by decide +kernel, by unfold State.owedByWriting; decide +kernel, fun h j e => ?_⟩
  have all : ∀ h : Fin 64, ((owedOnly .sink).job? h).all (fun j => decide (j.state ≠ .loaded)) = true := by decide +kernel
  have := all h
  rw [e] at this
  exact of_decide_eq_true this

theorem witness_DriveLinkDownResetsTheTarget :
    (reading 8192).resetN = true ∧ (reading 8192).linkUp (.drive 0) = true ∧ ((reading 8192).drives[0]).media ≠ none ∧
      (reading 8192).outcomesOk ∧ (∀ y ∈ (reading 8192).slots, .drive 0 ∈ y.owed →
        (reading 8192).legOnIs y.job (.drive 0) (fun x => decide (x = .writing)) = true) ∧ (reading 8192).occupancy (.drive 0) = 2 :=
  ⟨by decide +kernel, by decide +kernel, by decide +kernel, (ok_of_soundState _ (by decide +kernel)).1, by decide +kernel, by decide +kernel⟩

/-- With and without a RESET_PART whose response has not left. -/
theorem witness_ControlLinkDownCleansUp :
    (reading 8192).resetN = true ∧ (reading 8192).linkUp .control = true ∧ (reading 8192).handler.taking = false ∧
      (after .resetPart (asked 12 [] linked)).resetN = true ∧ (after .resetPart (asked 12 [] linked)).linkUp .control = true ∧
      (after .resetPart (asked 12 [] linked)).handler.taking = true := by decide +kernel

/-- A file of three blocks: the second block's arrival is not the last. -/
theorem witness_BlockDataFillsItsSlot :
    let s := reading 12288
    s.resetN = true ∧ s.linkUp (.ingest 0) = true ∧ (s.ingest[0]).tags[0] = ⟨.busy 0 1 1 0 0, 1, false⟩ ∧ zeros.length = 4096 ∧
      s.slot? 1 = some ⟨1, 0, 1, .ingest [.drive 0, .sink], none⟩ ∧ [Target.drive 0, .sink].Nodup ∧
      s.job? 0 = some (jobOf .reading .writing 12288) ∧
      ((jobOf .reading .writing 12288).arrived + 1 = (jobOf .reading .writing 12288).blocks →
        (jobOf .reading .writing 12288).state ≠ .reading) := by decide +kernel

/-- With nothing in the line-up; with a job there whose leg is placed; and with one whose leg on an absent drive is lost. -/
theorem witness_LastBlockEndsTheReading :
    (∀ s ∈ [reading 8192, linedUp .sink, linedUp (.drive 5)],
      s.resetN = true ∧ s.linkUp (.ingest 0) = true ∧ (s.ingest[0]).tags[0] = ⟨.busy 0 1 1 0 0, 1, false⟩ ∧ zeros.length = 4096 ∧
        s.job? 0 = some (jobOf .reading .writing 8192) ∧
        (jobOf .reading .writing 8192).arrived + 1 = (jobOf .reading .writing 8192).blocks ∧
        (jobOf .reading .writing 8192).state = .reading ∧
        s.slot? 1 = some ⟨1, 0, 1, .ingest [.drive 0, .sink], none⟩ ∧ [Target.drive 0, .sink].Nodup) ∧
      ((reading 8192).ingest[0]).lineUp = [] ∧
      (∀ x ∈ [(Target.sink, true), (.drive 5, false)], ((linedUp x.1).ingest[0]).lineUp = [1] ∧
        ((linedUp x.1).job? 1).any (fun q => decide (q.state = .loaded) && soundJob q && decide (q.blocks ≠ 0) &&
          decide ((q.legs.map ((linedUp x.1).placedLeg q.blocks)).any (fun l => decide (l.state = .writing)) = x.2)) = true) := by
  decide +kernel

/-- Table 11-8: job 1, of no blocks, stands behind job 0, which is READING; T0's verify work list holds job 2, active. -/
def emptyBehind : State :=
  let legs (t : Target) : Leg := { legOf t (decide (t = .drive 0)) .idle 0 with base := none, sent := 0 }
  let s := (linedUp .sink).modJob 1 fun j => { j with length := 0, required := 2, legs := [legs (.drive 0), legs .sink] }
  (s.setJob 2 (some { jobOf .settling .verifying 8192 with legs := [legOf (.drive 0) true .verifying 1010] })).modReader 0
    fun v => { v with work := [⟨2, 0⟩] }

/-- The next job of no blocks: with a leg to wait and one to end at once; with a leg to end at once alone; and with no viable leg. -/
theorem witness_LastBlockEndsTheReading_empty :
    (∀ x ∈ [(emptyBehind, true), ((linedUp .sink).modJob 1 fun j => { j with length := 0 }, true),
        ((linedUp (.drive 5)).modJob 1 fun j => { j with length := 0 }, false)],
      (x.1.ingest[0]).tags[0] = ⟨.busy 0 1 1 0 0, 1, false⟩ ∧ x.1.job? 0 = some (jobOf .reading .writing 8192) ∧
        x.1.slot? 1 = some ⟨1, 0, 1, .ingest [.drive 0, .sink], none⟩ ∧ (x.1.ingest[0]).lineUp = [1] ∧ soundState x.1 = true ∧
        (x.1.job? 1).any (fun q => decide (q.state = .loaded) && soundJob q && decide (q.blocks = 0) && q.ingest.final.isNone &&
          decide ((q.legs.map (x.1.placedLeg q.blocks)).any (fun l => decide (l.state = .writing)) = x.2)) = true) := by decide +kernel

/-- Table 11-8, at job 29's last arrival. -/
theorem test_lastBlock_starts_empty :
    gives lastBlock emptyBehind (fun t =>
      (t.job? 1).any (fun k => decide (k.state = .settling ∧ k.ingest.final = some 0x0000000100000001) &&
        decide (k.legs.map (fun l => (l.state, l.base)) = [(.written, some 1002), (.good, some 0)])) &&
      decide ((t.readers[0]).work = [⟨2, 0⟩, ⟨1, 0⟩]) && (t.ingest[0]).reading.isNone) = true := by decide +kernel

/-- The last attempt that is retried, with the tag found expired. -/
theorem witness_ReadRetriesOnItsTag :
    let s := withReadTag ⟨.busy 0 1 1 0 1, 1, true⟩
    s.resetN = true ∧ (s.ingest[0]).tags[0] = ⟨.busy 0 1 1 0 1, 1, true⟩ ∧ 1 < (s.ingest[0]).retryLimit ∧
      ¬ (2 < (s.ingest[0]).retryLimit) ∧ (s.job? 0).isSome = true ∧ s.linkUp (.ingest 0) = true := by decide +kernel

/-- The first attempt that is not. -/
theorem witness_ExhaustedReadFailsTheJob :
    let s := withReadTag ⟨.busy 0 1 1 0 2, 1, true⟩
    s.resetN = true ∧ (s.ingest[0]).tags[0] = ⟨.busy 0 1 1 0 2, 1, true⟩ ∧ (s.ingest[0]).retryLimit ≤ 2 ∧
      s.job? 0 = some (jobOf .reading .writing 8192) ∧ (jobOf .reading .writing 8192).state.terminal = false ∧
      s.linkUp (.ingest 0) = true := by decide +kernel

/-- Tag number 8, which no read tag has; a FREE tag; a BUSY tag of another generation; each owner's link UP. -/
theorem witness_StaleAnswersChangeNothing :
    let s := reading 8192
    s.resetN = true ∧ s.linkUp (.ingest 0) = true ∧ s.linkUp (.drive 0) = true ∧ s.linkUp .control = true ∧
      ReadAnswer.readError.wellFormed = true ∧ (∀ k : Fin 8, (8 : Byte) ≠ BitVec.ofNat 8 k.val) ∧
      ((s.ingest[0]).tags[7]).state = .free ∧ ((s.writer (.drive 0)).tags[15]).state = .free ∧
      (s.ingest[0]).tags[0] = ⟨.busy 0 1 1 0 0, 1, false⟩ ∧ (0 : Gen) ≠ 1 ∧
      (s.writer (.drive 0)).tags[0] = ⟨.sent ⟨0, ⟨0, 0⟩, 0, 1000, 0⟩ 0, 1, false⟩ ∧
      (s.writer .sink).tags[0] = ⟨.sent ⟨0, ⟨0, 1⟩, 0, 0, 0⟩ 0, 1, false⟩ ∧
      (verifying.readers[0]).tags[3] = ⟨.sent ⟨2, ⟨0, 0⟩, 0, 1000, 0⟩ 0, 4, false⟩ := by decide +kernel

/-- An ABANDONED tag of each owner, found expired. -/
theorem witness_AbandonedTagsAreFreed :
    (let s := withReadTag ⟨.abandoned 0, 1, true⟩;
      s.resetN = true ∧ (s.ingest[0]).tags[0] = ⟨.abandoned 0, 1, true⟩ ∧ s.linkUp (.ingest 0) = true) ∧
    (∀ x ∈ [Target.drive 0, .sink],
      let s := linked.modWriter x fun w => { w with tags := setEntry w.tags 15 fun _ => ⟨.abandoned 0, 15, true⟩ }
      s.resetN = true ∧ (s.writer x).tags[15] = ⟨.abandoned 0, 15, true⟩ ∧ s.linkUp (targetPort x) = true) ∧
    (let s := linked.modReader 5 fun v => { v with tags := setEntry v.tags 7 fun _ => ⟨.abandoned 0, 0, true⟩ };
      s.resetN = true ∧ (s.readers[5]).tags[7] = ⟨.abandoned 0, 0, true⟩ ∧ s.linkUp (.drive 5) = true) := by decide +kernel

/-- No card in I1; in I0 a card, reported again with the greatest capacity, and another card. -/
theorem witness_CardReportsChangeTheMedia :
    let s := reading 8192
    s.resetN = true ∧ s.linkUp (.ingest 0) = true ∧ s.linkUp (.ingest 1) = true ∧ (s.ingest[1]).media = none ∧
      (s.ingest[0]).media = some ⟨7, 100⟩ ∧ (Media.mk 7 (2 ^ 40)).capacity ≤ 2 ^ 40 ∧
      (Media.mk 7 100).identity = (Media.mk 7 (2 ^ 40)).identity ∧ (Media.mk 7 100).identity ≠ (Media.mk 8 100).identity := by decide +kernel

/-- The first and the last index of a run. -/
theorem witness_CardAddressesFollowTheRuns :
    ([⟨4096, 100⟩].map Run.count).sum ≤ 100 ∧ 100 < ([⟨4096, 100⟩].map Run.count).sum + (Run.mk 8000 145).count ∧
      ([⟨4096, 100⟩].map Run.count).sum ≤ 244 ∧ 244 < ([⟨4096, 100⟩].map Run.count).sum + (Run.mk 8000 145).count := by decide

theorem witness_DriveReportsChangeTheMedia :
    (let s := reading 8192;
      s.resetN = true ∧ s.linkUp (.drive 0) = true ∧ s.linkUp (.drive 1) = true ∧ (s.drives[1]).media = none ∧
        (s.drives[0]).media = some ⟨9, 5000⟩ ∧ (Media.mk 9 (2 ^ 40)).capacity ≤ 2 ^ 40 ∧
        (Media.mk 9 5000).identity = (Media.mk 9 (2 ^ 40)).identity ∧ (Media.mk 9 5000).identity ≠ (Media.mk 8 100).identity) ∧
      (reading 8192).outcomesOk :=
  ⟨by decide +kernel, (ok_of_soundState _ (by decide +kernel)).1⟩

/-- On T0 and on T6; with two blocks the first acknowledgement is not the leg's last, with one block it is; and with the leg's last block a
verify work list that is empty or not, and a job that is not settled, DONE or FAILED by it. -/
theorem witness_AcknowledgementsCompleteWrites :
    (∀ n ∈ [4096, 8192],
      let s := reading n
      s.resetN = true ∧ s.linkUp (.drive 0) = true ∧ s.linkUp .control = true ∧ poolWf s.slots = true ∧
        (s.writer (.drive 0)).tags[0] = ⟨.sent ⟨0, ⟨0, 0⟩, 0, 1000, 0⟩ 0, 1, false⟩ ∧
        (s.writer .sink).tags[0] = ⟨.sent ⟨0, ⟨0, 1⟩, 0, 0, 0⟩ 0, 1, false⟩ ∧
        s.leg? ⟨0, 0⟩ = some (legOf (.drive 0) true .writing 1000) ∧ s.leg? ⟨0, 1⟩ = some (legOf .sink false .writing 0) ∧
        s.job? 0 = some (jobOf .reading .writing n) ∧
        (s.slot? 0).map Slot.kind = some (.ingest [.drive 0, .sink])) ∧
      (legOf .sink false .writing 0).acked + 1 = (jobOf .reading .writing 4096).blocks ∧
      ¬ ((legOf .sink false .writing 0).acked + 1 = (jobOf .reading .writing 8192).blocks) ∧
      (legOf .sink false .writing 0).state = .writing ∧ (legOf .sink false .writing 0).verify = false ∧
      (∀ s ∈ [reading 4096, busyList, lastWrite 1, lastWrite 2], soundState s = true ∧ poolWf s.slots = true ∧
        (s.writer .sink).tags[0] = ⟨.sent ⟨0, ⟨0, 1⟩, 0, 0, 0⟩ 0, 1, false⟩ ∧ s.leg? ⟨0, 1⟩ = some (legOf .sink false .writing 0) ∧
        (s.job? 0).map Job.blocks = some 1) ∧
      ((reading 4096).readers[0]).work = [] ∧ (busyList.readers[0]).work = [⟨1, 0⟩] ∧
      (∀ n ∈ [1, 2], ((lastWrite n).job? 0).any (fun j => decide (j.state = .settling) && decide (j.expected = none) &&
        decide (j.ingest.final = some 5) && decide (j.required = n)) = true) := by
  decide +kernel

/-- One write tag of a target set, to an attempt of block 0's write, found expired. -/
def withWriteTag (x : Target) (leg attempt : Nat) : State :=
  (reading 8192).modWriter x fun w => { w with tags := setEntry w.tags 0 fun _ => ⟨.sent ⟨0, ⟨0, leg⟩, 0, 1000, attempt⟩ 0, 1, true⟩ }

/-- The last attempt that is retried and the first that is not, on T0 and on T6; and on each a sound job whose
other leg is viable no more. -/
theorem witness_WriteFailuresRetryOrFailTheLeg :
    (∀ x ∈ [(Target.drive 0, 0), (.sink, 1)],
      (let s := withWriteTag x.1 x.2 1;
        s.resetN = true ∧ (s.writer x.1).tags[0] = ⟨.sent ⟨0, ⟨0, x.2⟩, 0, 1000, 1⟩ 0, 1, true⟩ ∧ 1 < (s.writer x.1).retryLimit ∧
          s.linkUp (targetPort x.1) = true) ∧
      (let s := withWriteTag x.1 x.2 2;
        s.resetN = true ∧ (s.writer x.1).tags[0] = ⟨.sent ⟨0, ⟨0, x.2⟩, 0, 1000, 2⟩ 0, 1, true⟩ ∧ (s.writer x.1).retryLimit ≤ 2 ∧
          s.legOn 0 x.1 = some ⟨0, x.2⟩ ∧ (s.leg? ⟨0, x.2⟩).map Leg.state = some .writing)) ∧
    (∀ x ∈ [(Target.sink, (1 : Nat), (0 : Nat)), (.drive 0, 0, 1)],
      let st (n : Nat) : LegState := if n = x.2.1 then .writing else .failed
      let s := (withWriteTag x.1 x.2.1 2).modJob 0 fun j => { j with legs := [legOf (.drive 0) true (st 0) 1000, legOf .sink false (st 1) 0] }
      s.legOn 0 x.1 = some ⟨0, x.2.1⟩ ∧ (s.leg? ⟨0, x.2.1⟩).map Leg.state = some .writing ∧ (s.job? 0).map Job.state = some .reading ∧
        (s.leg? ⟨0, x.2.2⟩).map (fun l => l.state.viable) = some false ∧ soundState s = true) := by decide +kernel

/-- A write is eligible on T0 on turn WRITE; a check read is on turn CHECK, and on turn WRITE with no write eligible. -/
theorem witness_TargetArbiterTakesTurns :
    (let s := (reading 8192).modWriter (.drive 0) fun w => { w with queue := [⟨0, ⟨0, 0⟩⟩] };
      s.resetN = true ∧ (s.sides[0]).granted = true ∧ (s.sides[0]).turn = .write ∧ s.writeEligible (.drive 0) = true ∧
        poolWf s.slots = true ∧ (s.slot? 0).isSome = true) ∧
    (∀ x ∈ [Side.write, .check],
      let s := (verifying.modReader 0 fun v => { v with awaiting := some 2 }).modSides 0 fun a => { a with granted := true, turn := x }
      s.resetN = true ∧ (s.sides[0]).granted = true ∧ (s.sides[0]).turn = x ∧ s.checkEligible 0 = true ∧
        s.writeEligible (.drive 0) = false ∧ poolWf s.slots = true ∧ (s.slot? 2).isSome = true) ∧
    Side.check ≠ (TargetArbiter.initial).turn := by decide +kernel

/-- A first write of block 0 on T0 under tag 1, and a reissue of tag 0; a first check read of block 0 under tag 0, and a reissue of tag 3. -/
theorem witness_TargetArbiterTakesTurns_issues :
    (let s := (reading 8192).modWriter (.drive 0) fun w => { w with queue := [⟨0, ⟨0, 0⟩⟩] };
      (s.writer (.drive 0)).retry = [] ∧ (s.writer (.drive 0)).queue = [⟨0, ⟨0, 0⟩⟩] ∧ ((s.writer (.drive 0)).tags[1]).state = .free ∧
        (∀ m : Fin 16, m < 1 → ((s.writer (.drive 0)).tags[m.val]).state ≠ .free) ∧
        ((s.slot? 0).bind Slot.held).isSome = true ∧ (s.job? 0).isSome = true ∧
        (s.leg? ⟨0, 0⟩).bind Leg.base = some 1000) ∧
    (let s := (reading 8192).modWriter (.drive 0) fun w =>
        { w with retry := [0], tags := setEntry w.tags 0 fun _ => ⟨.waiting ⟨0, ⟨0, 0⟩, 0, 1000, 0⟩, 15, false⟩ };
      (s.writer (.drive 0)).retry = [0] ∧ ((s.writer (.drive 0)).tags[0]).state = .waiting ⟨0, ⟨0, 0⟩, 0, 1000, 0⟩) ∧
    (let s := verifying.modReader 0 fun v => { v with awaiting := some 2 };
      (s.readers[0]).retry = [] ∧ (s.readers[0]).awaiting = some 2 ∧ (s.readers[0]).work = [⟨0, 0⟩] ∧
        ((s.readers[0]).tags[0]).state = .free ∧ (s.slot? 2).isSome = true ∧ (s.job? 0).isSome = true ∧
        (s.leg? ⟨0, 0⟩).bind Leg.base = some 1000) ∧
    (let s := verifying.modReader 0 fun v =>
        { v with retry := [3], tags := setEntry v.tags 3 fun _ => ⟨.waiting ⟨2, ⟨0, 0⟩, 0, 1000, 0⟩, 4, false⟩ };
      (s.readers[0]).retry = [3] ∧ ((s.readers[0]).tags[3]).state = .waiting ⟨2, ⟨0, 0⟩, 0, 1000, 0⟩) := by decide +kernel

/-- The last block that fits and the first that does not, in the current region and in the staged one. -/
theorem witness_PlacementTakesThePointer :
    let v : Drive := ⟨none, some ⟨1000, 1099⟩, some ⟨5000, 5999⟩, 1090⟩
    (1090 + 10 ≤ 1099 + 1 ∧ ¬ (1090 + 11 ≤ 1099 + 1)) ∧ v.current = some ⟨1000, 1099⟩ ∧ v.staged = some ⟨5000, 5999⟩ ∧
      (5000 + 1000 ≤ 5999 + 1 ∧ ¬ (5000 + 1001 ≤ 5999 + 1)) ∧ ({ v with staged := none } : Drive).staged = none := by decide

/-- Does a state's requester wait, nearest of all that do to the pointer? -/
def nearest (s : State) (among : List Requester) (r : Requester) : Bool :=
  decide (r ∈ among) && s.wants r && among.all fun q => !s.wants q || decide (s.arbiter.pointer.distance r ≤ s.arbiter.pointer.distance q)

/-- A sequencer that can be granted a slot. -/
theorem witness_GrantsReserveAndIssue :
    (let s := (reading 8192).modJob 0 fun j => { j with requested := 1 };
      (s.ingest[0]).reading = some 0 ∧ (s.job? 0).isSome = true ∧ s.wants (.ingest 0) = true ∧ s.freeSlots ≠ 0 ∧ poolWf s.slots = true ∧
        nearest s requesters (.ingest 0) = true) := by decide +kernel

/-- A verify stream, new and among those that were waiting; and nothing that waits. -/
theorem witness_GrantsReserveAndIssue_streams :
    (let s := verifying.modArbiter fun a => { a with pointer := .verify 5, waiting := [.verify 0, .ingest 3] };
      (s.readers[0]).work = [⟨0, 0⟩] ∧ (s.leg? ⟨0, 0⟩).isSome = true ∧ s.wants (.verify 0) = true ∧ s.freeSlots ≠ 0 ∧
        poolWf s.slots = true ∧ nearest s requesters (.verify 0) = true ∧ nearest s s.arbiter.waiting (.verify 0) = true) ∧
    (requesters.all fun q => !State.reset.wants q) = true ∧ (∀ i : Fin 8, Requester.ingest i ∈ requesters) ∧
    ∀ d : Fin 6, Requester.verify d ∈ requesters := by decide +kernel

theorem witness_CheckDataFillsItsSlot :
    verifying.resetN = true ∧ verifying.linkUp (.drive 0) = true ∧
      (verifying.readers[0]).tags[3] = ⟨.sent ⟨2, ⟨0, 0⟩, 0, 1000, 0⟩ 0, 4, false⟩ ∧ zeros.length = 4096 ∧
      verifying.slot? 2 = some ⟨2, 0, 0, .check 0, none⟩ ∧ verifying.leg? ⟨0, 0⟩ = some (legOf (.drive 0) true .verifying 1000) := by
  decide +kernel

/-- The check tag at an attempt, found expired. -/
def withCheckTag (attempt : Nat) : State :=
  verifying.modReader 0 fun v => { v with tags := setEntry v.tags 3 fun _ => ⟨.sent ⟨2, ⟨0, 0⟩, 0, 1000, attempt⟩ 0, 4, true⟩ }

/-- The last attempt that is retried and the first that is not. -/
theorem witness_CheckFailuresRetryOrFailTheLeg :
    (∀ n ∈ [1, 2], (withCheckTag n).resetN = true ∧ (withCheckTag n).linkUp (.drive 0) = true ∧
      ((withCheckTag n).readers[0]).tags[3] = ⟨.sent ⟨2, ⟨0, 0⟩, 0, 1000, n⟩ 0, 4, true⟩ ∧
      ((withCheckTag n).job? 0).map Job.state = some .settling) ∧
      1 < ((withCheckTag 1).writer (.drive 0)).retryLimit ∧ ((withCheckTag 2).writer (.drive 0)).retryLimit ≤ 2 ∧
      (withCheckTag 2).legOn 0 (.drive 0) = some ⟨0, 0⟩ ∧ ((withCheckTag 2).leg? ⟨0, 0⟩).map Leg.state = some .verifying := by decide +kernel

/-- The exhausted leg leads the verify work list of a state whose parts agree. -/
theorem witness_CheckFailuresRetryOrFailTheLeg_verifyGone :
    (withCheckTag 2).outcomesOk ∧ ((withCheckTag 2).readers[0]).work = [⟨0, 0⟩] :=
  ⟨(ok_of_soundState _ (by decide +kernel)).1, by decide +kernel⟩

/-- A one-block file read back, in digest, with the ingest digest final or not yet. -/
def readBack (final : Option Digest) : State :=
  let leg : Leg := legOf (.drive 0) true .verifying 1000
  let s := verifying.setJob 0 (some { jobOf .settling .verifying 4096 with legs := [leg], ingest := ⟨1, 1024, 1, final⟩ })
  { s with slots := [⟨2, 0, 0, .check 0, some ⟨zeros, false, true, false⟩⟩], digest := ⟨[], some 2⟩ }

/-- What the statement asks of a state, but for the digests. -/
def blockReadBack (s : State) : Prop :=
  s.resetN = true ∧ s.digest.inFlight = some 2 ∧
    (s.slot? 2).map (fun x => (x.job, x.kind, x.held.map HeldBlock.withdrawn)) = some (0, .check 0, some false) ∧
    (s.job? 0).map Job.blocks = some 1 ∧ s.leg? ⟨0, 0⟩ = some (legOf (.drive 0) true .verifying 1000)

/-- Two one-block files in T0's verify work list: job 0's leg has its block in digest, job 1's waits its turn. -/
def twoReadBack : State :=
  ((readBack (some 5)).setJob 1 (some { jobOf .settling .written 4096 with legs := [legOf (.drive 0) true .written 1010] })).modReader 0
    fun v => { v with work := [⟨0, 0⟩, ⟨1, 0⟩] }

/-- Block 0 of job 0's two, read back, in digest. -/
def halfReadBack : State :=
  { verifying with slots := [⟨2, 0, 0, .check 0, some ⟨zeros, false, true, false⟩⟩], digest := ⟨[], some 2⟩ }

/-- The last block, with the ingest digest not final and final. -/
theorem witness_VerificationComparesTheDigests :
    blockReadBack (readBack none) ∧ ((readBack none).job? 0).map (fun j => j.ingest.final) = some none ∧
      blockReadBack (readBack (some 5)) ∧ ((readBack (some 5)).job? 0).map (fun j => j.ingest.final) = some (some 5) ∧
      (legOf (.drive 0) true .verifying 1000).target = .drive 0 ∧ (legOf (.drive 0) true .verifying 1000).state = .verifying ∧
      (legOf (.drive 0) true .verifying 1000).context.next + 1 = 1 := by
  unfold blockReadBack
  decide +kernel

/-- The last block with a leg behind, and a block that is not the last. -/
theorem witness_VerificationComparesTheDigests_next :
    blockReadBack twoReadBack ∧ soundState twoReadBack = true ∧ (twoReadBack.readers[0]).work = [⟨0, 0⟩, ⟨1, 0⟩] ∧
      (twoReadBack.leg? ⟨1, 0⟩).map Leg.state = some .written ∧ (twoReadBack.job? 1).map Job.blocks = some 1 ∧
      poolWf halfReadBack.slots = true ∧ (halfReadBack.job? 0).map Job.blocks = some 2 ∧
      halfReadBack.leg? ⟨0, 0⟩ = some (legOf (.drive 0) true .verifying 1000) ∧
      (halfReadBack.slot? 2).map (fun x => (x.job, x.kind, x.held.map HeldBlock.inDigest)) = some (0, .check 0, some true) := by
  unfold blockReadBack
  decide +kernel

theorem witness_DigestStartTakesTheHead : (reading 8192).resetN = true ∧ (reading 8192).digest = ⟨[0], none⟩ := by decide +kernel

/-- A SETTLING job's only block in digest, with an expected digest it does not have. -/
def inDigest (length : Nat) (b : HeldBlock) : State :=
  let s := linked.setJob 0 (some { jobOf .settling .written length with expected := some 5 })
  { s with slots := [⟨0, 0, 0, .ingest [], some b⟩], digest := ⟨[], some 0⟩ }

/-- A withdrawn block; a block that is not the last; the last, with an expected digest that differs and with none and a leg that waits. -/
theorem witness_DigestCompletionAdvancesTheContext :
    (∀ n ∈ [4, 8192], ∀ w ∈ [true, false],
      (inDigest n ⟨zeros, false, true, w⟩).resetN = true ∧ poolWf (inDigest n ⟨zeros, false, true, w⟩).slots = true ∧
        (inDigest n ⟨zeros, false, true, w⟩).digest.inFlight = some 0 ∧
        ((inDigest n ⟨zeros, false, true, w⟩).slot? 0).map (fun x => (x.job, x.kind, x.held.map fun b => (b.withdrawn, b.inDigest))) =
          some (0, .ingest [], some (w, true)) ∧
        (inDigest n ⟨zeros, false, true, w⟩).job? 0 = some { jobOf .settling .written n with expected := some 5 }) ∧
      (jobOf .settling .written 4).ingest.next + 1 = (jobOf .settling .written 4).blocks ∧
      (jobOf .settling .written 8192).ingest.next + 1 < (jobOf .settling .written 8192).blocks ∧
      (5 : Digest) ≠ finalDigest (digestBlock DigestContext.initial (digestBytesOf 4 0 zeros)) 4 ∧
      (let leg : Leg := { legOf (.drive 0) true .verifying 1000 with context := ⟨1, 4, 1, some 5⟩ };
        let s := (inDigest 4 ⟨zeros, false, true, false⟩).modJob 0 fun j => { j with expected := none, legs := [leg] };
        (s.job? 0).map Job.expected = some none ∧ (s.leg? ⟨0, 0⟩).map (fun l => (l.state, l.context.final)) = some (.verifying, some 5) ∧
          ¬ ((5 : Digest) = finalDigest (digestBlock DigestContext.initial (digestBytesOf 4 0 zeros)) 4)) := by decide +kernel

/-- No slot is FREE: slot 0, withdrawn, is in digest, and T0's verify stream waits. -/
def fullPool : State :=
  { verifying with
    slots := ⟨0, 5, 0, .check 0, some ⟨zeros, false, true, true⟩⟩ :: (List.range' 1 32767).map fun n => ⟨n, 6, n, .check 0, none⟩
    digest := ⟨[], some 0⟩, arbiter := ⟨.ingest 0, [.verify 0]⟩ }

/-- The freed slot has one requester to go to. -/
theorem witness_DigestCompletionAdvancesTheContext_waiting :
    fullPool.resetN = true ∧ fullPool.poolOk ∧ fullPool.digest.inFlight = some 0 ∧
      fullPool.slot? 0 = some ⟨0, 5, 0, .check 0, some ⟨zeros, false, true, true⟩⟩ ∧ fullPool.freeSlots = 0 ∧
      fullPool.arbiter.waiting = [.verify 0] ∧
      ({ fullPool with
        digest := { fullPool.digest with inFlight := none }, slots := fullPool.slots.filter fun y => decide (y.num ≠ 0) } : State).wants
          (.verify 0) = true ∧
      (fullPool.readers[0]).work = [⟨0, 0⟩] ∧ (fullPool.leg? ⟨0, 0⟩).isSome = true := by
  refine ⟨by decide +kernel, ?_, rfl, rfl, ?_, rfl, by decide +kernel, by decide +kernel, by decide +kernel⟩
  · unfold State.poolOk
    rw [poolWf_iff]
    constructor
    · simp only [fullPool, List.map_cons, List.map_map, List.pairwise_cons]
      refine ⟨?_, ?_⟩
      · intro n hn
        simp only [List.mem_map, List.mem_range'_1, Function.comp_apply] at hn
        omega
      · rw [List.pairwise_map]
        exact List.pairwise_lt_range'
    · intro x hx
      simp only [fullPool, List.mem_cons, List.mem_map, List.mem_range'_1] at hx
      rcases hx with rfl | ⟨n, hn, rfl⟩ <;> simp only [Config.poolSlots] <;> omega
  · simp [State.freeSlots, fullPool, Config.poolSlots]

/-- A tag one tick short of its timeout and one that reaches it, at the tick counter's wrap. -/
theorem witness_TickActsOnEveryBlock :
    let s : State := { reading 8192 with timer := ⟨0xFFFFFFFF, 131071, 17, some 24⟩ }
    s.resetN = true ∧ s.timer.tick + 1 = 0 ∧ s.timer.stagedP = some 24 ∧ (s.window .sink).counter ≠ 0 ∧
      ((s.modWindow .sink fun w => { w with counter := 0 }).window .sink).counter = 0 ∧ (∀ x ∈ allTargets, (s.window x).endDue = false) ∧
      (let late := s.modWindow (.drive 1) fun w => { w with endDue := true };
        late.resetN = true ∧ allTargets.find? (fun y => (late.window y).endDue) = some (.drive 1) ∧
          gives (.windowEnd (.drive 1)) late (fun _ => true) = true) := by decide +kernel

/-- A window of T0 at its end. -/
def windowOf (streak : Nat) (slow : Bool) (acked : Nat) (p : Policy) : State :=
  ((reading 8192).modWindow (.drive 0) fun w =>
    { w with endDue := true, hadWork := true, acked := acked, streak := streak, slow := slow, effective := ⟨32768, 5, 0, 3⟩ }).modWriter (.drive 0)
      fun w => { w with policy := p }

/-- SLOW set at the third stalled window, SLOW cleared at the floor, a shed with SLOW standing, and a shed in the window that sets SLOW. -/
theorem witness_WindowEndJudgesAndReloads :
    (∀ s ∈ [windowOf 2 false 4 .hold, windowOf 3 true 5 .hold, windowOf 3 true 4 .shed, windowOf 15 true 4 .shed, windowOf 2 false 4 .shed],
      s.resetN = true ∧ (s.window (.drive 0)).endDue = true ∧ s.handler.notices.length + 1 < 32 ∧ (s.sides[0]).granted = true ∧
        s.control.sending ≠ none) ∧
      (windowOf 3 true 4 .shed).legOn 0 (.drive 0) = some ⟨0, 0⟩ ∧
      ((windowOf 3 true 4 .shed).leg? ⟨0, 0⟩).map Leg.state = some .writing ∧ ((windowOf 3 true 4 .shed).writer (.drive 0)).policy = .shed ∧
      ((windowOf 2 false 4 .hold).modLink (.drive 0) fun l => { l with up := false }).linkUp (targetPort (.drive 0)) = false := by
  decide +kernel

/-- A shedding of one WRITING leg in a state whose parts agree, and whose slots name T0 for that leg alone. -/
theorem witness_WindowEndJudgesAndReloads_shed :
    (windowOf 3 true 4 .shed).outcomesOk ∧ ((windowOf 3 true 4 .shed).jobsWithLeg (.drive 0) fun y => decide (y = .writing)) = [0] ∧
      (windowOf 3 true 4 .shed).owedByWriting (.drive 0) :=
  ⟨(ok_of_soundState _ (by decide +kernel)).1, by decide +kernel, by unfold State.owedByWriting; decide +kernel⟩

/-- The eighth request and the ninth. -/
theorem witness_RequestsAreCountedAndQueued :
    linked.resetN = true ∧ linked.linkUp .control = true ∧ (List.replicate 4096 (0 : Byte)).length ≤ 4096 ∧
      ({ linked.control with unanswered := 7 } : ControlPort).unanswered < 8 ∧ 8 ≤ ({ linked.control with unanswered := 8 } : ControlPort).unanswered := by
  decide +kernel

/-- A request can be taken. -/
theorem takes_asked (kind : Byte) (body : List Byte) : (asked kind body linked).takes ⟨9, kind, body⟩ [] :=
  ⟨rfl, rfl, rfl⟩

/-- A body for each refusal, with the state it is taken in. -/
theorem witness_RefusalsChangeNothing :
    (∀ k ∈ [(0 : Byte), 13, 255], k = 0 ∨ 12 < k.toNat) ∧
      readLoad [] = none ∧ (readLoad (loadBody 8192 99 2)).isSome = true ∧
      (readLoad (loadBody 8192 99 2)).map linked.loadCheck = some .runRange ∧
      (readLoad (loadBody 8192 50 2)).map ({ linked with jobs := Vector.replicate 64 (some (jobOf .done .good 8192)) } : State).loadCheck =
        some .tableFull ∧
      readHandle [64] = none ∧ readHandle [63] = some 63 ∧ linked.job? 63 = none ∧
      (jobOf .done .good 8192).state.terminal = true ∧ (jobOf .reading .writing 8192).state.terminal = false ∧
      readTarget [] = none ∧ (readTarget (targetBody 15)).map (fun b => targetOfCode b.code) = some none ∧
      (readTarget (targetBody 8)).map (fun b => (targetOfCode b.code, b.region)) = some (some (.drive 0), some ⟨2000, 2999⟩) ∧
      readPortCode [16] = none ∧ readPortCode [15] = some 15 ∧ targetOfCode 15 = none ∧ readPortCode [7] = some 7 ∧ targetOfCode 7 = none ∧
      readIngest [] = none ∧ readIngest [8, 0, 0, 0, 0, 0] = some (8, none, none) ∧
      readLamp [0, 6] = none ∧ readLamp [8, 0] = some (8, .auto) ∧ readTick [2, 0, 0, 0] = none := by decide +kernel

/-- A body of zeros. -/
def zeroBody (n : Nat) : List Byte :=
  List.replicate n 0

/-- A region that ends before it starts, and one that shares its first address with the current region. -/
theorem witness_RefusalsChangeNothing_regions :
    (Region.mk 10 9).last < (Region.mk 10 9).first ∧ (Region.mk 1099 2000).first ≤ (Region.mk 1099 2000).last ∧
      (Region.mk 1099 2000).holds 1099 ∧ linked.protects 0 1099 :=
  ⟨by decide, by decide, by unfold Region.holds; decide, .inl ⟨⟨1000, 1099⟩, by decide +kernel, by unfold Region.holds; decide⟩⟩

/-- Each body at its length, with a presence byte, a code or an enumeration value one too high. -/
theorem witness_RefusalsChangeNothing_bodies :
    (readTarget (zeroBody 43)).isSome = true ∧ readTarget (zeroBody 42) = none ∧
      (∀ o ∈ [1, 18, 21, 24, 27, 30, 32, 35, 37, 39, 41], readTarget ((zeroBody 43).set o 2) = none) ∧
      readTarget ((zeroBody 43).set 0 16) = none ∧ readTarget (((zeroBody 43).set 41 1).set 42 2) = none ∧
      readTarget (((zeroBody 43).set 1 1).set 15 1) = none ∧ readIngest [16, 0, 0, 0, 0, 0] = none ∧
      readIngest [0, 2, 0, 0, 0, 0] = none ∧ readIngest [0, 0, 0, 0, 2, 0] = none ∧ readTick [0, 0, 2, 0] = none := by
  decide +kernel

/-- A load that starts at once and a load that joins a line-up. -/
theorem witness_LoadJobFillsTheLowestEntry :
    (∃ s r rest b, State.takes s r rest ∧ r.kind = 1 ∧ readLoad r.body = some b ∧ s.loadCheck b = .ok ∧ s.job? 0 = none ∧
      (s.ingest[b.port.val]).reading = none ∧ (s.ingest[b.port.val]).lineUp = [] ∧ blockCount b.length ≠ 0) ∧
    ∃ s r rest b, State.takes s r rest ∧ r.kind = 1 ∧ readLoad r.body = some b ∧ s.loadCheck b = .ok ∧ s.job? 1 = none ∧
      (∀ g : Fin 64, g < 1 → s.job? g ≠ none) ∧ (s.ingest[b.port.val]).reading ≠ none := by
  have h : ∃ b, readLoad (loadBody 8192 50 2) = some b := Option.isSome_iff_exists.mp (by decide +kernel)
  obtain ⟨b, e⟩ := h
  have hb : b = (readLoad (loadBody 8192 50 2)).getD ⟨0, 0, 0, none, 0, 0, [], []⟩ := by rw [e]; rfl
  refine ⟨⟨asked 1 (loadBody 8192 50 2) linked, ⟨9, 1, loadBody 8192 50 2⟩, [], b, takes_asked _ _, rfl, e, ?_⟩,
    ⟨asked 1 (loadBody 8192 50 2) (reading 8192), ⟨9, 1, loadBody 8192 50 2⟩, [], b, ⟨by decide +kernel, by decide +kernel, rfl⟩, rfl, e, ?_⟩⟩ <;>
  · rw [hb]
    decide +kernel

/-- The LOAD_JOB body of a file of no blocks, with one leg and an expected digest or none. -/
def emptyBody (leg verify : Byte) (expected : Option Nat) : List Byte :=
  [0, 1, 0, 1, (if expected.isSome then 1 else 0), 0, 0, 0] ++ leBytes 8 7 ++ leBytes 8 0 ++ leBytes 8 (expected.getD 0) ++
    [leg, verify, 0, 0, 0, 0, 0, 0]

/-- A LOAD_JOB that starts its job at once: the states and the leg states that the start gives. -/
def starts (s : State) (body : List Byte) (legs : List LegState) : Bool :=
  match readLoad body with
  | none => false
  | some b =>
    s.resetN && !s.handler.taking && decide (s.loadCheck b = .ok) && (s.job? 0).isNone && decide ((s.ingest[b.port.val]).reading = none) &&
      decide ((s.ingest[b.port.val]).lineUp = []) &&
      decide (((b.job s.now).legs.map (s.placedLeg (blockCount b.length))).map Leg.state = legs)

/-- Another job's leg is at the head of T0's verify work list; handle 0 is FREE. -/
def behind : State :=
  (linked.setJob 1 (some { jobOf .settling .verifying 8192 with legs := [legOf (.drive 0) true .verifying 1000] })).modReader 0
    fun v => { v with work := [⟨1, 0⟩] }

/-- A start with both legs placed, with T0's drive absent, and with no viable leg; and starts of a file of no blocks, with each outcome. -/
theorem witness_StartPlacesTheLegs :
    starts linked (loadBody 8192 50 2) [.writing, .writing] = true ∧
      starts (linked.modDrive 0 fun v => { v with media := none }) (loadBody 8192 50 2) [.failed, .writing] = true ∧
      starts linked (emptyBody 9 0 none) [.failed] = true ∧
      (∀ b ∈ [emptyBody 8 1 none, emptyBody 14 0 none, emptyBody 8 1 (some 5), emptyBody 8 1 (some 0x0000000100000001)],
        starts linked b [.writing] = true) ∧
      soundState linked = true ∧ starts behind (emptyBody 8 1 none) [.writing] = true ∧ soundState behind = true ∧
      (behind.readers[0]).work ≠ [] ∧ ((linked.drives[0]).place 100).2 = some 1000 ∧ ((linked.drives[0]).place 101).2 = none ∧
      blockCount 0 = 0 := by decide +kernel

/-- R12, R120: a file of no blocks is GOOD on T6 and DONE at its start; a leg to be verified behind another waits. -/
theorem test_loadJob_empty :
    gives .loadJob (asked 1 (emptyBody 14 0 none) linked) (fun t => decide ((t.job? 0).map Job.state = some .done)) = true ∧
      gives .loadJob (asked 1 (emptyBody 8 1 none) behind) (fun t => decide ((t.leg? ⟨0, 0⟩).map Leg.state = some .written)) = true := by
  decide +kernel

/-- A running job to cancel and a failed one to release. -/
theorem witness_CancelAndReleaseEndJobs :
    (asked 2 [0] (reading 8192)).takes ⟨9, 2, [0]⟩ [] ∧ readHandle [0] = some 0 ∧
      (asked 2 [0] (reading 8192)).job? 0 = some (jobOf .reading .writing 8192) ∧ (jobOf .reading .writing 8192).state.terminal = false ∧
      (asked 3 [0] (linked.setJob 0 (some (jobOf .failed .failed 8192)))).takes ⟨9, 3, [0]⟩ [] ∧
      (asked 3 [0] (linked.setJob 0 (some (jobOf .failed .failed 8192)))).job? 0 = some (jobOf .failed .failed 8192) ∧
      (jobOf .failed .failed 8192).state.terminal = true :=
  ⟨⟨by decide +kernel, by decide +kernel, rfl⟩, by decide, by decide +kernel, by decide, ⟨by decide +kernel, by decide +kernel, rfl⟩,
    by decide +kernel, by decide⟩

/-- What a teardown withdraws: the reading job's BUSY tag; and, of a job that is being verified, a sent check tag and a reserved CHECK slot
of a leg in a verify work list of a state whose parts agree. -/
theorem witness_CancelAndReleaseEndJobs_withdrawals :
    (((reading 8192).ingest[0]).reading = some 0 ∧ ((reading 8192).ingest[0]).tags[0] = ⟨.busy 0 1 1 0 0, 1, false⟩) ∧
      verifying.outcomesOk ∧ (verifying.job? 0).map Job.state = some .settling ∧ (verifying.readers[0]).work = [⟨0, 0⟩] ∧
      (verifying.readers[0]).tags[3] = ⟨.sent ⟨2, ⟨0, 0⟩, 0, 1000, 0⟩ 0, 4, false⟩ ∧
      (verifying.slot? 2).map (Slot.checkOf ⟨0, 0⟩) = some true :=
  ⟨⟨by decide +kernel, by decide +kernel⟩, (ok_of_soundState _ (by decide +kernel)).1, by decide +kernel, by decide +kernel,
    by decide +kernel, by decide +kernel⟩

theorem witness_QueriesReportTheState :
    (asked 4 [0] (reading 8192)).takes ⟨9, 4, [0]⟩ [] ∧ readHandle [0] = some 0 ∧
      (asked 4 [0] (reading 8192)).job? 0 = some (jobOf .reading .writing 8192) ∧
      (asked 6 [14] linked).takes ⟨9, 6, [14]⟩ [] ∧ readPortCode [14] = some 14 ∧ targetOfCode 14 = some .sink ∧
      (asked 10 [] linked).takes ⟨9, 10, []⟩ [] ∧
      (asked 10 [] { linked with handler := fullQueue }).takes ⟨9, 10, []⟩ [] ∧ fullQueue.noticeLost = true :=
  ⟨⟨by decide +kernel, by decide +kernel, rfl⟩, by decide, by decide +kernel, takes_asked _ _, by decide, by decide, takes_asked _ _,
    ⟨rfl, rfl, rfl⟩, rfl⟩

/-- T0 and T6 by SET_TARGET, the last ingest port by SET_INGEST and SET_LAMP, and both values of SET_TICK. -/
theorem witness_SettingsRequestsStoreTheirValues :
    (∀ c ∈ [(8 : Byte), 14], ((readTarget (targetBody c)).map fun b => (b.code, b.region)) = some (c.toNat, some ⟨2000, 2999⟩)) ∧
      targetOfCode 8 = some (.drive 0) ∧ targetOfCode 14 = some .sink ∧
      readIngest [7, 1, 0, 0, 1, 9] = some (7, some 0, some 9) ∧ readLamp [7, 5] = some (7, .redBlink) ∧
      readTick [1, 25, 1, 16] = some (some 25, some 16) ∧ (asked 9 [1, 25, 1, 16] linked).takes ⟨9, 9, [1, 25, 1, 16]⟩ [] :=
  ⟨by decide +kernel, by decide, by decide, by decide +kernel, by decide +kernel, by decide +kernel, takes_asked _ _⟩

/-- A region that touches nothing protected on T0, next to the current region and far from it. -/
theorem witness_SettingsRequestsStoreTheirValues_region :
    ∀ q ∈ [Region.mk 1100 1199, Region.mk 2000 2999], q.first ≤ q.last ∧ ∀ a, q.holds a → ¬ linked.protects 0 a := by
  have cur : (linked.drives[0]).current = some ⟨1000, 1099⟩ := by decide +kernel
  have none (h : Fin 64) : linked.job? h = .none := by revert h; decide +kernel
  intro q hq
  have low : q.first ≤ q.last ∧ 1100 ≤ q.first := by
    revert q
    decide
  refine ⟨low.1, fun a ha hp => ?_⟩
  unfold Region.holds at ha
  rcases hp with ⟨c, hc, hh⟩ | ⟨h, j, l, base, hj, -⟩
  · rw [Option.some.inj (hc.symm.trans cur)] at hh
    unfold Region.holds at hh
    dsimp only at hh
    omega
  · rw [none h] at hj
    cases hj

theorem witness_ResetRequestsResetPorts :
    (∀ c ∈ [(0 : Byte), 7, 8, 13, 14], readPortCode [c] = some c.toNat) ∧ targetOfCode 13 = some (.drive 5) ∧
      (asked 11 [0] (reading 8192)).takes ⟨9, 11, [0]⟩ [] ∧ ((asked 11 [0] (reading 8192)).ingest[0]).media ≠ none ∧
      (asked 11 [8] (reading 8192)).available (.drive 0) = true ∧ (asked 11 [8] (reading 8192)).outcomesOk ∧
      (asked 12 [] linked).takes ⟨9, 12, []⟩ [] :=
  ⟨by decide +kernel, by decide, ⟨by decide +kernel, by decide +kernel, rfl⟩, by decide +kernel, by decide +kernel,
    (ok_of_soundState _ (by decide +kernel)).1, takes_asked _ _⟩

/-- A write's end, with nothing, a response, a notice and another write to send after it; and the end of RESET_PART's own response. -/
theorem witness_ControlTransmitterTakesTurns :
    (∀ s ∈ [reading 8192, after .unknownRequest (asked 13 [] (reading 8192)), (reading 8192).notify (.shed .sink 0),
        (reading 8192).modWriter .sink fun w => { w with queue := [⟨0, ⟨0, 1⟩⟩] }],
      s.resetN = true ∧ s.control.sending = some .sink ∧ s.linkUp .control = true ∧ s.control.pointer = .response) ∧
      (after .unknownRequest (asked 13 [] (reading 8192))).sourceHas .response = true ∧
      ((reading 8192).notify (.shed .sink 0)).sourceHas .notice = true ∧
      ((reading 8192).modWriter .sink fun w => { w with queue := [⟨0, ⟨0, 1⟩⟩] }).sourceHas .sink = true ∧
      (after .resetPart (asked 12 [] linked)).resetN = true ∧ (after .resetPart (asked 12 [] linked)).control.sending = some .response ∧
      (after .resetPart (asked 12 [] linked)).handler.taking = true ∧
      (after .resetPart (asked 12 [] linked)).control.responses = [⟨9, 12, .ok, []⟩] := by decide +kernel

end Sys2Proof.Tests
end

