-- ==== Sys2Proof/Proofs/P1.lean ====
section
/-! Statements that need no invariant: run lists, full reset, and the card statements that a state with a foreign reading job refutes. -/

namespace Sys2Proof.Machine

open Sys2Proof

/-! ## Run lists (R3) -/

theorem cardAddress_append (before after : List Run) (r : Run) (i : Nat) (hle : (before.map Run.count).sum ≤ i)
    (hlt : i < (before.map Run.count).sum + r.count) :
    cardAddress (before ++ r :: after) i = r.start + (i - (before.map Run.count).sum) := by
  induction before generalizing i with
  | nil =>
    have hi : i < r.count := by simpa using hlt
    simp [cardAddress, hi]
  | cons q rest ih =>
    simp only [List.map_cons, List.sum_cons] at hle hlt
    have hq : ¬ i < q.count := by omega
    have := ih (i - q.count) (by omega) (by omega)
    simp only [List.cons_append, cardAddress, hq, if_false, this, List.map_cons, List.sum_cons]
    omega

/-- Settles O38, by induction on the runs before. -/
theorem cardAddressesFollowTheRuns : Obligations.CardAddressesFollowTheRuns :=
  fun before after r i hle hlt => cardAddress_append before after r i hle hlt

/-! ## Full reset (R28) -/

theorem event_next_of_reset_low {s : State} (h : s.resetN = false) (en : Bool) (f : State → State) : s.event en f = .next s := by
  simp [State.event, h]

/-- Every command but the two levels of RESET_N is an event. -/
theorem exec_eq_event (c : Instr) (hl : c ≠ .resetNLow) (hh : c ≠ .resetNHigh) :
    ∃ (en : State → Bool) (f : State → State), ∀ s, exec c s = s.event (en s) f := by
  cases c with
  | resetNLow => exact absurd rfl hl
  | resetNHigh => exact absurd rfl hh
  | frameDiscard p rx =>
    exact ⟨fun s => s.linkUp p && frameOver rx && (commandOf p s.control.unanswered rx).isNone, fun s => s.discard p rx.ended, fun _ => rfl⟩
  | linkUp p => exact ⟨fun s => !s.linkUp p, _, fun _ => rfl⟩
  | linkDown p => exact ⟨fun s => s.linkUp p, _, fun _ => rfl⟩
  | blockData i tag gen answer => exact ⟨fun s => s.linkUp (.ingest i), _, fun _ => rfl⟩
  | ingestMediaReport i report => exact ⟨fun s => s.linkUp (.ingest i), _, fun _ => rfl⟩
  | targetMediaReport d report => exact ⟨fun s => s.linkUp (.drive d), _, fun _ => rfl⟩
  | writeDone d tag gen status => exact ⟨fun s => s.linkUp (.drive d), _, fun _ => rfl⟩
  | sinkDone tag gen status => exact ⟨fun s => s.linkUp .control, _, fun _ => rfl⟩
  | checkData d tag gen answer => exact ⟨fun s => s.linkUp (.drive d), _, fun _ => rfl⟩
  | request seq kind body => exact ⟨fun s => s.linkUp .control, _, fun _ => rfl⟩
  | loadJob => exact ⟨fun s => s.canTake (isKind 1), _, fun _ => rfl⟩
  | cancelJob => exact ⟨fun s => s.canTake (isKind 2), _, fun _ => rfl⟩
  | releaseJob => exact ⟨fun s => s.canTake (isKind 3), _, fun _ => rfl⟩
  | queryJob => exact ⟨fun s => s.canTake (isKind 4), _, fun _ => rfl⟩
  | setTarget => exact ⟨fun s => s.canTake (isKind 5), _, fun _ => rfl⟩
  | queryTarget => exact ⟨fun s => s.canTake (isKind 6), _, fun _ => rfl⟩
  | setIngest => exact ⟨fun s => s.canTake (isKind 7), _, fun _ => rfl⟩
  | setLamp => exact ⟨fun s => s.canTake (isKind 8), _, fun _ => rfl⟩
  | setTick => exact ⟨fun s => s.canTake (isKind 9), _, fun _ => rfl⟩
  | queryPart => exact ⟨fun s => s.canTake (isKind 10), _, fun _ => rfl⟩
  | resetPort => exact ⟨fun s => s.canTake (isKind 11), _, fun _ => rfl⟩
  | resetPart => exact ⟨fun s => s.canTake (isKind 12), _, fun _ => rfl⟩
  | unknownRequest => exact ⟨fun s => s.canTake fun k => !knownKind k, _, fun _ => rfl⟩
  | tick => exact ⟨fun _ => true, _, fun _ => rfl⟩
  | readTagExpiry i k => exact ⟨fun s => ((s.ingest[i.val]).tags[k.val]).due, _, fun _ => rfl⟩
  | writeTagExpiry t k => exact ⟨fun s => ((s.writer t).tags[k.val]).due, _, fun _ => rfl⟩
  | checkTagExpiry d k => exact ⟨fun s => ((s.readers[d.val]).tags[k.val]).due, _, fun _ => rfl⟩
  | windowEnd t => exact ⟨fun s => (s.window t).endDue, _, fun _ => rfl⟩
  | digestStart => exact ⟨fun s => s.digest.inFlight.isNone && !s.digest.ready.isEmpty, _, fun _ => rfl⟩
  | digestComplete => exact ⟨fun s => s.digest.inFlight.isSome, _, fun _ => rfl⟩
  | targetTxEnd d => exact ⟨fun s => (s.sides[d.val]).granted, _, fun _ => rfl⟩
  | cTxEnd => exact ⟨fun s => s.control.sending.isSome, _, fun _ => rfl⟩

/-- Settles O4: every other command is an event, and no event happens while RESET_N is low. -/
theorem resetPinHoldsThePart : Obligations.ResetPinHoldsThePart := by
  intro s
  refine ⟨rfl, fun h => ?_, fun h => ?_, fun h c hl hh => ?_⟩
  · simp [exec, execResetNHigh, h, State.fullReset, State.reset]
  · simp [exec, execResetNHigh, h]
  · obtain ⟨en, f, hc⟩ := exec_eq_event c hl hh
    rw [hc, event_next_of_reset_low h]

theorem reset_job? (h : Fin 64) : State.reset.job? h = none := by
  simp [State.job?, State.reset]

theorem reset_ingest (i : Fin 8) : State.reset.ingest[i.val] = IngestPort.initial := by
  simp [State.reset]

theorem reset_drives (d : Fin 6) : State.reset.drives[d.val] = Drive.initial := by
  simp [State.reset]

theorem reset_readers (d : Fin 6) : State.reset.readers[d.val] = VerifyReader.initial := by
  simp [State.reset]

theorem reset_sides (d : Fin 6) : State.reset.sides[d.val] = TargetArbiter.initial := by
  simp [State.reset]

theorem reset_sessions (i : Fin 8) : State.reset.sessions[i.val] = ⟨0, 0, 0⟩ := by
  simp [State.reset]

theorem reset_lamps (i : Fin 8) : State.reset.lamps[i.val] = Lamp.initial := by
  simp [State.reset]

theorem reset_writer (x : Target) : State.reset.writer x = Writer.initial := by
  simp [State.writer, State.reset]

theorem reset_window (x : Target) : State.reset.window x = Window.initial := by
  simp [State.window, State.reset]

theorem reset_link (p : Port) : State.reset.link p = LinkPort.initial := by
  simp [State.link, State.reset]

theorem reset_assignedRanges (d : Fin 6) : State.reset.assignedRanges d = [] := by
  simp only [State.assignedRanges, List.flatMap_eq_nil_iff]
  intro e he
  have : e = none := by simpa [State.reset, Vector.toList_replicate] using he
  rw [this]

theorem reset_lampsOk : State.reset.lampsOk := by
  intro i
  rw [reset_lamps, State.lampRow, reset_ingest]
  simp [Lamp.initial, IngestPort.initial]

theorem reset_wants (r : Requester) : State.reset.wants r = false := by
  cases r with
  | ingest i => simp [State.wants, State.ingestWants, reset_ingest, IngestPort.initial]
  | verify d => simp [State.wants, State.verifyWants, reset_readers, VerifyReader.initial]

theorem reset_workNoted : State.reset.workNoted := by
  intro x hx
  simp [Writer.toDo, reset_writer, Writer.initial, BlockTag.initial] at hx

theorem reset_linksServed : State.reset.linksServed := by
  refine ⟨fun d _ => ⟨fun h => ?_, fun h => ?_⟩, fun h => ?_⟩
  · simp [State.writeReady, State.linkUp, reset_link, LinkPort.initial] at h
  · simp [State.checkReady, State.linkUp, reset_link, LinkPort.initial] at h
  · simp [State.linkUp, reset_link, LinkPort.initial] at h

theorem reset_sessionJobs (i : Fin 8) (test : JobState → Bool) : State.reset.sessionJobs i test = 0 := by
  simp [State.sessionJobs, reset_job?]

theorem reset_settingsOk : State.reset.settingsOk := by
  simp [State.settingsOk, reset_ingest, reset_writer, reset_window, reset_sides, IngestPort.inRange, Writer.inRange, Window.inRange,
    TargetArbiter.inRange, Pacing.inRange, IngestPort.initial, Writer.initial, Window.initial, TargetArbiter.initial, Pacing.initial]

theorem reset_outcomesOk : State.reset.outcomesOk := by
  refine ⟨fun h j hj => ?_, fun d => ?_⟩
  · simp [reset_job?] at hj
  · simp [reset_readers, VerifyReader.initial]

theorem reset_sequencersOk : State.reset.sequencersOk where
  reading i h hr := by simp [reset_ingest, IngestPort.initial] at hr
  alone h j hj := by simp [reset_job?] at hj
  busy i k h index slot issued attempt hb := by simp [reset_ingest, IngestPort.initial, ReadTag.initial] at hb
  lineUp i := by simp [reset_ingest, IngestPort.initial]
  loaded h j hj := by simp [reset_job?] at hj
  started i _ := by simp [reset_ingest, IngestPort.initial]

theorem reset_contextsOk : State.reset.contextsOk := by
  intro h j hj
  simp [reset_job?] at hj

theorem reset_endsAnnounced : State.reset.endsAnnounced := by
  intro h j hj
  simp [reset_job?] at hj

theorem reset_sessionsOk : State.reset.sessionsOk := by
  intro i
  simp [reset_sessions, reset_sessionJobs]

theorem reset_rangesOk : State.reset.rangesOk := by
  intro d
  simp [Drive.rangesOk, reset_drives, reset_assignedRanges, Drive.initial]

theorem reset_waitersOk : State.reset.waitersOk :=
  ⟨fun r => by rw [reset_wants]; simp [State.reset], Or.inl rfl⟩

theorem reset_clockOk : State.reset.clockOk := by
  simp [State.clockOk, State.reset]

theorem reset_headsActive : State.reset.headsActive := by
  intro d r rest l hw
  simp [reset_readers, VerifyReader.initial] at hw

/-- Settles O5: each table holds one initial record everywhere, and no job, slot or waiter is there. -/
theorem fullResetState : Obligations.FullResetState := by
  refine ⟨rfl, rfl, rfl, rfl, rfl, rfl, rfl, reset_link, reset_job?, fun i => ⟨reset_sessions i, reset_lamps i, reset_ingest i⟩,
    fun d => ⟨reset_drives d, reset_sides d, reset_readers d⟩, fun x => ⟨reset_writer x, reset_window x⟩, rfl, ?_, reset_clockOk,
    reset_lampsOk, reset_settingsOk, reset_waitersOk, reset_contextsOk, reset_workNoted, reset_endsAnnounced, reset_rangesOk,
    reset_linksServed, reset_sessionsOk, reset_outcomesOk, reset_headsActive, reset_sequencersOk⟩
  simp [State.queuesOk, State.reset]

/-! ## A reading job of another port's -/

/-- A drive leg to be verified, in a state. -/
def verifyLeg (x : LegState) : Leg :=
  { target := .drive 0, verify := true, state := x, base := none, sent := 0, acked := 0, context := DigestContext.initial, checked := 0,
    written := none, finished := none, cause := none }

/-- A job of one leg to be verified on T0. -/
def oneLegJob (st : JobState) (port : Fin 8) (length : Nat) (x : LegState) : Job :=
  { state := st, port := port, identity := 0, length := length, runs := [], required := 1, expected := none, legs := [verifyLeg x],
    requested := 0, arrived := 0, ingest := DigestContext.initial, loadedAt := 0, startedAt := none, arrivedAllAt := none,
    finishedAt := none, session := true, cause := none, announced := false }

/-- I0 reads a job of I1's. Behind it on I1 stands a file of no blocks, which T0's verify work list already names, before the leg of a
SETTLING job of I0's. The loss of I0's card tears the foreign job down, I1 then starts the empty file, its comparison takes it off the
list, and the SETTLING job's leg becomes VERIFYING. -/
def foreignReading : State :=
  { State.reset with
    links := Vector.replicate 15 ⟨true, false, false, []⟩
    jobs := (((State.reset.jobs.set 0 (some (oneLegJob .reading 1 8192 .writing))).set 1 (some (oneLegJob .loaded 1 0 .idle))).set 2
      (some (oneLegJob .settling 0 8192 .written)))
    ingest := ((State.reset.ingest.set 0 { IngestPort.initial with media := some ⟨7, 100⟩, reading := some 0 }).set 1
      { IngestPort.initial with lineUp := [1] })
    drives := State.reset.drives.set 0 ⟨some ⟨9, 5000⟩, some ⟨1000, 1099⟩, none, 1000⟩
    readers := State.reset.readers.set 0 { VerifyReader.initial with work := [⟨1, 0⟩, ⟨2, 0⟩] } }

/-- The state of the SETTLING job's leg after a command. -/
def settlingLegAfter (c : Instr) : Option LegState :=
  match exec c foreignReading with
  | .next t => (t.leg? ⟨2, 0⟩).map Leg.state
  | .fault _ | .refused _ => none

theorem foreignReading_work_of_ne (d : Fin 6) (hd : d ≠ 0) : (foreignReading.readers[d.val]).work = [] := by
  revert d
  decide +kernel

theorem foreignReading_headsActive : foreignReading.headsActive := by
  intro d r rest l hw hl
  by_cases hd : d = 0
  · subst hd
    have hr : r = ⟨1, 0⟩ := by
      have hw' : (foreignReading.readers[(0 : Fin 6).val]).work = [⟨1, 0⟩, ⟨2, 0⟩] := by decide +kernel
      rw [hw'] at hw
      exact ((List.cons.inj hw).1).symm
    have hi : foreignReading.leg? ⟨1, 0⟩ = some (verifyLeg .idle) := by decide +kernel
    rw [hr, hi] at hl
    rw [← Option.some.inj hl]
    decide
  · rw [foreignReading_work_of_ne d hd] at hw
    exact absurd hw (by simp)

/-- A lost card leaves the leg of a SETTLING job WRITTEN, by `cardLost`; here it has become VERIFYING. -/
theorem not_cardLost_foreignReading {c : Instr} {t : State} (he : exec c foreignReading = .next t)
    (hv : settlingLegAfter c = some .verifying) (hc : foreignReading.cardLost 0 false t) : False := by
  have hwork : ∀ (d : Fin 6) (r : LegRef), r ∈ (foreignReading.readers[d.val]).work →
      (foreignReading.ingest[(0 : Fin 8).val]).reading ≠ some r.job := by
    decide +kernel
  have hj : foreignReading.job? 2 = some (oneLegJob .settling 0 8192 .written) := by decide +kernel
  obtain ⟨k, hk, hi⟩ := hc.settling foreignReading_headsActive hwork 2 _ hj rfl rfl (by decide +kernel)
  obtain ⟨m, hm, hl, -⟩ := hi.legs 0 (verifyLeg .written) rfl
  have hleg : t.leg? ⟨2, 0⟩ = some m := by simp [State.leg?, hk, hm]
  have hs : m.state = .written := by rw [hl]; rfl
  simp [settlingLegAfter, he, hleg, hs] at hv

/-- Refutes O28: the SETTLING jobs of a card are not unchanged where its port reads a job of another port's. -/
theorem not_cardLinkDownResetsThePort : ¬ Obligations.CardLinkDownResetsThePort := by
  intro h
  obtain ⟨t, he, -, -, -, -, hc, -⟩ := h 0 foreignReading rfl (by decide +kernel)
  exact not_cardLost_foreignReading he (by decide +kernel) (hc (by decide +kernel)).1

/-- Refutes O37: as at a LINK_DOWN, the removal of the card moves a SETTLING job of its port. -/
theorem not_cardReportsChangeTheMedia : ¬ Obligations.CardReportsChangeTheMedia := by
  intro h
  obtain ⟨-, -, -, hremoved, -⟩ := h foreignReading 0 rfl (by decide +kernel)
  obtain ⟨t, he, -, hc, -⟩ := hremoved ⟨7, 100⟩ (by decide +kernel)
  exact not_cardLost_foreignReading he (by decide +kernel) hc

end Sys2Proof.Machine
end

