-- ==== Sys2Proof/Proofs/P2.lean ====
section
/-! The list of things to do of one event always empties. A weight bounds what an event can still bring about: each thing done costs more
than what it leaves to do, since it takes a job or a leg forward; and 64 jobs of at most seven legs weigh less than the bound of
`State.cascade` (notes/assumptions/6.md). -/

namespace Sys2Proof.Machine

open Sys2Proof

/-! ## Weights -/

/-- Every job has at most one leg on each of the seven targets, by number. -/
def State.legsFit (s : State) : Prop :=
  ∀ h j, s.job? h = some j → j.legs.length ≤ 7

/-- What a leg may still bring about: a test and an activation when it ends. -/
def Leg.left (l : Leg) : Nat :=
  if l.state.terminal then 0 else 2

/-- What a job may still bring about: its start, and its teardown. -/
def JobState.left : JobState → Nat
  | .loaded => 23
  | .reading | .settling => 7
  | .done | .failed | .aborted => 0

def Job.left (j : Job) : Nat :=
  j.state.left + (j.legs.map Leg.left).sum

def entryLeft : Option Job → Nat
  | some j => j.left
  | none => 0

/-- What all jobs may still bring about. -/
def State.left (s : State) : Nat :=
  ∑ h : Fin 64, entryLeft (s.job? h)

def Todo.weight : Todo → Nat
  | .ingestFinal _ => 8
  | .activate _ | .test _ | .start _ => 1

def todoWeight (l : List Todo) : Nat :=
  (l.map Todo.weight).sum

@[simp] theorem todoWeight_nil : todoWeight [] = 0 := rfl

@[simp] theorem todoWeight_cons (x : Todo) (l : List Todo) : todoWeight (x :: l) = x.weight + todoWeight l := by
  simp [todoWeight]

@[simp] theorem todoWeight_append (l m : List Todo) : todoWeight (l ++ m) = todoWeight l + todoWeight m := by
  simp [todoWeight]

theorem todoWeight_map_test (l : List (Fin 64)) : todoWeight (l.map .test) = l.length := by
  induction l with
  | nil => rfl
  | cons h rest ih => simp [ih, Todo.weight]; omega

theorem Todo.weight_pos (x : Todo) : 1 ≤ x.weight := by
  cases x <;> simp [Todo.weight]

theorem todoWeight_eq_zero {l : List Todo} (h : todoWeight l = 0) : l = [] := by
  cases l with
  | nil => rfl
  | cons x rest =>
    rw [todoWeight_cons] at h
    have := x.weight_pos
    omega

theorem forall₂_weight_le {α : Type} {R : α → α → Prop} (w : α → Nat) (hw : ∀ a b, R a b → w b ≤ w a) {l m : List α}
    (h : List.Forall₂ R l m) : (m.map w).sum ≤ (l.map w).sum := by
  induction h with
  | nil => rfl
  | cons hab _ ih => simpa using Nat.add_le_add (hw _ _ hab) ih

theorem forall₂_weight_drop {α : Type} {R : α → α → Prop} (w : α → Nat) (hw : ∀ a b, R a b → w b ≤ w a) {l m : List α}
    (h : List.Forall₂ R l m) {n d : Nat} {a b : α} (ha : l[n]? = some a) (hb : m[n]? = some b) (hd : w b + d ≤ w a) :
    (m.map w).sum + d ≤ (l.map w).sum := by
  induction h generalizing n with
  | nil => simp at ha
  | @cons x y l m hxy hr ih =>
    cases n with
    | zero =>
      simp only [List.getElem?_cons_zero, Option.some.injEq] at ha hb
      have := forall₂_weight_le w hw hr
      subst ha hb
      simp only [List.map_cons, List.sum_cons]
      omega
    | succ n =>
      have := ih (by simpa using ha) (by simpa using hb)
      have := hw _ _ hxy
      simp only [List.map_cons, List.sum_cons]
      omega

theorem Leg.advancesTo.left_le {l m : Leg} (h : l.advancesTo m) : m.left ≤ l.left := by
  unfold Leg.left
  by_cases hl : l.state.terminal = true
  · simp [hl, (h.final hl).1]
  · simp only [hl]
    split <;> simp

theorem JobState.left_le_of_rank {x y : JobState} (h : x.rank ≤ y.rank) : y.left ≤ x.left := by
  revert h
  cases x <;> cases y <;> decide

theorem Job.advancesTo.forall₂_legs {j k : Job} (h : j.advancesTo k) : List.Forall₂ Leg.advancesTo j.legs k.legs := by
  rw [List.forall₂_iff_get]
  refine ⟨h.legCount.symm, fun n h1 h2 => ?_⟩
  obtain ⟨m, hm, ha, -⟩ := h.legs n (j.legs[n]) (List.getElem?_eq_getElem h1)
  have : k.legs[n] = m := by simpa [List.getElem?_eq_getElem h2] using hm
  simpa [this] using ha

theorem Job.advancesTo.legs_left_le {j k : Job} (h : j.advancesTo k) : (k.legs.map Leg.left).sum ≤ (j.legs.map Leg.left).sum :=
  forall₂_weight_le Leg.left (fun _ _ => Leg.advancesTo.left_le) h.forall₂_legs

theorem Job.advancesTo.left_add_le {j k : Job} (h : j.advancesTo k) {d : Nat} (hd : k.state.left + d ≤ j.state.left) :
    k.left + d ≤ j.left := by
  have := h.legs_left_le
  unfold Job.left
  omega

theorem Job.advancesTo.left_le {j k : Job} (h : j.advancesTo k) : k.left ≤ j.left := by
  have := h.left_add_le (d := 0) (JobState.left_le_of_rank h.rank)
  omega

/-- A leg that ends lightens its job by two. -/
theorem Job.advancesTo.left_of_leg {j k : Job} (h : j.advancesTo k) {n : Nat} {l m : Leg} (hl : j.legs[n]? = some l)
    (hm : k.legs[n]? = some m) (nl : l.state.terminal = false) (tm : m.state.terminal = true) : k.left + 2 ≤ j.left := by
  have hd : m.left + 2 ≤ l.left := by simp [Leg.left, nl, tm]
  have := forall₂_weight_drop Leg.left (fun _ _ => Leg.advancesTo.left_le) h.forall₂_legs hl hm hd
  have := JobState.left_le_of_rank h.rank
  unfold Job.left
  omega

/-! ## Jobs that stay in their entries -/

/-- Jobs only go forward, and no entry is filled. -/
structure State.keepsJobs (s t : State) : Prop where
  advances : s.advancesTo t
  isSome : ∀ h, (t.job? h).isSome = (s.job? h).isSome

theorem State.keepsJobs.refl (s : State) : s.keepsJobs s :=
  ⟨s.advancesTo_refl, fun _ => rfl⟩

theorem State.keepsJobs.trans {s t u : State} (a : s.keepsJobs t) (b : t.keepsJobs u) : s.keepsJobs u :=
  ⟨a.advances.trans b.advances, fun h => (b.isSome h).trans (a.isSome h)⟩

theorem perform_keepsJobs (s : State) (x : Todo) : s.keepsJobs (s.perform x).1 :=
  ⟨perform_advances s x, (recordFrame_entries (perform_records s x)).2.2.2⟩

theorem State.keepsJobs.legsFit {s t : State} (h : s.keepsJobs t) (hs : s.legsFit) : t.legsFit := by
  intro g k hk
  have := h.isSome g
  rw [hk, Option.isSome_some] at this
  obtain ⟨j, hj⟩ := Option.isSome_iff_exists.mp this.symm
  obtain ⟨k', hk', ha⟩ := h.advances.jobs g j hj
  rw [hk] at hk'
  cases hk'
  rw [ha.legCount]
  exact hs g j hj

theorem State.keepsJobs.entryLeft_le {s t : State} (h : s.keepsJobs t) (g : Fin 64) : entryLeft (t.job? g) ≤ entryLeft (s.job? g) := by
  cases hj : s.job? g with
  | none =>
    have := h.isSome g
    rw [hj] at this
    simp [Option.isNone_iff_eq_none.mp (by simpa using this)]
  | some j =>
    obtain ⟨k, hk, ha⟩ := h.advances.jobs g j hj
    simpa [hk, entryLeft] using ha.left_le

theorem State.keepsJobs.left_le {s t : State} (h : s.keepsJobs t) : t.left ≤ s.left :=
  Finset.sum_le_sum fun g _ => h.entryLeft_le g

theorem State.keepsJobs.left_drop {s t : State} (h : s.keepsJobs t) {g : Fin 64} {d : Nat} {j k : Job} (hj : s.job? g = some j)
    (hk : t.job? g = some k) (hd : k.left + d ≤ j.left) : t.left + d ≤ s.left := by
  have hrest : ∑ x ∈ Finset.univ.erase g, entryLeft (t.job? x) ≤ ∑ x ∈ Finset.univ.erase g, entryLeft (s.job? x) :=
    Finset.sum_le_sum fun x _ => h.entryLeft_le x
  have ht := Finset.add_sum_erase Finset.univ (fun x => entryLeft (t.job? x)) (Finset.mem_univ g)
  have hs := Finset.add_sum_erase Finset.univ (fun x => entryLeft (s.job? x)) (Finset.mem_univ g)
  have et : entryLeft (t.job? g) = k.left := by rw [hk]; rfl
  have es : entryLeft (s.job? g) = j.left := by rw [hj]; rfl
  unfold State.left
  omega

theorem Job.left_le (j : Job) (h : j.legs.length ≤ 7) : j.left ≤ 37 := by
  have hl : (j.legs.map Leg.left).sum ≤ j.legs.length * 2 := by
    have := List.sum_le_card_nsmul (j.legs.map Leg.left) 2 (by
      intro x hx
      obtain ⟨l, -, rfl⟩ := List.mem_map.mp hx
      unfold Leg.left
      split <;> simp)
    simpa using this
  have hs : j.state.left ≤ 23 := by cases j.state <;> decide
  unfold Job.left
  omega

theorem State.legsFit.left_le {s : State} (h : s.legsFit) : s.left ≤ 2368 := by
  have := Finset.sum_le_card_nsmul Finset.univ (fun g : Fin 64 => entryLeft (s.job? g)) 37 (by
    intro g _
    cases hj : s.job? g with
    | none => simp [entryLeft]
    | some j => simpa [entryLeft] using j.left_le (h g j hj))
  simpa [State.left] using this

end Sys2Proof.Machine
end

