-- ==== Sys2Proof/Proofs/P3.lean ====
section
/-! The Job Table's operations, each inverted once: in which cases it acts, what it leaves of every job and leg, and what it leaves to do. -/

namespace Sys2Proof.Machine

open Sys2Proof

variable (s : State)

/-! ## Legs by reference -/

theorem State.leg?_eq_some {s : State} {r : LegRef} {l : Leg} :
    s.leg? r = some l ↔ ∃ j, s.job? r.job = some j ∧ j.legs[r.leg]? = some l := by
  simp [State.leg?, Option.bind_eq_some_iff]

theorem State.leg?_modLeg (r q : LegRef) (g : Leg → Leg) :
    (s.modLeg r g).leg? q = if r = q then (s.leg? r).map g else s.leg? q := by
  unfold State.leg?
  rw [State.job?_modLeg]
  by_cases hj : r.job = q.job
  · rw [if_pos hj, hj]
    cases s.job? q.job with
    | none => simp
    | some j =>
      by_cases hl : r.leg = q.leg
      · have : r = q := by cases r; cases q; simp_all
        simp [this]
      · have : r ≠ q := fun e => hl (e ▸ rfl)
        simp [this, hl]
  · have : r ≠ q := fun e => hj (e ▸ rfl)
    simp [hj, this]

theorem State.leg?_congr {s t : State} (h : t.jobs = s.jobs) (r : LegRef) : t.leg? r = s.leg? r := by
  unfold State.leg?
  rw [State.job?_congr h]

/-- A leg as it stands after its end: a terminal one as it was (R4). -/
def Leg.ended (now : Tick) (x : LegState) (c : Option LegCause) (l : Leg) : Leg :=
  if l.state.terminal then l else { l with state := x, cause := c, finished := some now }

theorem State.leg?_endLeg (r q : LegRef) (x : LegState) (c : Option LegCause) :
    (s.endLeg r x c).leg? q = if r = q then (s.leg? r).map (Leg.ended s.now x c) else s.leg? q :=
  s.leg?_modLeg r q _

theorem State.job?_endLeg (r : LegRef) (h : Fin 64) (x : LegState) (c : Option LegCause) :
    (s.endLeg r x c).job? h =
      if r.job = h then (s.job? r.job).map fun j => { j with legs := j.legs.modify r.leg (Leg.ended s.now x c) } else s.job? h :=
  s.job?_modLeg r h _

@[simp] theorem Leg.ended_target (now : Tick) (x : LegState) (c : Option LegCause) (l : Leg) : (l.ended now x c).target = l.target := by
  unfold Leg.ended; split <;> rfl

theorem Leg.ended_terminal (now : Tick) {x : LegState} (hx : x.terminal = true) (c : Option LegCause) (l : Leg) :
    (l.ended now x c).state.terminal = true := by
  unfold Leg.ended
  split
  · assumption
  · exact hx

/-! ## Comparison and activation -/

theorem compareLeg_cases (d : Fin 6) (r : LegRef) :
    s.compareLeg d r = (s, false) ∨
      ∃ l j v g, s.leg? r = some l ∧ s.job? r.job = some j ∧ l.context.final = some v ∧ j.ingest.final = some g ∧
        l.state = .verifying ∧
        s.compareLeg d r = ((s.endLeg r (if v = g then .good else .mismatch) none).modReader d fun q =>
          { q with work := q.work.filter fun x => x != r }, true) := by
  unfold State.compareLeg
  split
  · next l j hl hj =>
    split
    · next v g hv hg =>
      split
      · next hs => exact .inr ⟨l, j, v, g, hl, hj, hv, hg, hs, rfl⟩
      · exact .inl rfl
    · exact .inl rfl
  · exact .inl rfl

theorem compareState_terminal (v g : Digest) : (if v = g then LegState.good else .mismatch).terminal = true := by
  split <;> rfl

/-- The leg's verify context finalised (R128). -/
def State.finaliseLeg (r : LegRef) (length : Nat) : State :=
  s.modLeg r fun l => { l with context := finalise l.context length }

theorem verifyFinal_cases (d : Fin 6) (r : LegRef) :
    s.verifyFinal d r = (s, []) ∨
      ∃ j, s.job? r.job = some j ∧ j.state.terminal = false ∧
        s.verifyFinal d r = (((s.finaliseLeg r j.length).compareLeg d r).1,
          if ((s.finaliseLeg r j.length).compareLeg d r).2 then [.test r.job, .activate d] else []) := by
  unfold State.verifyFinal
  split
  · exact .inl rfl
  · next j hj =>
    split
    · exact .inl rfl
    · next ht => exact .inr ⟨j, hj, by simpa using ht, rfl⟩

theorem activateHead_cases (d : Fin 6) :
    s.activateHead d = (s, []) ∨
      ∃ r rest l j, (s.readers[d.val]).work = r :: rest ∧ s.leg? r = some l ∧ s.job? r.job = some j ∧ l.state = .written ∧
        ((j.blocks ≠ 0 ∧ s.activateHead d = (s.modLeg r fun l => { l with state := .verifying }, [])) ∨
          (j.blocks = 0 ∧ s.activateHead d = (s.modLeg r fun l => { l with state := .verifying }).verifyFinal d r)) := by
  unfold State.activateHead
  split
  · exact .inl rfl
  · next r rest hw =>
    split
    · next l j hl hj =>
      split
      · next hs =>
        refine .inr ⟨r, rest, l, j, hw, hl, hj, hs, ?_⟩
        by_cases hb : j.blocks = 0
        · exact .inr ⟨hb, by simp [hb]⟩
        · exact .inl ⟨hb, by simp [hb]⟩
      · exact .inl rfl
    · exact .inl rfl

/-! ## A leg written -/

theorem legWritten_cases (r : LegRef) :
    (s.leg? r = none ∧ s.legWritten r = (s, [])) ∨
      ∃ l, s.leg? r = some l ∧
        ((∃ d, l.verify = true ∧ l.target = .drive d ∧
            s.legWritten r = ((s.modLeg r fun l => { l with state := .written, written := some s.now }).modReader d fun v =>
              { v with work := v.work ++ [r] }, [.activate d])) ∨
          ((l.verify = false ∨ l.target = .sink) ∧
            s.legWritten r =
              ((s.modLeg r fun l => { l with state := .written, written := some s.now }).endLeg r .good none, [.test r.job]))) := by
  unfold State.legWritten
  split
  · next hl => exact .inl ⟨hl, rfl⟩
  · next l hl =>
    refine .inr ⟨l, hl, ?_⟩
    cases hv : l.verify <;> cases ht : l.target <;> simp

theorem writtenIfWriting_cases (r : LegRef) :
    s.writtenIfWriting r = (s, []) ∨ ∃ l, s.leg? r = some l ∧ l.state = .writing ∧ s.writtenIfWriting r = s.legWritten r := by
  unfold State.writtenIfWriting
  split
  · next l hl =>
    split
    · next hs => exact .inr ⟨l, hl, hs, rfl⟩
    · exact .inl rfl
  · exact .inl rfl

/-! ## A job's end -/

/-- A job as it stands after its end: a terminal one as it was (R24). -/
def Job.finished (now : Tick) (o : JobState) (c : Option JobCause) (j : Job) : Job :=
  if j.state.terminal then j else { j with state := o, cause := c, finishedAt := some now }

/-- A job with its legs abandoned (R22). -/
def Job.abandoned (now : Tick) (j : Job) : Job :=
  { j with legs := j.legs.map fun l => if l.state.terminal then l else { l with state := .abandoned, finished := some now } }

theorem finishJob_job? (h k : Fin 64) (o : JobState) (c : Option JobCause) :
    (s.finishJob h o c).job? k = if h = k then (s.job? h).map (Job.finished s.now o c) else s.job? k := by
  unfold State.finishJob
  split
  · next hj =>
    split
    · next e => rw [← e, hj]; rfl
    · rfl
  · next j hj =>
    have he : ∀ t : State, (∀ x, t.job? x = (s.modJob h fun j => { j with state := o, cause := c, finishedAt := some s.now }).job? x) →
        j.state.terminal = false → t.job? k = if h = k then (s.job? h).map (Job.finished s.now o c) else s.job? k := by
      intro t ht hn
      rw [ht, State.job?_modJob]
      split
      · simp [hj, Job.finished, hn]
      · rfl
    split
    · next ht =>
      split
      · next e => rw [← e, hj]; simp [Job.finished, ht]
      · rfl
    · next hn =>
      split
      · exact he _ (fun x => State.job?_congr rfl x) (by simpa using hn)
      · exact he _ (fun x => rfl) (by simpa using hn)

theorem abandonLegs_job? (h k : Fin 64) :
    (s.abandonLegs h).job? k = if h = k then (s.job? h).map (Job.abandoned s.now) else s.job? k :=
  s.job?_modJob h k _

theorem dropReading_jobs (h : Fin 64) : (s.dropReading h).jobs = s.jobs := by
  unfold State.dropReading
  split
  · rfl
  · split <;> rfl

@[simp] theorem finishJob_now (h : Fin 64) (o : JobState) (c : Option JobCause) : (s.finishJob h o c).now = s.now := by
  unfold State.finishJob
  split
  · rfl
  · split
    · rfl
    · dsimp only
      split <;> rfl

/-- A job torn down (R22). -/
def Job.torn (now : Tick) (o : JobState) (c : JobCause) (j : Job) : Job :=
  (j.finished now o (some c)).abandoned now

theorem foldl_jobs {β : Type} (g : State → β → State) (h : ∀ (s : State) b, (g s b).jobs = s.jobs) (l : List β) (s : State) :
    (l.foldl g s).jobs = s.jobs :=
  foldl_keeps State.jobs g h l s

theorem teardown_job? (h k : Fin 64) (o : JobState) (c : JobCause) :
    (s.teardown h o c).job? k = if h = k then (s.job? h).map (Job.torn s.now o c) else s.job? k := by
  have hj : (s.teardown h o c).jobs = ((s.finishJob h o (some c)).abandonLegs h).jobs := by
    unfold State.teardown
    rw [foldl_jobs _ (fun s d => withdrawVerify_jobs s d h)]
    rw [foldl_jobs (fun s t => s.modWriter t fun w => w.withdraw h) (fun s t => rfl)]
    exact dropReading_jobs _ h
  rw [State.job?_congr hj, abandonLegs_job?]
  by_cases e : h = k
  · subst e
    rw [if_pos rfl, if_pos rfl, finishJob_job?, if_pos rfl, finishJob_now, Option.map_map]
    rfl
  · rw [if_neg e, if_neg e, finishJob_job?, if_neg e]

theorem tearJob_cases (h : Fin 64) (o : JobState) (c : JobCause) :
    s.tearJob h o c = (s, []) ∧ (∀ j, s.job? h = some j → j.state.terminal = true) ∨
      ∃ j, s.job? h = some j ∧ j.state.terminal = false ∧ s.tearJob h o c = (s.teardown h o c, afterTeardown j.port) := by
  unfold State.tearJob
  split
  · next hj => exact .inl ⟨rfl, by simp [hj]⟩
  · next j hj =>
    split
    · next ht => exact .inl ⟨rfl, fun k hk => by rw [hj] at hk; cases hk; exact ht⟩
    · next ht => exact .inr ⟨j, hj, by simpa using ht, rfl⟩

/-! ## The tests of a job -/

theorem viableLegs_eq_zero {j : Job} : j.viableLegs = 0 ↔ ∀ l ∈ j.legs, l.state.viable = false := by
  simp [Job.viableLegs, List.filter_eq_nil_iff]

theorem testJob_cases (h : Fin 64) :
    s.testJob h = (s, []) ∧
        (∀ j, s.job? h = some j → (j.state = .reading ∨ j.state = .settling) → j.viableLegs ≠ 0 ∧ j.finalisable = false) ∨
      ∃ j, s.job? h = some j ∧ (j.state = .reading ∨ j.state = .settling) ∧
        ((j.viableLegs = 0 ∧ s.testJob h = s.tearJob h .failed .insufficientCopies) ∨
          (j.viableLegs ≠ 0 ∧ j.finalisable = true ∧ j.required ≤ j.goodLegs ∧ s.testJob h = (s.finishJob h .done none, [])) ∨
          (j.viableLegs ≠ 0 ∧ j.finalisable = true ∧ ¬ j.required ≤ j.goodLegs ∧
            s.testJob h = (s.finishJob h .failed (some .insufficientCopies), []))) := by
  unfold State.testJob
  split
  · next hj => exact .inl ⟨rfl, by simp [hj]⟩
  · next j hj =>
    split
    · next hs =>
      split
      · next hv => exact .inr ⟨j, hj, hs, .inl ⟨hv, rfl⟩⟩
      · next hv =>
        split
        · next hf =>
          split
          · next hr => exact .inr ⟨j, hj, hs, .inr (.inl ⟨hv, hf, hr, rfl⟩)⟩
          · next hr => exact .inr ⟨j, hj, hs, .inr (.inr ⟨hv, hf, hr, rfl⟩)⟩
        · next hf =>
          refine .inl ⟨rfl, fun k hk _ => ?_⟩
          rw [hj] at hk
          cases hk
          exact ⟨hv, by simpa using hf⟩
    · next hs =>
      refine .inl ⟨rfl, fun k hk hs' => ?_⟩
      rw [hj] at hk
      cases hk
      exact absurd hs' hs

/-- The job's ingest context finalised (R78). -/
def State.finaliseIngest (h : Fin 64) : State :=
  s.modJob h fun j => { j with ingest := finalise j.ingest j.length }

theorem ingestFinalised_cases (h : Fin 64) :
    s.ingestFinalised h = (s, []) ∧ (∀ j, s.job? h = some j → j.state.terminal = true) ∨
      ∃ j, s.job? h = some j ∧ j.state.terminal = false ∧
        (((j.expected = none ∨ j.expected = some (finalDigest j.ingest j.length)) ∧
            s.ingestFinalised h = (((s.finaliseIngest h).legRefs h).foldl State.compareWaiting (s.finaliseIngest h),
              allDrives.map .activate ++ [.test h])) ∨
          (¬ (j.expected = none ∨ j.expected = some (finalDigest j.ingest j.length)) ∧
            s.ingestFinalised h = (s.finaliseIngest h).tearJob h .failed .sourceMismatch)) := by
  unfold State.ingestFinalised
  split
  · next hj => exact .inl ⟨rfl, by simp [hj]⟩
  · next j hj =>
    split
    · next ht => exact .inl ⟨rfl, fun k hk => by rw [hj] at hk; cases hk; exact ht⟩
    · next ht =>
      refine .inr ⟨j, hj, by simpa using ht, ?_⟩
      by_cases he : j.expected = none ∨ j.expected = some (finalDigest j.ingest j.length)
      · exact .inl ⟨he, by simp only [he, if_true]; rfl⟩
      · exact .inr ⟨he, by simp only [he, if_false]; rfl⟩

theorem compareWaiting_cases (r : LegRef) :
    s.compareWaiting r = s ∨
      ∃ l d, s.leg? r = some l ∧ l.target = .drive d ∧ s.compareWaiting r = (s.compareLeg d r).1 := by
  unfold State.compareWaiting
  split
  · next l hl =>
    split
    · next d hd => exact .inr ⟨l, d, hl, hd, rfl⟩
    · exact .inl rfl
  · exact .inl rfl

/-! ## A job's start -/

/-- The job has left its line-up with its start timestamp (R11). -/
def State.beginStart (i : Fin 8) (h : Fin 64) : State :=
  (s.modIngest i fun p => { p with lineUp := p.lineUp.tail }).modJob h fun j => { j with startedAt := some s.now }

/-- The starting job's legs have been placed (R11). -/
def State.placeLegs (i : Fin 8) (h : Fin 64) : State :=
  ((s.beginStart i h).legRefs h).foldl State.placeLeg (s.beginStart i h)

/-- A started job of no blocks is SETTLING (R12). -/
def State.emptied (h : Fin 64) : State :=
  s.modJob h fun j => { j with state := .settling, arrivedAllAt := j.startedAt }

theorem startJob_cases (i : Fin 8) (h : Fin 64) :
    let u := s.placeLegs i h
    (u.job? h = none ∧ s.startJob i h = (u, [])) ∨
      ∃ j, u.job? h = some j ∧
        ((j.viableLegs = 0 ∧ s.startJob i h = (u.finishJob h .failed (some .insufficientCopies), [.start i])) ∨
          (j.viableLegs ≠ 0 ∧ j.blocks = 0 ∧ s.startJob i h =
            ((eachLeg State.writtenIfWriting ((s.beginStart i h).legRefs h) (u.emptied h)).1,
              (eachLeg State.writtenIfWriting ((s.beginStart i h).legRefs h) (u.emptied h)).2 ++ [.ingestFinal h, .start i])) ∨
          (j.viableLegs ≠ 0 ∧ j.blocks ≠ 0 ∧ s.startJob i h =
            ((u.modJob h fun j => { j with state := .reading }).modIngest i fun p => { p with reading := some h }, []))) := by
  intro u
  have e : s.startJob i h =
      match u.job? h with
      | none => (u, [])
      | some j =>
        if j.viableLegs = 0 then (u.finishJob h .failed (some .insufficientCopies), [.start i])
        else if j.blocks = 0 then
          ((eachLeg State.writtenIfWriting ((s.beginStart i h).legRefs h) (u.emptied h)).1,
            (eachLeg State.writtenIfWriting ((s.beginStart i h).legRefs h) (u.emptied h)).2 ++ [.ingestFinal h, .start i])
        else ((u.modJob h fun j => { j with state := .reading }).modIngest i fun p => { p with reading := some h }, []) := rfl
  rw [e]
  cases hj : u.job? h with
  | none => exact .inl ⟨rfl, rfl⟩
  | some j =>
    refine .inr ⟨j, rfl, ?_⟩
    by_cases hv : j.viableLegs = 0
    · exact .inl ⟨hv, if_pos hv⟩
    · by_cases hb : j.blocks = 0
      · exact .inr (.inl ⟨hv, hb, (if_neg hv).trans (if_pos hb)⟩)
      · exact .inr (.inr ⟨hv, hb, (if_neg hv).trans (if_neg hb)⟩)

theorem testStart_cases (i : Fin 8) :
    s.testStart i = (s, []) ∧ ((s.ingest[i.val]).reading ≠ none ∨ (s.ingest[i.val]).lineUp = [] ∨
        ∃ h rest, (s.ingest[i.val]).lineUp = h :: rest ∧ ∀ j, s.job? h = some j → j.state ≠ .loaded) ∨
      ∃ h rest j, (s.ingest[i.val]).reading = none ∧ (s.ingest[i.val]).lineUp = h :: rest ∧ s.job? h = some j ∧ j.state = .loaded ∧
        s.testStart i = s.startJob i h := by
  unfold State.testStart
  split
  · next h rest hr hl =>
    split
    · next j hj =>
      split
      · next hs => exact .inr ⟨h, rest, j, hr, hl, hj, hs, rfl⟩
      · next hs => exact .inl ⟨rfl, .inr (.inr ⟨h, rest, hl, fun k hk => by rw [hj] at hk; cases hk; exact hs⟩)⟩
    · next hj => exact .inl ⟨rfl, .inr (.inr ⟨h, rest, hl, by simp [hj]⟩)⟩
  · next hn =>
    refine .inl ⟨rfl, ?_⟩
    cases hr : (s.ingest[i.val]).reading with
    | some h => simp
    | none =>
      cases hl : (s.ingest[i.val]).lineUp with
      | nil => simp
      | cons h rest => exact absurd hl (hn h rest hr)

theorem eachLeg_inv (P : State → Prop) {f : State → LegRef → State × List Todo} (hf : ∀ s r, P s → P (f s r).1) :
    ∀ (l : List LegRef) (s : State), P s → P (eachLeg f l s).1
  | [], _, hs => hs
  | _ :: rest, s, hs => eachLeg_inv P hf rest _ (hf s _ hs)

end Sys2Proof.Machine
end

