-- ==== Sys2Proof/Proofs/P4.lean ====
section
/-! Each thing done in an event lightens what is left, so that `State.cascade` does everything there is to do. -/

namespace Sys2Proof.Machine

open Sys2Proof

theorem State.keepsJobs.left_of_leg {s t : State} (h : s.keepsJobs t) {r : LegRef} {l m : Leg} (hl : s.leg? r = some l)
    (hm : t.leg? r = some m) (nl : l.state.terminal = false) (tm : m.state.terminal = true) : t.left + 2 ≤ s.left := by
  obtain ⟨j, hj, hlj⟩ := State.leg?_eq_some.mp hl
  obtain ⟨k, hk, hmk⟩ := State.leg?_eq_some.mp hm
  obtain ⟨k', hk', ha⟩ := h.advances.jobs _ j hj
  rw [hk] at hk'
  cases hk'
  exact h.left_drop hj hk (ha.left_of_leg hlj hmk nl tm)

theorem State.keepsJobs.left_of_state {s t : State} (h : s.keepsJobs t) {g : Fin 64} {j k : Job} {d : Nat} (hj : s.job? g = some j)
    (hk : t.job? g = some k) (hd : k.state.left + d ≤ j.state.left) : t.left + d ≤ s.left := by
  obtain ⟨k', hk', ha⟩ := h.advances.jobs g j hj
  rw [hk] at hk'
  cases hk'
  exact h.left_drop hj hk (ha.left_add_le hd)

theorem JobState.left_of_terminal {x : JobState} (h : x.terminal = true) : x.left = 0 := by
  revert h
  cases x <;> decide

theorem Job.finished_terminal (now : Tick) {o : JobState} (ho : o.terminal = true) (c : Option JobCause) (j : Job) :
    (j.finished now o c).state.terminal = true := by
  unfold Job.finished
  split
  · assumption
  · exact ho

theorem Job.torn_terminal (now : Tick) {o : JobState} (ho : o.terminal = true) (c : JobCause) (j : Job) :
    (j.torn now o c).state.terminal = true :=
  j.finished_terminal now ho (some c)

/-- A comparison made ends the leg. -/
theorem compareLeg_ends (s : State) {d : Fin 6} {r : LegRef} (h : (s.compareLeg d r).2 = true) :
    ∃ m, (s.compareLeg d r).1.leg? r = some m ∧ m.state.terminal = true := by
  rcases compareLeg_cases s d r with e | ⟨l, j, v, g, hl, -, -, -, -, e⟩
  · rw [e] at h
    exact absurd h (by simp)
  · refine ⟨l.ended s.now (if v = g then .good else .mismatch) none, ?_, Leg.ended_terminal _ (compareState_terminal v g) _ _⟩
    rw [e]
    change (s.endLeg r _ _).leg? r = _
    rw [State.leg?_endLeg, if_pos rfl, hl]
    rfl

theorem verifyFinal_ends (s : State) {d : Fin 6} {r : LegRef} (h : (s.verifyFinal d r).2 ≠ []) :
    ∃ m, (s.verifyFinal d r).1.leg? r = some m ∧ m.state.terminal = true := by
  rcases verifyFinal_cases s d r with e | ⟨j, -, -, e⟩
  · exact absurd (by rw [e]) h
  · rw [e] at h ⊢
    by_cases hc : ((s.finaliseLeg r j.length).compareLeg d r).2 = true
    · exact compareLeg_ends _ hc
    · simp [hc] at h

theorem verifyFinal_weight (s : State) (d : Fin 6) (r : LegRef) : todoWeight (s.verifyFinal d r).2 ≤ 2 := by
  rcases verifyFinal_cases s d r with e | ⟨j, -, -, e⟩
  · simp [e]
  · rw [e]
    dsimp only
    split <;> simp [Todo.weight]

theorem activateHead_lightens (s : State) (d : Fin 6) : todoWeight (s.activateHead d).2 + (s.activateHead d).1.left ≤ s.left := by
  have hk := perform_keepsJobs s (.activate d)
  change s.keepsJobs (s.activateHead d).1 at hk
  by_cases he : (s.activateHead d).2 = []
  · simpa [he] using hk.left_le
  · rcases activateHead_cases s d with e | ⟨r, rest, l, j, -, hl, -, hs, ⟨-, e⟩ | ⟨-, e⟩⟩
    · exact absurd (by rw [e]) he
    · exact absurd (by rw [e]) he
    · rw [e] at he hk ⊢
      obtain ⟨m, hm, tm⟩ := verifyFinal_ends _ he
      have := hk.left_of_leg hl hm (by rw [hs]; rfl) tm
      have := verifyFinal_weight (s.modLeg r fun l => { l with state := .verifying }) d r
      omega

theorem afterTeardown_weight (i : Fin 8) : todoWeight (afterTeardown i) = 7 := rfl

theorem tearJob_weight (s : State) (h : Fin 64) (o : JobState) (c : JobCause) : todoWeight (s.tearJob h o c).2 ≤ 7 := by
  rcases tearJob_cases s h o c with ⟨e, -⟩ | ⟨j, -, -, e⟩
  · simp [e]
  · rw [e, afterTeardown_weight]

theorem testJob_lightens (s : State) (h : Fin 64) : todoWeight (s.testJob h).2 + (s.testJob h).1.left ≤ s.left := by
  have hk := perform_keepsJobs s (.test h)
  change s.keepsJobs (s.testJob h).1 at hk
  rcases testJob_cases s h with ⟨e, -⟩ | ⟨j, hj, hs, ⟨-, e⟩ | ⟨-, -, -, e⟩ | ⟨-, -, -, e⟩⟩
  · simp [e]
  · rcases tearJob_cases s h .failed .insufficientCopies with ⟨e', -⟩ | ⟨j', hj', -, e'⟩
    · simp [e, e']
    · rw [hj] at hj'
      cases hj'
      rw [e, e'] at hk ⊢
      dsimp only at hk ⊢
      have hw := afterTeardown_weight j.port
      have ht : (s.teardown h .failed .insufficientCopies).job? h = some (j.torn s.now .failed .insufficientCopies) := by
        rw [teardown_job?, if_pos rfl, hj, Option.map_some]
      have hz := JobState.left_of_terminal (Job.torn_terminal s.now (rfl : JobState.failed.terminal = true) .insufficientCopies j)
      have hj7 : j.state.left = 7 := by rcases hs with e | e <;> rw [e] <;> rfl
      have := hk.left_of_state hj ht (d := 7) (by rw [hz, hj7])
      omega
  · rw [e] at hk ⊢
    simpa using hk.left_le
  · rw [e] at hk ⊢
    simpa using hk.left_le

theorem ingestFinalised_weight (s : State) (h : Fin 64) : todoWeight (s.ingestFinalised h).2 ≤ 7 := by
  rcases ingestFinalised_cases s h with ⟨e, -⟩ | ⟨j, -, -, ⟨-, e⟩ | ⟨-, e⟩⟩
  · simp [e]
  · rw [e]
    exact Nat.le_refl 7
  · rw [e]
    exact tearJob_weight _ _ _ _

theorem writtenIfWriting_weight (s : State) (r : LegRef) : todoWeight (s.writtenIfWriting r).2 ≤ 1 := by
  rcases writtenIfWriting_cases s r with e | ⟨l, -, -, e⟩
  · simp [e]
  · rw [e]
    rcases legWritten_cases s r with ⟨-, e⟩ | ⟨l, -, ⟨d, -, -, e⟩ | ⟨-, e⟩⟩ <;> simp [e, Todo.weight]

theorem eachLeg_weight {f : State → LegRef → State × List Todo} (hf : ∀ s r, todoWeight (f s r).2 ≤ 1) :
    ∀ (l : List LegRef) (s : State), todoWeight (eachLeg f l s).2 ≤ l.length
  | [], _ => Nat.le_refl 0
  | r :: rest, s => by
    have := hf s r
    have := eachLeg_weight hf rest (f s r).1
    simp only [eachLeg, todoWeight_append, List.length_cons]
    omega

theorem beginStart_job? (s : State) (i : Fin 8) (h k : Fin 64) :
    (s.beginStart i h).job? k = if h = k then (s.job? h).map (fun j => { j with startedAt := some s.now }) else s.job? k :=
  (s.modIngest i fun p => { p with lineUp := p.lineUp.tail }).job?_modJob h k _

theorem legRefs_length {s : State} {h : Fin 64} {j : Job} (hj : s.job? h = some j) : (s.legRefs h).length = j.legs.length := by
  simp [State.legRefs, hj]

theorem startJob_lightens (s : State) (i : Fin 8) (h : Fin 64) {j : Job} (hf : s.legsFit) (hj : s.job? h = some j) (hl : j.state = .loaded)
    (hk : s.keepsJobs (s.startJob i h).1) : todoWeight (s.startJob i h).2 + (s.startJob i h).1.left ≤ s.left := by
  have hb : (s.beginStart i h).job? h = some { j with startedAt := some s.now } := by
    rw [beginStart_job?, if_pos rfl, hj]; rfl
  have hj23 : j.state.left = 23 := by rw [hl]; rfl
  rcases startJob_cases s i h with ⟨-, e⟩ | ⟨q, hq, ⟨-, e⟩ | ⟨-, -, e⟩ | ⟨-, -, e⟩⟩
  · rw [e] at hk ⊢
    simpa using hk.left_le
  · rw [e] at hk ⊢
    dsimp only at hk ⊢
    have ht : ((s.placeLegs i h).finishJob h .failed (some .insufficientCopies)).job? h =
        some (q.finished (s.placeLegs i h).now .failed (some .insufficientCopies)) := by
      rw [finishJob_job?, if_pos rfl, hq]; rfl
    have hz := JobState.left_of_terminal
      (Job.finished_terminal (s.placeLegs i h).now (rfl : JobState.failed.terminal = true) (some .insufficientCopies) q)
    have := hk.left_of_state hj ht (d := 1) (by omega)
    simp only [todoWeight_cons, todoWeight_nil, Todo.weight]
    omega
  · rw [e] at hk ⊢
    dsimp only at hk ⊢
    have hz : ((s.placeLegs i h).emptied h).job? h = some { q with state := .settling, arrivedAllAt := q.startedAt } := by
      rw [State.emptied, State.job?_modJob, if_pos rfl, hq]; rfl
    obtain ⟨k, hk', ha⟩ :=
      (eachLeg_advances State.writtenIfWriting writtenIfWriting_advances ((s.beginStart i h).legRefs h) ((s.placeLegs i h).emptied h)).jobs
        h _ hz
    have h7 : k.state.left ≤ 7 := by
      have hr : JobState.settling.rank ≤ k.state.rank := ha.rank
      exact JobState.left_le_of_rank hr
    have := hk.left_of_state hj hk' (d := 16) (by omega)
    have hw := eachLeg_weight writtenIfWriting_weight ((s.beginStart i h).legRefs h) ((s.placeLegs i h).emptied h)
    rw [legRefs_length hb] at hw
    have : j.legs.length ≤ 7 := hf h j hj
    dsimp only at hw
    simp only [todoWeight_append, todoWeight_cons, todoWeight_nil, Todo.weight]
    omega
  · rw [e] at hk ⊢
    simpa using hk.left_le

theorem testStart_lightens (s : State) (i : Fin 8) (hf : s.legsFit) :
    todoWeight (s.testStart i).2 + (s.testStart i).1.left ≤ s.left := by
  have hk := perform_keepsJobs s (.start i)
  change s.keepsJobs (s.testStart i).1 at hk
  rcases testStart_cases s i with ⟨e, -⟩ | ⟨h, rest, j, -, -, hj, hl, e⟩
  · simp [e]
  · rw [e] at hk ⊢
    exact startJob_lightens s i h hf hj hl hk

/-- Each thing done costs more than it leaves to do. -/
theorem perform_lightens (s : State) (hf : s.legsFit) (x : Todo) :
    todoWeight (s.perform x).2 + (s.perform x).1.left + 1 ≤ x.weight + s.left := by
  have hk := (perform_keepsJobs s x).left_le
  cases x with
  | activate d =>
    have := activateHead_lightens s d
    simp only [State.perform, Todo.weight]
    omega
  | test h =>
    have := testJob_lightens s h
    simp only [State.perform, Todo.weight]
    omega
  | ingestFinal h =>
    have := ingestFinalised_weight s h
    simp only [State.perform, Todo.weight] at hk ⊢
    omega
  | start i =>
    have := testStart_lightens s i hf
    simp only [State.perform, Todo.weight]
    omega

/-! ## The list empties -/

theorem run_ends (P : State → List Todo → Prop)
    (hP : ∀ s x rest, P s (x :: rest) → P (s.perform x).1 ((s.perform x).2 ++ rest)) (k : Nat) (l : List Todo) (s : State)
    (hf : s.legsFit) (hw : todoWeight l + s.left ≤ k) (h : P s l) : P (State.run k l s) [] := by
  induction k generalizing l s with
  | zero =>
    rw [todoWeight_eq_zero (l := l) (by omega)] at h
    exact h
  | succ k ih =>
    cases l with
    | nil => exact h
    | cons x rest =>
      have hl := perform_lightens s hf x
      rw [todoWeight_cons] at hw
      exact ih _ _ ((perform_keepsJobs s x).legsFit hf) (by rw [todoWeight_append]; omega) (hP s x rest h)

/-- What every thing done keeps holds after the rest of an event, with nothing left to do. -/
theorem cascade_ends (P : State → List Todo → Prop)
    (hP : ∀ s x rest, P s (x :: rest) → P (s.perform x).1 ((s.perform x).2 ++ rest)) {s : State} {l : List Todo} (hf : s.legsFit)
    (hw : todoWeight l ≤ 1728) (h : P s l) : P (s.cascade l) [] :=
  run_ends P hP _ l s hf (by have := hf.left_le; unfold cascadeSteps; omega) h

/-- Where nothing is known of the jobs, what every thing done keeps holds after the rest of an event, whatever is left to do. -/
theorem cascade_leaves (P : State → List Todo → Prop)
    (hP : ∀ s x rest, P s (x :: rest) → P (s.perform x).1 ((s.perform x).2 ++ rest)) {s : State} {l : List Todo} (h : P s l) :
    ∃ m, P (s.cascade l) m := by
  unfold State.cascade
  generalize cascadeSteps = k
  induction k generalizing l s with
  | zero => exact ⟨l, h⟩
  | succ k ih =>
    cases l with
    | nil => exact ⟨[], h⟩
    | cons x rest => exact ih (hP s x rest h)

end Sys2Proof.Machine
end

