-- ==== Sys2Proof/Proofs/P5.lean ====
section
/-! The part of the state that the Job Table's invariants speak of (`State.view`), which most operations leave alone, and one rule for what
the grants at the end of an event keep (`settle_inv`). -/

namespace Sys2Proof.Machine

open Sys2Proof

/-! ## The view -/

/-- The job a BUSY read tag is for. -/
def ReadTag.job? (g : ReadTag) : Option (Fin 64) :=
  match g.state with
  | .busy h _ _ _ _ => some h
  | .free | .abandoned _ => none

/-- What the Job Table's invariants read of an ingest port. -/
def IngestPort.view (p : IngestPort) : Bool × List (Fin 64) × Option (Fin 64) × Vector (Option (Fin 64)) 8 :=
  (p.media.isSome, p.lineUp, p.reading, p.tags.map ReadTag.job?)

/-- A drive's regions and append pointer. -/
def Drive.regions (v : Drive) : Option Region × Option Region × Nat :=
  (v.current, v.staged, v.pointer)

/-- What the Job Table's invariants read: jobs, session counters, ports, verify work lists, and regions. -/
def State.view (s : State) :=
  (s.jobs, s.sessions, s.ingest.map IngestPort.view, s.readers.map VerifyReader.work, s.drives.map Drive.regions)

variable (s : State)

@[simp] theorem modLink_view (p : Port) (g : LinkPort → LinkPort) : (s.modLink p g).view = s.view := rfl
@[simp] theorem modWriter_view (x : Target) (g : Writer → Writer) : (s.modWriter x g).view = s.view := rfl
@[simp] theorem modSlots_view (g : List Slot → List Slot) : (s.modSlots g).view = s.view := rfl
@[simp] theorem modDigest_view (g : DigestUnit → DigestUnit) : (s.modDigest g).view = s.view := rfl
@[simp] theorem modArbiter_view (g : SlotArbiter → SlotArbiter) : (s.modArbiter g).view = s.view := rfl
@[simp] theorem modSides_view (d : Fin 6) (g : TargetArbiter → TargetArbiter) : (s.modSides d g).view = s.view := rfl
@[simp] theorem modWindow_view (x : Target) (g : Window → Window) : (s.modWindow x g).view = s.view := rfl
@[simp] theorem modLamp_view (i : Fin 8) (g : Lamp → Lamp) : (s.modLamp i g).view = s.view := rfl
@[simp] theorem modHandler_view (g : Handler → Handler) : (s.modHandler g).view = s.view := rfl
@[simp] theorem modControl_view (g : ControlPort → ControlPort) : (s.modControl g).view = s.view := rfl
@[simp] theorem send_view (p : Port) (f : TxFrame) : (s.send p f).view = s.view := rfl
@[simp] theorem notify_view (n : Notice) : (s.notify n).view = s.view := rfl
@[simp] theorem respond_view (r : Response) : (s.respond r).view = s.view := rfl
@[simp] theorem received_view (p : Port) : (s.received p).view = s.view := rfl
@[simp] theorem discard_view (p : Port) (e : FrameEnd) : (s.discard p e).view = s.view := rfl
@[simp] theorem reserve_view (h : Fin 64) (i : Nat) (k : SlotKind) : (s.reserve h i k).view = s.view := rfl
@[simp] theorem fill_view (n : Nat) (d : List Byte) : (s.fill n d).view = s.view := rfl
@[simp] theorem modHeld_view (n : Nat) (f : HeldBlock → HeldBlock) : (s.modHeld n f).view = s.view := rfl
@[simp] theorem freeSlotNum_view (n : Nat) : (s.freeSlotNum n).view = s.view := rfl
@[simp] theorem freeIfDone_view (n : Nat) : (s.freeIfDone n).view = s.view := rfl
@[simp] theorem settleSlot_view (n : Nat) (x : Target) : (s.settleSlot n x).view = s.view := rfl
@[simp] theorem settleJobSlots_view (h : Fin 64) (x : Target) : (s.settleJobSlots h x).view = s.view := rfl
@[simp] theorem withdrawSlots_view (mine : Slot → Bool) : (s.withdrawSlots mine).view = s.view := rfl
@[simp] theorem makeReady_view (n : Nat) : (s.makeReady n).view = s.view := rfl
@[simp] theorem putWrite_view (x : Target) (k : Fin 16) (w : TagWork) : (s.putWrite x k w).view = s.view := rfl
@[simp] theorem setWriteTag_view (x : Target) (k : Fin 16) (f : BlockTag → BlockTag) : (s.setWriteTag x k f).view = s.view := rfl
@[simp] theorem lapse_view : s.lapse.view = s.view := rfl
@[simp] theorem joinWaiting_view : s.joinWaiting.view = s.view := rfl
@[simp] theorem notifyIf_view (n : Option Notice) : (s.notifyIf n).view = s.view := by cases n <;> rfl

theorem modReader_view (d : Fin 6) (g : VerifyReader → VerifyReader) (h : (g s.readers[d.val]).work = (s.readers[d.val]).work) :
    (s.modReader d g).view = s.view := by
  unfold State.view
  rw [State.modReader_readers, setEntry_map _ _ _ _ h]
  rfl

theorem modIngest_view (i : Fin 8) (g : IngestPort → IngestPort) (h : (g s.ingest[i.val]).view = (s.ingest[i.val]).view) :
    (s.modIngest i g).view = s.view := by
  unfold State.view
  rw [State.modIngest_ingest, setEntry_map _ _ _ _ h]
  rfl

theorem modDrive_view (d : Fin 6) (g : Drive → Drive) (h : (g s.drives[d.val]).regions = (s.drives[d.val]).regions) :
    (s.modDrive d g).view = s.view := by
  unfold State.view
  rw [State.modDrive_drives, setEntry_map _ _ _ _ h]
  rfl

@[simp] theorem setCheckTag_view (d : Fin 6) (k : Fin 8) (f : BlockTag → BlockTag) : (s.setCheckTag d k f).view = s.view :=
  modReader_view s d _ rfl

@[simp] theorem putCheck_view (d : Fin 6) (k : Fin 8) (w : TagWork) : (s.putCheck d k w).view = s.view :=
  modReader_view s d _ rfl

@[simp] theorem noteWork_view : s.noteWork.view = s.view := by
  refine foldl_keeps State.view _ ?_ _ s
  intro t x
  rfl

@[simp] theorem relamp_view : s.relamp.view = s.view := by
  refine foldl_keeps State.view _ ?_ _ s
  intro t x
  rfl

@[simp] theorem queueSlot_view (n : Nat) (h : Fin 64) (owed : List Target) : (s.queueSlot n h owed).view = s.view := by
  refine foldl_keeps State.view _ ?_ _ s
  intro t x
  split <;> rfl

@[simp] theorem grantVerify_view (d : Fin 6) : (s.grantVerify d).view = s.view := by
  unfold State.grantVerify
  split
  · rfl
  · split
    · rfl
    · exact modReader_view _ d _ rfl

/-- A port's view where one tag is changed to another for the same job. -/
theorem IngestPort.view_setTag (p : IngestPort) (k : Fin 8) (f : ReadTag → ReadTag) (h : (f p.tags[k.val]).job? = (p.tags[k.val]).job?) :
    ({ p with tags := setEntry p.tags k f } : IngestPort).view = p.view := by
  unfold IngestPort.view
  rw [setEntry_map _ _ _ _ h]

theorem setReadTag_view (i k : Fin 8) (f : ReadTag → ReadTag)
    (h : (f (s.ingest[i.val]).tags[k.val]).job? = ((s.ingest[i.val]).tags[k.val]).job?) : (s.setReadTag i k f).view = s.view :=
  modIngest_view s i _ (IngestPort.view_setTag _ k f h)

/-! ## Reading a view -/

theorem view_jobs {s t : State} (h : t.view = s.view) : t.jobs = s.jobs :=
  congrArg Prod.fst h

theorem view_sessions {s t : State} (h : t.view = s.view) : t.sessions = s.sessions :=
  congrArg (fun v => v.2.1) h

theorem view_port {s t : State} (h : t.view = s.view) (i : Fin 8) : (t.ingest[i.val]).view = (s.ingest[i.val]).view := by
  have := congrArg (fun v => v.2.2.1[i.val]) h
  simpa [State.view] using this

theorem view_work {s t : State} (h : t.view = s.view) (d : Fin 6) : (t.readers[d.val]).work = (s.readers[d.val]).work := by
  have := congrArg (fun v => v.2.2.2.1[d.val]) h
  simpa [State.view] using this

theorem view_regions {s t : State} (h : t.view = s.view) : t.drives.map Drive.regions = s.drives.map Drive.regions :=
  congrArg (fun v => v.2.2.2.2) h

theorem view_job? {s t : State} (h : t.view = s.view) (g : Fin 64) : t.job? g = s.job? g :=
  State.job?_congr (view_jobs h) g

theorem view_leg? {s t : State} (h : t.view = s.view) (r : LegRef) : t.leg? r = s.leg? r :=
  State.leg?_congr (view_jobs h) r

/-- The four things a port's view holds. -/
structure IngestPort.sameView (p q : IngestPort) : Prop where
  media : q.media.isSome = p.media.isSome
  lineUp : q.lineUp = p.lineUp
  reading : q.reading = p.reading
  tags : ∀ k : Fin 8, (q.tags[k.val]).job? = (p.tags[k.val]).job?

theorem IngestPort.sameView_of_view {p q : IngestPort} (h : q.view = p.view) : p.sameView q where
  media := congrArg Prod.fst h
  lineUp := congrArg (fun v => v.2.1) h
  reading := congrArg (fun v => v.2.2.1) h
  tags k := by
    have := congrArg (fun v => v.2.2.2[k.val]) h
    simpa [IngestPort.view] using this

theorem view_ingest {s t : State} (h : t.view = s.view) (i : Fin 8) : (s.ingest[i.val]).sameView t.ingest[i.val] :=
  IngestPort.sameView_of_view (view_port h i)

/-! ## The grants -/

theorem wants_modArbiter (g : SlotArbiter → SlotArbiter) (r : Requester) : (s.modArbiter g).wants r = s.wants r := by
  cases r <;> rfl

section
variable (P : State → Prop) (ha : ∀ s g, P s → P (State.modArbiter s g))
  (hg : ∀ s r, s.wants r = true → s.freeSlots ≠ 0 → P s → P (State.grant s r))
include ha hg

theorem handOn_inv (k : Nat) {s : State} (h : P s) : P (State.handOn k s) := by
  induction k generalizing s with
  | zero => exact ha s (fun a => { a with waiting := a.waiting.filter s.wants }) h
  | succ k ih =>
    simp only [State.handOn]
    split
    · exact ha _ _ h
    · next hf =>
      split
      · exact ha _ _ h
      · next r hr =>
        have hw : r ∈ s.arbiter.waiting.filter s.wants := by simpa [State.lapse] using List.find?_some hr
        refine ih (hg _ r ?_ hf (ha _ _ h))
        rw [State.lapse, wants_modArbiter]
        exact (List.mem_filter.mp hw).2

theorem serveNew_inv (k : Nat) {s : State} (h : P s) : P (State.serveNew k s) := by
  induction k generalizing s with
  | zero => exact ha s (fun a => { a with waiting := requesters.filter s.wants }) h
  | succ k ih =>
    simp only [State.serveNew]
    split
    · exact ha _ _ h
    · next hf =>
      split
      · exact ha _ _ h
      · next r hr => exact ih (hg _ r (List.find?_some hr) hf h)

variable (hd : ∀ s d, P s → P (State.arbitrate s d)) (ht : ∀ s, P s → P (State.transmit s)) (hn : ∀ s, P s → P (State.noteWork s))
include hd ht hn

/-- What each kind of grant keeps, the grants at the end of an event keep. -/
theorem settle_inv {s : State} (h : P s) : P s.settle := by
  unfold State.settle
  exact hn _ (ht _ (serveNew_inv P ha hg _ (foldl_inv P _ hd _ _ (serveNew_inv P ha hg _ (handOn_inv P ha hg _ h)))))

end

/-- How an issue of a write is made up: a list loses its head, a leg's sent count may rise, and the write is put on the link. -/
theorem issueWrite_inv (P : State → Prop) (hw : ∀ s x g, P s → P (State.modWriter s x g)) (hi : ∀ s x g, P s → P (State.modWindow s x g))
    (hl : ∀ s p f, P s → P (State.send s p f))
    (hc : ∀ s r, P s → P (State.countLeg s r fun l => { l with sent := l.sent + 1 })) (x : Target) {s : State} (h : P s) :
    P (s.issueWrite x) := by
  have hp : ∀ s k w, P s → P (State.putWrite s x k w) := fun s k w h => hl _ _ _ (hi _ _ _ (hw _ _ _ h))
  unfold State.issueWrite
  dsimp only
  split
  · split
    · exact hp _ _ _ (hw _ _ _ h)
    · exact hw _ _ _ h
  · split
    · split
      · exact hp _ _ _ (hc _ _ (hw _ _ _ h))
      · exact hw _ _ _ h
    · exact h

theorem issueCheck_inv (P : State → Prop) (hw : ∀ s d g, (∀ v, (g v).work = v.work) → P s → P (State.modReader s d g))
    (hl : ∀ s p f, P s → P (State.send s p f))
    (hc : ∀ s r, P s → P (State.countLeg s r fun l => { l with checked := l.checked + 1 })) (d : Fin 6) {s : State} (h : P s) :
    P (s.issueCheck d) := by
  have hp : ∀ s k w, P s → P (State.putCheck s d k w) := fun s k w h => hl _ _ _ (hw _ _ _ (fun _ => rfl) h)
  unfold State.issueCheck
  dsimp only
  split
  · split
    · exact hp _ _ _ (hw _ _ _ (fun _ => rfl) h)
    · exact hw _ _ _ (fun _ => rfl) h
  · split
    · split
      · exact hp _ _ _ (hc _ _ (hw _ _ _ (fun _ => rfl) h))
      · exact hw _ _ _ (fun _ => rfl) h
    · exact h

end Sys2Proof.Machine
end

