-- ==== Sys2Proof/Proofs/P6.lean ====
section
/-! What a command can do to the Job Table, in single steps: a record changed without ending its job (`Job.movesTo`), a leg placed, a job
ended, announced, loaded or released, a session cleared, a region stored (`Atom`). Each shared operation is a series of them. -/

namespace Sys2Proof.Machine

open Sys2Proof

/-- What a command gives grounds for: the ports whose card it can lose, whose read it can give up or that it can put a card into, the job it
can cancel, whether it can release one, in which states a block of it can arrive, and whether it hands over notices of ended jobs. -/
structure Grounds where
  lost : Fin 8 → Prop
  givenUp : Fin 8 → Prop
  cancelled : Fin 64 → Prop
  inserted : Fin 8 → Prop
  released : Prop
  arrived : State → Prop
  announces : Prop

/-- A leg's target and base (R5). -/
def Leg.placement (l : Leg) : Target × Option Nat :=
  (l.target, l.base)

/-- A job record after a change that neither ends the job nor places a leg. -/
structure Job.movesTo (j k : Job) : Prop where
  advances : j.advancesTo k
  session : k.session = j.session
  announced : k.announced = j.announced
  terminal : k.state.terminal = j.state.terminal
  placed : k.legs.map Leg.placement = j.legs.map Leg.placement

/-- One step of a command on the Job Table. -/
inductive Atom (G : Grounds) : State → State → Prop where
  /-- Ports and verify work lists change. -/
  | rest {s t : State} : t.jobs = s.jobs → t.sessions = s.sessions → t.drives.map Drive.regions = s.drives.map Drive.regions → Atom G s t
  | job (s : State) (h : Fin 64) (g : Job → Job) : (∀ j, s.job? h = some j → j.movesTo (g j)) → Atom G s (s.modJob h g)
  | place (s : State) (r : LegRef) : Atom G s (s.placeLeg r)
  | finish (s : State) (h : Fin 64) (o : JobState) (c : Option JobCause) : o.terminal = true → Atom G s (s.finishJob h o c)
  | announce (s : State) (h : Fin 64) : G.announces → Atom G s (s.announceJob h)
  | clear (s : State) (i : Fin 8) : G.inserted i → Atom G s (s.clearSession i)
  | load (s : State) (h : Fin 64) (b : LoadBody) : s.job? h = none → Atom G s (s.loadInto h b)
  | release (s : State) (h : Fin 64) (j : Job) : G.released → s.job? h = some j → j.state.terminal = true → Atom G s (s.release h j)
  | region (s : State) (d : Fin 6) (r : Region) : r.first ≤ r.last → s.regionOverlaps d r = false →
      Atom G s (s.modDrive d fun v => v.setRegion r)

/-- Steps of a command on the Job Table. -/
abbrev Atoms (G : Grounds) : State → State → Prop :=
  Relation.ReflTransGen (Atom G)

variable {G : Grounds}

theorem Atom.many {s t : State} (h : Atom G s t) : Atoms G s t :=
  .single h

/-- What each step keeps, a series of them keeps. -/
theorem Atoms.inv (P : State → Prop) (hP : ∀ s t, Atom G s t → P s → P t) {s t : State} (h : Atoms G s t) (hs : P s) : P t := by
  induction h with
  | refl => exact hs
  | tail _ a ih => exact hP _ _ a ih

theorem Atoms.of_rest {s t : State} (hj : t.jobs = s.jobs) (hs : t.sessions = s.sessions)
    (hd : t.drives.map Drive.regions = s.drives.map Drive.regions) : Atoms G s t :=
  (Atom.rest hj hs hd).many

theorem Atoms.of_view {s t : State} (h : t.view = s.view) : Atoms G s t :=
  (Atom.rest (view_jobs h) (view_sessions h) (view_regions h)).many

theorem foldl_atoms {β : Type} (g : State → β → State) (h : ∀ (s : State) b, Atoms G s (g s b)) (l : List β) (s : State) :
    Atoms G s (l.foldl g s) :=
  foldl_inv (fun t => Atoms G s t) g (fun t b ht => ht.trans (h t b)) l s .refl

variable (s : State)

/-! ## Changes of a record -/

theorem modIngest_atoms (i : Fin 8) (g : IngestPort → IngestPort) : Atoms G s (s.modIngest i g) :=
  Atoms.of_rest rfl rfl rfl

theorem modReader_atoms (d : Fin 6) (g : VerifyReader → VerifyReader) : Atoms G s (s.modReader d g) :=
  Atoms.of_rest rfl rfl rfl

theorem Job.movesTo_legs {j : Job} (f : List Leg) (hl : f.length = j.legs.length)
    (hf : ∀ (n : Nat) (l : Leg), j.legs[n]? = some l →
      ∃ m, f[n]? = some m ∧ l.advancesTo m ∧ (j.state.terminal = true → l.countsStand m) ∧ m.base = l.base) :
    j.movesTo { j with legs := f } where
  advances := Job.advancesTo_legs j f hl fun n l hn => by
    obtain ⟨m, hm, ha, hc, -⟩ := hf n l hn
    exact ⟨m, hm, ha, hc⟩
  session := rfl
  announced := rfl
  terminal := rfl
  placed := by
    refine List.ext_getElem? fun n => ?_
    rw [List.getElem?_map, List.getElem?_map]
    cases hn : j.legs[n]? with
    | none =>
      have : f[n]? = none := by
        rw [List.getElem?_eq_none_iff] at hn ⊢
        simpa [hl] using hn
      simp [this]
    | some l =>
      obtain ⟨m, hm, ha, -, hb⟩ := hf n l hn
      simp [hm, Leg.placement, ha.target, hb]

/-- A job record whose legs stand and whose counts and state go forward. -/
theorem Job.movesTo_of_advances {j k : Job} (ha : j.advancesTo k) (hs : k.session = j.session) (hn : k.announced = j.announced)
    (ht : k.state.terminal = j.state.terminal) (hl : k.legs = j.legs) : j.movesTo k :=
  ⟨ha, hs, hn, ht, by rw [hl]⟩

theorem modLeg_atoms (r : LegRef) (g : Leg → Leg)
    (hg : ∀ j l, s.job? r.job = some j → s.leg? r = some l →
      l.advancesTo (g l) ∧ (j.state.terminal = true → l.countsStand (g l)) ∧ (g l).base = l.base) : Atoms G s (s.modLeg r g) := by
  refine (Atom.job s r.job _ fun j hj => Job.movesTo_legs _ (by simp) fun n l hn => ?_).many
  rw [List.getElem?_modify, hn]
  by_cases e : r.leg = n
  · obtain ⟨h1, h2, h3⟩ := hg j l hj (State.leg?_eq_some.mpr ⟨j, hj, e ▸ hn⟩)
    exact ⟨g l, by simp [e], h1, h2, h3⟩
  · exact ⟨l, by simp [e], l.advancesTo_refl, fun _ => l.countsStand_refl, rfl⟩

theorem countLeg_atoms (r : LegRef) (g : Leg → Leg) (hg : ∀ l : Leg, l.advancesTo (g l) ∧ (g l).base = l.base) :
    Atoms G s (s.countLeg r g) := by
  refine (Atom.job s r.job _ fun j _ => ?_).many
  split
  · exact ⟨j.advancesTo_refl, rfl, rfl, rfl, rfl⟩
  · next ht =>
    refine Job.movesTo_legs _ (by simp) fun n l hn => ?_
    rw [List.getElem?_modify, hn]
    by_cases e : r.leg = n
    · exact ⟨g l, by simp [e], (hg l).1, fun t => absurd t ht, (hg l).2⟩
    · exact ⟨l, by simp [e], l.advancesTo_refl, fun t => absurd t ht, rfl⟩

theorem count_atoms (h : Fin 64) (g : Job → Job) (hg : ∀ j, s.job? h = some j → j.state.terminal = false → j.movesTo (g j)) :
    Atoms G s (s.count h g) := by
  refine (Atom.job s h _ fun j hj => ?_).many
  split
  · exact ⟨j.advancesTo_refl, rfl, rfl, rfl, rfl⟩
  · next ht => exact hg j hj (by simpa using ht)

theorem endLeg_atoms (r : LegRef) (x : LegState) (c : Option LegCause) (hx : x.terminal = true) : Atoms G s (s.endLeg r x c) :=
  modLeg_atoms s r _ fun j l _ _ => by
    refine ⟨Leg.advancesTo_end l x c _ hx, fun _ => ?_, ?_⟩ <;> split
    · exact l.countsStand_refl
    · exact ⟨rfl, rfl, rfl, rfl⟩
    · rfl
    · rfl

theorem abandonLegs_atoms (h : Fin 64) : Atoms G s (s.abandonLegs h) := by
  refine (Atom.job s h _ fun j _ => Job.movesTo_legs _ (by simp) fun n l hn => ?_).many
  rw [List.getElem?_map, hn]
  refine ⟨_, rfl, ?_⟩
  dsimp only
  split
  · exact ⟨l.advancesTo_refl, fun _ => l.countsStand_refl, rfl⟩
  · next ht =>
    refine ⟨⟨rfl, rfl, ?_, fun t => absurd t ht, fun _ => rfl, fun _ => rfl, Nat.le_refl _, Nat.le_refl _, Nat.le_refl _,
      Nat.le_refl _⟩, fun _ => ⟨rfl, rfl, rfl, rfl⟩, rfl⟩
    cases l.state <;> simp [LegState.rank]

/-! ## Ends and withdrawals -/

theorem finishJob_atoms (h : Fin 64) (o : JobState) (c : Option JobCause) (ho : o.terminal = true) : Atoms G s (s.finishJob h o c) :=
  (Atom.finish s h o c ho).many

theorem dropReading_atoms (h : Fin 64) : Atoms G s (s.dropReading h) := by
  unfold State.dropReading
  split
  · exact .refl
  · split <;> exact Atoms.of_rest rfl rfl rfl

theorem withdrawVerify_atoms (d : Fin 6) (h : Fin 64) : Atoms G s (s.withdrawVerify d h) := by
  unfold State.withdrawVerify
  dsimp only
  split
  · exact .refl
  · split <;> exact Atoms.of_rest rfl rfl rfl

theorem teardown_atoms (h : Fin 64) (o : JobState) (c : JobCause) (ho : o.terminal = true) : Atoms G s (s.teardown h o c) := by
  unfold State.teardown
  dsimp only
  refine Relation.ReflTransGen.trans ?_ (foldl_atoms _ (fun s d => withdrawVerify_atoms s d h) _ _)
  refine Relation.ReflTransGen.trans ?_ (foldl_atoms _ (fun s x => Atoms.of_view (modWriter_view s x _)) _ _)
  refine Relation.ReflTransGen.trans ?_ (Atoms.of_view (withdrawSlots_view _ _))
  exact ((finishJob_atoms s h o _ ho).trans (abandonLegs_atoms _ h)).trans (dropReading_atoms _ h)

theorem tearJob_atoms (h : Fin 64) (o : JobState) (c : JobCause) (ho : o.terminal = true) : Atoms G s (s.tearJob h o c).1 := by
  rcases tearJob_cases s h o c with ⟨e, -⟩ | ⟨j, -, -, e⟩ <;> rewrite [e]
  · exact .refl
  · dsimp only
    exact teardown_atoms s h o c ho

theorem dropLeg_atoms (h : Fin 64) (x : Target) (y : LegState) (c : Option LegCause) (hy : y.terminal = true) :
    Atoms G s (s.dropLeg h x y c) := by
  unfold State.dropLeg
  split
  · exact .refl
  · next r _ =>
    have he := endLeg_atoms (G := G) s r y c hy
    split
    · exact he.trans (Atoms.of_view rfl)
    · split
      · split
        · exact he.trans (withdrawVerify_atoms _ _ _)
        · exact he
      · exact .refl

/-! ## Verification -/

theorem compareLeg_atoms (d : Fin 6) (r : LegRef) : Atoms G s (s.compareLeg d r).1 := by
  rcases compareLeg_cases s d r with e | ⟨l, j, v, g, -, -, -, -, -, e⟩ <;> rw [e]
  exact (endLeg_atoms s r _ _ (compareState_terminal v g)).trans (modReader_atoms _ d _)

theorem verifyFinal_atoms (d : Fin 6) (r : LegRef) : Atoms G s (s.verifyFinal d r).1 := by
  rcases verifyFinal_cases s d r with e | ⟨j, hj, ht, e⟩ <;> rw [e]
  refine Relation.ReflTransGen.trans (modLeg_atoms s r _ fun k l hk _ => ?_) (compareLeg_atoms _ d r)
  rw [hj] at hk
  cases hk
  exact ⟨⟨rfl, rfl, Nat.le_refl _, fun _ => ⟨rfl, rfl, rfl⟩, fun _ => rfl, fun _ => rfl, Nat.le_refl _, Nat.le_refl _, Nat.le_refl _,
    Nat.le_refl _⟩, fun t => absurd t (by simp [ht]), rfl⟩

/-- A leg of a state before the last goes on to a later one. -/
theorem Leg.advancesTo_state (l : Leg) (x : LegState) (hx : l.state.rank ≤ x.rank) (ht : l.state.terminal = false) :
    l.advancesTo { l with state := x } :=
  ⟨rfl, rfl, hx, fun t => absurd t (by simp [ht]), fun _ => rfl, fun _ => rfl, Nat.le_refl _, Nat.le_refl _, Nat.le_refl _,
    Nat.le_refl _⟩

theorem activateHead_atoms (d : Fin 6) : Atoms G s (s.activateHead d).1 := by
  have hv : ∀ r l, s.leg? r = some l → l.state = .written → Atoms G s (s.modLeg r fun l => { l with state := .verifying }) := by
    intro r l hl hs
    refine modLeg_atoms s r _ fun j m _ hm => ?_
    rw [hl] at hm
    cases hm
    exact ⟨Leg.advancesTo_state l _ (by rw [hs]; decide) (by rw [hs]; rfl), fun _ => ⟨rfl, rfl, rfl, rfl⟩, rfl⟩
  rcases activateHead_cases s d with e | ⟨r, rest, l, j, -, hl, -, hs, ⟨-, e⟩ | ⟨-, e⟩⟩ <;> rw [e]
  · exact hv r l hl hs
  · exact (hv r l hl hs).trans (verifyFinal_atoms _ d r)

theorem legWritten_atoms (r : LegRef) (hr : ∀ l, s.leg? r = some l → l.state = .writing) : Atoms G s (s.legWritten r).1 := by
  have hw : Atoms G s (s.modLeg r fun l => { l with state := .written, written := some s.now }) := by
    refine modLeg_atoms s r _ fun j l _ hl => ?_
    have e := hr l hl
    have hwritten : 2 ≤ l.state.rank → some s.now = l.written := fun n => absurd n (by rw [e]; decide)
    exact ⟨⟨rfl, rfl, by rw [e]; exact Nat.le_succ 1, fun t => absurd t (by rw [e]; decide), fun _ => rfl, hwritten, Nat.le_refl _,
      Nat.le_refl _, Nat.le_refl _, Nat.le_refl _⟩, fun _ => ⟨rfl, rfl, rfl, rfl⟩, rfl⟩
  rcases legWritten_cases s r with ⟨-, e⟩ | ⟨l, -, ⟨d, -, -, e⟩ | ⟨-, e⟩⟩ <;> rw [e]
  · exact hw.trans (modReader_atoms _ d _)
  · exact hw.trans (endLeg_atoms _ r _ _ rfl)

theorem writtenIfWriting_atoms (r : LegRef) : Atoms G s (s.writtenIfWriting r).1 := by
  rcases writtenIfWriting_cases s r with e | ⟨l, hl, hs, e⟩ <;> rw [e]
  exact legWritten_atoms s r fun m hm => by rw [hl] at hm; cases hm; exact hs

theorem compareWaiting_atoms (r : LegRef) : Atoms G s (s.compareWaiting r) := by
  rcases compareWaiting_cases s r with e | ⟨l, d, -, -, e⟩ <;> rw [e]
  exact compareLeg_atoms s d r

/-! ## Starts, tests, finalisation -/

theorem placeLegs_state (i : Fin 8) (h k : Fin 64) : ((s.placeLegs i h).job? k).map Job.state = (s.job? k).map Job.state := by
  unfold State.placeLegs
  rw [foldl_keeps (fun s : State => (s.job? k).map Job.state) _ (fun s r => placeLeg_state s r k), beginStart_job?]
  split
  · next e => subst e; rw [Option.map_map]; rfl
  · rfl

theorem eachLeg_atoms {f : State → LegRef → State × List Todo} (hf : ∀ s r, Atoms G s (f s r).1) (l : List LegRef) (s : State) :
    Atoms G s (eachLeg f l s).1 :=
  eachLeg_inv (fun t => Atoms G s t) (fun t r ht => ht.trans (hf t r)) l s .refl

theorem startJob_atoms (i : Fin 8) (h : Fin 64) {j : Job} (hj : s.job? h = some j) (hl : j.state = .loaded) :
    Atoms G s (s.startJob i h).1 := by
  have hb : Atoms G s (s.beginStart i h) := by
    refine (modIngest_atoms s i _).trans (Atom.job _ h _ fun k hk => ?_).many
    have : k = j := Option.some.inj ((show s.job? h = some k from hk).symm.trans hj)
    subst this
    exact Job.movesTo_of_advances (Job.advancesTo_of rfl rfl rfl rfl rfl rfl rfl (Nat.le_refl _) (fun _ => ⟨rfl, rfl, rfl⟩)
      (fun n => absurd hl n) (fun _ => rfl) (Nat.le_refl _) (Nat.le_refl _) rfl (Nat.le_refl _) (fun _ => ⟨rfl, rfl, rfl⟩)) rfl rfl rfl rfl
  have hp : Atoms G s (s.placeLegs i h) := hb.trans (foldl_atoms _ (fun s r => (Atom.place s r).many) _ _)
  have hq : ∀ q, (s.placeLegs i h).job? h = some q → q.state = .loaded := by
    intro q e
    have := placeLegs_state s i h h
    rw [e, hj] at this
    simpa [hl] using this
  have hto : ∀ (x : JobState) (a : Job → Option Tick), 1 ≤ x.rank → x.terminal = false →
      Atoms G (s.placeLegs i h) ((s.placeLegs i h).modJob h fun j => { j with state := x, arrivedAllAt := a j }) := by
    intro x a hx ht
    refine (Atom.job _ h _ fun q e => ?_).many
    have e := hq q e
    exact Job.movesTo_of_advances (Job.advancesTo_state q x _ (by rw [e]; exact Nat.zero_le _) (by rw [e]; decide)) rfl rfl
      (by rw [e]; exact ht) rfl
  rcases startJob_cases s i h with ⟨-, e⟩ | ⟨q, -, ⟨-, e⟩ | ⟨-, -, e⟩ | ⟨-, -, e⟩⟩ <;> rw [e]
  · exact hp
  · exact hp.trans (finishJob_atoms _ h _ _ rfl)
  · exact (hp.trans (hto .settling Job.startedAt (by decide) rfl)).trans (eachLeg_atoms writtenIfWriting_atoms _ _)
  · exact (hp.trans (hto .reading Job.arrivedAllAt (by decide) rfl)).trans (modIngest_atoms _ i _)

theorem testStart_atoms (i : Fin 8) : Atoms G s (s.testStart i).1 := by
  rcases testStart_cases s i with ⟨e, -⟩ | ⟨h, rest, j, -, -, hj, hl, e⟩ <;> rw [e]
  exact startJob_atoms s i h hj hl

theorem testJob_atoms (h : Fin 64) : Atoms G s (s.testJob h).1 := by
  rcases testJob_cases s h with ⟨e, -⟩ | ⟨j, -, -, ⟨-, e⟩ | ⟨-, -, -, e⟩ | ⟨-, -, -, e⟩⟩ <;> rw [e]
  · exact tearJob_atoms s h _ _ rfl
  · exact finishJob_atoms s h _ _ rfl
  · exact finishJob_atoms s h _ _ rfl

theorem finaliseIngest_atoms (h : Fin 64) {j : Job} (hj : s.job? h = some j) (ht : j.state.terminal = false) :
    Atoms G s (s.finaliseIngest h) := by
  refine (Atom.job s h _ fun k hk => ?_).many
  rw [hj] at hk
  cases hk
  exact Job.movesTo_of_advances (Job.advancesTo_of rfl rfl rfl rfl rfl rfl rfl (Nat.le_refl _) (fun _ => ⟨rfl, rfl, rfl⟩) (fun _ => rfl)
    (fun _ => rfl) (Nat.le_refl _) (Nat.le_refl _) rfl (Nat.le_refl _) (fun t => absurd t (by simp [ht]))) rfl rfl rfl rfl

theorem ingestFinalised_atoms (h : Fin 64) : Atoms G s (s.ingestFinalised h).1 := by
  rcases ingestFinalised_cases s h with ⟨e, -⟩ | ⟨j, hj, ht, ⟨-, e⟩ | ⟨-, e⟩⟩ <;> rw [e]
  · exact (finaliseIngest_atoms s h hj ht).trans (foldl_atoms _ (fun s r => compareWaiting_atoms s r) _ _)
  · exact (finaliseIngest_atoms s h hj ht).trans (tearJob_atoms _ h _ _ rfl)

theorem perform_atoms (x : Todo) : Atoms G s (s.perform x).1 := by
  cases x with
  | activate d => exact activateHead_atoms s d
  | test h => exact testJob_atoms s h
  | ingestFinal h => exact ingestFinalised_atoms s h
  | start i => exact testStart_atoms s i

theorem announce_atoms (hG : G.announces) : Atoms G s s.announce :=
  foldl_atoms _ (fun s h => (Atom.announce s h hG).many) _ s

/-! ## Grants -/

theorem grantIngest_atoms (i : Fin 8) : Atoms G s (s.grantIngest i) := by
  unfold State.grantIngest
  split
  · split
    · exact .refl
    · next h k _ _ _ _ _ =>
      refine Relation.ReflTransGen.trans ?_ (Atoms.of_view (send_view _ _ _))
      refine Relation.ReflTransGen.trans ?_ (modIngest_atoms _ i _)
      refine Relation.ReflTransGen.trans (Atoms.of_view (reserve_view s _ _ _)) (count_atoms _ h _ fun j _ ht => ?_)
      exact Job.movesTo_of_advances (Job.advancesTo_of rfl rfl rfl rfl rfl rfl rfl (Nat.le_refl _) (fun _ => ⟨rfl, rfl, rfl⟩) (fun _ => rfl)
        (fun _ => rfl) (Nat.le_succ _) (Nat.le_refl _) rfl (Nat.le_refl _) (fun t => absurd t (by simp [ht]))) rfl rfl rfl rfl
  · exact .refl

/-! ## What an event does before its rest -/

theorem endLoaded_atoms (o : JobState) (c : JobCause) (h : Fin 64) (ho : o.terminal = true) : Atoms G s (s.endLoaded o c h) :=
  (finishJob_atoms s h o _ ho).trans (abandonLegs_atoms _ h)

theorem sourceLost_atoms (i : Fin 8) : Atoms G s (s.sourceLost i).1 := by
  have h1 := (foldl_atoms (G := G) (State.endLoaded · .failed .sourceLost ·) (fun s h => endLoaded_atoms s _ _ h rfl) (s.loadedJobs i) s).trans
    (modIngest_atoms _ i fun p => { p with lineUp := [] })
  unfold State.sourceLost
  dsimp only
  split
  · exact h1.trans (tearJob_atoms _ _ _ _ rfl)
  · exact h1

theorem blockArrived_atoms (i k : Fin 8) (h : Fin 64) (index num : Nat) (data : List Byte) :
    Atoms G s (s.blockArrived i k h index num data).1 := by
  unfold State.blockArrived
  dsimp only
  generalize hu : ((s.fill num data).setReadTag i k ReadTag.release).queueSlot num h (s.owedAt num) = u
  have h1 : Atoms G s u := by
    rw [← hu]
    exact Relation.ReflTransGen.trans (b := (s.fill num data).setReadTag i k ReadTag.release) (Atoms.of_rest rfl rfl rfl)
      (Atoms.of_view (queueSlot_view _ _ _ _))
  generalize hv : (if u.ingestAt h index = true then u.makeReady num else u) = v
  have h2 : Atoms G s v := by
    rw [← hv]
    split
    · exact h1.trans (Atoms.of_view (makeReady_view _ _))
    · exact h1
  have h3 : Atoms G s (v.count h fun j => { j with arrived := j.arrived + 1 }) := by
    refine h2.trans (count_atoms v h _ fun j _ ht => ?_)
    exact Job.movesTo_of_advances (Job.advancesTo_of rfl rfl rfl rfl rfl rfl rfl (Nat.le_refl _) (fun _ => ⟨rfl, rfl, rfl⟩) (fun _ => rfl)
      (fun _ => rfl) (Nat.le_refl _) (Nat.le_succ _) rfl (Nat.le_refl _) (fun t => absurd t (by simp [ht]))) rfl rfl rfl rfl
  split
  · exact h3
  · next j hj =>
    split
    · next hc =>
      refine (h3.trans (Atom.job _ h _ fun q hq => ?_).many).trans (modIngest_atoms _ i _)
      rw [hj] at hq
      cases hq
      exact Job.movesTo_of_advances (Job.advancesTo_state j .settling _ (by rw [hc.2]; decide) (by rw [hc.2]; decide)) rfl rfl
        (by rw [hc.2]; rfl) rfl
    · exact h3

theorem emptyReader_atoms (x : Target) : Atoms G s (s.emptyReader x) := by
  obtain ⟨hj, -, -, -⟩ := emptyReader_spec s x
  cases x with
  | sink => exact .refl
  | drive d =>
    refine Atoms.of_rest hj ?_ ?_ <;> unfold State.emptyReader <;> dsimp only <;> split <;> rfl

theorem dropLegs_atoms (l : List (Fin 64)) (x : Target) (y : LegState) (c : Option LegCause) (hy : y.terminal = true) :
    Atoms G s (l.foldl (fun s h => s.dropLeg h x y c) s) :=
  foldl_atoms _ (fun s h => dropLeg_atoms s h x y c hy) l s

theorem cancelLoaded_atoms (h : Fin 64) (i : Fin 8) : Atoms G s (s.cancelLoaded h i) :=
  (endLoaded_atoms s _ _ h rfl).trans (modIngest_atoms _ i _)

end Sys2Proof.Machine
end

