-- ==== Sys2Proof/Proofs/P7.lean ====
section
/-! What a command does, said once (`exec_path`): full reset, or a path of moves, each leaving things to do, with the list of things to do
worked off after each move and the notices of ended jobs handed over at the end. -/

namespace Sys2Proof.Machine

open Sys2Proof

/-- The Notice Queue has only grown, and NOTICE_LOST stands. -/
def Handler.grows (q r : Handler) : Prop :=
  q.notices <+: r.notices ∧ (q.noticeLost = true → r.noticeLost = true)

theorem Handler.grows.refl (q : Handler) : q.grows q :=
  ⟨List.prefix_rfl, id⟩

theorem Handler.grows.trans {q r u : Handler} (a : q.grows r) (b : r.grows u) : q.grows u :=
  ⟨a.1.trans b.1, fun h => b.2 (a.2 h)⟩

theorem Handler.hands.grows {q r : Handler} {l : List Notice} (h : q.hands l r) : q.grows r :=
  ⟨⟨_, h.1.symm⟩, fun hl => by rw [h.2, hl]; rfl⟩

/-- A port after the loss of its card's record: no media, and the tags as they stood or FREE (R66, R69). -/
structure IngestPort.lostBy (p : IngestPort) (f : IngestPort → IngestPort) : Prop where
  media : (f p).media = none
  lineUp : (f p).lineUp = p.lineUp
  reading : (f p).reading = p.reading
  tags : ∀ k : Fin 8, ((f p).tags[k.val]).job? = none ∨ ((f p).tags[k.val]).job? = (p.tags[k.val]).job?

/-- A count or a verify context of a leg goes forward; all else of the leg stands. -/
structure Leg.countsTo (l m : Leg) : Prop where
  advances : l.advancesTo m
  state : m.state = l.state
  base : m.base = l.base
  final : m.context.final = l.context.final

/-- The legs on a target that a test accepts have been dropped, in handle order. -/
def State.dropLegs (s : State) (x : Target) (test : LegState → Bool) (y : LegState) (c : Option LegCause) : State :=
  (s.jobsWithLeg x test).foldl (fun s h => s.dropLeg h x y c) s

/-- One move of a command, the state it leads to, what it leaves to do, and whether it may have ended a job. -/
inductive Move (G : Grounds) : State → State → List Todo → Bool → Prop where
  | quiet {s t : State} : t.view = s.view → s.handler.grows t.handler → Move G s t [] false
  | owe (s : State) (l : List Todo) : todoWeight l ≤ 64 → Move G s s l false
  | inserted (s : State) (i : Fin 8) (m : Media) : G.inserted i →
      Move G s ((s.modIngest i fun p => { p with media := some m }).clearSession i) [] true
  | lost (s : State) (i : Fin 8) (f : IngestPort → IngestPort) : G.lost i → (s.ingest[i.val]).lostBy f →
      Move G s ((s.modIngest i f).sourceLost i).1 ((s.modIngest i f).sourceLost i).2 true
  | tagsReset (s : State) (i : Fin 8) : (s.ingest[i.val]).media = none →
      Move G s (s.modIngest i fun p => { p with tags := p.tags.map ReadTag.portReset }) [] false
  | arrived (s : State) (i k : Fin 8) (h : Fin 64) (index num : Nat) (data : List Byte) :
      G.arrived s → ((s.ingest[i.val]).tags[k.val]).job? = some h →
      Move G s (s.blockArrived i k h index num data).1 (s.blockArrived i k h index num data).2 true
  | readGivenUp (s : State) (i k : Fin 8) (h : Fin 64) : G.givenUp i → ((s.ingest[i.val]).tags[k.val]).job? = some h →
      Move G s ((s.setReadTag i k ReadTag.release).tearJob h .failed .sourceReadError).1
        ((s.setReadTag i k ReadTag.release).tearJob h .failed .sourceReadError).2 true
  | written (s : State) (r : LegRef) : s.fullyAcked r = true → Move G s (s.legWritten r).1 (s.legWritten r).2 true
  | dropped (s : State) (h : Fin 64) (x : Target) (c : LegCause) : Move G s (s.dropLeg h x .failed (some c)) (afterLeg h x) true
  | legsLost (s : State) (x : Target) :
      Move G s ((s.dropLegs x LegState.lostWithTarget .failed (some .lost)).emptyReader x)
        ((s.jobsWithLeg x LegState.lostWithTarget).map .test) true
  | legsShed (s : State) (x : Target) :
      Move G s (s.dropLegs x (fun y => decide (y = .writing)) .deferred none)
        ((s.jobsWithLeg x fun y => decide (y = .writing)).map .test) true
  | counted (s : State) (r : LegRef) (g : Leg → Leg) : (∀ l : Leg, s.leg? r = some l → l.countsTo (g l)) →
      Move G s (s.countLeg r g) [] false
  | digested (s : State) (h : Fin 64) (c : DigestContext) :
      (∀ j, s.job? h = some j → j.ingest.next ≤ c.next ∧ c.final = j.ingest.final) →
      Move G s (s.count h fun j => { j with ingest := c }) [] true
  | verified (s : State) (d : Fin 6) (r : LegRef) : (∀ l, s.leg? r = some l → l.target = .drive d) →
      Move G s (s.verifyFinal d r).1 (s.verifyFinal d r).2 true
  | loaded (s : State) (h : Fin 64) (b : LoadBody) : s.job? h = none → (s.ingest[b.port.val]).media ≠ none →
      (b.legs.map Leg.target).Nodup → Move G s (s.loadInto h b) [.start b.port] true
  | cancelledLoaded (s : State) (h : Fin 64) (j : Job) : G.cancelled h → s.job? h = some j → j.state = .loaded →
      Move G s (s.cancelLoaded h j.port) [.start j.port] true
  | cancelled (s : State) (h : Fin 64) : G.cancelled h →
      Move G s (s.tearJob h .aborted .cancelled).1 (s.tearJob h .aborted .cancelled).2 true
  | released (s : State) (h : Fin 64) (j : Job) : G.released → s.job? h = some j → j.state.terminal = true →
      Move G s (s.release h j) [] false
  | region (s : State) (d : Fin 6) (r : Region) : r.first ≤ r.last → s.regionOverlaps d r = false →
      Move G s (s.modDrive d fun v => v.setRegion r) [] false
  | granted (s : State) (i : Fin 8) : s.ingestWants i = true → Move G s (s.grantIngest i) [] false

/-- A path of a command from a state: where it has come to, what is left to do, and whether ended jobs may have notices to hand over. Where
a job has more legs than there are targets, the list of things to do may be cut off. -/
inductive Path (G : Grounds) (s : State) : State → List Todo → Bool → Prop where
  | start : Path G s s [] false
  | move {t u : State} {l : List Todo} {f g : Bool} : Path G s t [] f → Move G t u l g → Path G s u l (f || g)
  | perform {t : State} {x : Todo} {l : List Todo} {f : Bool} : Path G s t (x :: l) f → Path G s (t.perform x).1 ((t.perform x).2 ++ l) true
  | announce {t : State} {f : Bool} : Path G s t [] f → Path G s t.announce [] false
  | cut {t : State} {l : List Todo} {f : Bool} : Path G s t l f → ¬ t.legsFit → Path G s t [] f

variable {G : Grounds}

/-! ## Moves as steps on the Job Table -/

theorem Leg.countsTo.countLeg_atoms {G : Grounds} {s : State} {r : LegRef} {g : Leg → Leg} (hg : ∀ l : Leg, s.leg? r = some l → l.countsTo (g l)) :
    Atoms G s (s.countLeg r g) := by
  refine (Atom.job s r.job _ fun j hj => ?_).many
  split
  · exact ⟨j.advancesTo_refl, rfl, rfl, rfl, rfl⟩
  · next ht =>
    refine Job.movesTo_legs _ (by simp) fun n l hn => ?_
    rw [List.getElem?_modify, hn]
    by_cases e : r.leg = n
    · have h := hg l (State.leg?_eq_some.mpr ⟨j, hj, e ▸ hn⟩)
      exact ⟨g l, by simp [e], h.advances, fun t => absurd t ht, h.base⟩
    · exact ⟨l, by simp [e], l.advancesTo_refl, fun t => absurd t ht, rfl⟩

/-- A move hands over no notice of an ended job. -/
theorem Move.atoms {s t : State} {l : List Todo} {f : Bool} (h : Move G s t l f) (P : Prop) : Atoms { G with announces := P } s t := by
  cases h with
  | quiet hv _ => exact Atoms.of_view hv
  | owe => exact .refl
  | inserted i m hi => exact (modIngest_atoms s i _).tail (Atom.clear _ i hi)
  | lost i f _ _ => exact (modIngest_atoms s i f).trans (sourceLost_atoms _ i)
  | tagsReset i _ => exact modIngest_atoms s i _
  | arrived i k h index num data _ _ => exact blockArrived_atoms s i k h index num data
  | readGivenUp i k h _ _ => exact (modIngest_atoms s i _).trans (tearJob_atoms _ h _ _ rfl)
  | written r hr =>
    refine legWritten_atoms s r fun l hl => ?_
    unfold State.fullyAcked at hr
    rw [hl] at hr
    split at hr
    · next e _ => cases e; simp only [Bool.and_eq_true, decide_eq_true_eq] at hr; exact hr.1.2
    · cases hr
  | dropped h x c => exact dropLeg_atoms s h x _ _ rfl
  | legsLost x => exact (dropLegs_atoms s _ x _ _ rfl).trans (emptyReader_atoms _ x)
  | legsShed x => exact dropLegs_atoms s _ x _ _ rfl
  | counted r g hg => exact Leg.countsTo.countLeg_atoms hg
  | digested h c hc =>
    refine count_atoms s h _ fun j hj ht => ?_
    exact Job.movesTo_of_advances (Job.advancesTo_of rfl rfl rfl rfl rfl rfl rfl (Nat.le_refl _) (fun _ => ⟨rfl, rfl, rfl⟩) (fun _ => rfl)
      (fun _ => rfl) (Nat.le_refl _) (Nat.le_refl _) rfl (hc j hj).1 (fun t => absurd t (by simp [ht]))) rfl rfl rfl rfl
  | verified d r _ => exact verifyFinal_atoms s d r
  | loaded h b hf _ _ => exact (Atom.load s h b hf).many
  | cancelledLoaded h j _ _ _ => exact cancelLoaded_atoms s h j.port
  | cancelled h _ => exact tearJob_atoms s h _ _ rfl
  | released h j hr hj ht => exact (Atom.release (G := { G with announces := P }) s h j hr hj ht).many
  | region d r h1 h2 => exact (Atom.region s d r h1 h2).many
  | granted i _ => exact grantIngest_atoms s i

theorem Path.atoms {s t : State} {l : List Todo} {f : Bool} (h : Path G s t l f) : Atoms { G with announces := True } s t := by
  induction h with
  | start => exact .refl
  | move _ m ih => exact ih.trans (m.atoms True)
  | perform _ ih => exact ih.trans (perform_atoms _ _)
  | announce _ ih => exact ih.trans (announce_atoms _ trivial)
  | cut _ _ ih => exact ih

/-! ## Paths through the shared parts of an event -/

variable {s : State}

theorem Path.quiet {t u : State} {f : Bool} (h : Path G s t [] f) (hv : u.view = t.view) (hh : t.handler.grows u.handler) :
    Path G s u [] f := by
  simpa using h.move (Move.quiet hv hh)

/-- A quiet move that leaves the Request Handler alone. -/
theorem Path.still {t u : State} {f : Bool} (h : Path G s t [] f) (hv : u.view = t.view) (hh : u.handler = t.handler) : Path G s u [] f :=
  h.quiet hv (by rw [hh]; exact Handler.grows.refl _)

theorem Path.notify {t : State} {f : Bool} (h : Path G s t [] f) (n : Notice) : Path G s (t.notify n) [] f :=
  h.quiet rfl (notify_hands t n).grows

/-- The rest of an event. -/
theorem Path.cascade {t : State} {l : List Todo} {f : Bool} (h : Path G s t l f) (hw : todoWeight l ≤ 1728) :
    ∃ g, Path G s (t.cascade l) [] g := by
  have hP : ∀ t x rest, (∃ g, Path G s t (x :: rest) g) → ∃ g, Path G s (t.perform x).1 ((t.perform x).2 ++ rest) g :=
    fun t x rest ⟨g, h⟩ => ⟨true, h.perform⟩
  by_cases hf : t.legsFit
  · exact cascade_ends (fun t l => ∃ g, Path G s t l g) hP hf hw ⟨f, h⟩
  · have hP' : ∀ t x rest, (¬ t.legsFit ∧ ∃ g, Path G s t (x :: rest) g) →
        ¬ (t.perform x).1.legsFit ∧ ∃ g, Path G s (t.perform x).1 ((t.perform x).2 ++ rest) g := by
      rintro t x rest ⟨hn, hp⟩
      refine ⟨fun hfit => hn fun h j hj => ?_, hP t x rest hp⟩
      obtain ⟨k, hk, ha⟩ := (perform_keepsJobs t x).advances.jobs h j hj
      rw [← ha.legCount]
      exact hfit h k hk
    obtain ⟨m, hn, g, hp⟩ := cascade_leaves (fun t l => ¬ t.legsFit ∧ ∃ g, Path G s t l g) hP' (l := l) ⟨hf, f, h⟩
    exact ⟨g, hp.cut hn⟩

theorem issueWrite_path {t : State} {f : Bool} (h : Path G s t [] f) (x : Target) : Path G s (t.issueWrite x) [] f := by
  refine issueWrite_inv (fun t => Path G s t [] f) (fun t x g h => h.still rfl rfl) (fun t x g h => h.still rfl rfl)
    (fun t p f h => h.still rfl rfl) (fun t r h => ?_) x h
  simpa using h.move (Move.counted t r (fun l => { l with sent := l.sent + 1 }) fun l _ => ⟨⟨rfl, rfl, Nat.le_refl _,
    fun _ => ⟨rfl, rfl, rfl⟩, fun _ => rfl, fun _ => rfl, Nat.le_succ _, Nat.le_refl _, Nat.le_refl _, Nat.le_refl _⟩, rfl, rfl, rfl⟩)

theorem issueCheck_path {t : State} {f : Bool} (h : Path G s t [] f) (d : Fin 6) : Path G s (t.issueCheck d) [] f := by
  refine issueCheck_inv (fun t => Path G s t [] f) (fun t d g hg h => h.still (modReader_view t d g (hg _)) rfl)
    (fun t p f h => h.still rfl rfl) (fun t r h => ?_) d h
  simpa using h.move (Move.counted t r (fun l => { l with checked := l.checked + 1 }) fun l _ => ⟨⟨rfl, rfl, Nat.le_refl _,
    fun _ => ⟨rfl, rfl, rfl⟩, fun _ => rfl, fun _ => rfl, Nat.le_refl _, Nat.le_refl _, Nat.le_succ _, Nat.le_refl _⟩, rfl, rfl, rfl⟩)

theorem arbitrate_path {t : State} {f : Bool} (h : Path G s t [] f) (d : Fin 6) : Path G s (t.arbitrate d) [] f := by
  unfold State.arbitrate
  split
  · exact h
  · split
    · exact h
    · exact issueWrite_path (h.still (modSides_view t d _) rfl) _
    · exact issueCheck_path (h.still (modSides_view t d _) rfl) _

theorem transmit_path {t : State} {f : Bool} (h : Path G s t [] f) : Path G s t.transmit [] f := by
  unfold State.transmit
  split
  · split
    · exact h
    · next c _ =>
      have hc : Path G s (t.modControl fun q => { q with sending := some c, pointer := nextOf sources c }) [] f := h.still rfl rfl
      unfold State.sendFrom
      split
      · split
        · exact hc.still rfl rfl
        · exact hc
      · split
        · exact hc.still rfl rfl
        · exact hc
      · exact issueWrite_path hc _
  · exact h

theorem grant_path {t : State} {f : Bool} (h : Path G s t [] f) (r : Requester) (hr : t.wants r = true) : Path G s (t.grant r) [] f := by
  unfold State.grant
  cases r with
  | ingest i =>
    exact Path.still (t := t.grantIngest i) (by simpa using h.move (Move.granted t i hr)) rfl rfl
  | verify d =>
    have hd : (t.grantVerify d).handler = t.handler := by
      unfold State.grantVerify
      split <;> try split <;> rfl
      all_goals rfl
    exact Path.still (t := t.grantVerify d) (h.still (grantVerify_view t d) hd) rfl rfl

theorem handOn_path {t : State} {f : Bool} (h : Path G s t [] f) (k : Nat) : Path G s (State.handOn k t) [] f :=
  handOn_inv (fun t => Path G s t [] f) (fun _ _ h => h.still rfl rfl) (fun _ r hw _ h => grant_path h r hw) k h

theorem noteWork_handler (t : State) : t.noteWork.handler = t.handler := by
  refine foldl_keeps State.handler _ ?_ _ t
  intro s x
  rfl

theorem relamp_handler (t : State) : t.relamp.handler = t.handler := by
  refine foldl_keeps State.handler _ ?_ _ t
  intro s x
  rfl

theorem settle_path {t : State} {f : Bool} (h : Path G s t [] f) : Path G s t.settle [] f :=
  settle_inv (fun t => Path G s t [] f) (fun _ _ h => h.still rfl rfl) (fun _ r hw _ h => grant_path h r hw)
    (fun _ d h => arbitrate_path h d) (fun _ h => transmit_path h) (fun t h => h.still (noteWork_view t) (noteWork_handler t)) h

theorem relamp_path {t : State} {f : Bool} (h : Path G s t [] f) : Path G s t.relamp [] f :=
  h.still (relamp_view t) (relamp_handler t)

theorem close_path {t : State} {f : Bool} (h : Path G s t [] f) : Path G s t.close [] false :=
  settle_path (relamp_path h.announce)

/-- A move, the rest of the event and its end. -/
theorem Path.event {t u : State} {l : List Todo} {f g : Bool} (h : Path G s t [] f) (m : Move G t u l g) (hw : todoWeight l ≤ 1728) :
    Path G s (u.cascade l).close [] false :=
  let ⟨_, hp⟩ := (h.move m).cascade hw
  close_path hp

end Sys2Proof.Machine
end

