-- ==== Sys2Proof/Proofs/P8.lean ====
section
/-! Each command as a path of moves (`exec_path`), and so each step (`step_path`). -/

namespace Sys2Proof.Machine

open Sys2Proof

/-- What a command gives grounds for, as the state stands. -/
def groundsOf (c : Instr) (s : State) : Grounds where
  lost i := (∃ m, c = .ingestMediaReport i m) ∨ c = .linkDown (.ingest i) ∨
    (c = .resetPort ∧ ∃ r rest, s.takes r rest ∧ r.kind = 11 ∧ readPortCode r.body = some i.val)
  givenUp i := (∃ tag gen, c = .blockData i tag gen .readError) ∨ ∃ n, c = .readTagExpiry i n
  cancelled h := c = .cancelJob ∧ ∃ r rest, s.takes r rest ∧ r.kind = 2 ∧ readHandle r.body = some h
  inserted i := ∃ m, c = .ingestMediaReport i (some m)
  released := c = .releaseJob
  arrived t := t.jobs = s.jobs
  announces := True

variable {G : Grounds} {s t : State} {f : Bool}

/-! ## Cards -/

theorem modIngest_modIngest (s : State) (i : Fin 8) (f g : IngestPort → IngestPort) :
    (s.modIngest i f).modIngest i g = s.modIngest i fun p => g (f p) := by
  unfold State.modIngest
  simp only [setEntry, Vector.getElem_set_self, Vector.set_set]

theorem sourceLost_weight (s : State) (i : Fin 8) : todoWeight (s.sourceLost i).2 ≤ 7 := by
  unfold State.sourceLost
  dsimp only
  split
  · exact tearJob_weight _ _ _ _
  · exact Nat.zero_le _

/-- A card's loss, with the change of its port's record and the notice of it (R66). -/
theorem lost_path (h : Path G s t [] f) {i : Fin 8} (hi : G.lost i) {g : IngestPort → IngestPort} (hg : (t.ingest[i.val]).lostBy g)
    (n : Notice) : Path G s (cascadeOf (((t.modIngest i g).notify n).sourceLost i)).announce [] false := by
  obtain ⟨_, hp⟩ := ((h.notify n).move (Move.lost (t.notify n) i g hi hg)).cascade
    (Nat.le_trans (sourceLost_weight _ i) (by decide))
  exact hp.announce

theorem ingestRemoval_path (h : Path G s t [] f) {i : Fin 8} (hi : G.lost i) : Path G s (t.ingestRemoval i) [] false :=
  lost_path h hi ⟨rfl, rfl, rfl, fun _ => .inr rfl⟩ _

theorem ReadTag.portReset_job? (g : ReadTag) : g.portReset.job? = none := rfl

theorem ReadTag.release_job? (g : ReadTag) : g.release.job? = none := rfl

theorem ingestPortReset_path (h : Path G s t [] f) {i : Fin 8} (hi : G.lost i) : ∃ g, Path G s (t.ingestPortReset i) [] g := by
  unfold State.ingestPortReset
  dsimp only
  split
  · refine ⟨false, ?_⟩
    unfold State.ingestRemoval
    dsimp only
    rw [modIngest_modIngest]
    refine lost_path h hi ⟨rfl, rfl, rfl, fun k => .inl ?_⟩ _
    simp [ReadTag.portReset_job?]
  · next hm => exact ⟨_, h.move (Move.tagsReset t i (by simpa using hm))⟩

theorem ingestInsertion_path (h : Path G s t [] f) {i : Fin 8} (hi : G.inserted i) (m : Media) :
    ∃ g, Path G s (t.ingestInsertion i m) [] g :=
  ⟨_, (h.move (Move.inserted t i m hi)).notify _⟩

theorem ingestReport_path (h : Path G s t [] false) {i : Fin 8} (report : Option Media) (hl : G.lost i)
    (hi : ∀ m, report = some m → G.inserted i) : Path G s (ingestReportEffect i report t) [] false := by
  have hr : Path G s (t.received (.ingest i)) [] false := h.still rfl rfl
  unfold ingestReportEffect
  dsimp only
  split
  · exact hr
  · next m _ =>
    obtain ⟨_, hp⟩ := ingestInsertion_path hr (hi m rfl) m
    exact close_path hp
  · exact close_path (ingestRemoval_path hr hl)
  · next x m hx =>
    split
    · refine hr.still (modIngest_view _ i _ ?_) rfl
      simp only [IngestPort.view, hx, Option.isSome_some]
    · obtain ⟨_, hp⟩ := ingestInsertion_path (ingestRemoval_path hr hl) (hi m rfl) m
      exact close_path hp

/-! ## Reads -/

theorem setReadTag_path (h : Path G s t [] f) (i k : Fin 8) (g : ReadTag → ReadTag)
    (hg : (g (t.ingest[i.val]).tags[k.val]).job? = ((t.ingest[i.val]).tags[k.val]).job?) : Path G s (t.setReadTag i k g) [] f :=
  h.still (setReadTag_view t i k g hg) rfl

theorem ReadTag.job?_of_abandoned {g : ReadTag} {issued : Tick} (h : g.state = .abandoned issued) : g.job? = none := by
  simp [ReadTag.job?, h]

theorem ReadTag.job?_of_busy {g : ReadTag} {h : Fin 64} {index num : Nat} {issued : Tick} {attempt : Nat}
    (e : g.state = .busy h index num issued attempt) : g.job? = some h := by
  simp [ReadTag.job?, e]

theorem retryRead_path (hp : Path G s t [] f) {i k : Fin 8} {h : Fin 64} (index num attempt : Nat)
    (hk : ((t.ingest[i.val]).tags[k.val]).job? = some h) : Path G s (t.retryRead i k h index num attempt) [] f :=
  (setReadTag_path hp i k (fun _ => ⟨.busy h index num t.now (attempt + 1), ((t.ingest[i.val]).tags[k.val]).gen + 1, false⟩)
    (by rw [hk]; rfl)).still rfl rfl

theorem readFailed_path (hp : Path G s t [] f) {i k : Fin 8} {h : Fin 64} (index num attempt : Nat) (hi : G.givenUp i)
    (hk : ((t.ingest[i.val]).tags[k.val]).job? = some h) : Path G s (cascadeOf (t.readFailed i k h index num attempt)).close [] false := by
  unfold State.readFailed
  split
  · exact close_path (retryRead_path hp index num attempt hk)
  · exact hp.event (Move.readGivenUp t i k h hi hk) (Nat.le_trans (tearJob_weight _ _ _ _) (by decide))

theorem blockArrived_weight (s : State) (i k : Fin 8) (h : Fin 64) (index num : Nat) (data : List Byte) :
    todoWeight (s.blockArrived i k h index num data).2 ≤ 1 := by
  unfold State.blockArrived
  dsimp only
  split
  · exact Nat.zero_le _
  · split
    · exact Nat.le_refl _
    · exact Nat.zero_le _

theorem blockData_path (h : Path G s t [] false) {i : Fin 8} (tag : Byte) (gen : Gen) (answer : ReadAnswer)
    (hi : answer = .readError → G.givenUp i) (ha : ∀ u : State, u.jobs = t.jobs → G.arrived u) : Path G s (blockDataEffect i tag gen answer t) [] false := by
  have hr : Path G s (t.received (.ingest i)) [] false := h.still rfl rfl
  unfold blockDataEffect
  dsimp only
  split
  · exact hr
  · next k _ =>
    split
    · exact hr
    · next hk => exact close_path (setReadTag_path hr i k _ ((ReadTag.job?_of_abandoned hk).symm ▸ rfl))
    · next job index num issued attempt hk =>
      split
      · split
        · next data =>
          exact hr.event (Move.arrived _ i k job index num data (ha _ rfl) (ReadTag.job?_of_busy hk))
            (Nat.le_trans (blockArrived_weight _ _ _ _ _ _ _) (by decide))
        · exact readFailed_path hr index num attempt (hi rfl) (ReadTag.job?_of_busy hk)
      · exact hr

theorem readExpiry_path (h : Path G s t [] false) {i k : Fin 8} (hi : G.givenUp i) : Path G s (readExpiryEffect i k t) [] false := by
  unfold readExpiryEffect
  split
  · exact h
  · next hk => exact close_path (setReadTag_path h i k _ ((ReadTag.job?_of_abandoned hk).symm ▸ rfl))
  · next job index num issued attempt hk => exact readFailed_path h index num attempt hi (ReadTag.job?_of_busy hk)

/-! ## Targets -/

theorem jobsWithLeg_length (s : State) (x : Target) (test : LegState → Bool) : (s.jobsWithLeg x test).length ≤ 64 := by
  refine (List.length_filter_le _ _).trans ?_
  simp [allHandles]

theorem tests_weight (s : State) (x : Target) (test : LegState → Bool) : todoWeight ((s.jobsWithLeg x test).map .test) ≤ 1728 := by
  rw [todoWeight_map_test]
  exact (jobsWithLeg_length s x test).trans (by decide)

theorem afterLeg_weight (h : Fin 64) (x : Target) : todoWeight (afterLeg h x) ≤ 1728 := by
  cases x <;> decide +revert

theorem loseLegs_path (h : Path G s t [] f) (x : Target) : Path G s (t.loseLegs x).announce [] false := by
  obtain ⟨_, hp⟩ := (h.move (Move.legsLost t x)).cascade (tests_weight t x _)
  exact hp.announce

theorem driveReset_path (h : Path G s t [] f) (x : Target) : Path G s (t.driveReset x) [] f := by
  cases x with
  | sink => exact h
  | drive d =>
    unfold State.driveReset
    dsimp only
    generalize hu : (t.modReader d fun v => { v with retry := [], tags := v.tags.map BlockTag.portReset }) = u
    have h1 : Path G s u [] f := h.still (by rw [← hu]; exact modReader_view t d _ rfl) (by rw [← hu]; rfl)
    generalize hv : (u.modSides d fun a => { a with turn := .write, count := 0, granted := false }) = v
    have h2 : Path G s v [] f := h1.still (by rw [← hv]; rfl) (by rw [← hv]; rfl)
    exact h2.still ((modLink_view _ _ _).trans (modDrive_view v d (fun v => { v with media := none }) rfl)) rfl

theorem targetPortReset_path (h : Path G s t [] f) (x : Target) (was : Bool) : Path G s (t.targetPortReset x was) [] false := by
  have hd : Path G s ((t.modWriter x Writer.portReset).driveReset x) [] f := driveReset_path (h.still (u := t.modWriter x Writer.portReset) rfl rfl) x
  unfold State.targetPortReset
  dsimp only
  split
  · exact loseLegs_path (hd.notify _) x
  · exact loseLegs_path hd x

theorem driveRemoval_path (h : Path G s t [] f) (d : Fin 6) : Path G s (t.driveRemoval d) [] false := by
  have hd : Path G s (t.modDrive d fun v => { v with media := none }) [] f := h.still (modDrive_view t d _ rfl) rfl
  exact loseLegs_path (hd.notify _) (.drive d)

theorem driveInsertion_path (h : Path G s t [] f) (d : Fin 6) (m : Media) : Path G s (t.driveInsertion d m) [] f := by
  have hd : Path G s (t.modDrive d fun v => { v with media := some m }) [] f := h.still (modDrive_view t d _ rfl) rfl
  exact hd.notify _

theorem targetReport_path (h : Path G s t [] false) (d : Fin 6) (report : Option Media) :
    Path G s (targetReportEffect d report t) [] false := by
  have hr : Path G s (t.received (.drive d)) [] false := h.still rfl rfl
  unfold targetReportEffect
  dsimp only
  split
  · exact hr
  · exact close_path (driveInsertion_path hr d _)
  · exact close_path (driveRemoval_path hr d)
  · split
    · exact hr.still (modDrive_view _ d _ rfl) rfl
    · exact close_path (driveInsertion_path (driveRemoval_path hr d) d _)

theorem legWritten_weight (s : State) (r : LegRef) : todoWeight (s.legWritten r).2 ≤ 1 := by
  rcases legWritten_cases s r with ⟨-, e⟩ | ⟨l, -, ⟨d, -, -, e⟩ | ⟨-, e⟩⟩ <;> simp [e, Todo.weight]

theorem acknowledge_path (h : Path G s t [] f) (x : Target) (k : Fin 16) (w : TagWork) :
    Path G s (cascadeOf (t.acknowledge x k w)).close [] false := by
  have h1 : Path G s (t.settleSlot w.slot x) [] f := h.still rfl rfl
  have h2 : Path G s ((t.settleSlot w.slot x).countLeg w.ref fun l => { l with acked := l.acked + 1 }) [] f := by
    simpa using h1.move (Move.counted _ w.ref (fun l => { l with acked := l.acked + 1 }) fun l _ => ⟨⟨rfl, rfl, Nat.le_refl _,
      fun _ => ⟨rfl, rfl, rfl⟩, fun _ => rfl, fun _ => rfl, Nat.le_refl _, Nat.le_succ _, Nat.le_refl _, Nat.le_refl _⟩, rfl, rfl, rfl⟩)
  unfold State.acknowledge
  dsimp only
  generalize hu : (State.setWriteTag _ x k BlockTag.release).freeIfDone w.slot = u
  have h3 : Path G s u [] f := h2.still (by rw [← hu]; rfl) (by rw [← hu]; rfl)
  split
  · next ha => exact h3.event (Move.written u w.ref ha) (Nat.le_trans (legWritten_weight u w.ref) (by decide))
  · exact close_path h3

theorem writeGivenUp_path (h : Path G s t [] f) (x : Target) (k : Fin 16) (w : TagWork) (c : LegCause) :
    Path G s (cascadeOf (t.writeGivenUp x k w c)).close [] false :=
  Path.event (t := t.setWriteTag x k BlockTag.release) (h.still rfl rfl) (Move.dropped _ w.ref.job x c) (afterLeg_weight _ _)

theorem writeFailed_path (h : Path G s t [] f) (x : Target) (k : Fin 16) (w : TagWork) :
    Path G s (cascadeOf (t.writeFailed x k w)).close [] false := by
  unfold State.writeFailed
  split
  · exact close_path (Path.still (t := t) h rfl rfl)
  · exact writeGivenUp_path h x k w _

theorem writeAnswer_path (h : Path G s t [] false) (x : Target) (tag : Byte) (gen : Gen) (status : WriteStatus) :
    Path G s (writeAnswerEffect x tag gen status t) [] false := by
  have hr : Path G s (t.received (targetPort x)) [] false := h.still rfl rfl
  unfold writeAnswerEffect
  dsimp only
  split
  · exact hr
  · split
    · exact hr
    · exact hr
    · exact close_path (hr.still (setWriteTag_view _ _ _ _) rfl)
    · split
      · split
        · exact acknowledge_path hr x _ _
        · exact writeFailed_path hr x _ _
        · exact writeGivenUp_path hr x _ _ _
      · exact hr

theorem writeExpiry_path (h : Path G s t [] false) (x : Target) (k : Fin 16) : Path G s (writeExpiryEffect x k t) [] false := by
  unfold writeExpiryEffect
  split
  · exact h
  · exact h
  · exact close_path (h.still (setWriteTag_view _ _ _ _) rfl)
  · exact writeFailed_path h x k _

/-! ## Check reads -/

theorem checkFailed_path (h : Path G s t [] f) (d : Fin 6) (k : Fin 8) (w : TagWork) :
    Path G s (cascadeOf (t.checkFailed d k w)).close [] false := by
  unfold State.checkFailed
  split
  · have h1 : Path G s (t.setCheckTag d k fun g => g.wait w) [] f := h.still (setCheckTag_view _ _ _ _) rfl
    exact close_path (h1.still (modReader_view _ d (fun v => { v with retry := v.retry ++ [k] }) rfl) rfl)
  · have h1 : Path G s (t.setCheckTag d k BlockTag.release) [] f := h.still (setCheckTag_view _ _ _ _) rfl
    exact h1.event (Move.dropped _ w.ref.job (.drive d) _) (afterLeg_weight w.ref.job (.drive d))

theorem checkArrived_path (h : Path G s t [] f) (d : Fin 6) (k : Fin 8) (w : TagWork) (data : List Byte) :
    Path G s (t.checkArrived d k w data) [] f := by
  have h1 : Path G s ((t.fill w.slot data).setCheckTag d k BlockTag.release) [] f :=
    Path.still (t := t.fill w.slot data) (h.still rfl rfl) (setCheckTag_view _ _ _ _) rfl
  unfold State.checkArrived
  dsimp only
  split
  · exact h1.still rfl rfl
  · exact h1

theorem checkData_path (h : Path G s t [] false) (d : Fin 6) (tag : Byte) (gen : Gen) (answer : ReadAnswer) :
    Path G s (checkDataEffect d tag gen answer t) [] false := by
  have hr : Path G s (t.received (.drive d)) [] false := h.still rfl rfl
  unfold checkDataEffect
  dsimp only
  split
  · exact hr
  · split
    · exact hr
    · exact hr
    · exact close_path (hr.still (setCheckTag_view _ _ _ _) rfl)
    · split
      · split
        · exact close_path (checkArrived_path hr d _ _ _)
        · exact checkFailed_path hr d _ _
      · exact hr

theorem checkExpiry_path (h : Path G s t [] false) (d : Fin 6) (k : Fin 8) : Path G s (checkExpiryEffect d k t) [] false := by
  unfold checkExpiryEffect
  split
  · exact h
  · exact h
  · exact close_path (h.still (setCheckTag_view _ _ _ _) rfl)
  · exact checkFailed_path h d k _

/-! ## Digests -/

theorem digestBlock_final (c : DigestContext) (bytes : List Byte) : (digestBlock c bytes).final = c.final :=
  foldl_keeps DigestContext.final digestWord (fun _ _ => rfl) _ c

theorem digestBlock_next (c : DigestContext) (bytes : List Byte) : (digestBlock c bytes).next = c.next + 1 := rfl

theorem digestedSlot_path (h : Path G s t [] f) (num : Nat) : Path G s (t.digestedSlot num) [] f :=
  handOn_path (h.still (u := (t.modHeld num fun b => { b with digested := true, inDigest := false }).freeIfDone num) rfl rfl) _

theorem digestedSlot_advances (s : State) (num : Nat) : s.advancesTo (s.digestedSlot num) :=
  State.advancesTo.afterJobs (t := (s.modHeld num fun b => { b with digested := true, inDigest := false }).freeIfDone num)
    (handOn_advances _ grantSteps) rfl

theorem joinNext_view (s : State) (mine : Slot → Bool) (next blocks : Nat) : (s.joinNext mine next blocks).view = s.view := by
  unfold State.joinNext
  split
  · split <;> rfl
  · rfl

theorem joinNext_handler (s : State) (mine : Slot → Bool) (next blocks : Nat) : (s.joinNext mine next blocks).handler = s.handler := by
  unfold State.joinNext
  split
  · split <;> rfl
  · rfl

theorem ingestCompleted_path (h : Path G s t [] f) (x : Slot) (data : List Byte) : ∃ g, Path G s (t.ingestCompleted x data) [] g := by
  unfold State.ingestCompleted
  split
  · exact ⟨_, h⟩
  · next j hj =>
    dsimp only
    have h1 := h.move (Move.digested t x.job (digestBlock j.ingest (digestBytesOf j.length x.index data)) fun k hk => by
      rw [hj] at hk
      cases hk
      exact ⟨Nat.le_succ _, digestBlock_final _ _⟩)
    have h2 := (digestedSlot_path h1 x.num).still (joinNext_view _ (Slot.ingestOf x.job)
      (digestBlock j.ingest (digestBytesOf j.length x.index data)).next j.blocks) (joinNext_handler _ _ _ _)
    have hw : todoWeight (if (digestBlock j.ingest (digestBytesOf j.length x.index data)).next = j.blocks then
        [.ingestFinal x.job] else []) ≤ 64 := by
      split <;> simp [Todo.weight]
    exact (h2.move (Move.owe _ _ hw)).cascade (hw.trans (by decide))

theorem advances_legTarget {s t : State} (ha : s.advancesTo t) {r : LegRef} {l m : Leg} (hl : s.leg? r = some l) (hm : t.leg? r = some m) :
    m.target = l.target := by
  obtain ⟨j, hj, hlj⟩ := State.leg?_eq_some.mp hl
  obtain ⟨k, hk, hmk⟩ := State.leg?_eq_some.mp hm
  obtain ⟨k', hk', hjk⟩ := ha.jobs _ j hj
  rw [hk] at hk'
  cases hk'
  obtain ⟨m', hm', hlm, -⟩ := hjk.legs _ l hlj
  rw [hmk] at hm'
  cases hm'
  exact hlm.target

theorem checkCompleted_path (h : Path G s t [] f) (x : Slot) (k : Nat) (data : List Byte) :
    ∃ g, Path G s (t.checkCompleted x k data) [] g := by
  unfold State.checkCompleted
  dsimp only
  split
  · next j l hj hl =>
    generalize hc : digestBlock l.context (digestBytesOf j.length x.index data) = c
    have hcn : c.next = l.context.next + 1 := by rw [← hc]; rfl
    have hcf : c.final = l.context.final := by rw [← hc]; exact digestBlock_final _ _
    have hg : ∀ m : Leg, t.leg? ⟨x.job, k⟩ = some m → m.countsTo { m with context := c } := by
      intro m hm
      rw [hl] at hm
      cases hm
      exact ⟨⟨rfl, rfl, Nat.le_refl _, fun _ => ⟨rfl, rfl, rfl⟩, fun _ => rfl, fun _ => rfl, Nat.le_refl _, Nat.le_refl _, Nat.le_refl _,
        by rw [hcn]; exact Nat.le_succ _⟩, rfl, rfl, hcf⟩
    have ha : t.advancesTo (((t.countLeg ⟨x.job, k⟩ fun m => { m with context := c }).digestedSlot x.num).joinNext
        (Slot.checkOf ⟨x.job, k⟩) c.next j.blocks) := by
      have h1 : t.advancesTo (t.countLeg ⟨x.job, k⟩ fun m => { m with context := c }) := by
        refine modJob_advances t x.job _ fun q hq => ?_
        split
        · exact q.advancesTo_refl
        · next ht =>
          refine Job.advancesTo_legs q _ (by simp) fun n p hn => ?_
          rw [List.getElem?_modify, hn]
          by_cases e : k = n
          · exact ⟨_, by simp [e], (hg p (State.leg?_eq_some.mpr ⟨q, hq, e ▸ hn⟩)).advances, fun b => absurd b ht⟩
          · exact ⟨p, by simp [e], p.advancesTo_refl, fun _ => p.countsStand_refl⟩
      exact (h1.trans (digestedSlot_advances _ x.num)).andJobs (view_jobs (joinNext_view _ _ _ _))
    have hp := (digestedSlot_path (h.move (Move.counted t ⟨x.job, k⟩ _ hg)) x.num).still
      (joinNext_view _ (Slot.checkOf ⟨x.job, k⟩) c.next j.blocks) (joinNext_handler _ _ _ _)
    revert hp ha
    generalize State.joinNext _ (Slot.checkOf ⟨x.job, k⟩) c.next j.blocks = u
    intro ha hp
    split
    · next d hd =>
      split
      · exact (hp.move (Move.verified u d ⟨x.job, k⟩ fun m hm => (advances_legTarget ha hl hm).trans hd)).cascade
          (Nat.le_trans (verifyFinal_weight u d _) (by decide))
      · exact ⟨_, hp⟩
    · exact ⟨_, hp⟩
  · exact ⟨_, h⟩

theorem digestComplete_path (h : Path G s t [] false) : Path G s (digestCompleteEffect t) [] false := by
  unfold digestCompleteEffect
  dsimp only
  split
  · exact h
  · next num _ =>
    have h1 : Path G s (t.modDigest fun u => { u with inFlight := none }) [] false := h.still rfl rfl
    split
    · exact h1
    · split
      · exact h1
      · split
        · exact close_path (h1.still (freeSlotNum_view _ num) rfl)
        · split
          · obtain ⟨_, hp⟩ := ingestCompleted_path h1 _ _
            exact close_path hp
          · obtain ⟨_, hp⟩ := checkCompleted_path h1 _ _ _
            exact close_path hp

theorem digestStart_path (h : Path G s t [] f) : Path G s (digestStartEffect t) [] f := by
  unfold digestStartEffect
  split
  · exact h
  · exact Path.still (t := t) h rfl rfl

/-! ## The tick and the window ends -/

theorem notifyIf_path (h : Path G s t [] f) (n : Option Notice) : Path G s (t.notifyIf n) [] f := by
  cases n with
  | none => exact h
  | some n => exact h.notify n

theorem windowEnd_path (h : Path G s t [] f) (x : Target) : Path G s (windowEndEffect x t) [] false := by
  unfold windowEndEffect
  dsimp only
  generalize hu : (t.modWindow x Window.judge).notifyIf (slowNotice x (t.window x) (t.window x).judge) = u
  have h1 : Path G s u [] f := by
    rw [← hu]
    exact notifyIf_path (h.still (u := t.modWindow x Window.judge) rfl rfl) _
  have h2 : ∃ g, Path G s (if u.shedsNow x = true then u.shed x else u) [] g := by
    split
    · have h3 : Path G s ((u.modWindow x fun w => { w with streak := 0 }).notify
          (.shed x (u.jobsWithLeg x fun y => decide (y = .writing)).length)) [] f :=
        Path.notify (t := u.modWindow x fun w => { w with streak := 0 }) (h1.still rfl rfl) _
      exact (h3.move (Move.legsShed _ x)).cascade (tests_weight _ x _)
    · exact ⟨_, h1⟩
  obtain ⟨_, h3⟩ := h2
  exact close_path (h3.still (modWindow_view _ x _) rfl)

theorem lateEnds_path (h : Path G s t [] false) : Path G s t.lateEnds [] false :=
  lateEnds_inv (fun t => Path G s t [] false) (fun _ x _ hp => windowEnd_path hp x) h

theorem testTags_view (s : State) : s.testTags.view = s.view := by
  unfold State.testTags
  dsimp only
  rw [foldl_keeps State.view (fun (s : State) (d : Fin 6) => s.modReader d fun v => v.testTags s.now (s.writer (.drive d)).timeout)
      (fun t d => modReader_view t d _ rfl),
    foldl_keeps State.view (fun (s : State) (x : Target) => s.modWriter x fun w => w.testTags s.now) (fun t x => rfl)]
  refine foldl_keeps State.view _ (fun t i => modIngest_view t i _ ?_) _ s
  unfold IngestPort.view IngestPort.testTags
  dsimp only
  rw [Vector.map_map]
  rfl

theorem testTags_handler (s : State) : s.testTags.handler = s.handler := by
  unfold State.testTags
  dsimp only
  rw [foldl_keeps State.handler (fun (s : State) (d : Fin 6) => s.modReader d fun v => v.testTags s.now (s.writer (.drive d)).timeout)
      (fun t d => rfl),
    foldl_keeps State.handler (fun (s : State) (x : Target) => s.modWriter x fun w => w.testTags s.now) (fun t x => rfl)]
  refine foldl_keeps State.handler _ ?_ _ s
  intro t i
  rfl

theorem lampTick_still (s : State) : s.lampTick.view = s.view ∧ s.lampTick.handler = s.handler := by
  unfold State.lampTick
  constructor
  · refine (foldl_keeps State.view _ ?_ _ _).trans rfl
    intro t i
    rfl
  · refine (foldl_keeps State.handler _ ?_ _ _).trans rfl
    intro t i
    rfl

theorem countDown_still (s : State) :
    (allTargets.foldl (fun s t => s.modWindow t Window.countDown) s).view = s.view ∧
      (allTargets.foldl (fun s t => s.modWindow t Window.countDown) s).handler = s.handler := by
  constructor
  · refine foldl_keeps State.view _ ?_ _ _
    intro t x
    rfl
  · refine foldl_keeps State.handler _ ?_ _ _
    intro t x
    rfl

theorem tick_path (h : Path G s t [] false) : Path G s (tickEffect t) [] false := by
  unfold tickEffect
  dsimp only
  have h0 := lateEnds_path h
  revert h0
  generalize t.lateEnds = u
  intro h0
  generalize hv : ({ u with timer := u.timer.step } : State) = v
  have h1 : Path G s v [] false := h0.still (by rw [← hv]; rfl) (by rw [← hv])
  have h2 := h1.still (testTags_view v) (testTags_handler v)
  have h3 := h2.still (countDown_still v.testTags).1 (countDown_still v.testTags).2
  exact h3.still (lampTick_still _).1 (lampTick_still _).2

end Sys2Proof.Machine
end

