-- ==== Sys2Proof/Proofs/P9.lean ====
section
/-! Each command as a path of moves (`exec_path`), and so each step (`step_path`). -/

namespace Sys2Proof.Machine

open Sys2Proof

variable {G : Grounds} {s t : State} {f : Bool}

/-! ## Requests -/

/-- The state in which the head request has left the queue. -/
def State.taken (s : State) (rest : List Request) : State :=
  s.modHandler fun q => { q with requests := rest }

theorem take_path (h : Path G s t [] f) (apply : List Byte → State → Answer)
    (ha : ∀ r rest, t.handler.requests = r :: rest → Path G s (t.taken rest) [] f → ∃ g, Path G s (apply r.body (t.taken rest)).state [] g) :
    ∃ g, Path G s (t.take apply) [] g := by
  unfold State.take
  split
  · exact ⟨_, h⟩
  · next r rest hr =>
    have h1 : Path G s (t.taken rest) [] f := h.quiet rfl ⟨List.prefix_rfl, id⟩
    obtain ⟨g, hp⟩ := ha r rest hr h1
    exact ⟨g, hp.still (respond_view _ _) rfl⟩

theorem freeEntry_spec {s : State} {h : Fin 64} (hf : s.freeEntry = some h) : s.job? h = none := by
  have := List.find?_some hf
  simpa using this

theorem targetOfCode_inj {m n : Nat} {x : Target} (hm : targetOfCode m = some x) (hn : targetOfCode n = some x) : m = n := by
  unfold targetOfCode at hm hn
  split at hm <;> split at hn
  · cases hm
    have : (n - 8) = (m - 8) := by
      have := Option.some.inj hn
      simpa using this
    omega
  · split at hn
    · cases hm; cases hn
    · cases hn
  · split at hm
    · cases hn; cases hm
    · cases hm
  · split at hm <;> split at hn <;> simp_all

theorem LoadBody.legs_targets (b : LoadBody) : b.legs.map Leg.target = b.entries.filterMap fun e => targetOfCode e.1 := by
  unfold LoadBody.legs
  rw [List.map_filterMap]
  refine List.filterMap_congr fun e _ => ?_
  cases targetOfCode e.1 <;> rfl

theorem filterMap_nodup {α β : Type} (g : α → Option β) (hg : ∀ a b x, g a = some x → g b = some x → a = b) {l : List α} (h : l.Nodup) :
    (l.filterMap g).Nodup :=
  h.filterMap fun a b x ha hb => hg a b x ha hb

theorem LoadBody.legs_nodup {b : LoadBody} (h : b.legsWrong = false) : (b.legs.map Leg.target).Nodup := by
  have hn : (b.entries.map Prod.fst).Nodup := by
    unfold LoadBody.legsWrong at h
    simp only [Bool.or_eq_false_iff, decide_eq_false_iff_not, not_not] at h
    obtain ⟨⟨⟨⟨_, h⟩, _⟩, _⟩, _⟩ := h
    exact h
  rw [LoadBody.legs_targets, show (b.entries.filterMap fun e => targetOfCode e.1) = (b.entries.map Prod.fst).filterMap targetOfCode by
    rw [List.filterMap_map]; rfl]
  exact filterMap_nodup _ (fun _ _ _ => targetOfCode_inj) hn

/-- What the checks of a LOAD_JOB that is accepted have found. -/
theorem loadCheck_ok {s : State} {b : LoadBody} (h : s.loadCheck b = .ok) :
    (∃ m, (s.ingest[b.port.val]).media = some m) ∧ b.legsWrong = false := by
  unfold State.loadCheck at h
  split at h
  · cases h
  · split at h
    · cases h
    · split at h
      · cases h
      · next m hm =>
        split at h
        · cases h
        · split at h
          · cases h
          · split at h
            · cases h
            · split at h
              · cases h
              · next hw => exact ⟨⟨m, hm⟩, by simpa using hw⟩

theorem applyLoadJob_path (h : Path G s t [] f) (body : List Byte) : ∃ g, Path G s (applyLoadJob body t).state [] g := by
  unfold applyLoadJob
  split
  · exact ⟨_, h⟩
  · next b _ =>
    split
    · next e hc hf =>
      obtain ⟨⟨m, hm⟩, hw⟩ := loadCheck_ok hc
      exact (h.move (Move.loaded t e b (freeEntry_spec hf) (by rw [hm]; exact Option.some_ne_none m) (LoadBody.legs_nodup hw))).cascade
        (by simp [Todo.weight])
    · exact ⟨_, h⟩

theorem applyCancelJob_path (hp : Path G s t [] f) (body : List Byte) (hc : ∀ h, readHandle body = some h → G.cancelled h) :
    ∃ g, Path G s (applyCancelJob body t).state [] g := by
  unfold applyCancelJob
  split
  · exact ⟨_, hp⟩
  · next h hb =>
    split
    · exact ⟨_, hp⟩
    · next j hj =>
      have ht : ∃ g, Path G s (cascadeOf (t.tearJob h .aborted .cancelled)) [] g :=
        (hp.move (Move.cancelled t h (hc h hb))).cascade (Nat.le_trans (tearJob_weight _ _ _ _) (by decide))
      split
      · next hs => exact (hp.move (Move.cancelledLoaded t h j (hc h hb) hj hs)).cascade (by simp [Todo.weight])
      · exact ht
      · exact ht
      · exact ⟨_, hp⟩
      · exact ⟨_, hp⟩
      · exact ⟨_, hp⟩

theorem applyReleaseJob_path (hp : Path G s t [] f) (body : List Byte) (hr : G.released) : Path G s (applyReleaseJob body t).state [] f := by
  unfold applyReleaseJob
  split
  · exact hp
  · next h _ =>
    split
    · exact hp
    · next j hj =>
      split
      · next ht =>
        have hm := hp.move (Move.released t h j hr hj ht)
        rw [Bool.or_false] at hm
        exact hm
      · exact hp

theorem applyResetPort_path (hp : Path G s t [] f) (body : List Byte) (hl : ∀ i : Fin 8, readPortCode body = some i.val → G.lost i) :
    ∃ g, Path G s (applyResetPort body t).state [] g := by
  unfold applyResetPort
  split
  · exact ⟨_, hp⟩
  · next code hc =>
    split
    · next i hi =>
      refine ingestPortReset_path hp (hl i ?_)
      unfold ingestOfCode at hi
      split at hi
      · cases hi
        exact hc
      · cases hi
    · next x _ _ =>
      unfold answerOk
      dsimp only
      exact ⟨false, targetPortReset_path hp x (t.available x)⟩
    · exact ⟨_, hp⟩

theorem regionCheck_ok {s : State} {d : Fin 6} {r : Region} (h : s.regionCheck (.drive d) (some r) = .ok) :
    r.first ≤ r.last ∧ s.regionOverlaps d r = false := by
  unfold State.regionCheck at h
  dsimp only at h
  split at h
  · cases h
  · next hlt =>
    split at h
    · cases h
    · next hov => exact ⟨Nat.le_of_not_lt hlt, by simpa using hov⟩

theorem storeTarget_path (h : Path G s t [] f) (x : Target) (b : TargetBody) (hc : t.regionCheck x b.region = .ok) :
    Path G s (t.storeTarget x b) [] f := by
  have h1 : Path G s (t.storeRegion x b.region) [] f := by
    unfold State.storeRegion
    split
    · next d r hr =>
      rw [hr] at hc
      have hm := h.move (Move.region t d r (regionCheck_ok hc).1 (regionCheck_ok hc).2)
      rw [Bool.or_false] at hm
      exact hm
    · exact h
  generalize hu : ((t.storeRegion x b.region).modWriter x fun w => w.set x b).modWindow x (fun w => w.set x b) = u
  have h2 : Path G s u [] f := h1.still (by rw [← hu]; rfl) (by rw [← hu]; rfl)
  unfold State.storeTarget
  dsimp only
  rw [hu]
  cases x with
  | sink => exact h2
  | drive d => exact h2.still rfl rfl

theorem applySetTarget_path (h : Path G s t [] f) (body : List Byte) : Path G s (applySetTarget body t).state [] f := by
  unfold applySetTarget
  split
  · exact h
  · split
    · exact h
    · split
      · next hc => exact storeTarget_path h _ _ hc
      · exact h

theorem applyQueryJob_state (body : List Byte) (s : State) : (applyQueryJob body s).state = s := by
  unfold applyQueryJob
  split
  · rfl
  · split <;> rfl

theorem applyQueryTarget_state (body : List Byte) (s : State) : (applyQueryTarget body s).state = s := by
  unfold applyQueryTarget
  split <;> rfl

theorem IngestPort.set_view (p : IngestPort) (a b : Option Nat) : (p.set a b).view = p.view := rfl

theorem applySetIngest_path (h : Path G s t [] f) (body : List Byte) : Path G s (applySetIngest body t).state [] f := by
  unfold applySetIngest
  split
  · exact h
  · split
    · exact h
    · exact h.still (modIngest_view t _ _ (IngestPort.set_view _ _ _)) rfl

theorem applySetLamp_path (h : Path G s t [] f) (body : List Byte) : Path G s (applySetLamp body t).state [] f := by
  unfold applySetLamp
  split
  · exact h
  · split
    · exact h
    · exact Path.still (t := t) h rfl rfl

theorem applySetTick_path (h : Path G s t [] f) (body : List Byte) : Path G s (applySetTick body t).state [] f := by
  unfold applySetTick
  split
  · exact h
  · exact Path.still (t := t) h rfl rfl

theorem applyResetPart_path (h : Path G s t [] f) (body : List Byte) : Path G s (applyResetPart body t).state [] f := by
  unfold applyResetPart
  split
  · exact Path.quiet (t := t) h rfl ⟨List.prefix_rfl, id⟩
  · exact h

theorem applyQueryPart_view (body : List Byte) (s : State) : (applyQueryPart body s).state.view = s.view := by
  unfold applyQueryPart
  split <;> rfl

/-- A request whose application changes no job's end: it is answered and C's transmitter is tested. -/
theorem take_transmit_path (h : Path G s t [] f) (apply : List Byte → State → Answer)
    (ha : ∀ r rest, t.handler.requests = r :: rest → Path G s (t.taken rest) [] f → Path G s (apply r.body (t.taken rest)).state [] f) :
    Path G s (t.take apply).transmit [] f := by
  refine transmit_path ?_
  unfold State.take
  split
  · exact h
  · next r rest hr =>
    have h1 : Path G s (t.taken rest) [] f := h.quiet rfl ⟨List.prefix_rfl, id⟩
    exact (ha r rest hr h1).still (respond_view _ _) rfl

theorem request_still (s : State) (seq : BitVec 16) (kind : Byte) (body : List Byte) :
    (requestEffect seq kind body s).view = s.view ∧ s.handler.grows (requestEffect seq kind body s).handler := by
  unfold requestEffect
  split
  · exact ⟨rfl, List.prefix_rfl, id⟩
  · exact ⟨rfl, Handler.grows.refl _⟩

/-! ## Commands -/

/-- From a state of the same view the command goes its path. -/
def Runs (c : Instr) (s t : State) : Prop :=
  ∃ s1 : State, s1.view = s.view ∧ Path (groundsOf c s) s1 t [] false

theorem Runs.of_path {c : Instr} (h : Path (groundsOf c s) s t [] false) : Runs c s t :=
  ⟨s, rfl, h⟩

theorem Runs.stays {c : Instr} : Runs c s s :=
  .of_path .start

/-- A command is a full reset or goes a path of moves. -/
def Ends (c : Instr) (s t : State) : Prop :=
  (fullResets c s ∧ t.view = State.reset.view) ∨ Runs c s t

theorem event_ends {c : Instr} {en : Bool} {g : State → State} (h : s.event en g = .next t) (hg : s.resetN = true → en = true → Ends c s (g s)) :
    Ends c s t :=
  event_inv (Ends c s) h (.inr .stays) hg

theorem event_runs {c : Instr} {en : Bool} {g : State → State} (h : s.event en g = .next t)
    (hg : s.resetN = true → en = true → Path (groundsOf c s) s (g s) [] false) : Ends c s t :=
  event_ends h fun hr he => .inr (.of_path (hg hr he))

theorem close_of {u : State} (h : ∃ g, Path G s u [] g) : Path G s u.close [] false :=
  let ⟨_, hp⟩ := h
  close_path hp

theorem takes_of {s : State} {k : Byte} (hr : s.resetN = true) (hc : s.canTake (isKind k) = true) {r : Request} {rest : List Request}
    (h : s.handler.requests = r :: rest) : s.takes r rest ∧ r.kind = k := by
  obtain ⟨ht, r', rest', hr', hk⟩ := (canTake_iff s _).mp hc
  rw [h] at hr'
  cases hr'
  exact ⟨⟨hr, ht, h⟩, by simpa [isKind] using hk⟩

theorem linkDown_ends (p : Port) (s : State) : Ends (.linkDown p) s (linkDownEffect p s) := by
  have hd : Path (groundsOf (.linkDown p) s) s (s.modLink p fun l => { l with up := false, tx := [] }) [] false :=
    Path.still (t := s) .start rfl rfl
  unfold linkDownEffect
  cases p with
  | ingest i =>
    exact .inr (.of_path (close_of (ingestPortReset_path hd (i := i) (.inr (.inl rfl)))))
  | drive d => exact .inr (.of_path (close_path (targetPortReset_path hd _ _)))
  | control =>
    dsimp only
    split
    · next ht => exact .inl ⟨.inr (.inr ⟨ht, .inl rfl⟩), rfl⟩
    · revert hd
      generalize (s.modLink .control fun l => { l with up := false, tx := [] }) = u
      intro hd
      have hc : Path (groundsOf (.linkDown .control) s) s u.cleanControl [] false := hd.quiet rfl ⟨List.prefix_rfl, id⟩
      exact .inr (.of_path (close_path (targetPortReset_path hc _ _)))

theorem cTxEnd_ends (s : State) : Ends .cTxEnd s (cTxEndEffect s) := by
  have hq : ∀ u : State, u.view = s.view → Ends .cTxEnd s u.transmit.noteWork := fun u hu =>
    .inr ⟨u, hu, (transmit_path .start).still (noteWork_view _) (noteWork_handler _)⟩
  unfold cTxEndEffect
  dsimp only
  split
  · split
    · next ht =>
      simp only [Bool.and_eq_true] at ht
      exact .inl ⟨.inr (.inr ⟨ht.1, .inr rfl⟩), rfl⟩
    · exact hq _ rfl
  · exact hq _ rfl
  · exact hq _ rfl

theorem queryPart_runs (s : State) : Runs .queryPart s (s.take applyQueryPart).transmit := by
  refine ⟨s.take applyQueryPart, ?_, transmit_path .start⟩
  unfold State.take
  split
  · rfl
  · exact applyQueryPart_view _ _

theorem release_path (s : State) (hr : G.released) : Path G s (s.take applyReleaseJob).relamp.transmit [] false := by
  refine transmit_path (relamp_path ?_)
  unfold State.take
  split
  · exact .start
  · next r rest _ =>
    have h1 : Path G s (s.taken rest) [] false := Path.start.quiet rfl ⟨List.prefix_rfl, id⟩
    exact (applyReleaseJob_path h1 r.body hr).still (respond_view _ _) rfl

/-- What a command does: full reset, or a path of moves. -/
theorem exec_path {c : Instr} (h : exec c s = .next t) : Ends c s t := by
  cases c with
  | resetNLow =>
    cases h
    exact .inl ⟨.inl rfl, rfl⟩
  | resetNHigh =>
    change Host.Outcome.next (if s.resetN = true then s else { s.fullReset with resetN := true }) = Host.Outcome.next t at h
    cases h
    split
    · exact .inr .stays
    · exact .inl ⟨.inr (.inl rfl), rfl⟩
  | linkUp p =>
    simp only [exec, execLinkUp] at h
    exact event_runs h fun _ _ => close_path (Path.still (t := s) .start rfl rfl)
  | linkDown p =>
    simp only [exec, execLinkDown] at h
    exact event_ends h fun _ _ => linkDown_ends p s
  | frameDiscard p rx =>
    simp only [exec, execFrameDiscard] at h
    exact event_runs h fun _ _ => Path.still (t := s) .start rfl rfl
  | blockData i tag gen answer =>
    simp only [exec, execBlockData] at h
    refine event_runs h fun _ _ => ?_
    split
    · exact blockData_path .start tag gen answer (fun e => .inl ⟨tag, gen, by rw [e]⟩) fun _ e => e
    · exact Path.still (t := s) .start rfl rfl
  | ingestMediaReport i report =>
    simp only [exec, execIngestMediaReport] at h
    refine event_runs h fun _ _ => ?_
    split
    · exact ingestReport_path .start report (.inl ⟨report, rfl⟩) fun m e => ⟨m, by rw [e]⟩
    · exact Path.still (t := s) .start rfl rfl
  | targetMediaReport d report =>
    simp only [exec, execTargetMediaReport] at h
    refine event_runs h fun _ _ => ?_
    split
    · exact targetReport_path .start d report
    · exact Path.still (t := s) .start rfl rfl
  | writeDone d tag gen status =>
    simp only [exec, execWriteDone] at h
    exact event_runs h fun _ _ => writeAnswer_path .start _ _ _ _
  | sinkDone tag gen status =>
    simp only [exec, execSinkDone] at h
    exact event_runs h fun _ _ => writeAnswer_path .start _ _ _ _
  | checkData d tag gen answer =>
    simp only [exec, execCheckData] at h
    refine event_runs h fun _ _ => ?_
    split
    · exact checkData_path .start d tag gen answer
    · exact Path.still (t := s) .start rfl rfl
  | request seq kind body =>
    simp only [exec, execRequest] at h
    refine event_runs h fun _ _ => ?_
    split
    · exact Path.start.quiet (request_still s seq kind body).1 (request_still s seq kind body).2
    · exact Path.still (t := s) .start rfl rfl
  | loadJob =>
    simp only [exec, execLoadJob] at h
    exact event_runs h fun _ _ => close_of (take_path .start _ fun r rest _ hp => applyLoadJob_path hp r.body)
  | cancelJob =>
    simp only [exec, execCancelJob] at h
    exact event_runs h fun hn hc => close_of (take_path .start _ fun r rest hr hp => applyCancelJob_path hp r.body fun k hk =>
      ⟨rfl, r, rest, (takes_of hn hc hr).1, (takes_of hn hc hr).2, hk⟩)
  | releaseJob =>
    simp only [exec, execReleaseJob] at h
    exact event_runs h fun _ _ => release_path s rfl
  | queryJob =>
    simp only [exec, execQueryJob] at h
    exact event_runs h fun _ _ => take_transmit_path .start _ fun r rest _ hp => by rw [applyQueryJob_state]; exact hp
  | setTarget =>
    simp only [exec, execSetTarget] at h
    exact event_runs h fun _ _ => take_transmit_path .start _ fun r rest _ hp => applySetTarget_path hp r.body
  | queryTarget =>
    simp only [exec, execQueryTarget] at h
    exact event_runs h fun _ _ => take_transmit_path .start _ fun r rest _ hp => by rw [applyQueryTarget_state]; exact hp
  | setIngest =>
    simp only [exec, execSetIngest] at h
    exact event_runs h fun _ _ => take_transmit_path .start _ fun r rest _ hp => applySetIngest_path hp r.body
  | setLamp =>
    simp only [exec, execSetLamp] at h
    exact event_runs h fun _ _ => take_transmit_path .start _ fun r rest _ hp => applySetLamp_path hp r.body
  | setTick =>
    simp only [exec, execSetTick] at h
    exact event_runs h fun _ _ => take_transmit_path .start _ fun r rest _ hp => applySetTick_path hp r.body
  | queryPart =>
    simp only [exec, execQueryPart] at h
    exact event_ends h fun _ _ => .inr (queryPart_runs s)
  | resetPort =>
    simp only [exec, execResetPort] at h
    exact event_runs h fun hn hc => close_of (take_path .start _ fun r rest hr hp => applyResetPort_path hp r.body fun i hi =>
      .inr (.inr ⟨rfl, r, rest, (takes_of hn hc hr).1, (takes_of hn hc hr).2, hi⟩))
  | resetPart =>
    simp only [exec, execResetPart] at h
    exact event_runs h fun _ _ => take_transmit_path .start _ fun r rest _ hp => applyResetPart_path hp r.body
  | unknownRequest =>
    simp only [exec, execUnknownRequest] at h
    exact event_runs h fun _ _ => take_transmit_path .start _ fun r rest _ hp => hp
  | tick =>
    simp only [exec, execTick] at h
    exact event_runs h fun _ _ => tick_path .start
  | readTagExpiry i k =>
    simp only [exec, execReadTagExpiry] at h
    exact event_runs h fun _ _ => readExpiry_path .start (.inr ⟨k, rfl⟩)
  | writeTagExpiry x k =>
    simp only [exec, execWriteTagExpiry] at h
    exact event_runs h fun _ _ => writeExpiry_path .start x k
  | checkTagExpiry d k =>
    simp only [exec, execCheckTagExpiry] at h
    exact event_runs h fun _ _ => checkExpiry_path .start d k
  | windowEnd x =>
    simp only [exec, execWindowEnd] at h
    exact event_runs h fun _ _ => windowEnd_path .start x
  | digestStart =>
    simp only [exec, execDigestStart] at h
    exact event_runs h fun _ _ => digestStart_path .start
  | digestComplete =>
    simp only [exec, execDigestComplete] at h
    exact event_runs h fun _ _ => digestComplete_path .start
  | targetTxEnd d =>
    simp only [exec, execTargetTxEnd] at h
    exact event_runs h fun _ _ => settle_path (Path.still (t := s) (u := (s.modSides d fun a => { a with granted := false }).modLink
      (.drive d) fun l => { l with tx := [] }) .start rfl rfl)
  | cTxEnd =>
    simp only [exec, execCTxEnd] at h
    exact event_ends h fun _ _ => cTxEnd_ends s

/-- What a step does: full reset, or a path of moves from a state of the same view. -/
theorem step_path (h : step s = .next t) : t.view = State.reset.view ∨ ∃ (G : Grounds) (s1 : State), s1.view = s.view ∧ Path G s1 t [] false := by
  have of_exec : ∀ (c : Instr) (u : State), u.view = s.view → exec c u = .next t →
      t.view = State.reset.view ∨ ∃ (G : Grounds) (s1 : State), s1.view = s.view ∧ Path G s1 t [] false := by
    intro c u hu he
    rcases exec_path he with ⟨-, hv⟩ | ⟨s1, hv, hp⟩
    · exact .inl hv
    · exact .inr ⟨_, s1, hv.trans hu, hp⟩
  unfold step at h
  split at h
  · unfold State.idle at h
    split at h
    · exact of_exec _ s rfl h
    · simp only [Host.Outcome.next.injEq] at h
      subst h
      refine .inr ⟨groundsOf .tick s, s, rfl, ?_⟩
      split
      · unfold referenceClock
        split
        · exact tick_path .start
        · exact Path.still (t := s) .start rfl rfl
      · exact .start
  · next c rest _ => exact of_exec c { s with pending := rest } rfl h

end Sys2Proof.Machine
end

