-- ==== Sys2Proof/Proofs/P10.lean ====
section
/-! The regions and assigned ranges of the drives (R94, R95, R96): each step on the Job Table keeps `State.rangesOk`. -/

namespace Sys2Proof.Machine

open Sys2Proof

/-! ## The ranges of a job and of the table -/

/-- The assigned range that a leg's target and base give on a drive (R5). -/
def rangeOn (d : Fin 6) (n : Nat) (p : Target × Option Nat) : Option Region :=
  match p.2 with
  | some b => if p.1 = .drive d ∧ 0 < n then some ⟨b, b + n - 1⟩ else none
  | none => none

/-- The assigned ranges of an entry of the Job Table on a drive. -/
def entryRanges (d : Fin 6) : Option Job → List Region
  | none => []
  | some j => (j.legs.map Leg.placement).filterMap (rangeOn d j.blocks)

theorem assignedRanges_eq (s : State) (d : Fin 6) : s.assignedRanges d = ((s.jobs.map (entryRanges d)).toList).flatten := by
  unfold State.assignedRanges
  rw [Vector.toList_map, List.flatMap_def]
  congr 1
  refine List.map_congr_left fun e _ => ?_
  cases e with
  | none => rfl
  | some j =>
    dsimp only [entryRanges]
    rw [List.filterMap_map]
    rfl

/-- A drive's ranges where the table's entries hold the same ranges. -/
theorem assignedRanges_congr {s t : State} {d : Fin 6} (h : t.jobs.map (entryRanges d) = s.jobs.map (entryRanges d)) :
    t.assignedRanges d = s.assignedRanges d := by
  rw [assignedRanges_eq, assignedRanges_eq, h]

theorem set_flatten_subperm {α : Type} (c b : List α) : ∀ (l : List (List α)) (i : Nat) (hi : i < l.length),
    b.Subperm (c ++ l[i]) → (l.set i b).flatten.Subperm (c ++ l.flatten)
  | a :: l, 0, _, h => by
    simpa using (List.subperm_append_right l.flatten).mpr h
  | a :: l, i + 1, hi, h => by
    have ih := set_flatten_subperm c b l i (by simpa using hi) (by simpa using h)
    have : (a ++ (l.set i b).flatten).Subperm (a ++ (c ++ l.flatten)) := (List.subperm_append_left a).mpr ih
    refine List.Subperm.trans (by simpa using this) ?_
    simp only [List.flatten_cons]
    rw [← List.append_assoc, ← List.append_assoc]
    exact (List.Perm.append_right _ List.perm_append_comm).subperm

/-- A drive's ranges where one entry of the table gains at most the given ones. -/
theorem assignedRanges_subperm {s t : State} {d : Fin 6} {h : Fin 64} {g : Option Job → Option Job} {c : List Region}
    (ht : t.jobs = setEntry s.jobs h g) (hg : (entryRanges d (g (s.job? h))).Subperm (c ++ entryRanges d (s.job? h))) :
    (t.assignedRanges d).Subperm (c ++ s.assignedRanges d) := by
  have hm : (t.jobs.map (entryRanges d)).toList = (s.jobs.map (entryRanges d)).toList.set h.val (entryRanges d (g (s.job? h))) := by
    rw [ht]
    simp [setEntry, State.job?, Vector.toList_set]
  rw [assignedRanges_eq, assignedRanges_eq, hm]
  refine set_flatten_subperm _ _ _ _ (by simp) ?_
  simpa [State.job?] using hg

theorem modify_filterMap_subperm {α β : Type} (f : α → Option β) (g : α → α) (c : List β) : ∀ (l : List α) (n : Nat),
    (∀ a, l[n]? = some a → (f (g a)).toList.Subperm (c ++ (f a).toList)) → ((l.modify n g).filterMap f).Subperm (c ++ l.filterMap f)
  | [], _, _ => by simp
  | a :: l, 0, h => by
    have := (List.subperm_append_right (l.filterMap f)).mpr (h a rfl)
    have hc : ∀ x : α, (x :: l).filterMap f = (f x).toList ++ l.filterMap f := by
      intro x
      rw [List.filterMap_cons]
      cases f x <;> rfl
    simpa [hc] using this
  | a :: l, n + 1, h => by
    have ih := modify_filterMap_subperm f g c l n (by simpa using h)
    have hc : ∀ m : List α, (a :: m).filterMap f = (f a).toList ++ m.filterMap f := by
      intro m
      rw [List.filterMap_cons]
      cases f a <;> rfl
    rw [List.modify_succ_cons, hc, hc]
    refine ((List.subperm_append_left _).mpr ih).trans ?_
    rw [← List.append_assoc, ← List.append_assoc]
    exact (List.Perm.append_right _ List.perm_append_comm).subperm

/-! ## Drives -/

theorem Drive.rangesOk.subperm {v : Drive} {l m : List Region} (h : v.rangesOk l) (hs : m.Subperm l) : v.rangesOk m := by
  obtain ⟨h1, h2, h3, h4⟩ := h
  have hsub := hs.subset
  refine ⟨h1, ?_, fun r hr => h3 r (hsub hr), fun q hq => ?_⟩
  · obtain ⟨k, hk, hkl⟩ := hs
    refine (List.Perm.pairwise_iff ?_ hk).mp (h2.sublist hkl)
    intro a b hab x hx
    exact hab x ⟨hx.2, hx.1⟩
  · obtain ⟨a, b, c⟩ := h4 q hq
    exact ⟨a, b, fun x hx => ⟨(c x hx).1, fun r hr => (c x hx).2 r (hsub hr)⟩⟩

theorem Drive.rangesOk.of_regions {v w : Drive} {l : List Region} (h : v.rangesOk l) (e : w.regions = v.regions) : w.rangesOk l := by
  have hc : w.current = v.current := congrArg Prod.fst e
  have hs : w.staged = v.staged := congrArg (fun p => p.2.1) e
  have hp : w.pointer = v.pointer := congrArg (fun p => p.2.2) e
  unfold Drive.rangesOk Drive.tailHolds at h ⊢
  rw [hc, hs, hp]
  exact h

theorem Region.not_meets {r q : Region} (h : r.meets q = false) {a : Nat} (hr : r.holds a) (hq : q.holds a) : False := by
  simp only [Region.meets, decide_eq_false_iff_not] at h
  obtain ⟨h1, h2⟩ := hr
  obtain ⟨h3, h4⟩ := hq
  exact h (by omega)

/-- A region stored where it overlaps neither the current region nor a range (R94). -/
theorem Drive.rangesOk.setRegion {v : Drive} {l : List Region} (h : v.rangesOk l) {r : Region} (hr : r.first ≤ r.last)
    (hc : ∀ q, v.current = some q → r.meets q = false) (hl : ∀ q ∈ l, r.meets q = false) : (v.setRegion r).rangesOk l := by
  obtain ⟨h1, h2, h3, h4⟩ := h
  unfold Drive.setRegion
  split
  · next hn =>
    refine ⟨fun c e => ?_, h2, fun q hq a ha ht => ?_, fun q hq => absurd hn (h4 q hq).1⟩
    · cases e
      exact ⟨Nat.le_refl _, by dsimp only; omega⟩
    · obtain ⟨c, e, hp, hle⟩ := ht
      cases e
      exact Region.not_meets (hl q hq) ⟨hp, hle⟩ ha
  · next c hcur =>
    refine ⟨h1, h2, h3, fun q hq => ?_⟩
    cases hq
    refine ⟨by simp [hcur], hr, fun a ha => ⟨fun ht => ?_, fun q hq hqa => Region.not_meets (hl q hq) ha hqa⟩⟩
    obtain ⟨c', e, hp, hle⟩ := ht
    have e' : c' = c := by
      dsimp only at e
      rw [hcur] at e
      exact (Option.some.inj e).symm
    subst e'
    exact Region.not_meets (hc c' hcur) ha ⟨(h1 c' hcur).1.trans hp, hle⟩

/-- Blocks taken at the pointer (R95, step 1). -/
theorem Drive.rangesOk.take {v : Drive} {l : List Region} (h : v.rangesOk l) (n : Nat) :
    (v.take n).1.rangesOk l ∧ ∀ b, (v.take n).2 = some b → 0 < n → (v.take n).1.rangesOk (⟨b, b + n - 1⟩ :: l) := by
  unfold Drive.take
  cases hf : v.fit n with
  | none => exact ⟨h, fun b hb => by cases hb⟩
  | some b =>
    obtain ⟨h1, h2, h3, h4⟩ := h
    unfold Drive.fit at hf
    split at hf
    swap
    · cases hf
    next c hc =>
    split at hf
    swap
    · cases hf
    next hroom =>
    cases hf
    have htail : ∀ a, ({ v with pointer := v.pointer + n } : Drive).tailHolds a → v.tailHolds a ∧ v.pointer + n ≤ a := by
      rintro a ⟨q, hq, hp, hle⟩
      dsimp only at hp
      exact ⟨⟨q, hq, by omega, hle⟩, hp⟩
    have hcur : ∀ q, v.current = some q → q.first ≤ v.pointer + n ∧ v.pointer + n ≤ q.last + 1 := by
      intro q hq
      have hb := h1 q hq
      rw [hc] at hq
      cases hq
      omega
    refine ⟨⟨hcur, h2, fun r hr a ha ht => h3 r hr a ha (htail a ht).1, fun q hq => ?_⟩, fun b hb hn => ?_⟩
    · obtain ⟨x, y, z⟩ := h4 q hq
      exact ⟨x, y, fun a ha => ⟨fun ht => (z a ha).1 (htail a ht).1, (z a ha).2⟩⟩
    · cases hb
      have hnew : ∀ a, (⟨v.pointer, v.pointer + n - 1⟩ : Region).holds a → v.tailHolds a ∧ a < v.pointer + n := by
        rintro a ⟨hlo, hhi⟩
        dsimp only at hlo hhi
        exact ⟨⟨c, hc, hlo, by omega⟩, by omega⟩
      refine ⟨hcur, List.pairwise_cons.mpr ⟨fun r hr a ha => h3 r hr a ha.2 (hnew a ha.1).1, h2⟩, fun r hr a ha ht => ?_, fun q hq => ?_⟩
      · rcases List.mem_cons.mp hr with rfl | hr
        · have := (hnew a ha).2
          have := (htail a ht).2
          omega
        · exact h3 r hr a ha (htail a ht).1
      · obtain ⟨x, y, z⟩ := h4 q hq
        refine ⟨x, y, fun a ha => ⟨fun ht => (z a ha).1 (htail a ht).1, fun r hr hra => ?_⟩⟩
        rcases List.mem_cons.mp hr with rfl | hr
        · exact (z a ha).1 (hnew a hra).1
        · exact (z a ha).2 r hr hra

/-- The staged region becomes current (R95, step 2). -/
theorem Drive.rangesOk.adopt {v : Drive} {l : List Region} (h : v.rangesOk l) {r : Region} (hs : v.staged = some r) :
    (v.adopt r).rangesOk l := by
  obtain ⟨-, h2, -, h4⟩ := h
  obtain ⟨-, hle, hr⟩ := h4 r hs
  refine ⟨fun c e => ?_, h2, fun q hq a ha ht => ?_, fun q hq => by cases hq⟩
  · cases e
    exact ⟨Nat.le_refl _, by dsimp only [Drive.adopt]; omega⟩
  · obtain ⟨c, e, hp, hl⟩ := ht
    cases e
    exact (hr a ⟨hp, hl⟩).2 q hq ha

/-- A placement by the region rule (R95). -/
theorem Drive.rangesOk.place {v : Drive} {l : List Region} (h : v.rangesOk l) (n : Nat) :
    (v.place n).1.rangesOk l ∧ ∀ b, (v.place n).2 = some b → 0 < n → (v.place n).1.rangesOk (⟨b, b + n - 1⟩ :: l) := by
  unfold Drive.place
  split
  · next r _ hs => exact (h.adopt hs).take n
  · exact h.take n

/-! ## Steps on the Job Table -/

variable {s t : State}

theorem regions_at {s t : State} (h : t.drives.map Drive.regions = s.drives.map Drive.regions) (d : Fin 6) :
    (t.drives[d.val]).regions = (s.drives[d.val]).regions := by
  have := congrArg (fun v : Vector _ 6 => v[d.val]) h
  simpa using this

theorem State.rangesOk.of_same (h : s.rangesOk) (hd : ∀ d : Fin 6, (t.drives[d.val]).regions = (s.drives[d.val]).regions)
    (hj : ∀ d, (t.assignedRanges d).Subperm (s.assignedRanges d)) : t.rangesOk :=
  fun d => ((h d).subperm (hj d)).of_regions (hd d)

theorem entryRanges_modJob (s : State) (h : Fin 64) (g : Job → Job) (d : Fin 6)
    (hg : ∀ j, s.job? h = some j → entryRanges d (some (g j)) = entryRanges d (some j)) :
    (s.modJob h g).assignedRanges d = s.assignedRanges d := by
  refine assignedRanges_congr (setEntry_map _ _ _ _ ?_)
  change entryRanges d ((s.job? h).map g) = entryRanges d (s.job? h)
  cases hj : s.job? h with
  | none => rfl
  | some j => exact hg j hj

theorem Job.movesTo.entryRanges {j k : Job} (h : j.movesTo k) (d : Fin 6) : entryRanges d (some k) = entryRanges d (some j) := by
  dsimp only [Machine.entryRanges]
  rw [h.placed, Job.blocks, h.advances.length]
  rfl

theorem finishJob_ranges (s : State) (h : Fin 64) (o : JobState) (c : Option JobCause) (d : Fin 6) :
    (s.finishJob h o c).assignedRanges d = s.assignedRanges d := by
  unfold State.finishJob
  split
  · rfl
  · split
    · rfl
    · have he := entryRanges_modJob s h (fun j => { j with state := o, cause := c, finishedAt := some s.now }) d fun _ _ => rfl
      split
      · exact he
      · exact he

theorem placement_modLeg (j : Job) (n : Nat) (g : Leg → Leg) (hg : ∀ l : Leg, (g l).placement = l.placement) :
    (j.legs.modify n g).map Leg.placement = j.legs.map Leg.placement := by
  refine List.ext_getElem? fun m => ?_
  rw [List.getElem?_map, List.getElem?_map, List.getElem?_modify]
  cases j.legs[m]? with
  | none => simp
  | some l => by_cases e : n = m <;> simp [e, hg]

theorem endLeg_ranges (s : State) (r : LegRef) (x : LegState) (c : Option LegCause) (d : Fin 6) :
    (s.endLeg r x c).assignedRanges d = s.assignedRanges d := by
  refine entryRanges_modJob s r.job _ d fun j _ => ?_
  dsimp only [entryRanges]
  rw [placement_modLeg]
  · rfl
  · intro l
    split <;> rfl

/-- The ranges after a leg has been given a base: at most its new range is gained, on its own drive. -/
theorem modLeg_ranges (s : State) (r : LegRef) (l : Leg) (j : Job) (hl : s.leg? r = some l) (hj : s.job? r.job = some j) (b : Nat)
    (x : LegState) (d : Fin 6) :
    ((s.modLeg r fun l => { l with state := x, base := some b }).assignedRanges d).Subperm
      ((if l.target = .drive d ∧ 0 < j.blocks then [⟨b, b + j.blocks - 1⟩] else []) ++ s.assignedRanges d) := by
  refine assignedRanges_subperm (h := r.job) rfl ?_
  rw [hj]
  dsimp only [Option.map_some, entryRanges]
  rw [List.filterMap_map, List.filterMap_map]
  refine modify_filterMap_subperm _ _ _ _ _ fun a ha => ?_
  obtain ⟨j', hj', hlj⟩ := State.leg?_eq_some.mp hl
  rw [hj] at hj'
  cases hj'
  rw [hlj] at ha
  cases ha
  change (rangeOn d j.blocks (l.target, some b)).toList.Subperm _
  dsimp only [rangeOn]
  split
  · exact (List.singleton_sublist.mpr (by simp)).subperm
  · exact List.nil_subperm

theorem placeLeg_rangesOk (h : s.rangesOk) (r : LegRef) : (s.placeLeg r).rangesOk := by
  unfold State.placeLeg
  split
  · next l j hl hj =>
    split
    · exact h
    · split
      · split
        · next ht =>
          refine h.of_same (fun _ => rfl) fun d => ?_
          have := modLeg_ranges s r l j hl hj 0 .writing d
          rwa [if_neg (by simp [ht]), List.nil_append] at this
        · next d ht =>
          dsimp only
          have hplace := (h d).place j.blocks
          have hdrive : ∀ e : Fin 6, e ≠ d → ((s.modDrive d fun _ => ((s.drives[d.val]).place j.blocks).1).drives[e.val]) = s.drives[e.val] :=
            fun e he => setEntry_other _ _ _ _ (Ne.symm he)
          have hsame : ((s.modDrive d fun _ => ((s.drives[d.val]).place j.blocks).1).drives[d.val]) = ((s.drives[d.val]).place j.blocks).1 :=
            setEntry_same _ _ _
          split
          · next b hb =>
            intro e
            have hr := modLeg_ranges (s.modDrive d fun _ => ((s.drives[d.val]).place j.blocks).1) r l j hl hj b .writing e
            change (((s.modDrive d fun _ => ((s.drives[d.val]).place j.blocks).1).drives[e.val])).rangesOk _
            by_cases he : e = d
            · subst he
              rw [hsame]
              by_cases hn : 0 < j.blocks
              · rw [if_pos ⟨ht, hn⟩] at hr
                exact (hplace.2 b hb hn).subperm hr
              · rw [if_neg (fun q => hn q.2), List.nil_append] at hr
                exact hplace.1.subperm hr
            · rw [hdrive e he]
              rw [if_neg (fun q => he (by have := ht.symm.trans q.1; cases this; rfl)), List.nil_append] at hr
              exact (h e).subperm hr
          · intro e
            rw [endLeg_ranges]
            change (((s.modDrive d fun _ => ((s.drives[d.val]).place j.blocks).1).drives[e.val])).rangesOk (s.assignedRanges e)
            by_cases he : e = d
            · subst he
              rw [hsame]
              exact hplace.1
            · rw [hdrive e he]
              exact h e
      · exact h.of_same (fun _ => rfl) fun d => by rw [endLeg_ranges]
  · exact h

theorem Atom.rangesOk {G : Grounds} (a : Atom G s t) (h : s.rangesOk) : t.rangesOk := by
  cases a with
  | rest hj _ hd => exact h.of_same (regions_at hd) fun d => by rw [assignedRanges_congr (s := s) (by rw [hj])]
  | job g f hf => exact h.of_same (fun _ => rfl) fun d => by rw [entryRanges_modJob s g f d fun j hj => (hf j hj).entryRanges d]
  | place r => exact placeLeg_rangesOk h r
  | finish g o c _ =>
    refine h.of_same (fun d => ?_) fun d => by rw [finishJob_ranges]
    unfold State.finishJob
    split
    · rfl
    · split
      · rfl
      · dsimp only
        split <;> rfl
  | announce g _ =>
    rcases announceJob_cases s g with e | ⟨j, hj, -, -, e⟩
    · rw [e]
      exact h
    · rw [e]
      refine h.of_same (fun _ => rfl) fun d => ?_
      have := entryRanges_modJob s g (fun j => { j with announced := true }) d fun _ _ => rfl
      rw [← this]
      exact List.Subperm.refl _
  | clear i _ =>
    refine h.of_same (fun _ => rfl) fun d => ?_
    rw [assignedRanges_congr (s := s)]
    unfold State.clearSession
    dsimp only
    rw [Vector.map_map]
    refine congrArg (fun f => s.jobs.map f) (funext fun e => ?_)
    cases e with
    | none => rfl
    | some j =>
      dsimp only [Function.comp, Option.map_some, entryRanges]
      split <;> rfl
  | load g b hn =>
    refine h.of_same (fun _ => rfl) fun d => ?_
    refine assignedRanges_subperm (c := []) (h := g) (g := fun _ => some (b.job s.now)) rfl ?_
    have hnil : entryRanges d (some (b.job s.now)) = [] := by
      dsimp only [entryRanges]
      rw [List.filterMap_eq_nil_iff]
      intro p hp
      obtain ⟨l, hl, rfl⟩ := List.mem_map.mp hp
      obtain ⟨e, -, he⟩ := List.mem_filterMap.mp (show l ∈ b.legs from hl)
      obtain ⟨x, -, rfl⟩ := Option.map_eq_some_iff.mp he
      rfl
    rw [hnil]
    exact List.nil_subperm
  | release g j _ hj _ =>
    refine h.of_same (fun d => ?_) fun d => ?_
    · unfold State.release
      dsimp only
      split <;> rfl
    · refine assignedRanges_subperm (c := []) (h := g) (g := fun _ => none) ?_ List.nil_subperm
      unfold State.release
      dsimp only
      split <;> rfl
  | region d r hle hov =>
    intro e
    have hsame : ((s.modDrive d fun v => v.setRegion r).drives[d.val]) = (s.drives[d.val]).setRegion r := setEntry_same _ _ _
    unfold State.regionOverlaps at hov
    simp only [Bool.or_eq_false_iff, List.any_eq_false] at hov
    change ((s.modDrive d fun v => v.setRegion r).drives[e.val]).rangesOk (s.assignedRanges e)
    by_cases he : e = d
    · subst he
      rw [hsame]
      refine (h e).setRegion hle (fun q hq => ?_) fun q hq => by simpa using hov.2 q hq
      have := hov.1
      rw [hq] at this
      exact this
    · have : ((s.modDrive d fun v => v.setRegion r).drives[e.val]) = s.drives[e.val] := setEntry_other _ _ _ _ (Ne.symm he)
      rw [this]
      exact h e

theorem State.rangesOk.of_view (h : s.rangesOk) (hv : t.view = s.view) : t.rangesOk :=
  (Atom.rest (G := groundsOf .tick s) (view_jobs hv) (view_sessions hv) (view_regions hv)).rangesOk h

/-- Settles O14: every step is a series of steps on the Job Table, and each keeps the ranges. -/
theorem assignedRangesStayDisjoint : Obligations.AssignedRangesStayDisjoint := by
  intro s t h hst
  rcases step_path hst with hv | ⟨G, s1, hv, hp⟩
  · exact reset_rangesOk.of_view hv
  · exact hp.atoms.inv State.rangesOk (fun _ _ a => a.rangesOk) (h.of_view hv)

end Sys2Proof.Machine
end

