-- ==== Sys2Proof/Proofs/P11.lean ====
section
/-! The placement of a starting job's legs in closed form (R11, R95): the legs of the job as `State.placedLeg` says, the drives as
`State.placedDrive` says, and nothing else. -/

namespace Sys2Proof.Machine

open Sys2Proof

/-- The state in which a job's first legs have been placed: what has changed is the job and the drives of those legs. -/
structure State.placedTo (s : State) (h : Fin 64) (j : Job) (m : Nat) (t : State) : Prop where
  job : t.job? h = some { j with legs := (j.legs.take m).map (s.placedLeg j.blocks) ++ j.legs.drop m }
  others : ∀ k, k ≠ h → t.job? k = s.job? k
  drives : ∀ d : Fin 6, t.drives[d.val] = s.placedDrive j.blocks (j.legs.take m) d
  rest : t = { s with jobs := t.jobs, drives := t.drives }

/-- A job whose legs can be placed: on distinct targets, and each still IDLE (R4, R11). -/
def Job.fresh (j : Job) : Prop :=
  (j.legs.map Leg.target).Nodup ∧ ∀ l ∈ j.legs, l.state = .idle

variable {s t : State} {h : Fin 64} {j : Job} {m : Nat}

theorem placedDrive_media (s : State) (n : Nat) (legs : List Leg) (d : Fin 6) :
    (s.placedDrive n legs d).media = (s.drives[d.val]).media := by
  unfold State.placedDrive
  split
  · exact Drive.place_media _ _
  · rfl

theorem State.placedTo.available (p : s.placedTo h j m t) (x : Target) : t.available x = s.available x := by
  have hl : ∀ q, t.linkUp q = s.linkUp q := fun q => congrArg LinkPort.up (State.link_congr (by rw [p.rest]) q)
  cases x with
  | drive d => simp [State.available, hl, p.drives d, placedDrive_media]
  | sink => simp [State.available, hl]

theorem State.placedTo.leg? (p : s.placedTo h j m t) : t.leg? ⟨h, m⟩ = j.legs[m]? := by
  unfold State.leg?
  rw [p.job]
  dsimp only [Option.bind_some]
  by_cases hm : m < j.legs.length
  · rw [List.getElem?_append_right (by simp [Nat.min_eq_left hm.le])]
    simp [Nat.min_eq_left hm.le]
  · rw [List.getElem?_eq_none (by simp; omega), List.getElem?_eq_none (by omega)]

theorem take_map_append_modify {α : Type} (f : α → α) : ∀ (l : List α) (m : Nat) (a : α), l[m]? = some a → ∀ g : α → α, g a = f a →
    ((l.take m).map f ++ l.drop m).modify m g = (l.take (m + 1)).map f ++ l.drop (m + 1)
  | [], _, _, h, _, _ => by simp at h
  | x :: l, 0, a, h, g, hg => by
    simp only [List.getElem?_cons_zero, Option.some.injEq] at h
    subst h
    simp [hg]
  | x :: l, m + 1, a, h, g, hg => by
    have := take_map_append_modify f l m a (by simpa using h) g hg
    simpa using this

theorem placedDrive_take (s : State) (n : Nat) (legs : List Leg) (m : Nat) (l : Leg) (hl : legs[m]? = some l) (d : Fin 6)
    (hd : l.target ≠ .drive d ∨ s.available (.drive d) = false) :
    s.placedDrive n (legs.take (m + 1)) d = s.placedDrive n (legs.take m) d := by
  unfold State.placedDrive
  rw [List.take_add_one, hl]
  rcases hd with hd | hd
  · simp [hd]
  · simp [hd]

/-- One more leg placed. -/
theorem State.placedTo.step (p : s.placedTo h j m t) (hf : j.fresh) {l : Leg} (hl : j.legs[m]? = some l) :
    s.placedTo h j (m + 1) (t.placeLeg ⟨h, m⟩) := by
  have hm : m < j.legs.length := (List.getElem?_eq_some_iff.mp hl).1
  have hidle : l.state = .idle := hf.2 l (List.mem_of_getElem? hl)
  have hnow : t.now = s.now := by rw [p.rest]; rfl
  have hleg : t.leg? ⟨h, m⟩ = some l := p.leg?.trans hl
  -- the job and the other jobs after the leg has become what its placement says
  have hjob : ∀ (u : State) (g : Leg → Leg), u.jobs = (t.modLeg ⟨h, m⟩ g).jobs → g l = s.placedLeg j.blocks l →
      u.job? h = some { j with legs := (j.legs.take (m + 1)).map (s.placedLeg j.blocks) ++ j.legs.drop (m + 1) } ∧
        ∀ k, k ≠ h → u.job? k = s.job? k := by
    intro u g hu hg
    refine ⟨?_, fun k hk => ?_⟩
    · rw [State.job?_congr hu, State.job?_modLeg, if_pos rfl, p.job, Option.map_some]
      dsimp only
      rw [take_map_append_modify _ _ _ _ hl g hg]
    · rw [State.job?_congr hu, State.job?_modLeg, if_neg (Ne.symm hk)]
      exact p.others k hk
  -- nothing else changes
  have hrest : ∀ u : State, u = { t with jobs := u.jobs, drives := u.drives } → u = { s with jobs := u.jobs, drives := u.drives } := by
    intro u hu
    have := p.rest
    rw [this] at hu
    exact hu
  have hsame : ∀ u : State, u.drives = t.drives → (∀ d, l.target ≠ .drive d ∨ s.available (.drive d) = false) →
      ∀ d : Fin 6, u.drives[d.val] = s.placedDrive j.blocks (j.legs.take (m + 1)) d := by
    intro u hu hd d
    rw [hu, placedDrive_take s _ _ _ l hl d (hd d)]
    exact p.drives d
  have hended : ∀ c : LegCause, s.available l.target = false → c = .lost → Leg.ended t.now .failed (some c) l = s.placedLeg j.blocks l := by
    intro c ha hc
    subst hc
    simp [Leg.ended, State.placedLeg, ha, hidle, LegState.terminal, hnow]
  unfold State.placeLeg
  rw [hleg, p.job]
  dsimp only
  rw [if_neg (by simp [hidle]), p.available]
  split
  · next ha =>
    split
    · next ht =>
      have hp : s.placedLeg j.blocks l = { l with state := .writing, base := some 0 } := by
        unfold State.placedLeg
        rw [if_pos ha, ht]
      obtain ⟨h1, h2⟩ := hjob _ (fun l => { l with state := .writing, base := some 0 }) rfl hp.symm
      exact ⟨h1, h2, hsame _ rfl fun d => .inl (by rw [ht]; exact Target.noConfusion), hrest _ rfl⟩
    · next d ht =>
      have hdrive : t.drives[d.val] = s.drives[d.val] := by
        rw [p.drives d]
        unfold State.placedDrive
        rw [if_neg]
        simp only [Bool.and_eq_true, List.any_eq_true, decide_eq_true_eq, not_and, not_exists]
        intro _ q hq hqt
        obtain ⟨k, hk, hkq⟩ := List.mem_iff_getElem.mp hq
        have hkm : k < m := by simp at hk; omega
        have hn := hf.1
        rw [List.nodup_iff_injective_getElem] at hn
        have : (⟨k, by simp; omega⟩ : Fin (j.legs.map Leg.target).length) = ⟨m, by simpa using hm⟩ := by
          refine hn ?_
          simp only [List.getElem_map]
          rw [List.getElem_take] at hkq
          rw [hkq, hqt, (List.getElem?_eq_some_iff.mp hl).2, ht]
        exact absurd (congrArg Fin.val this) (Nat.ne_of_lt hkm)
      have hblocks : ({ j with legs := (j.legs.take m).map (s.placedLeg j.blocks) ++ j.legs.drop m } : Job).blocks = j.blocks := rfl
      have hplaced : ∀ b, ((s.drives[d.val]).place j.blocks).2 = some b →
          s.placedLeg j.blocks l = { l with state := .writing, base := some b } := by
        intro b hb
        unfold State.placedLeg
        rw [if_pos ha, ht]
        dsimp only
        rw [hb]
      have hfull : ((s.drives[d.val]).place j.blocks).2 = none →
          s.placedLeg j.blocks l = { l with state := .failed, cause := some .targetFull, finished := some s.now } := by
        intro hb
        unfold State.placedLeg
        rw [if_pos ha, ht]
        dsimp only
        rw [hb]
      have hdrives : ∀ u : State, u.drives = setEntry t.drives d (fun _ => ((s.drives[d.val]).place j.blocks).1) →
          ∀ e : Fin 6, u.drives[e.val] = s.placedDrive j.blocks (j.legs.take (m + 1)) e := by
        intro u hu e
        rw [hu]
        by_cases he : d = e
        · subst he
          rw [setEntry_same]
          unfold State.placedDrive
          rw [if_pos]
          simp only [Bool.and_eq_true, List.any_eq_true, decide_eq_true_eq]
          refine ⟨ht ▸ ha, l, ?_, ht⟩
          rw [List.take_add_one, hl]
          simp
        · rw [setEntry_other _ _ _ _ he, placedDrive_take s _ _ _ l hl e (.inl (by rw [ht]; intro q; cases q; exact he rfl))]
          exact p.drives e
      rw [hblocks, hdrive]
      split
      · next b hb =>
        obtain ⟨h1, h2⟩ := hjob ((t.modDrive d fun _ => ((s.drives[d.val]).place j.blocks).1).modLeg ⟨h, m⟩ fun l =>
          { l with state := .writing, base := some b }) _ rfl (hplaced b hb).symm
        exact ⟨h1, h2, hdrives _ rfl, hrest _ rfl⟩
      · next hb =>
        obtain ⟨h1, h2⟩ := hjob ((t.modDrive d fun _ => ((s.drives[d.val]).place j.blocks).1).endLeg ⟨h, m⟩ .failed (some .targetFull))
          (Leg.ended t.now .failed (some .targetFull)) rfl (by
            rw [hfull hb]
            simp [Leg.ended, hidle, LegState.terminal, hnow])
        exact ⟨h1, h2, hdrives _ rfl, hrest _ rfl⟩
  · next ha =>
    have ha : s.available l.target = false := by simpa using ha
    obtain ⟨h1, h2⟩ := hjob (t.endLeg ⟨h, m⟩ .failed (some .lost)) (Leg.ended t.now .failed (some .lost)) rfl (hended _ ha rfl)
    refine ⟨h1, h2, hsame _ rfl fun d => ?_, hrest _ rfl⟩
    by_cases e : l.target = .drive d
    · exact .inr (e ▸ ha)
    · exact .inl e

theorem placedTo_range (hj : s.job? h = some j) (hf : j.fresh) (m : Nat) (hm : m ≤ j.legs.length) :
    s.placedTo h j m (((List.range m).map fun k => (⟨h, k⟩ : LegRef)).foldl State.placeLeg s) := by
  induction m with
  | zero =>
    refine ⟨by simpa using hj, fun _ _ => rfl, fun d => ?_, rfl⟩
    simp [State.placedDrive]
  | succ m ih =>
    rw [List.range_succ, List.map_append, List.foldl_append]
    exact (ih (by omega)).step hf (List.getElem?_eq_getElem (by omega))

/-- What the placement at a job's start leaves: the job with its start and its legs placed, the line-up without it, the drives placed. -/
structure State.placedBy (s : State) (i : Fin 8) (h : Fin 64) (j : Job) (t : State) : Prop where
  job : t.job? h = some { j with startedAt := some s.now, legs := j.legs.map (s.placedLeg j.blocks) }
  others : ∀ k, k ≠ h → t.job? k = s.job? k
  drives : ∀ d : Fin 6, t.drives[d.val] = s.placedDrive j.blocks j.legs d
  ingest : t.ingest = setEntry s.ingest i fun p => { p with lineUp := p.lineUp.tail }
  rest : t = { s with jobs := t.jobs, drives := t.drives, ingest := t.ingest }

theorem placeLegs_placedBy (i : Fin 8) (hj : s.job? h = some j) (hf : j.fresh) : s.placedBy i h j (s.placeLegs i h) := by
  have hb : (s.beginStart i h).job? h = some { j with startedAt := some s.now } := by
    rw [beginStart_job?, if_pos rfl, hj, Option.map_some]
  have hp := placedTo_range (h := h) (j := { j with startedAt := some s.now }) hb hf j.legs.length (Nat.le_refl _)
  have hr : (s.beginStart i h).legRefs h = (List.range j.legs.length).map fun k => (⟨h, k⟩ : LegRef) := by
    simp [State.legRefs, hb]
  unfold State.placeLegs
  rw [hr]
  refine ⟨?_, fun k hk => ?_, fun d => ?_, ?_, ?_⟩
  · rw [hp.job]
    simp only [List.take_length, List.drop_length, List.append_nil]
    rfl
  · rw [hp.others k hk, beginStart_job?, if_neg (Ne.symm hk)]
  · rw [hp.drives d]
    dsimp only
    rw [List.take_length]
    rfl
  · rw [hp.rest]
    rfl
  · have := hp.rest
    rw [this]
    rfl

theorem placedLeg_target (s : State) (n : Nat) (l : Leg) : (s.placedLeg n l).target = l.target := by
  unfold State.placedLeg
  dsimp only
  split
  · split
    · rfl
    · split <;> rfl
  · rfl

/-- A placed leg is WRITING or FAILED. -/
theorem placedLeg_state (s : State) (n : Nat) (l : Leg) : (s.placedLeg n l).state = .writing ∨ (s.placedLeg n l).state = .failed := by
  unfold State.placedLeg
  dsimp only
  split
  · split
    · exact .inl rfl
    · split
      · exact .inl rfl
      · exact .inr rfl
  · exact .inr rfl

end Sys2Proof.Machine
end

