-- ==== Sys2Proof/Proofs/P12.lean ====
section
/-! The outcomes of jobs and the verify work lists (`State.outcomesOk`), and the heads of those lists: what each operation of the Job Table
keeps, and which head it leaves WRITTEN. -/

namespace Sys2Proof.Machine

open Sys2Proof

/-! ## Outcomes of one job -/

/-- A leg that a drive's verify work list may hold (R119). -/
def Leg.inWork (d : Fin 6) (l : Leg) : Prop :=
  l.target = .drive d ∧ l.verify = true ∧ (l.state = .written ∨ l.state = .verifying)

/-- A job whose legs stand, and which has not just ended or gone back to LOADED. -/
theorem Job.outcomeOk.of_legs {j k : Job} (h : j.outcomeOk) (hl : k.legs = j.legs) (hs : k.state.terminal = false)
    (hd : k.state = .loaded → j.state = .loaded) : k.outcomeOk := by
  obtain ⟨h1, h2, -, -⟩ := h
  refine ⟨by rw [hl]; exact h1, fun e => by rw [hl]; exact h2 (hd e), fun t => absurd t (by simp [hs]), fun e => ?_⟩
  rw [e] at hs
  exact absurd hs (by decide)

/-- A job of which nothing has changed that its outcome speaks of. -/
theorem Job.outcomeOk.congr {j k : Job} (h : j.outcomeOk) (hl : k.legs = j.legs) (hs : k.state = j.state) (hr : k.required = j.required)
    (he : k.expected = j.expected) (hf : k.ingest.final = j.ingest.final) : k.outcomeOk := by
  unfold Job.outcomeOk Job.goodLegs
  rw [hl, hs, hr, he, hf]
  exact h

/-- A job one of whose legs goes forward, an IDLE one staying IDLE. -/
theorem Job.outcomeOk.modify {j : Job} (h : j.outcomeOk) (n : Nat) (g : Leg → Leg)
    (hg : ∀ l, j.legs[n]? = some l → l.advancesTo (g l) ∧ (l.state = .idle → (g l).state = .idle)) :
    ({ j with legs := j.legs.modify n g } : Job).outcomeOk := by
  have hget : ∀ m ∈ j.legs.modify n g, m ∈ j.legs ∨ ∃ l ∈ j.legs, m = g l ∧ j.legs[n]? = some l := by
    intro m hm
    obtain ⟨k, hk⟩ := List.mem_iff_getElem?.mp hm
    rw [List.getElem?_modify] at hk
    by_cases e : n = k
    · subst e
      obtain ⟨l, hl, rfl⟩ := Option.map_eq_some_iff.mp hk
      exact .inr ⟨l, List.mem_of_getElem? hl, by simp, hl⟩
    · simp only [if_neg e, Option.map_eq_map, Option.map_id'] at hk
      exact .inl (List.mem_of_getElem? hk)
  have hsame : ∀ {α : Type} (f : Leg → α), (∀ l, j.legs[n]? = some l → f (g l) = f l) → (j.legs.modify n g).map f = j.legs.map f := by
    intro α f hf
    refine List.ext_getElem? fun k => ?_
    rw [List.getElem?_map, List.getElem?_map, List.getElem?_modify]
    by_cases e : n = k
    · subst e
      cases hl : j.legs[n]? with
      | none => simp
      | some l => simp [hf l hl]
    · simp [e]
  obtain ⟨h1, h2, h3, h4⟩ := h
  refine ⟨?_, fun e m hm => ?_, fun e m hm => ?_, fun e => ?_⟩
  · rw [hsame Leg.target fun l hl => (hg l hl).1.target]
    exact h1
  · rcases hget m hm with hm | ⟨l, hl, rfl, hn⟩
    · exact h2 e m hm
    · exact (hg l hn).2 (h2 e l hl)
  · rcases hget m hm with hm | ⟨l, hl, rfl, hn⟩
    · exact h3 e m hm
    · rw [((hg l hn).1.final (h3 e l hl)).1]
      exact h3 e l hl
  · obtain ⟨hr, hf⟩ := h4 e
    refine ⟨?_, hf⟩
    have hcount : ∀ l : List Leg, (l.filter fun l => decide (l.state = .good)).length =
        ((l.map Leg.state).filter fun x => decide (x = .good)).length := by
      intro l
      rw [List.filter_map, List.length_map]
      rfl
    have : ({ j with legs := j.legs.modify n g } : Job).goodLegs = j.goodLegs := by
      unfold Job.goodLegs
      dsimp only
      rw [hcount, hcount, hsame Leg.state fun l hl => ?_]
      have ht : j.state.terminal = true := by rw [show j.state = .done from e]; rfl
      exact ((hg l hl).1.final (h3 ht l (List.mem_of_getElem? hl))).1
    rw [this]
    exact hr

theorem abandoned_leg_terminal (now : Tick) (l : Leg) :
    (if l.state.terminal = true then l else { l with state := .abandoned, finished := some now }).state.terminal = true := by
  split
  · assumption
  · rfl

theorem Job.abandoned_legs_terminal (now : Tick) (j : Job) : ∀ l ∈ (j.abandoned now).legs, l.state.terminal = true := by
  intro l hl
  obtain ⟨m, -, rfl⟩ := List.mem_map.mp hl
  exact abandoned_leg_terminal now m

theorem Job.abandoned_targets (now : Tick) (j : Job) : (j.abandoned now).legs.map Leg.target = j.legs.map Leg.target := by
  unfold Job.abandoned
  dsimp only
  rw [List.map_map]
  refine List.map_congr_left fun l _ => ?_
  dsimp only [Function.comp]
  split <;> rfl

theorem Job.abandoned_of_terminal (now : Tick) {j : Job} (h : ∀ l ∈ j.legs, l.state.terminal = true) : j.abandoned now = j := by
  unfold Job.abandoned
  have : j.legs.map (fun l => if l.state.terminal = true then l else { l with state := .abandoned, finished := some now }) = j.legs := by
    conv_rhs => rw [← List.map_id j.legs]
    refine List.map_congr_left fun l hl => ?_
    rw [if_pos (h l hl)]
    rfl
  rw [this]

/-- A job that is torn down (R22). -/
theorem Job.outcomeOk.torn {j : Job} (h : j.outcomeOk) (now : Tick) {o : JobState} (ho : o = .failed ∨ o = .aborted) (c : JobCause) :
    (j.torn now o c).outcomeOk := by
  unfold Job.torn Job.finished
  split
  · next ht =>
    rw [Job.abandoned_of_terminal now (h.2.2.1 ht)]
    exact h
  · refine ⟨by rw [Job.abandoned_targets]; exact h.1, fun e => ?_, fun _ => Job.abandoned_legs_terminal now _, fun e => ?_⟩
    all_goals
      change o = _ at e
      rcases ho with rfl | rfl <;> cases e

/-- A job of terminal legs that ends. -/
theorem Job.outcomeOk.finished {j : Job} (h : j.outcomeOk) (hl : ∀ l ∈ j.legs, l.state.terminal = true) (now : Tick) {o : JobState}
    (ho : o.terminal = true) (c : Option JobCause)
    (hd : o = .done → j.required ≤ j.goodLegs ∧ ∃ g, j.ingest.final = some g ∧ (j.expected = none ∨ j.expected = some g)) :
    (j.finished now o c).outcomeOk := by
  unfold Job.finished
  split
  · exact h
  · refine ⟨h.1, fun e => ?_, fun _ => hl, hd⟩
    rw [show o = .loaded from e] at ho
    exact absurd ho (by decide)

/-! ## Outcomes of all jobs -/

variable {s t : State}

/-- The state of the leg at the head of a drive's verify work list. -/
def State.headState (s : State) (d : Fin 6) : Option LegState :=
  ((s.readers[d.val]).work.head?.bind s.leg?).map Leg.state

theorem headsActive_iff : s.headsActive ↔ ∀ d, s.headState d ≠ some .written := by
  unfold State.headsActive State.headState
  constructor
  · intro h d e
    obtain ⟨l, hl, hs⟩ := Option.map_eq_some_iff.mp e
    obtain ⟨r, hr, hrl⟩ := Option.bind_eq_some_iff.mp hl
    obtain ⟨rest, hw⟩ := List.head?_eq_some_iff.mp hr
    exact h d r rest l hw hrl hs
  · intro h d r rest l hw hl hs
    exact h d (by simp [hw, hl, hs])

theorem State.outcomesOk.work {s : State} (h : s.outcomesOk) {d : Fin 6} {r : LegRef} (hr : r ∈ (s.readers[d.val]).work) :
    ∃ l, s.leg? r = some l ∧ l.inWork d := by
  obtain ⟨l, hl, h1, h2, h3⟩ := (h.2 d).2 r hr
  exact ⟨l, hl, h1, h2, h3⟩

theorem State.outcomesOk.legsFit (h : s.outcomesOk) : s.legsFit := by
  intro g j hj
  have hn := ((h.1 g j hj).1).map (f := targetIndex) fun a b => targetIndex_inj.mp
  have := hn.length_le_card
  simpa using this

/-- Sound outcomes after a change: of each job, and of each leg left in a work list. -/
theorem State.outcomesOk.change (h : s.outcomesOk) (hj : ∀ g k, t.job? g = some k → k.outcomeOk)
    (hw : ∀ d : Fin 6, ((t.readers[d.val]).work).Sublist (s.readers[d.val]).work)
    (hl : ∀ (d : Fin 6) r l, r ∈ (t.readers[d.val]).work → s.leg? r = some l → l.inWork d → ∃ m, t.leg? r = some m ∧ m.inWork d) :
    t.outcomesOk := by
  refine ⟨hj, fun d => ⟨(h.2 d).1.sublist (hw d), fun r hr => ?_⟩⟩
  obtain ⟨l, hsl, hin⟩ := h.work ((hw d).subset hr)
  obtain ⟨m, hm, h1, h2, h3⟩ := hl d r l hr hsl hin
  exact ⟨m, hm, h1, h2, h3⟩

theorem leg?_of_job? {s t : State} {r : LegRef} (h : t.job? r.job = s.job? r.job) : t.leg? r = s.leg? r := by
  unfold State.leg?
  rw [h]

/-- Sound outcomes after a change of one job of which no leg is left in a work list. -/
theorem State.outcomesOk.change_job (h : s.outcomesOk) {g : Fin 64} (ho : ∀ k, k ≠ g → t.job? k = s.job? k)
    (hg : ∀ k, t.job? g = some k → k.outcomeOk) (hw : ∀ d : Fin 6, ((t.readers[d.val]).work).Sublist (s.readers[d.val]).work)
    (hn : ∀ (d : Fin 6), ∀ r ∈ (t.readers[d.val]).work, r.job ≠ g) : t.outcomesOk := by
  refine h.change (fun k q hq => ?_) hw fun d r l hr hl hin => ⟨l, ?_, hin⟩
  · by_cases e : k = g
    · subst e
      exact hg q hq
    · rw [ho k e] at hq
      exact h.1 k q hq
  · rw [leg?_of_job? (ho _ (hn d r hr))]
    exact hl

/-- A job of which no leg is WRITTEN or VERIFYING has none in a work list. -/
theorem State.outcomesOk.work_job_ne (h : s.outcomesOk) {g : Fin 64}
    (hg : ∀ j, s.job? g = some j → ∀ l ∈ j.legs, l.state ≠ .written ∧ l.state ≠ .verifying) (d : Fin 6) :
    ∀ r ∈ (s.readers[d.val]).work, r.job ≠ g := by
  rintro r hr rfl
  obtain ⟨l, hl, -, -, hs⟩ := h.work hr
  obtain ⟨j, hj, hjl⟩ := State.leg?_eq_some.mp hl
  have := hg j hj l (List.mem_of_getElem? hjl)
  tauto

theorem LegState.not_written_of_terminal {x : LegState} (h : x.terminal = true) : x ≠ .written ∧ x ≠ .verifying := by
  revert h
  cases x <;> decide

theorem headState_congr {s t : State} {d : Fin 6} (hw : (t.readers[d.val]).work = (s.readers[d.val]).work)
    (hl : ∀ r ∈ (s.readers[d.val]).work, t.leg? r = s.leg? r) : t.headState d = s.headState d := by
  unfold State.headState
  rw [hw]
  cases hh : (s.readers[d.val]).work with
  | nil => rfl
  | cons r rest =>
    simp only [List.head?_cons, Option.bind_some]
    rw [hl r (by rw [hh]; exact List.mem_cons_self)]

theorem State.outcomesOk.of_view (h : s.outcomesOk) (hv : t.view = s.view) : t.outcomesOk :=
  h.change (fun g k hk => h.1 g k (by rw [view_job? hv] at hk; exact hk)) (fun d => by rw [view_work hv]) fun d r l _ hl hin =>
    ⟨l, by rw [view_leg? hv]; exact hl, hin⟩

theorem headState_of_view (hv : t.view = s.view) (d : Fin 6) : t.headState d = s.headState d :=
  headState_congr (view_work hv d) fun r _ => view_leg? hv r

/-- Jobs changed one by one without their legs leave the work lists as they stood. -/
theorem State.outcomesOk.change_jobs (h : s.outcomesOk) (hr : ∀ d : Fin 6, (t.readers[d.val]).work = (s.readers[d.val]).work)
    (hj : ∀ g k, t.job? g = some k → ∃ j, s.job? g = some j ∧ k.legs = j.legs ∧ (j.outcomeOk → k.outcomeOk))
    (hs : ∀ g j, s.job? g = some j → (t.job? g).isSome) : t.outcomesOk ∧ ∀ d, t.headState d = s.headState d := by
  have hleg : ∀ r, t.leg? r = s.leg? r := by
    intro r
    unfold State.leg?
    cases ht : t.job? r.job with
    | none =>
      cases hq : s.job? r.job with
      | none => rfl
      | some j => simpa [ht] using hs _ j hq
    | some k =>
      obtain ⟨j, hj, hl, -⟩ := hj _ k ht
      rw [hj]
      simp [hl]
  refine ⟨h.change (fun g k hk => ?_) (fun d => by rw [hr d]) fun d r l _ hl hin => ⟨l, by rw [hleg]; exact hl, hin⟩,
    fun d => headState_congr (hr d) fun r _ => hleg r⟩
  obtain ⟨j, hj, -, ho⟩ := hj g k hk
  exact ho (h.1 g j hj)

theorem modJob_outcomes (h : s.outcomesOk) (g : Fin 64) (f : Job → Job)
    (hf : ∀ j, s.job? g = some j → (f j).legs = j.legs ∧ (j.outcomeOk → (f j).outcomeOk)) :
    (s.modJob g f).outcomesOk ∧ ∀ d, (s.modJob g f).headState d = s.headState d := by
  refine h.change_jobs (fun _ => rfl) (fun k q hq => ?_) fun k j hj => ?_
  · rw [State.job?_modJob] at hq
    split at hq
    · next e =>
      subst e
      obtain ⟨j, hj, rfl⟩ := Option.map_eq_some_iff.mp hq
      exact ⟨j, hj, (hf j hj).1, (hf j hj).2⟩
    · exact ⟨q, hq, rfl, id⟩
  · rw [State.job?_modJob]
    split
    · next e => subst e; simp [hj]
    · simp [hj]

/-! ## Changes of one leg -/

/-- A leg of no work list that goes forward, or one of a work list that stays WRITTEN or VERIFYING. -/
theorem modLeg_outcomes (h : s.outcomesOk) (r : LegRef) (g : Leg → Leg)
    (hg : ∀ l, s.leg? r = some l → l.advancesTo (g l) ∧ (l.state = .idle → (g l).state = .idle))
    (hw : ∀ (d : Fin 6) l, r ∈ (s.readers[d.val]).work → s.leg? r = some l → (g l).state = .written ∨ (g l).state = .verifying) :
    (s.modLeg r g).outcomesOk := by
  refine h.change (fun k q hq => ?_) (fun _ => List.Sublist.refl _) fun d q l hq hl hin => ?_
  · rw [State.job?_modLeg] at hq
    split at hq
    · next e =>
      subst e
      obtain ⟨j, hj, rfl⟩ := Option.map_eq_some_iff.mp hq
      exact (h.1 _ j hj).modify _ _ fun l hl => hg l (State.leg?_eq_some.mpr ⟨j, hj, hl⟩)
    · exact h.1 k q hq
  · rw [State.leg?_modLeg]
    split
    · next e =>
      subst e
      refine ⟨g l, by rw [hl]; rfl, ?_, ?_, hw d l hq hl⟩
      · rw [(hg l hl).1.target]; exact hin.1
      · rw [(hg l hl).1.verify]; exact hin.2.1
    · exact ⟨l, hl, hin⟩

theorem modLeg_headState (s : State) (r : LegRef) (g : Leg → Leg) (d : Fin 6)
    (hg : ∀ l, s.leg? r = some l → (g l).state = l.state ∨ r ∉ (s.readers[d.val]).work) : (s.modLeg r g).headState d = s.headState d := by
  unfold State.headState
  change ((s.readers[d.val]).work.head?.bind _).map _ = _
  cases hh : (s.readers[d.val]).work with
  | nil => rfl
  | cons q rest =>
    simp only [List.head?_cons, Option.bind_some]
    rw [State.leg?_modLeg]
    split
    · next e =>
      subst e
      cases hl : s.leg? r with
      | none => rfl
      | some l =>
        rcases hg l hl with e | e
        · simp [e]
        · exact absurd (by rw [hh]; exact List.mem_cons_self) e
    · rfl

theorem endLeg_outcomes (h : s.outcomesOk) (r : LegRef) (x : LegState) (c : Option LegCause) (hx : x.terminal = true)
    (hi : ∀ l, s.leg? r = some l → l.state ≠ .idle) (hw : ∀ d : Fin 6, r ∉ (s.readers[d.val]).work) :
    (s.endLeg r x c).outcomesOk ∧ ∀ d, (s.endLeg r x c).headState d = s.headState d :=
  ⟨modLeg_outcomes h r _ (fun l hl => ⟨Leg.advancesTo_end l x c _ hx, fun e => absurd e (hi l hl)⟩) fun d _ hr => absurd hr (hw d),
    fun d => modLeg_headState s r _ d fun _ _ => .inr (hw d)⟩

/-- A leg that is neither WRITTEN nor VERIFYING stands in no work list. -/
theorem State.outcomesOk.not_mem_work (h : s.outcomesOk) {r : LegRef} {l : Leg} (hl : s.leg? r = some l)
    (hs : l.state ≠ .written ∧ l.state ≠ .verifying) (d : Fin 6) : r ∉ (s.readers[d.val]).work := by
  intro hr
  obtain ⟨m, hm, -, -, hx⟩ := h.work hr
  rw [hl] at hm
  cases hm
  tauto

theorem modReader_work (s : State) (d e : Fin 6) (g : VerifyReader → VerifyReader) :
    ((s.modReader d g).readers[e.val]).work = if d = e then (g s.readers[d.val]).work else (s.readers[e.val]).work := by
  rw [State.modReader_readers, setEntry_getElem]
  split <;> rfl

/-! ## Comparison, activation, the end of the writes -/

theorem compareLeg_outcomes (h : s.outcomesOk) {d : Fin 6} {r : LegRef} (ht : ∀ l, s.leg? r = some l → l.target = .drive d) :
    (s.compareLeg d r).1.outcomesOk ∧
      ∀ e, (s.compareLeg d r).1.headState e = s.headState e ∨ (e = d ∧ (s.compareLeg d r).2 = true) := by
  rcases compareLeg_cases s d r with e | ⟨l, j, v, g, hl, hj, -, -, hs, e⟩
  · rw [e]
    exact ⟨h, fun _ => .inl rfl⟩
  rw [e]
  dsimp only
  -- the leg's entry goes first: then the leg stands in no work list
  let u := s.modReader d fun q => { q with work := q.work.filter fun x => x != r }
  have hu : u.outcomesOk := by
    refine h.change h.1 (fun e => ?_) fun _ _ l _ hl hin => ⟨l, hl, hin⟩
    rw [modReader_work]
    split
    · next e => subst e; exact List.filter_sublist
    · exact List.Sublist.refl _
  have hru : ∀ e : Fin 6, r ∉ (u.readers[e.val]).work := by
    intro e hr
    rw [modReader_work] at hr
    split at hr
    · simp at hr
    · next hne =>
      obtain ⟨m, hm, ht', -, -⟩ := h.work hr
      rw [hl] at hm
      cases hm
      rw [ht l hl] at ht'
      cases ht'
      exact hne rfl
  have hend := endLeg_outcomes hu r (if v = g then .good else .mismatch) none (compareState_terminal v g)
    (fun m hm => by rw [show u.leg? r = s.leg? r from rfl, hl] at hm; cases hm; rw [hs]; decide) hru
  refine ⟨hend.1, fun e => ?_⟩
  by_cases he : e = d
  · exact .inr ⟨he, rfl⟩
  · refine .inl ((hend.2 e).trans (headState_congr ?_ fun _ _ => rfl))
    rw [modReader_work, if_neg (Ne.symm he)]

theorem verifyFinal_outcomes (h : s.outcomesOk) {d : Fin 6} {r : LegRef} (ht : ∀ l, s.leg? r = some l → l.target = .drive d) :
    (s.verifyFinal d r).1.outcomesOk ∧
      ∀ e, (s.verifyFinal d r).1.headState e = s.headState e ∨ (e = d ∧ .activate d ∈ (s.verifyFinal d r).2) := by
  rcases verifyFinal_cases s d r with e | ⟨j, hj, hn, e⟩
  · rw [e]
    exact ⟨h, fun _ => .inl rfl⟩
  rw [e]
  dsimp only
  have hu : (s.finaliseLeg r j.length).outcomesOk := by
    refine modLeg_outcomes h r _ (fun l _ => ⟨⟨rfl, rfl, Nat.le_refl _, fun _ => ⟨rfl, rfl, rfl⟩, fun _ => rfl, fun _ => rfl, Nat.le_refl _,
      Nat.le_refl _, Nat.le_refl _, Nat.le_refl _⟩, id⟩) fun d l hr hl => ?_
    obtain ⟨m, hm, -, -, hs⟩ := h.work hr
    rw [hl] at hm
    cases hm
    exact hs
  have hh : ∀ e, (s.finaliseLeg r j.length).headState e = s.headState e := fun e => modLeg_headState s r _ e fun _ _ => .inl rfl
  obtain ⟨h1, h2⟩ := compareLeg_outcomes hu (d := d) (r := r) fun l hl => by
    rw [State.finaliseLeg, State.leg?_modLeg, if_pos rfl] at hl
    obtain ⟨m, hm, rfl⟩ := Option.map_eq_some_iff.mp hl
    exact ht m hm
  refine ⟨h1, fun e => ?_⟩
  rcases h2 e with e1 | ⟨e1, e2⟩
  · exact .inl (e1.trans (hh e))
  · exact .inr ⟨e1, by rw [if_pos e2]; simp⟩

theorem activateHead_outcomes (h : s.outcomesOk) (d : Fin 6) :
    (s.activateHead d).1.outcomesOk ∧
      (∀ e, e ≠ d → (s.activateHead d).1.headState e = s.headState e) ∧
      ((s.activateHead d).1.headState d = some .written → .activate d ∈ (s.activateHead d).2) := by
  rcases activateHead_cases s d with e | ⟨r, rest, l, j, hw, hl, hj, hs, hc⟩
  · rw [e]
    refine ⟨h, fun _ _ => rfl, fun hh => ?_⟩
    obtain ⟨l, hl, hs⟩ := Option.map_eq_some_iff.mp hh
    obtain ⟨r, hr, hrl⟩ := Option.bind_eq_some_iff.mp hl
    obtain ⟨rest, hw⟩ := List.head?_eq_some_iff.mp hr
    obtain ⟨j, hj, hjl⟩ := State.leg?_eq_some.mp hrl
    exfalso
    unfold State.activateHead at e
    rw [hw] at e
    dsimp only at e
    rw [hrl, hj] at e
    dsimp only at e
    rw [if_pos hs] at e
    -- the leg has become VERIFYING, or more: the states differ
    have hch : (s.modLeg r fun l => { l with state := .verifying }).leg? r = some { l with state := .verifying } := by
      rw [State.leg?_modLeg, if_pos rfl, hrl]
      rfl
    have hstate : ∀ u : State, (s.modLeg r fun l => { l with state := .verifying }).advancesTo u → u ≠ s := by
      rintro u ha rfl
      obtain ⟨q, hq, hql⟩ := State.leg?_eq_some.mp hch
      obtain ⟨k, hk, hjk⟩ := ha.jobs _ q hq
      obtain ⟨m, hm, hlm, -⟩ := hjk.legs _ _ hql
      have : m = l := by
        have h2 := State.leg?_eq_some.mpr ⟨k, hk, hm⟩
        rw [hrl] at h2
        exact (Option.some.inj h2).symm
      subst this
      have := hlm.rank
      rw [hs] at this
      exact absurd this (show ¬ LegState.verifying.rank ≤ LegState.written.rank by decide)
    split at e
    · exact hstate _ (verifyFinal_advances _ d r) (congrArg Prod.fst e)
    · exact hstate _ (State.advancesTo_refl _) (congrArg Prod.fst e)
  · have hr : r ∈ (s.readers[d.val]).work := by rw [hw]; exact List.mem_cons_self
    obtain ⟨m, hm, htgt, -, -⟩ := h.work hr
    rw [hl] at hm
    cases hm
    have hu : (s.modLeg r fun l => { l with state := .verifying }).outcomesOk := by
      refine modLeg_outcomes h r _ (fun m hm => ?_) fun _ _ _ _ => .inr rfl
      rw [hl] at hm
      cases hm
      exact ⟨Leg.advancesTo_state l _ (by rw [hs]; decide) (by rw [hs]; rfl), fun e => by rw [hs] at e; cases e⟩
    have hh : ∀ e, e ≠ d → (s.modLeg r fun l => { l with state := .verifying }).headState e = s.headState e := by
      refine fun e he => modLeg_headState s r _ e fun m hm => .inr fun hre => ?_
      obtain ⟨q, hq, ht', -, -⟩ := h.work hre
      rw [hl] at hq
      cases hq
      rw [htgt] at ht'
      cases ht'
      exact he rfl
    have hd : (s.modLeg r fun l => { l with state := .verifying }).headState d = some .verifying := by
      unfold State.headState
      change ((s.readers[d.val]).work.head?.bind _).map _ = _
      rw [hw]
      simp only [List.head?_cons, Option.bind_some]
      rw [State.leg?_modLeg, if_pos rfl, hl]
      rfl
    rcases hc with ⟨-, e⟩ | ⟨-, e⟩
    · rw [e]
      exact ⟨hu, hh, fun q => by rw [hd] at q; cases q⟩
    · rw [e]
      obtain ⟨h1, h2⟩ := verifyFinal_outcomes hu (d := d) (r := r) fun q hq => by
        rw [State.leg?_modLeg, if_pos rfl, hl] at hq
        cases hq
        exact htgt
      refine ⟨h1, fun e he => ?_, fun q => ?_⟩
      · rcases h2 e with e1 | ⟨e1, -⟩
        · exact e1.trans (hh e he)
        · exact absurd e1 he
      · rcases h2 d with e1 | ⟨-, e2⟩
        · rw [e1, hd] at q
          cases q
        · exact e2

theorem legWritten_outcomes (h : s.outcomesOk) {r : LegRef} (hr : ∀ l, s.leg? r = some l → l.state = .writing) :
    (s.legWritten r).1.outcomesOk ∧
      ∀ e, (s.legWritten r).1.headState e = s.headState e ∨ .activate e ∈ (s.legWritten r).2 := by
  have hnw : ∀ l, s.leg? r = some l → ∀ d : Fin 6, r ∉ (s.readers[d.val]).work := fun l hl d =>
    h.not_mem_work hl (by rw [hr l hl]; decide) d
  have hu : ∀ l, s.leg? r = some l → (s.modLeg r fun l => { l with state := .written, written := some s.now }).outcomesOk ∧
      ∀ e, (s.modLeg r fun l => { l with state := .written, written := some s.now }).headState e = s.headState e := by
    intro l hl
    refine ⟨modLeg_outcomes h r _ (fun m hm => ?_) fun d m hd _ => absurd hd (hnw l hl d),
      fun e => modLeg_headState s r _ e fun _ _ => .inr (hnw l hl e)⟩
    have e := hr m hm
    have hwr : 2 ≤ m.state.rank → some s.now = m.written := fun n => absurd n (by rw [e]; decide)
    exact ⟨⟨rfl, rfl, by rw [e]; exact Nat.le_succ 1, fun t => absurd t (by rw [e]; decide), fun _ => rfl, hwr, Nat.le_refl _,
      Nat.le_refl _, Nat.le_refl _, Nat.le_refl _⟩, fun i => by rw [e] at i; cases i⟩
  rcases legWritten_cases s r with ⟨-, e⟩ | ⟨l, hl, ⟨d, hv, ht, e⟩ | ⟨-, e⟩⟩
  · rw [e]
    exact ⟨h, fun _ => .inl rfl⟩
  · rw [e]
    obtain ⟨h1, h2⟩ := hu l hl
    have hleg : (s.modLeg r fun l => { l with state := .written, written := some s.now }).leg? r =
        some { l with state := .written, written := some s.now } := by
      rw [State.leg?_modLeg, if_pos rfl, hl]
      rfl
    refine ⟨⟨h1.1, fun e => ?_⟩, fun e => ?_⟩
    · dsimp only
      rw [modReader_work]
      split
      · next he =>
        subst he
        refine ⟨List.nodup_append.mpr ⟨(h.2 d).1, List.nodup_singleton r, ?_⟩, fun q hq => ?_⟩
        · rintro a ha b hb rfl
          rw [List.mem_singleton.mp hb] at ha
          exact hnw l hl d ha
        · rcases List.mem_append.mp hq with hq | hq
          · exact (h1.2 d).2 q hq
          · rw [List.mem_singleton.mp hq]
            exact ⟨_, hleg, ht, hv, .inl rfl⟩
      · exact h1.2 e
    · by_cases he : e = d
      · subst he
        exact .inr (by simp)
      · refine .inl (Eq.trans ?_ (h2 e))
        refine headState_congr ?_ fun _ _ => rfl
        dsimp only
        rw [modReader_work, if_neg (Ne.symm he)]
  · rw [e]
    obtain ⟨h1, h2⟩ := hu l hl
    obtain ⟨h3, h4⟩ := endLeg_outcomes h1 r .good none rfl (fun m hm => by
      rw [State.leg?_modLeg, if_pos rfl, hl] at hm
      cases hm
      exact LegState.noConfusion) (hnw l hl)
    exact ⟨h3, fun e => .inl ((h4 e).trans (h2 e))⟩

theorem eachLeg_outcomes : ∀ (l : List LegRef) (s : State), s.outcomesOk →
    (eachLeg State.writtenIfWriting l s).1.outcomesOk ∧
      ∀ e, (eachLeg State.writtenIfWriting l s).1.headState e = s.headState e ∨ .activate e ∈ (eachLeg State.writtenIfWriting l s).2
  | [], _, h => ⟨h, fun _ => .inl rfl⟩
  | r :: rest, s, h => by
    have h1 : (s.writtenIfWriting r).1.outcomesOk ∧
        ∀ e, (s.writtenIfWriting r).1.headState e = s.headState e ∨ .activate e ∈ (s.writtenIfWriting r).2 := by
      rcases writtenIfWriting_cases s r with e | ⟨l, hl, hs, e⟩
      · rw [e]
        exact ⟨h, fun _ => .inl rfl⟩
      · rw [e]
        exact legWritten_outcomes h fun m hm => by rw [hl] at hm; cases hm; exact hs
    obtain ⟨h2, h3⟩ := eachLeg_outcomes rest _ h1.1
    simp only [eachLeg]
    refine ⟨h2, fun e => ?_⟩
    rw [List.mem_append]
    rcases h3 e with e1 | e1
    · rcases h1.2 e with e2 | e2
      · exact .inl (e1.trans e2)
      · exact .inr (.inl e2)
    · exact .inr (.inr e1)

end Sys2Proof.Machine
end

