-- ==== Sys2Proof/Proofs/P13.lean ====
section
/-! Outcomes and verify work lists through the rest of an event: teardowns, tests, finalisations and starts (`perform_outcomes`). -/

namespace Sys2Proof.Machine

open Sys2Proof

variable {s t : State}

/-! ## Teardown -/

theorem withdrawVerify_work (s : State) (d e : Fin 6) (h : Fin 64) :
    ((s.withdrawVerify d h).readers[e.val]).work =
      if d = e then (s.readers[d.val]).work.filter (fun r => r.job != h) else (s.readers[e.val]).work := by
  unfold State.withdrawVerify
  dsimp only
  split
  · next hn =>
    split
    · next he =>
      subst he
      refine (List.filter_eq_self.mpr fun r hr => ?_).symm
      have := List.find?_eq_none.mp hn r hr
      simpa using this
    · rfl
  · have hw : ((((s.modReader d fun v => v.withdraw h).readers[e.val])).work) =
        if d = e then (s.readers[d.val]).work.filter (fun r => r.job != h) else (s.readers[e.val]).work := modReader_work s d e _
    split <;> exact hw

theorem withdrawDrives_work (h : Fin 64) (e : Fin 6) : ∀ (l : List (Fin 6)) (s : State),
    ((l.foldl (fun s d => s.withdrawVerify d h) s).readers[e.val]).work =
      if e ∈ l then (s.readers[e.val]).work.filter (fun r => r.job != h) else (s.readers[e.val]).work
  | [], s => by simp
  | d :: rest, s => by
    rw [List.foldl_cons, withdrawDrives_work h e rest, withdrawVerify_work]
    by_cases hd : d = e
    · subst hd
      simp
    · simp [hd, Ne.symm hd]

theorem finishJob_readers (s : State) (h : Fin 64) (o : JobState) (c : Option JobCause) : (s.finishJob h o c).readers = s.readers := by
  unfold State.finishJob
  split
  · rfl
  · split
    · rfl
    · dsimp only
      split <;> rfl

theorem dropReading_readers (s : State) (h : Fin 64) : (s.dropReading h).readers = s.readers := by
  unfold State.dropReading
  split
  · rfl
  · split <;> rfl

theorem mem_allDrives (d : Fin 6) : d ∈ allDrives := by
  revert d
  decide

theorem teardown_work (s : State) (h : Fin 64) (o : JobState) (c : JobCause) (d : Fin 6) :
    ((s.teardown h o c).readers[d.val]).work = (s.readers[d.val]).work.filter fun r => r.job != h := by
  unfold State.teardown
  dsimp only
  rw [withdrawDrives_work, if_pos (mem_allDrives d)]
  rw [foldl_keeps State.readers (fun (s : State) x => s.modWriter x fun w => w.withdraw h) (fun _ _ => rfl)]
  have : ((((s.finishJob h o (some c)).abandonLegs h).dropReading h).withdrawSlots (Slot.ingestOf h)).readers = s.readers :=
    (dropReading_readers _ h).trans (finishJob_readers s h o _)
  rw [this]

/-- Sound outcomes after a step, and what it leaves to do for each head it leaves WRITTEN. -/
structure OutStep (s t : State) (new : List Todo) : Prop where
  outcomes : t.outcomesOk
  heads : ∀ e, t.headState e = some .written → s.headState e = some .written ∨ .activate e ∈ new

theorem OutStep.refl (h : s.outcomesOk) (l : List Todo) : OutStep s s l :=
  ⟨h, fun _ e => .inl e⟩

theorem OutStep.of_heads {l : List Todo} (ho : t.outcomesOk) (hh : ∀ e, t.headState e = s.headState e) : OutStep s t l :=
  ⟨ho, fun e he => .inl (by rw [← hh e]; exact he)⟩

/-- A step that leaves every drive's head to be looked at. -/
theorem OutStep.of_all {l : List Todo} (ho : t.outcomesOk) (hl : ∀ d, Todo.activate d ∈ l) : OutStep s t l :=
  ⟨ho, fun e _ => .inr (hl e)⟩

theorem OutStep.trans {u : State} {l m : List Todo} (a : OutStep s t l) (b : OutStep t u m) : OutStep s u (l ++ m) :=
  ⟨b.outcomes, fun e he => by
    rw [List.mem_append]
    rcases b.heads e he with h | h
    · rcases a.heads e h with h | h
      · exact .inl h
      · exact .inr (.inl h)
    · exact .inr (.inr h)⟩

/-- A step without an entry for the list, then another. -/
theorem OutStep.then {u : State} {m : List Todo} (a : OutStep s t []) (b : OutStep t u m) : OutStep s u m :=
  a.trans b

theorem activate_mem_all (d : Fin 6) : Todo.activate d ∈ allDrives.map Todo.activate :=
  List.mem_map_of_mem (mem_allDrives d)

theorem teardown_outcomes (h : s.outcomesOk) (g : Fin 64) {o : JobState} (ho : o = .failed ∨ o = .aborted) (c : JobCause) :
    (s.teardown g o c).outcomesOk := by
  refine h.change_job (g := g) (fun k hk => ?_) (fun k hk => ?_) (fun d => ?_) fun d r hr => ?_
  · rw [teardown_job?, if_neg (Ne.symm hk)]
  · rw [teardown_job?, if_pos rfl] at hk
    obtain ⟨j, hj, rfl⟩ := Option.map_eq_some_iff.mp hk
    exact (h.1 g j hj).torn s.now ho c
  · rw [teardown_work]
    exact List.filter_sublist
  · rw [teardown_work] at hr
    simpa using (List.mem_filter.mp hr).2

theorem tearJob_outcomes (h : s.outcomesOk) (g : Fin 64) {o : JobState} (ho : o = .failed ∨ o = .aborted) (c : JobCause) :
    OutStep s (s.tearJob g o c).1 (s.tearJob g o c).2 := by
  rcases tearJob_cases s g o c with ⟨e, -⟩ | ⟨j, -, -, e⟩
  · rewrite [e]
    exact .refl h _
  · rewrite [e]
    dsimp only
    exact .of_all (teardown_outcomes h g ho c) fun d => List.mem_append_left _ (activate_mem_all d)

/-! ## Ends without teardown -/

theorem finishJob_outcomes (h : s.outcomesOk) (g : Fin 64) {o : JobState} (c : Option JobCause)
    (hf : ∀ j, s.job? g = some j → j.outcomeOk → (j.finished s.now o c).outcomeOk) {l : List Todo} :
    OutStep s (s.finishJob g o c) l := by
  have hj : ∀ k q, (s.finishJob g o c).job? k = some q → ∃ j, s.job? k = some j ∧ q.legs = j.legs ∧ (j.outcomeOk → q.outcomeOk) := by
    intro k q hq
    rw [finishJob_job?] at hq
    split at hq
    · next e =>
      subst e
      obtain ⟨j, hj, rfl⟩ := Option.map_eq_some_iff.mp hq
      refine ⟨j, hj, ?_, hf j hj⟩
      unfold Job.finished
      split <;> rfl
    · exact ⟨q, hq, rfl, id⟩
  have := h.change_jobs (t := s.finishJob g o c) (fun d => by rw [finishJob_readers]) hj fun k j hk => by
    rw [finishJob_job?]
    split
    · next e => subst e; simp [hk]
    · simp [hk]
  exact .of_heads this.1 this.2

theorem finalisable_spec {j : Job} (h : j.finalisable = true) :
    j.state = .settling ∧ (∃ g, j.ingest.final = some g ∧ (j.expected = none ∨ j.expected = some g)) ∧
      ∀ l ∈ j.legs, l.state.terminal = true := by
  unfold Job.finalisable at h
  simp only [Bool.and_eq_true, decide_eq_true_eq, List.all_eq_true] at h
  obtain ⟨⟨h1, h2⟩, h3⟩ := h
  refine ⟨h1, ?_, h3⟩
  unfold Job.digestPassed at h2
  split at h2
  · next g hg => exact ⟨g, hg, by simpa using h2⟩
  · cases h2

theorem testJob_outcomes (h : s.outcomesOk) (g : Fin 64) : OutStep s (s.testJob g).1 (s.testJob g).2 := by
  rcases testJob_cases s g with ⟨e, -⟩ | ⟨j, hj, -, ⟨-, e⟩ | ⟨-, hf, hr, e⟩ | ⟨-, hf, hr, e⟩⟩
  · rw [e]
    exact .refl h _
  · rw [e]
    exact tearJob_outcomes h g (.inl rfl) _
  · rw [e]
    obtain ⟨-, hd, hl⟩ := finalisable_spec hf
    refine finishJob_outcomes h g _ fun k hk ho => ?_
    rw [hj] at hk
    cases hk
    exact ho.finished hl _ rfl _ fun _ => ⟨hr, hd⟩
  · rw [e]
    obtain ⟨-, -, hl⟩ := finalisable_spec hf
    refine finishJob_outcomes h g _ fun k hk ho => ?_
    rw [hj] at hk
    cases hk
    exact ho.finished hl _ rfl _ fun e => by cases e

/-- A LOADED job that ends (R18, R25). -/
theorem endLoaded_outcomes (h : s.outcomesOk) (g : Fin 64) {o : JobState} (ho : o = .failed ∨ o = .aborted) (c : JobCause)
    (hl : ∀ j, s.job? g = some j → j.state = .loaded) : OutStep s (s.endLoaded o c g) [] := by
  have hwork : ∀ d : Fin 6, ((s.endLoaded o c g).readers[d.val]).work = (s.readers[d.val]).work := by
    intro d
    change ((s.finishJob g o (some c)).readers[d.val]).work = _
    rw [finishJob_readers]
  have hothers : ∀ k, k ≠ g → (s.endLoaded o c g).job? k = s.job? k := by
    intro k hk
    unfold State.endLoaded
    rw [abandonLegs_job?, if_neg (Ne.symm hk), finishJob_job?, if_neg (Ne.symm hk)]
  have hne := h.work_job_ne (g := g) fun j hj l hm => by
    rw [(h.1 g j hj).2.1 (hl j hj) l hm]
    decide
  refine .of_heads (h.change_job (g := g) hothers (fun k hk => ?_) (fun d => by rw [hwork d]) fun d r hr => ?_)
    fun e => headState_congr (hwork e) fun r hr => leg?_of_job? (hothers _ (hne e r hr))
  · unfold State.endLoaded at hk
    rw [abandonLegs_job?, if_pos rfl, finishJob_job?, if_pos rfl, finishJob_now, Option.map_map] at hk
    obtain ⟨j, hj, rfl⟩ := Option.map_eq_some_iff.mp hk
    exact (h.1 g j hj).torn s.now ho c
  · rw [hwork d] at hr
    exact hne d r hr

/-! ## Finalisation -/

theorem compareWaiting_outcomes (h : s.outcomesOk) (r : LegRef) : (s.compareWaiting r).outcomesOk := by
  rcases compareWaiting_cases s r with e | ⟨l, d, hl, ht, e⟩
  · rw [e]
    exact h
  · rw [e]
    exact (compareLeg_outcomes h fun m hm => by rw [hl] at hm; cases hm; exact ht).1

theorem finaliseIngest_outcomes (h : s.outcomesOk) (g : Fin 64) {j : Job} (hj : s.job? g = some j) (ht : j.state.terminal = false) :
    (s.finaliseIngest g).outcomesOk ∧ ∀ d, (s.finaliseIngest g).headState d = s.headState d :=
  modJob_outcomes h g _ fun k hk => by
    rw [hj] at hk
    cases hk
    exact ⟨rfl, fun o => o.of_legs rfl ht id⟩

theorem ingestFinalised_outcomes (h : s.outcomesOk) (g : Fin 64) : OutStep s (s.ingestFinalised g).1 (s.ingestFinalised g).2 := by
  rcases ingestFinalised_cases s g with ⟨e, -⟩ | ⟨j, hj, ht, ⟨-, e⟩ | ⟨-, e⟩⟩
  · rw [e]
    exact .refl h _
  · rw [e]
    refine .of_all ?_ fun d => List.mem_append_left _ (activate_mem_all d)
    exact foldl_inv State.outcomesOk _ (fun s r h => compareWaiting_outcomes h r) _ _ (finaliseIngest_outcomes h g hj ht).1
  · rw [e]
    obtain ⟨h1, h2⟩ := finaliseIngest_outcomes h g hj ht
    exact OutStep.then (.of_heads h1 h2) (tearJob_outcomes h1 g (.inl rfl) _)

/-! ## Starts -/

theorem Job.outcomeOk.fresh {j : Job} (h : j.outcomeOk) (hl : j.state = .loaded) : j.fresh :=
  ⟨h.1, h.2.1 hl⟩

/-- A job that runs has nothing to say of its outcome but its targets. -/
theorem Job.outcomeOk_of_running {k : Job} (hn : (k.legs.map Leg.target).Nodup) (hs : k.state = .reading ∨ k.state = .settling) :
    k.outcomeOk := by
  refine ⟨hn, fun e => ?_, fun e => ?_, fun e => ?_⟩
  · rw [e] at hs
    exact absurd hs (by decide)
  · rcases hs with hs | hs <;> rw [hs] at e <;> cases e
  · rw [e] at hs
    exact absurd hs (by decide)

/-- A FAILED job has nothing to say of its outcome but its targets and that its legs are terminal. -/
theorem Job.outcomeOk_of_failed {k : Job} (hn : (k.legs.map Leg.target).Nodup) (hs : k.state = .failed)
    (hl : ∀ l ∈ k.legs, l.state.terminal = true) : k.outcomeOk := by
  refine ⟨hn, fun e => ?_, fun _ => hl, fun e => ?_⟩
  all_goals
    rw [e] at hs
    cases hs

/-- The job of which the legs have just been placed. -/
def State.placedJob (s : State) (j : Job) : Job :=
  { j with startedAt := some s.now, legs := j.legs.map (s.placedLeg j.blocks) }

theorem placedJob_targets (s : State) (j : Job) : (s.placedJob j).legs.map Leg.target = j.legs.map Leg.target := by
  unfold State.placedJob
  dsimp only
  rw [List.map_map]
  exact List.map_congr_left fun l _ => placedLeg_target s j.blocks l

theorem placedJob_legs (s : State) (j : Job) : ∀ l ∈ (s.placedJob j).legs, l.state = .writing ∨ l.state = .failed := by
  intro l hl
  obtain ⟨m, -, rfl⟩ := List.mem_map.mp hl
  exact placedLeg_state s j.blocks m

/-- Sound outcomes where the job whose legs have been placed goes on to a later state. -/
theorem State.placedBy.outcomes {i : Fin 8} {g : Fin 64} {j : Job} (p : s.placedBy i g j t) (h : s.outcomesOk) (hj : s.job? g = some j)
    (hl : j.state = .loaded) {u : State} (hr : u.readers = s.readers) (ho : ∀ k, k ≠ g → u.job? k = t.job? k)
    (hg : ∀ k, u.job? g = some k → k.outcomeOk) (l : List Todo) : OutStep s u l := by
  have hne := h.work_job_ne (g := g) fun q hq m hm => by
    rw [hj] at hq
    cases hq
    rw [(h.1 g j hj).2.1 hl m hm]
    decide
  have hothers : ∀ k, k ≠ g → u.job? k = s.job? k := fun k hk => (ho k hk).trans (p.others k hk)
  exact .of_heads (h.change_job (g := g) hothers hg (fun d => by rw [hr]) fun d r hm => hne d r (by rw [hr] at hm; exact hm))
    fun e => headState_congr (by rw [hr]) fun r hm => leg?_of_job? (hothers _ (hne e r hm))

theorem State.placedBy.readers {i : Fin 8} {g : Fin 64} {j : Job} (p : s.placedBy i g j t) : t.readers = s.readers := by
  rw [p.rest]

theorem State.placedBy.now {i : Fin 8} {g : Fin 64} {j : Job} (p : s.placedBy i g j t) : t.now = s.now := by
  rw [p.rest]
  rfl

theorem startJob_outcomes (h : s.outcomesOk) (i : Fin 8) (g : Fin 64) {j : Job} (hj : s.job? g = some j) (hl : j.state = .loaded) :
    OutStep s (s.startJob i g).1 (s.startJob i g).2 := by
  have p := placeLegs_placedBy i hj ((h.1 g j hj).fresh hl)
  have htarget : ((s.placedJob j).legs.map Leg.target).Nodup := by
    rw [placedJob_targets]
    exact (h.1 g j hj).1
  rcases startJob_cases s i g with ⟨hn, -⟩ | ⟨q, hq, hc⟩
  · rw [p.job] at hn
    cases hn
  rw [p.job] at hq
  cases hq
  rcases hc with ⟨hv, e⟩ | ⟨-, -, e⟩ | ⟨-, -, e⟩
  · rw [e]
    refine p.outcomes h hj hl (by rw [finishJob_readers, p.readers]) (fun k hk => ?_) (fun k hk => ?_) _
    · rw [finishJob_job?, if_neg (Ne.symm hk)]
    · rw [finishJob_job?, if_pos rfl, p.job, Option.map_some] at hk
      cases hk
      unfold Job.finished
      rw [if_neg (by simp [hl, JobState.terminal])]
      refine Job.outcomeOk_of_failed htarget rfl fun m hm => ?_
      rcases placedJob_legs s j m hm with e | e
      · have := viableLegs_eq_zero.mp hv m hm
        rw [e] at this
        cases this
      · rw [e]; rfl
  · rw [e]
    have h1 : OutStep s ((s.placeLegs i g).emptied g) [] := by
      refine p.outcomes h hj hl (by exact p.readers) (fun k hk => ?_) (fun k hk => ?_) _
      · rw [State.emptied, State.job?_modJob, if_neg (Ne.symm hk)]
      · rw [State.emptied, State.job?_modJob, if_pos rfl, p.job, Option.map_some] at hk
        cases hk
        exact Job.outcomeOk_of_running htarget (.inr rfl)
    obtain ⟨h2, h3⟩ := eachLeg_outcomes ((s.beginStart i g).legRefs g) _ h1.outcomes
    refine OutStep.then h1 ⟨h2, fun e he => ?_⟩
    rcases h3 e with x | x
    · exact .inl (by rw [← x]; exact he)
    · exact .inr (List.mem_append_left _ x)
  · rw [e]
    refine p.outcomes h hj hl (by exact p.readers) (fun k hk => ?_) (fun k hk => ?_) _
    · exact (State.job?_modJob _ g k _).trans (if_neg (Ne.symm hk))
    · have := (State.job?_modJob (s.placeLegs i g) g g fun j => { j with state := .reading }).symm.trans hk
      rw [if_pos rfl, p.job, Option.map_some] at this
      cases this
      exact Job.outcomeOk_of_running htarget (.inl rfl)

theorem testStart_outcomes (h : s.outcomesOk) (i : Fin 8) : OutStep s (s.testStart i).1 (s.testStart i).2 := by
  rcases testStart_cases s i with ⟨e, -⟩ | ⟨g, rest, j, -, -, hj, hl, e⟩
  · rw [e]
    exact .refl h _
  · rw [e]
    exact startJob_outcomes h i g hj hl

/-- The rest of an event keeps the outcomes sound; a head that it leaves WRITTEN is still to be looked at. -/
theorem perform_outcomes (h : s.outcomesOk) (x : Todo) :
    (s.perform x).1.outcomesOk ∧ ∀ e, (s.perform x).1.headState e = some .written →
      .activate e ∈ (s.perform x).2 ∨ (s.headState e = some .written ∧ x ≠ .activate e) := by
  have of_step : (∀ d, x ≠ .activate d) → OutStep s (s.perform x).1 (s.perform x).2 →
      (s.perform x).1.outcomesOk ∧ ∀ e, (s.perform x).1.headState e = some .written →
        .activate e ∈ (s.perform x).2 ∨ (s.headState e = some .written ∧ x ≠ .activate e) :=
    fun hx a => ⟨a.outcomes, fun e he => (a.heads e he).symm.imp id fun b => ⟨b, hx e⟩⟩
  cases x with
  | activate d =>
    obtain ⟨h1, h2, h3⟩ := activateHead_outcomes h d
    refine ⟨h1, fun e he => ?_⟩
    by_cases hd : e = d
    · subst hd
      exact .inl (h3 he)
    · exact .inr ⟨by rw [← h2 e hd]; exact he, fun q => hd (by cases q; rfl)⟩
  | test g => exact of_step (fun _ => Todo.noConfusion) (testJob_outcomes h g)
  | ingestFinal g => exact of_step (fun _ => Todo.noConfusion) (ingestFinalised_outcomes h g)
  | start i => exact of_step (fun _ => Todo.noConfusion) (testStart_outcomes h i)

end Sys2Proof.Machine
end

