-- ==== Sys2Proof/Proofs/P14.lean ====
section
/-! Outcomes and verify work lists through each move of a command, and so through each command and step: with the jobs' going forward, the
first two parts of O16. -/

namespace Sys2Proof.Machine

open Sys2Proof

variable {s t : State}

/-! ## The leg of a job on a target -/

theorem legOn_spec {h : Fin 64} {x : Target} {r : LegRef} (e : s.legOn h x = some r) :
    r.job = h ∧ ∃ l, s.leg? r = some l ∧ l.target = x := by
  unfold State.legOn at e
  obtain ⟨j, hj, hm⟩ := Option.bind_eq_some_iff.mp e
  obtain ⟨k, hk, rfl⟩ := Option.map_eq_some_iff.mp hm
  obtain ⟨hlt, hp, -⟩ := List.findIdx?_eq_some_iff_getElem.mp hk
  exact ⟨rfl, j.legs[k], State.leg?_eq_some.mpr ⟨j, hj, List.getElem?_eq_getElem hlt⟩, by simpa using hp⟩

theorem legOnIs_iff {h : Fin 64} {x : Target} {test : LegState → Bool} :
    s.legOnIs h x test = true ↔ ∃ r l, s.legOn h x = some r ∧ s.leg? r = some l ∧ test l.state = true := by
  unfold State.legOnIs
  constructor
  · intro e
    split at e
    · next l hl =>
      obtain ⟨r, hr, hrl⟩ := Option.bind_eq_some_iff.mp hl
      exact ⟨r, l, hr, hrl, e⟩
    · cases e
  · rintro ⟨r, l, hr, hl, ht⟩
    simp [hr, hl, ht]

theorem legOn_congr {s t : State} {h : Fin 64} (e : t.job? h = s.job? h) (x : Target) : t.legOn h x = s.legOn h x := by
  unfold State.legOn
  rw [e]

theorem legOnIs_congr {s t : State} {h : Fin 64} (e : t.job? h = s.job? h) (x : Target) (test : LegState → Bool) :
    t.legOnIs h x test = s.legOnIs h x test := by
  rw [Bool.eq_iff_iff, legOnIs_iff, legOnIs_iff, legOn_congr e]
  constructor
  · rintro ⟨r, l, hr, hl, ht⟩
    exact ⟨r, l, hr, (leg?_of_job? ((legOn_spec hr).1 ▸ e)).symm.trans hl, ht⟩
  · rintro ⟨r, l, hr, hl, ht⟩
    exact ⟨r, l, hr, (leg?_of_job? ((legOn_spec hr).1 ▸ e)).trans hl, ht⟩

/-- The cases of a leg's leaving its target. -/
theorem dropLeg_cases (s : State) (h : Fin 64) (x : Target) (y : LegState) (c : Option LegCause) :
    s.dropLeg h x y c = s ∨ ∃ r l, s.legOn h x = some r ∧ s.leg? r = some l ∧
      ((l.state = .writing ∧ s.dropLeg h x y c = ((s.endLeg r y c).settleJobSlots h x).modWriter x fun w => w.withdraw h) ∨
        ((l.state = .written ∨ l.state = .verifying) ∧ ((∃ d, x = .drive d ∧ s.dropLeg h x y c = (s.endLeg r y c).withdrawVerify d h) ∨
          (x = .sink ∧ s.dropLeg h x y c = s.endLeg r y c)))) := by
  unfold State.dropLeg
  split
  · exact .inl rfl
  · next r hr =>
    split
    · next hw =>
      obtain ⟨q, l, hq, hl, ht⟩ := legOnIs_iff.mp hw
      rw [hr] at hq
      cases hq
      exact .inr ⟨r, l, hr, hl, .inl ⟨by simpa using ht, rfl⟩⟩
    · split
      · next hw =>
        obtain ⟨q, l, hq, hl, ht⟩ := legOnIs_iff.mp hw
        rw [hr] at hq
        cases hq
        refine .inr ⟨r, l, hr, hl, .inr ⟨by simpa using ht, ?_⟩⟩
        cases x with
        | drive d => exact .inl ⟨d, rfl, rfl⟩
        | sink => exact .inr ⟨rfl, rfl⟩
      · exact .inl rfl

theorem withdrawVerify_job? (s : State) (d : Fin 6) (h k : Fin 64) : (s.withdrawVerify d h).job? k = s.job? k :=
  State.job?_congr (withdrawVerify_jobs s d h) k

theorem dropLeg_others (s : State) (h k : Fin 64) (x : Target) (y : LegState) (c : Option LegCause) (hk : k ≠ h) :
    (s.dropLeg h x y c).job? k = s.job? k := by
  rcases dropLeg_cases s h x y c with e | ⟨r, l, hr, -, ⟨-, e⟩ | ⟨-, ⟨d, -, e⟩ | ⟨-, e⟩⟩⟩ <;> rewrite [e]
  · rfl
  · exact (State.job?_endLeg s r k y c).trans (if_neg (by rw [(legOn_spec hr).1]; exact Ne.symm hk))
  · rw [withdrawVerify_job?, State.job?_endLeg, if_neg (by rw [(legOn_spec hr).1]; exact Ne.symm hk)]
  · rw [State.job?_endLeg, if_neg (by rw [(legOn_spec hr).1]; exact Ne.symm hk)]

theorem dropLeg_outcomes (h : s.outcomesOk) (g : Fin 64) (x : Target) {y : LegState} (c : Option LegCause) (hy : y.terminal = true) :
    (s.dropLeg g x y c).outcomesOk ∧ ∀ e, (s.dropLeg g x y c).headState e = s.headState e ∨
      (x = .drive e ∧ s.legOnIs g x (fun z => decide (z = .writing)) = false) := by
  rcases dropLeg_cases s g x y c with e | ⟨r, l, hr, hl, hc⟩
  · rewrite [e]
    exact ⟨h, fun _ => .inl rfl⟩
  obtain ⟨hrg, l', hl', ht⟩ := legOn_spec hr
  rw [hl] at hl'
  cases hl'
  have hidle : ∀ m, s.leg? r = some m → l.state ≠ .idle → m.state ≠ .idle := fun m hm hi => by
    rw [hl] at hm
    cases hm
    exact hi
  rcases hc with ⟨hs, e⟩ | ⟨hs, hc⟩
  · rewrite [e]
    obtain ⟨h1, h2⟩ := endLeg_outcomes h r y c hy (fun m hm => hidle m hm (by rw [hs]; decide))
      (h.not_mem_work hl (by rw [hs]; decide))
    exact ⟨h1.of_view rfl, fun e => .inl ((headState_of_view rfl e).trans (h2 e))⟩
  · have hni : l.state ≠ .idle := by rcases hs with hs | hs <;> rw [hs] <;> decide
    rcases hc with ⟨d, hx, e⟩ | ⟨hx, e⟩ <;> rewrite [e]
    · subst hx
      have hwork : ∀ e : Fin 6, (((s.endLeg r y c).withdrawVerify d g).readers[e.val]).work =
          if d = e then (s.readers[d.val]).work.filter (fun r => r.job != g) else (s.readers[e.val]).work :=
        fun e => withdrawVerify_work (s.endLeg r y c) d e g
      have hleg : ∀ (e : Fin 6) q, q ∈ (((s.endLeg r y c).withdrawVerify d g).readers[e.val]).work →
          ((s.endLeg r y c).withdrawVerify d g).leg? q = s.leg? q := by
        intro e q hq
        rw [State.leg?_congr (withdrawVerify_jobs _ d g), State.leg?_endLeg, if_neg]
        rintro rfl
        rw [hwork] at hq
        split at hq
        · simp [hrg] at hq
        · next hne =>
          obtain ⟨m, hm, htm, -⟩ := h.work hq
          rw [hl] at hm
          cases hm
          rw [ht] at htm
          cases htm
          exact hne rfl
      refine ⟨h.change (fun k q hq => ?_) (fun e => ?_) fun e q m hq hm hin => ⟨m, (hleg e q hq).trans hm, hin⟩, fun e => ?_⟩
      · rw [withdrawVerify_job?, State.job?_endLeg] at hq
        split at hq
        · next e =>
          subst e
          obtain ⟨j, hj, rfl⟩ := Option.map_eq_some_iff.mp hq
          refine (h.1 _ j hj).modify _ _ fun m hm => ⟨Leg.advancesTo_end m y c _ hy, fun e => ?_⟩
          exact absurd e (hidle m (State.leg?_eq_some.mpr ⟨j, hj, hm⟩) hni)
        · exact h.1 k q hq
      · rw [hwork]
        split
        · next e => subst e; exact List.filter_sublist
        · exact List.Sublist.refl _
      · by_cases he : d = e
        · subst he
          refine .inr ⟨rfl, ?_⟩
          rw [Bool.eq_false_iff]
          intro q
          obtain ⟨r', l', hr', hl', hs'⟩ := legOnIs_iff.mp q
          rw [hr] at hr'
          cases hr'
          rw [hl] at hl'
          cases hl'
          rcases hs with hs | hs <;> simp [hs] at hs'
        · have hw : (((s.endLeg r y c).withdrawVerify d g).readers[e.val]).work = (s.readers[e.val]).work := by rw [hwork, if_neg he]
          exact .inl (headState_congr hw fun q hq => hleg e q (by rw [hw]; exact hq))
    · subst hx
      obtain ⟨h1, h2⟩ := endLeg_outcomes h r y c hy (fun m hm => hidle m hm hni) fun d hd => by
        obtain ⟨m, hm, htm, -⟩ := h.work hd
        rw [hl] at hm
        cases hm
        rw [ht] at htm
        cases htm
      exact ⟨h1, fun e => .inl (h2 e)⟩

/-! ## Folds over jobs -/

/-- What a step on one job after another keeps, where each step changes its own job alone and acts on it as it stood. -/
theorem foldl_handles (P : State → Prop) (C : Option Job → Fin 64 → Prop) (f : State → Fin 64 → State)
    (ho : ∀ s h k, k ≠ h → (f s h).job? k = s.job? k) (hf : ∀ s h, P s → C (s.job? h) h → P (f s h)) :
    ∀ (l : List (Fin 64)) (s : State), l.Nodup → (∀ h ∈ l, C (s.job? h) h) → P s → P (l.foldl f s)
  | [], _, _, _, hs => hs
  | h :: rest, s, hn, hc, hs => by
    obtain ⟨hnot, hn⟩ := List.nodup_cons.mp hn
    refine foldl_handles P C f ho hf rest _ hn (fun k hk => ?_) (hf s h hs (hc h List.mem_cons_self))
    rw [ho s h k (fun e => hnot (e ▸ hk))]
    exact hc k (List.mem_cons_of_mem _ hk)

theorem allHandles_nodup : allHandles.Nodup :=
  List.nodup_finRange 64

theorem mem_allHandles (h : Fin 64) : h ∈ allHandles :=
  List.mem_finRange h

theorem jobsWithLeg_nodup (s : State) (x : Target) (test : LegState → Bool) : (s.jobsWithLeg x test).Nodup :=
  allHandles_nodup.filter _

theorem mem_jobsWithLeg {x : Target} {test : LegState → Bool} {h : Fin 64} :
    h ∈ s.jobsWithLeg x test ↔ s.legOnIs h x test = true := by
  simp [State.jobsWithLeg, mem_allHandles]

theorem loadedJobs_nodup (s : State) (i : Fin 8) : (s.loadedJobs i).Nodup :=
  allHandles_nodup.filter _

theorem mem_loadedJobs {i : Fin 8} {h : Fin 64} : h ∈ s.loadedJobs i ↔ ∃ j, s.job? h = some j ∧ j.port = i ∧ j.state = .loaded := by
  unfold State.loadedJobs
  rw [List.mem_filter]
  cases hj : s.job? h with
  | none => simp
  | some j => simp [mem_allHandles]

theorem endLoaded_others (s : State) (o : JobState) (c : JobCause) (h k : Fin 64) (hk : k ≠ h) : (s.endLoaded o c h).job? k = s.job? k := by
  unfold State.endLoaded
  rw [abandonLegs_job?, if_neg (Ne.symm hk), finishJob_job?, if_neg (Ne.symm hk)]

/-! ## Moves -/

theorem OutStep.of_same {l : List Todo} (h : s.outcomesOk) (hj : t.jobs = s.jobs)
    (hr : ∀ d : Fin 6, (t.readers[d.val]).work = (s.readers[d.val]).work) : OutStep s t l :=
  have := h.change_jobs (t := t) hr (fun g k hk => ⟨k, by rw [← State.job?_congr hj]; exact hk, rfl, id⟩)
    fun g j hj' => by rw [State.job?_congr hj, hj']; rfl
  .of_heads this.1 this.2

theorem OutStep.after_same {u : State} {l : List Todo} (hj : t.jobs = s.jobs)
    (hr : ∀ d : Fin 6, (t.readers[d.val]).work = (s.readers[d.val]).work) (h : s.outcomesOk) (g : t.outcomesOk → OutStep t u l) :
    OutStep s u l :=
  have a : OutStep s t [] := .of_same h hj hr
  a.then (g a.outcomes)

theorem count_outcomes {l : List Todo} (h : s.outcomesOk) (g : Fin 64) (f : Job → Job)
    (hf : ∀ j, s.job? g = some j → (f j).legs = j.legs ∧ (f j).state = j.state) : OutStep s (s.count g f) l := by
  have := modJob_outcomes h g (fun j => if j.state.terminal then j else f j) fun j hj => by
    split
    · exact ⟨rfl, id⟩
    · next ht =>
      obtain ⟨h1, h2⟩ := hf j hj
      exact ⟨h1, fun o => o.of_legs h1 (by rw [h2]; simpa using ht) fun e => by rw [← h2]; exact e⟩
  exact .of_heads this.1 this.2

theorem clearSession_job? (s : State) (i : Fin 8) (h : Fin 64) :
    (s.clearSession i).job? h = (s.job? h).map fun j => if j.port = i then { j with session := false } else j := by
  simp [State.clearSession, State.job?]

theorem clearSession_outcomes {l : List Todo} (h : s.outcomesOk) (i : Fin 8) : OutStep s (s.clearSession i) l := by
  have := h.change_jobs (t := s.clearSession i) (fun _ => rfl) (fun g k hk => by
    rw [clearSession_job?] at hk
    obtain ⟨j, hj, rfl⟩ := Option.map_eq_some_iff.mp hk
    refine ⟨j, hj, ?_, fun o => ?_⟩
    · split <;> rfl
    · split
      · exact o.congr rfl rfl rfl rfl rfl
      · exact o) fun g j hj => by
    rw [clearSession_job?, hj]
    rfl
  exact .of_heads this.1 this.2

theorem sourceLost_outcomes (h : s.outcomesOk) (i : Fin 8) : OutStep s (s.sourceLost i).1 (s.sourceLost i).2 := by
  have h1 : OutStep s ((s.loadedJobs i).foldl (State.endLoaded · .failed .sourceLost ·) s) [] := by
    refine foldl_handles (fun t => OutStep s t []) (fun e _ => ∀ j, e = some j → j.state = .loaded) _
      (fun s h k hk => endLoaded_others s _ _ h k hk) (fun t g ht hc => ?_) _ _ (loadedJobs_nodup s i) (fun g hg j hj => ?_) (.refl h _)
    · exact ht.then (endLoaded_outcomes ht.outcomes g (.inl rfl) _ hc)
    · obtain ⟨j', hj', -, hl⟩ := mem_loadedJobs.mp hg
      rw [hj] at hj'
      cases hj'
      exact hl
  unfold State.sourceLost
  dsimp only
  refine h1.then ?_
  generalize (s.loadedJobs i).foldl (State.endLoaded · .failed .sourceLost ·) s = u at h1
  refine OutStep.after_same (t := u.modIngest i fun p => { p with lineUp := [] }) rfl (fun _ => rfl) h1.outcomes fun hu => ?_
  split
  · exact tearJob_outcomes hu _ (.inl rfl) _
  · exact .refl hu _

theorem queueSlot_jobs (s : State) (num : Nat) (h : Fin 64) (owed : List Target) : (s.queueSlot num h owed).jobs = s.jobs :=
  view_jobs (queueSlot_view s num h owed)

theorem blockArrived_outcomes (h : s.outcomesOk) (i k : Fin 8) (g : Fin 64) (index num : Nat) (data : List Byte) :
    OutStep s (s.blockArrived i k g index num data).1 (s.blockArrived i k g index num data).2 := by
  unfold State.blockArrived
  dsimp only
  generalize hu : ((s.fill num data).setReadTag i k ReadTag.release).queueSlot num g (s.owedAt num) = u
  have huv : u.view = ((s.fill num data).setReadTag i k ReadTag.release).view := by rw [← hu, queueSlot_view]
  generalize hv : (if u.ingestAt g index = true then u.makeReady num else u) = v
  have hvv : v.view = u.view := by
    rw [← hv]
    split <;> rfl
  have hj : v.jobs = s.jobs := (view_jobs hvv).trans ((view_jobs huv).trans rfl)
  have h1 : OutStep s v [] := .of_same h hj fun d => (view_work hvv d).trans ((view_work huv d).trans rfl)
  have h2 := h1.then (count_outcomes (l := []) h1.outcomes g (fun j => { j with arrived := j.arrived + 1 }) fun _ _ => ⟨rfl, rfl⟩)
  split
  · exact h2
  · next j hj =>
    split
    · next hc =>
      have h3 := modJob_outcomes h2.outcomes g (fun j => { j with state := .settling, arrivedAllAt := some v.now }) fun q hq => by
        rw [hj] at hq
        cases hq
        exact ⟨rfl, fun o => Job.outcomeOk_of_running o.1 (.inr rfl)⟩
      have h4 := h2.then (OutStep.of_heads (l := []) h3.1 h3.2)
      exact h4.then (.of_same h4.outcomes rfl fun _ => rfl)
    · exact h2

theorem emptyReader_work (s : State) (x : Target) (e : Fin 6) :
    ((s.emptyReader x).readers[e.val]).work = if x = .drive e then [] else (s.readers[e.val]).work := by
  cases x with
  | sink => rfl
  | drive d =>
    unfold State.emptyReader
    dsimp only
    rw [modReader_work]
    by_cases h : d = e
    · subst h
      simp
    · rw [if_neg h, if_neg (fun q => h (by cases q; rfl))]
      split <;> rfl

theorem emptyReader_outcomes (h : s.outcomesOk) (x : Target) :
    (s.emptyReader x).outcomesOk ∧ ∀ e, (s.emptyReader x).headState e = if x = .drive e then none else s.headState e := by
  obtain ⟨hj, -, -, -⟩ := emptyReader_spec s x
  refine ⟨h.change (fun g k hk => h.1 g k (by rw [← State.job?_congr hj]; exact hk)) (fun e => ?_)
    fun e r l _ hl hin => ⟨l, by rw [State.leg?_congr hj]; exact hl, hin⟩, fun e => ?_⟩
  · rw [emptyReader_work]
    split
    · exact List.nil_sublist _
    · exact List.Sublist.refl _
  · split
    · next hx =>
      unfold State.headState
      rw [emptyReader_work, if_pos hx]
      rfl
    · next hx => exact headState_congr (by rw [emptyReader_work, if_neg hx]) fun r _ => State.leg?_congr hj r

theorem legsLost_outcomes (h : s.outcomesOk) (x : Target) (l : List Todo) :
    OutStep s ((s.dropLegs x LegState.lostWithTarget .failed (some .lost)).emptyReader x) l := by
  have h1 : (s.dropLegs x LegState.lostWithTarget .failed (some .lost)).outcomesOk ∧
      ∀ e, x ≠ .drive e → (s.dropLegs x LegState.lostWithTarget .failed (some .lost)).headState e = s.headState e := by
    unfold State.dropLegs
    refine foldl_inv (fun t : State => t.outcomesOk ∧ ∀ e, x ≠ .drive e → t.headState e = s.headState e) _ (fun t g ht => ?_) _ _
      ⟨h, fun _ _ => rfl⟩
    obtain ⟨a, b⟩ := dropLeg_outcomes ht.1 g x (some .lost) (y := .failed) rfl
    exact ⟨a, fun e he => ((b e).resolve_right fun q => he q.1).trans (ht.2 e he)⟩
  obtain ⟨h2, h3⟩ := emptyReader_outcomes h1.1 x
  refine ⟨h2, fun e he => ?_⟩
  rw [h3] at he
  split at he
  · cases he
  · next hx => exact .inl (by rw [← h1.2 e hx]; exact he)

theorem legsShed_outcomes (h : s.outcomesOk) (x : Target) (l : List Todo) :
    OutStep s (s.dropLegs x (fun y => decide (y = .writing)) .deferred none) l := by
  have h1 : (s.dropLegs x (fun y => decide (y = .writing)) .deferred none).outcomesOk ∧
      ∀ e, (s.dropLegs x (fun y => decide (y = .writing)) .deferred none).headState e = s.headState e := by
    unfold State.dropLegs
    refine foldl_handles (fun t : State => t.outcomesOk ∧ ∀ e, t.headState e = s.headState e)
      (fun j h => ∀ t : State, t.job? h = j → t.legOnIs h x (fun y => decide (y = .writing)) = true) _
      (fun s h k hk => dropLeg_others s h k x _ _ hk) (fun t g ht hc => ?_) _ _ (jobsWithLeg_nodup s x _) (fun g hg t ht => ?_)
      ⟨h, fun _ => rfl⟩
    · obtain ⟨a, b⟩ := dropLeg_outcomes ht.1 g x none (y := .deferred) rfl
      refine ⟨a, fun e => ((b e).resolve_right fun q => ?_).trans (ht.2 e)⟩
      rw [hc t rfl] at q
      exact absurd q.2 (by simp)
    · rw [legOnIs_congr ht]
      exact mem_jobsWithLeg.mp hg
  exact .of_heads h1.1 h1.2

theorem countLeg_outcomes {l : List Todo} (h : s.outcomesOk) (r : LegRef) (g : Leg → Leg) (hg : ∀ m, s.leg? r = some m → m.countsTo (g m)) :
    OutStep s (s.countLeg r g) l := by
  -- where the job is not terminal the record's leg changes; else nothing does
  have he : s.countLeg r g = s ∨ s.countLeg r g = s.modLeg r g := by
    cases hj : s.job? r.job with
    | none =>
      refine .inl ?_
      unfold State.countLeg State.count State.modJob
      rw [setEntry_id _ _ _ (by change (s.job? r.job).map _ = s.job? r.job; rw [hj]; rfl)]
    | some j =>
      by_cases ht : j.state.terminal = true
      · refine .inl ?_
        unfold State.countLeg State.count State.modJob
        rw [setEntry_id _ _ _ (by change (s.job? r.job).map _ = s.job? r.job; rw [hj]; simp [ht])]
      · refine .inr ?_
        unfold State.countLeg State.count State.modLeg State.modJob
        have : setEntry s.jobs r.job (fun e => e.map fun j => if j.state.terminal = true then j else { j with legs := j.legs.modify r.leg g }) =
            setEntry s.jobs r.job (fun e => e.map fun j => { j with legs := j.legs.modify r.leg g }) := by
          unfold setEntry
          have hv : s.jobs[r.job.val] = some j := hj
          rw [hv]
          simp [ht]
        rw [this]
  rcases he with e | e
  · rw [e]
    exact .refl h _
  · rw [e]
    refine .of_heads (modLeg_outcomes h r g (fun m hm => ⟨(hg m hm).advances, fun e => by rw [(hg m hm).state]; exact e⟩)
      fun d m hd hm => ?_) fun d => modLeg_headState s r g d fun m hm => .inl (hg m hm).state
    obtain ⟨q, hq, -, -, hs⟩ := h.work hd
    rw [hm] at hq
    cases hq
    rw [(hg m hm).state]
    exact hs

theorem newLeg_idle {b : LoadBody} : ∀ l ∈ b.legs, l.state = .idle := by
  intro l hl
  obtain ⟨e, -, he⟩ := List.mem_filterMap.mp (show l ∈ b.legs from hl)
  obtain ⟨x, -, rfl⟩ := Option.map_eq_some_iff.mp he
  rfl

theorem loadInto_job? (s : State) (h k : Fin 64) (b : LoadBody) : (s.loadInto h b).job? k = if h = k then some (b.job s.now) else s.job? k :=
  State.job?_setJob s h k _

theorem loadInto_outcomes {l : List Todo} (h : s.outcomesOk) (g : Fin 64) (b : LoadBody) (hn : s.job? g = none)
    (hb : (b.legs.map Leg.target).Nodup) : OutStep s (s.loadInto g b) l := by
  have hne := h.work_job_ne (g := g) fun j hj => by rw [hn] at hj; cases hj
  have ho : ∀ k, k ≠ g → (s.loadInto g b).job? k = s.job? k := fun k hk => by rw [loadInto_job?, if_neg (Ne.symm hk)]
  refine .of_heads (h.change_job (g := g) ho (fun k hk => ?_) (fun _ => List.Sublist.refl _) hne)
    fun e => headState_congr rfl fun r hr => leg?_of_job? (ho _ (hne e r hr))
  rw [loadInto_job?, if_pos rfl] at hk
  cases hk
  exact ⟨hb, fun _ => newLeg_idle, fun (x : JobState.loaded.terminal = true) => (by cases x), fun (x : JobState.loaded = .done) => (by cases x)⟩

theorem release_job? (s : State) (h k : Fin 64) (j : Job) : (s.release h j).job? k = if h = k then none else s.job? k := by
  unfold State.release
  dsimp only
  split <;> exact State.job?_setJob s h k none

theorem release_outcomes {l : List Todo} (h : s.outcomesOk) (g : Fin 64) {j : Job} (hj : s.job? g = some j) (ht : j.state.terminal = true) :
    OutStep s (s.release g j) l := by
  have hne := h.work_job_ne (g := g) fun q hq m hm => by
    rw [hj] at hq
    cases hq
    exact LegState.not_written_of_terminal ((h.1 g j hj).2.2.1 ht m hm)
  have ho : ∀ k, k ≠ g → (s.release g j).job? k = s.job? k := fun k hk => by rw [release_job?, if_neg (Ne.symm hk)]
  have hr : (s.release g j).readers = s.readers := by
    unfold State.release
    dsimp only
    split <;> rfl
  refine .of_heads (h.change_job (g := g) ho (fun k hk => ?_) (fun d => by rw [hr]) fun d r hm => hne d r (by rw [hr] at hm; exact hm))
    fun e => headState_congr (by rw [hr]) fun r hm => leg?_of_job? (ho _ (hne e r hm))
  rw [release_job?, if_pos rfl] at hk
  cases hk

theorem grantIngest_outcomes {l : List Todo} (h : s.outcomesOk) (i : Fin 8) : OutStep s (s.grantIngest i) l := by
  unfold State.grantIngest
  split
  · split
    · exact .refl h _
    · next g k _ _ _ j hj =>
      refine OutStep.after_same (t := s.reserve g j.requested (.ingest j.writingTargets)) rfl (fun _ => rfl) h fun hu => ?_
      have := count_outcomes (l := []) hu g (fun j => { j with requested := j.requested + 1 }) fun _ _ => ⟨rfl, rfl⟩
      exact this.then (.of_same this.outcomes rfl fun _ => rfl)
  · exact .refl h _

theorem Move.outcomes {G : Grounds} {l : List Todo} {f : Bool} (m : Move G s t l f) (h : s.outcomesOk) : OutStep s t l := by
  cases m with
  | quiet hv _ => exact .of_heads (h.of_view hv) (headState_of_view hv)
  | owe => exact .refl h _
  | inserted i m _ =>
    exact OutStep.after_same (t := s.modIngest i fun p => { p with media := some m }) rfl (fun _ => rfl) h fun hu => clearSession_outcomes hu i
  | lost i g _ _ => exact OutStep.after_same (t := s.modIngest i g) rfl (fun _ => rfl) h fun hu => sourceLost_outcomes hu i
  | tagsReset i _ => exact .of_same h rfl fun _ => rfl
  | arrived i k g index num data _ _ => exact blockArrived_outcomes h i k g index num data
  | readGivenUp i k g _ _ =>
    exact OutStep.after_same (t := s.setReadTag i k ReadTag.release) rfl (fun _ => rfl) h fun hu => tearJob_outcomes hu g (.inl rfl) _
  | written r hr =>
    obtain ⟨h1, h2⟩ := legWritten_outcomes h (r := r) fun l hl => by
      unfold State.fullyAcked at hr
      rw [hl] at hr
      split at hr
      · next e _ => cases e; simp only [Bool.and_eq_true, decide_eq_true_eq] at hr; exact hr.1.2
      · cases hr
    exact ⟨h1, fun e he => (h2 e).imp (fun q => by rw [← q]; exact he) id⟩
  | dropped g x c =>
    obtain ⟨h1, h2⟩ := dropLeg_outcomes h g x (some c) (y := .failed) rfl
    refine ⟨h1, fun e he => (h2 e).imp (fun q => by rw [← q]; exact he) fun q => ?_⟩
    rw [q.1]
    exact List.mem_cons_self
  | legsLost x => exact legsLost_outcomes h x _
  | legsShed x => exact legsShed_outcomes h x _
  | counted r g hg => exact countLeg_outcomes h r g hg
  | digested g c _ => exact count_outcomes h g _ fun _ _ => ⟨rfl, rfl⟩
  | verified d r hr =>
    obtain ⟨h1, h2⟩ := verifyFinal_outcomes h hr
    exact ⟨h1, fun e he => (h2 e).imp (fun q => by rw [← q]; exact he) fun q => by rw [q.1]; exact q.2⟩
  | loaded g b hn _ hb => exact loadInto_outcomes h g b hn hb
  | cancelledLoaded g j _ hj hl =>
    have h1 := endLoaded_outcomes h g (.inr rfl : JobState.aborted = .failed ∨ JobState.aborted = .aborted) .cancelled fun q hq => by
      rw [hj] at hq
      cases hq
      exact hl
    exact h1.then (.of_same h1.outcomes rfl fun _ => rfl)
  | cancelled g _ => exact tearJob_outcomes h g (.inr rfl) _
  | released g j _ hj ht => exact release_outcomes h g hj ht
  | region d r _ _ => exact .of_same h rfl fun _ => rfl
  | granted i _ => exact grantIngest_outcomes h i

theorem announceJob_outcomes {l : List Todo} (h : s.outcomesOk) (g : Fin 64) : OutStep s (s.announceJob g) l := by
  rcases announceJob_cases s g with e | ⟨j, -, -, -, e⟩ <;> rw [e]
  · exact .refl h _
  · have := modJob_outcomes h g (fun j => { j with announced := true }) fun _ _ => ⟨rfl, fun o => o.congr rfl rfl rfl rfl rfl⟩
    exact .of_heads (this.1.of_view rfl) fun e => (headState_of_view rfl e).trans (this.2 e)

theorem announce_outcomes (h : s.outcomesOk) : OutStep s s.announce [] :=
  foldl_inv (fun t => OutStep s t []) _ (fun _ g ht => ht.then (announceJob_outcomes ht.outcomes g)) _ _ (.refl h _)

/-- Along a path the outcomes stay sound, and a head that is WRITTEN without having been so is still to be looked at. -/
theorem Path.outcomes {G : Grounds} {l : List Todo} {f : Bool} (p : Path G s t l f) (h : s.outcomesOk) : OutStep s t l := by
  induction p with
  | start => exact .refl h _
  | move _ m ih => exact ih.then (m.outcomes ih.outcomes)
  | @perform u x l f _ ih =>
    obtain ⟨h1, h2⟩ := perform_outcomes ih.outcomes x
    refine ⟨h1, fun e he => ?_⟩
    rw [List.mem_append]
    rcases h2 e he with a | ⟨a, b⟩
    · exact .inr (.inl a)
    · rcases ih.heads e a with c | c
      · exact .inl c
      · exact .inr (.inr ((List.mem_cons.mp c).resolve_left (Ne.symm b)))
  | announce _ ih => exact ih.then (announce_outcomes ih.outcomes)
  | cut _ hn ih => exact absurd ih.outcomes.legsFit hn

theorem step_outcomes (h : s.outcomesOk) (hs : step s = .next t) : t.outcomesOk ∧ (s.headsActive → t.headsActive) := by
  rcases step_path hs with hv | ⟨G, s1, hv, p⟩
  · refine ⟨reset_outcomesOk.of_view hv, fun _ => headsActive_iff.mpr fun d => ?_⟩
    rw [headState_of_view hv d]
    exact headsActive_iff.mp reset_headsActive d
  · obtain ⟨h1, h2⟩ := p.outcomes (h.of_view hv)
    refine ⟨h1, fun ha => headsActive_iff.mpr fun d hd => ?_⟩
    rcases h2 d hd with e | e
    · rw [headState_of_view hv d] at e
      exact headsActive_iff.mp ha d e
    · cases e

/-! ## Jobs go forward -/

theorem Atom.advances {G : Grounds} (a : Atom G s t) (hr : ¬ G.released) : s.advancesTo t := by
  cases a with
  | rest hj _ _ => exact State.advancesTo_of_jobs hj
  | job h g hg => exact modJob_advances s h g fun j hj => (hg j hj).advances
  | place r => exact placeLeg_advances s r
  | finish h o c ho => exact finishJob_advances s h o c ho
  | announce h _ =>
    rcases announceJob_cases s h with e | ⟨j, -, -, -, e⟩ <;> rw [e]
    · exact s.advancesTo_refl
    · exact (modJob_advances s h (fun j => { j with announced := true }) fun j _ => Job.advancesTo_of rfl rfl rfl rfl rfl rfl rfl (Nat.le_refl _)
        (fun _ => ⟨rfl, rfl, rfl⟩) (fun _ => rfl) (fun _ => rfl) (Nat.le_refl _) (Nat.le_refl _) rfl (Nat.le_refl _)
        (fun _ => ⟨rfl, rfl, rfl⟩)).andJobs rfl
  | clear i _ =>
    refine ⟨fun h j hj => ⟨_, by rw [clearSession_job?, hj]; rfl, ?_⟩⟩
    dsimp only
    split
    · exact Job.advancesTo_of rfl rfl rfl rfl rfl rfl rfl (Nat.le_refl _) (fun _ => ⟨rfl, rfl, rfl⟩) (fun _ => rfl) (fun _ => rfl)
        (Nat.le_refl _) (Nat.le_refl _) rfl (Nat.le_refl _) (fun _ => ⟨rfl, rfl, rfl⟩)
    · exact j.advancesTo_refl
  | load h b hn =>
    refine ⟨fun k j hj => ⟨j, ?_, j.advancesTo_refl⟩⟩
    rw [loadInto_job?, if_neg]
    · exact hj
    · rintro rfl
      rw [hn] at hj
      cases hj
  | release _ _ hg _ _ => exact absurd hg hr
  | region d r _ _ => exact State.advancesTo_of_jobs rfl

theorem exec_advances {c : Instr} (hc : c ≠ .releaseJob) (hf : ¬ fullResets c s) (h : exec c s = .next t) : s.advancesTo t := by
  rcases exec_path h with ⟨hr, -⟩ | ⟨s1, hv, p⟩
  · exact absurd hr hf
  · have h1 : s1.advancesTo t := p.atoms.inv (fun t => s1.advancesTo t) (fun _ _ a ih => ih.trans (a.advances hc)) s1.advancesTo_refl
    exact h1.afterJobs (view_jobs hv)

end Sys2Proof.Machine
end

