-- ==== Sys2Proof/Proofs/P15.lean ====
section
/-! The Ingest Sequencers and the Job Table (`State.sequencersOk`). What the sequencers' invariant reads of a job is its seat: the record of a
LOADED or READING job as a sequencer sees it. The invariant is kept along every path of moves but for its last clause, which holds of the
ports whose start is not still to be looked at. -/

namespace Sys2Proof.Machine

open Sys2Proof

/-! ## Seats -/

/-- What an Ingest Sequencer knows of a LOADED or READING job. -/
structure Seat where
  state : JobState
  port : Fin 8
  requested : Nat
  arrived : Nat
  blocks : Nat

/-- The seat of a LOADED or READING job. -/
def Job.seat (j : Job) : Option Seat :=
  if j.state = .loaded ∨ j.state = .reading then some ⟨j.state, j.port, j.requested, j.arrived, j.blocks⟩ else none

/-- The seat of the job of a handle. -/
def State.seat (s : State) (h : Fin 64) : Option Seat :=
  (s.job? h).bind Job.seat

/-- The number of a port's tags that are BUSY for a job. -/
def IngestPort.busyJobs (p : IngestPort) : Nat :=
  ((p.tags.map ReadTag.job?).toList.filter Option.isSome).length

theorem IngestPort.busyReads_eq (p : IngestPort) : p.busyReads = p.busyJobs := by
  unfold IngestPort.busyReads IngestPort.busyJobs
  rw [Vector.toList_map, List.filter_map, List.length_map]
  congr 1
  refine List.filter_congr fun g _ => ?_
  unfold ReadTag.job?
  dsimp only [Function.comp]
  cases g.state <;> rfl

/-- The sequencers' invariant without its last clause. -/
structure State.portsOk (s : State) : Prop where
  reading : ∀ (i : Fin 8) (h : Fin 64), (s.ingest[i.val]).reading = some h → (s.ingest[i.val]).media.isSome = true ∧
    ∃ x, s.seat h = some x ∧ x.state = .reading ∧ x.port = i ∧ x.arrived + (s.ingest[i.val]).busyJobs = x.requested ∧
      x.requested ≤ x.blocks
  alone : ∀ h x, s.seat h = some x → x.state = .reading → (s.ingest[x.port.val]).reading = some h
  busy : ∀ (i k : Fin 8) (h : Fin 64), ((s.ingest[i.val]).tags[k.val]).job? = some h → (s.ingest[i.val]).reading = some h
  lineUp : ∀ i : Fin 8, (s.ingest[i.val]).lineUp.Nodup ∧
    ∀ h ∈ (s.ingest[i.val]).lineUp, ∃ x, s.seat h = some x ∧ x.port = i ∧ x.state = .loaded
  loaded : ∀ h x, s.seat h = some x → x.state = .loaded →
    h ∈ (s.ingest[x.port.val]).lineUp ∧ x.requested = 0 ∧ x.arrived = 0 ∧ (s.ingest[x.port.val]).media.isSome = true

variable {s t : State}

theorem seat_eq_some {h : Fin 64} {x : Seat} : s.seat h = some x ↔
    ∃ j, s.job? h = some j ∧ (j.state = .loaded ∨ j.state = .reading) ∧ x = ⟨j.state, j.port, j.requested, j.arrived, j.blocks⟩ := by
  unfold State.seat Job.seat
  rw [Option.bind_eq_some_iff]
  constructor
  · rintro ⟨j, hj, e⟩
    split at e
    · next hs => exact ⟨j, hj, hs, (Option.some.inj e).symm⟩
    · cases e
  · rintro ⟨j, hj, hs, rfl⟩
    exact ⟨j, hj, if_pos hs⟩

theorem sequencersOk_iff : s.sequencersOk ↔ s.portsOk ∧ ∀ i : Fin 8, (s.ingest[i.val]).reading = none → (s.ingest[i.val]).lineUp = [] := by
  constructor
  · intro h
    refine ⟨⟨fun i g hg => ?_, fun g x hx hs => ?_, fun i k g hk => ?_, fun i => ⟨(h.lineUp i).1, fun g hg => ?_⟩, fun g x hx hs => ?_⟩,
      h.started⟩
    · obtain ⟨hm, j, hj, hp, hs, ha, hb⟩ := h.reading i g hg
      refine ⟨Option.isSome_iff_ne_none.mpr hm, _, seat_eq_some.mpr ⟨j, hj, .inr hs, rfl⟩, hs, hp, ?_, hb⟩
      rw [← IngestPort.busyReads_eq]
      exact ha
    · obtain ⟨j, hj, -, rfl⟩ := seat_eq_some.mp hx
      exact h.alone g j hj hs
    · unfold ReadTag.job? at hk
      split at hk
      · next index slot issued attempt hst =>
        cases hk
        exact h.busy i k _ _ _ _ _ hst
      · cases hk
      · cases hk
    · obtain ⟨j, hj, hp, hs⟩ := (h.lineUp i).2 g hg
      exact ⟨_, seat_eq_some.mpr ⟨j, hj, .inl hs, rfl⟩, hp, hs⟩
    · obtain ⟨j, hj, -, rfl⟩ := seat_eq_some.mp hx
      obtain ⟨a, b, c, d⟩ := h.loaded g j hj hs
      exact ⟨a, b, c, Option.isSome_iff_ne_none.mpr d⟩
  · rintro ⟨h, hst⟩
    refine ⟨fun i g hg => ?_, fun g j hj hs => ?_, fun i k g index slot issued attempt hk => ?_, fun i => ⟨(h.lineUp i).1, fun g hg => ?_⟩,
      fun g j hj hs => ?_, hst⟩
    · obtain ⟨hm, x, hx, hs, hp, ha, hb⟩ := h.reading i g hg
      obtain ⟨j, hj, -, rfl⟩ := seat_eq_some.mp hx
      refine ⟨Option.isSome_iff_ne_none.mp hm, j, hj, hp, hs, ?_, hb⟩
      rw [IngestPort.busyReads_eq]
      exact ha
    · exact h.alone g _ (seat_eq_some.mpr ⟨j, hj, .inr hs, rfl⟩) hs
    · exact h.busy i k g (ReadTag.job?_of_busy hk)
    · obtain ⟨x, hx, hp, hs⟩ := (h.lineUp i).2 g hg
      obtain ⟨j, hj, -, rfl⟩ := seat_eq_some.mp hx
      exact ⟨j, hj, hp, hs⟩
    · obtain ⟨a, b, c, d⟩ := h.loaded g _ (seat_eq_some.mpr ⟨j, hj, .inl hs, rfl⟩) hs
      exact ⟨a, b, c, Option.isSome_iff_ne_none.mp d⟩

/-! ## Steps on seats and ports -/

theorem IngestPort.sameView.busyJobs {p q : IngestPort} (h : p.sameView q) : q.busyJobs = p.busyJobs := by
  have : q.tags.map ReadTag.job? = p.tags.map ReadTag.job? := by
    refine Vector.ext fun k hk => ?_
    rw [Vector.getElem_map, Vector.getElem_map]
    exact h.tags ⟨k, hk⟩
  unfold IngestPort.busyJobs
  rw [this]

theorem IngestPort.sameView.refl (p : IngestPort) : p.sameView p :=
  ⟨rfl, rfl, rfl, fun _ => rfl⟩

/-- Seats and ports as they stood. -/
structure State.sameSeats (s t : State) : Prop where
  seat : ∀ h, t.seat h = s.seat h
  ports : ∀ i : Fin 8, (s.ingest[i.val]).sameView t.ingest[i.val]

theorem State.sameSeats.refl (s : State) : s.sameSeats s :=
  ⟨fun _ => rfl, fun _ => .refl _⟩

theorem IngestPort.sameView.trans {p q r : IngestPort} (a : p.sameView q) (b : q.sameView r) : p.sameView r :=
  ⟨b.media.trans a.media, b.lineUp.trans a.lineUp, b.reading.trans a.reading, fun k => (b.tags k).trans (a.tags k)⟩

theorem State.sameSeats.trans {u : State} (a : s.sameSeats t) (b : t.sameSeats u) : s.sameSeats u :=
  ⟨fun h => (b.seat h).trans (a.seat h), fun i => (a.ports i).trans (b.ports i)⟩

theorem State.sameSeats.of_view (h : t.view = s.view) : s.sameSeats t :=
  ⟨fun g => by rw [State.seat, State.seat, view_job? h], view_ingest h⟩

/-- Seats after a change of jobs that keeps each job's seat, the ports standing. -/
theorem State.sameSeats.of_jobs (hi : t.ingest = s.ingest) (hj : ∀ h, (t.job? h).bind Job.seat = (s.job? h).bind Job.seat) :
    s.sameSeats t :=
  ⟨hj, fun i => by rw [hi]; exact .refl _⟩

theorem modJob_seats (s : State) (h : Fin 64) (g : Job → Job) (hg : ∀ j, s.job? h = some j → (g j).seat = j.seat) :
    s.sameSeats (s.modJob h g) := by
  refine .of_jobs rfl fun k => ?_
  rw [State.job?_modJob]
  split
  · next e =>
    subst e
    cases hj : s.job? h with
    | none => rfl
    | some j => simpa [hj] using hg j hj
  · rfl

theorem State.portsOk.of_same (h : s.portsOk) (e : s.sameSeats t) : t.portsOk := by
  have hr : ∀ i : Fin 8, (t.ingest[i.val]).reading = (s.ingest[i.val]).reading := fun i => (e.ports i).reading
  have hl : ∀ i : Fin 8, (t.ingest[i.val]).lineUp = (s.ingest[i.val]).lineUp := fun i => (e.ports i).lineUp
  have hm : ∀ i : Fin 8, (t.ingest[i.val]).media.isSome = (s.ingest[i.val]).media.isSome := fun i => (e.ports i).media
  have hb : ∀ i : Fin 8, (t.ingest[i.val]).busyJobs = (s.ingest[i.val]).busyJobs := fun i => (e.ports i).busyJobs
  constructor
  · intro i g
    rw [hr, hm, hb, e.seat]
    exact h.reading i g
  · intro g x
    rw [hr, e.seat]
    exact h.alone g x
  · intro i k g
    rw [hr, (e.ports i).tags]
    exact h.busy i k g
  · intro i
    rw [hl]
    refine ⟨(h.lineUp i).1, fun g => ?_⟩
    rw [e.seat]
    exact (h.lineUp i).2 g
  · intro g x
    rw [e.seat, hl, hm]
    exact h.loaded g x

/-- A port of which a job has lost its place: its reading has ended, or its line-up lacks the job. -/
structure IngestPort.dropped (h : Fin 64) (p q : IngestPort) : Prop where
  media : q.media.isSome = p.media.isSome
  reading : q.reading = if p.reading = some h then none else p.reading
  lineUp : q.lineUp = if p.reading = some h then p.lineUp else p.lineUp.filter fun x => x != h
  tags : ∀ k : Fin 8, (q.tags[k.val]).job? = if p.reading = some h then none else (p.tags[k.val]).job?

/-- A job that has given up its seat, on the port on which it was read or waited. -/
theorem State.portsOk.unseat (hs : s.portsOk) {h : Fin 64} (hseat : ∀ k, t.seat k = if h = k then none else s.seat k) {p : Fin 8}
    (hp : ∀ x, s.seat h = some x → x.port = p) (hd : (s.ingest[p.val]).dropped h t.ingest[p.val])
    (ho : ∀ i : Fin 8, i ≠ p → (s.ingest[i.val]).sameView t.ingest[i.val]) : t.portsOk := by
  have hread : ∀ i : Fin 8, ∀ g, (t.ingest[i.val]).reading = some g → (s.ingest[i.val]).reading = some g ∧ g ≠ h ∧
      (t.ingest[i.val]).busyJobs = (s.ingest[i.val]).busyJobs := by
    intro i g hg
    by_cases hi : i = p
    · subst hi
      rw [hd.reading] at hg
      split at hg
      · cases hg
      · next hn =>
        refine ⟨hg, fun e => hn (e ▸ hg), ?_⟩
        have : (t.ingest[i.val]).tags.map ReadTag.job? = (s.ingest[i.val]).tags.map ReadTag.job? := by
          refine Vector.ext fun k hk => ?_
          have := hd.tags ⟨k, hk⟩
          rw [if_neg hn] at this
          simpa using this
        unfold IngestPort.busyJobs
        rw [this]
    · rw [(ho i hi).reading] at hg
      refine ⟨hg, ?_, (ho i hi).busyJobs⟩
      rintro rfl
      obtain ⟨-, x, hx, -, hxi, -⟩ := hs.reading i g hg
      exact hi ((hp x hx ▸ hxi).symm)
  have hmedia : ∀ i : Fin 8, (t.ingest[i.val]).media.isSome = (s.ingest[i.val]).media.isSome := by
    intro i
    by_cases hi : i = p
    · subst hi; exact hd.media
    · exact (ho i hi).media
  have hold : ∀ k x, t.seat k = some x → h ≠ k ∧ s.seat k = some x := by
    intro k x hx
    rw [hseat] at hx
    split at hx
    · cases hx
    · next hn => exact ⟨hn, hx⟩
  have hnew : ∀ k x, k ≠ h → s.seat k = some x → t.seat k = some x := fun k x hk hx => by rw [hseat, if_neg (Ne.symm hk), hx]
  constructor
  · intro i g hg
    obtain ⟨hg', hne, hb⟩ := hread i g hg
    obtain ⟨hm, x, hx, h1, h2, h3, h4⟩ := hs.reading i g hg'
    exact ⟨by rw [hmedia]; exact hm, x, hnew g x hne hx, h1, h2, by rw [hb]; exact h3, h4⟩
  · intro g x hx hst
    obtain ⟨hne, hx'⟩ := hold g x hx
    have hr := hs.alone g x hx' hst
    by_cases hi : x.port = p
    · subst hi
      rw [hd.reading, if_neg]
      · exact hr
      · rw [hr]
        exact fun e => hne (Option.some.inj e).symm
    · rw [(ho _ hi).reading]
      exact hr
  · intro i k g hk
    by_cases hi : i = p
    · subst hi
      rw [hd.tags] at hk
      split at hk
      · cases hk
      · next hn =>
        rw [hd.reading, if_neg hn]
        exact hs.busy i k g hk
    · rw [(ho i hi).tags] at hk
      rw [(ho i hi).reading]
      exact hs.busy i k g hk
  · intro i
    have hsub : ((t.ingest[i.val]).lineUp).Sublist (s.ingest[i.val]).lineUp := by
      by_cases hi : i = p
      · subst hi
        rw [hd.lineUp]
        split
        · exact List.Sublist.refl _
        · exact List.filter_sublist
      · rw [(ho i hi).lineUp]
    refine ⟨(hs.lineUp i).1.sublist hsub, fun g hg => ?_⟩
    obtain ⟨x, hx, hxp, hxs⟩ := (hs.lineUp i).2 g (hsub.subset hg)
    refine ⟨x, hnew g x ?_ hx, hxp, hxs⟩
    rintro rfl
    have hip : i = p := hxp.symm.trans (hp x hx)
    subst hip
    rw [hd.lineUp] at hg
    split at hg
    · next hr =>
      obtain ⟨-, y, hy, hys, -⟩ := hs.reading i g hr
      rw [hx] at hy
      cases hy
      rw [hxs] at hys
      cases hys
    · simp at hg
  · intro g x hx hst
    obtain ⟨hne, hx'⟩ := hold g x hx
    obtain ⟨h1, h2, h3, h4⟩ := hs.loaded g x hx' hst
    refine ⟨?_, h2, h3, by rw [hmedia]; exact h4⟩
    by_cases hi : x.port = p
    · subst hi
      rw [hd.lineUp]
      split
      · exact h1
      · exact List.mem_filter.mpr ⟨h1, by simpa using Ne.symm hne⟩
    · rw [(ho _ hi).lineUp]
      exact h1

/-! ## Ends of jobs -/

/-- A port after the end of a job that it read or that stood in its line-up (R53). -/
def IngestPort.dropJob (h : Fin 64) (p : IngestPort) : IngestPort :=
  if p.reading = some h then { p with reading := none, tags := p.tags.map ReadTag.abandon }
  else { p with lineUp := p.lineUp.filter fun x => x != h }

theorem ReadTag.abandon_job? (g : ReadTag) : g.abandon.job? = none := by
  unfold ReadTag.abandon
  cases hs : g.state with
  | free => simp [ReadTag.job?, hs]
  | busy h index slot issued attempt => rfl
  | abandoned issued => simp [ReadTag.job?, hs]

theorem IngestPort.dropJob_dropped (h : Fin 64) (p : IngestPort) : p.dropped h (p.dropJob h) := by
  unfold IngestPort.dropJob
  split
  · next e => exact ⟨rfl, (if_pos e).symm, (if_pos e).symm, fun k => by rw [if_pos e]; simp [ReadTag.abandon_job?]⟩
  · next e => exact ⟨rfl, (if_neg e).symm, (if_neg e).symm, fun k => by rw [if_neg e]⟩

theorem dropReading_ingest {h : Fin 64} {j : Job} (hj : s.job? h = some j) :
    (s.dropReading h).ingest = setEntry s.ingest j.port (IngestPort.dropJob h) := by
  unfold State.dropReading
  rw [hj]
  dsimp only
  have he : ∀ g : IngestPort → IngestPort, g s.ingest[j.port.val] = IngestPort.dropJob h s.ingest[j.port.val] →
      setEntry s.ingest j.port g = setEntry s.ingest j.port (IngestPort.dropJob h) := by
    intro g hg
    unfold setEntry
    rw [hg]
  split
  · next hr => exact he (fun p => { p with reading := none, tags := p.tags.map ReadTag.abandon }) (if_pos hr).symm
  · next hr => exact he (fun p => { p with lineUp := p.lineUp.filter fun x => x != h }) (if_neg hr).symm

theorem finishJob_ingest (s : State) (h : Fin 64) (o : JobState) (c : Option JobCause) : (s.finishJob h o c).ingest = s.ingest := by
  unfold State.finishJob
  split
  · rfl
  · split
    · rfl
    · dsimp only
      split <;> rfl

theorem withdrawVerify_ingest (s : State) (d : Fin 6) (h : Fin 64) : (s.withdrawVerify d h).ingest = s.ingest := by
  unfold State.withdrawVerify
  dsimp only
  split
  · rfl
  · split <;> rfl

theorem Job.finished_port (now : Tick) (o : JobState) (c : Option JobCause) (j : Job) : (j.finished now o c).port = j.port := by
  unfold Job.finished
  split <;> rfl

theorem teardown_ingest {h : Fin 64} {j : Job} (hj : s.job? h = some j) (o : JobState) (c : JobCause) :
    (s.teardown h o c).ingest = setEntry s.ingest j.port (IngestPort.dropJob h) := by
  have hj1 : ((s.finishJob h o (some c)).abandonLegs h).job? h = some ((j.finished s.now o (some c)).abandoned s.now) := by
    rw [abandonLegs_job?, if_pos rfl, finishJob_job?, if_pos rfl, hj, finishJob_now]
    rfl
  have hd := dropReading_ingest hj1
  unfold State.teardown
  dsimp only
  rw [foldl_keeps State.ingest (fun (s : State) d => s.withdrawVerify d h) (fun s d => withdrawVerify_ingest s d h),
    foldl_keeps State.ingest (fun (s : State) x => s.modWriter x fun w => w.withdraw h) (fun _ _ => rfl)]
  refine Eq.trans (b := (((s.finishJob h o (some c)).abandonLegs h).dropReading h).ingest) rfl (hd.trans ?_)
  rw [show ((j.finished s.now o (some c)).abandoned s.now).port = j.port from Job.finished_port _ _ _ _]
  rw [show ((s.finishJob h o (some c)).abandonLegs h).ingest = s.ingest from finishJob_ingest s h o _]

theorem Job.seat_of_terminal {j : Job} (h : j.state.terminal = true) : j.seat = none := by
  unfold Job.seat
  rw [if_neg]
  rintro (e | e) <;> rw [e] at h <;> cases h

theorem teardown_portsOk (hs : s.portsOk) {h : Fin 64} {j : Job} (hj : s.job? h = some j) {o : JobState} (ho : o.terminal = true) (c : JobCause) :
    (s.teardown h o c).portsOk := by
  have hi := teardown_ingest hj o c
  refine hs.unseat (h := h) (p := j.port) (fun k => ?_) (fun x hx => ?_) ?_ fun i hi' => ?_
  · unfold State.seat
    rw [teardown_job?]
    split
    · rw [hj]
      exact Job.seat_of_terminal (Job.torn_terminal _ ho _ _)
    · rfl
  · obtain ⟨q, hq, -, rfl⟩ := seat_eq_some.mp hx
    rw [hj] at hq
    cases hq
    rfl
  · rw [hi, setEntry_same]
    exact IngestPort.dropJob_dropped h _
  · rw [hi, setEntry_other _ _ _ _ (Ne.symm hi')]
    exact .refl _

/-- The invariant along a path: the last clause holds of each port whose start is not still to be looked at. -/
structure State.seqOk (s : State) (l : List Todo) : Prop where
  ports : s.portsOk
  started : ∀ i : Fin 8, (s.ingest[i.val]).reading = none → (s.ingest[i.val]).lineUp = [] ∨ .start i ∈ l

theorem State.seqOk.of_same {l : List Todo} (h : s.seqOk l) (e : s.sameSeats t) (m : List Todo) : t.seqOk (m ++ l) :=
  ⟨h.ports.of_same e, fun i hr => by
    rw [(e.ports i).reading] at hr
    rw [(e.ports i).lineUp]
    exact (h.started i hr).imp id (List.mem_append_right m)⟩

/-- One port's start is to be looked at; the others read and wait as they did. -/
theorem State.seqOk.of_port {l m : List Todo} (h : s.seqOk l) (hp : t.portsOk) {p : Fin 8} (hm : .start p ∈ m)
    (ho : ∀ i : Fin 8, i ≠ p → (s.ingest[i.val]).sameView t.ingest[i.val]) : t.seqOk (m ++ l) :=
  ⟨hp, fun i hr => by
    by_cases hi : i = p
    · exact .inr (List.mem_append_left _ (hi ▸ hm))
    · rw [(ho i hi).reading] at hr
      rw [(ho i hi).lineUp]
      exact (h.started i hr).imp id (List.mem_append_right m)⟩

theorem tearJob_seqOk {l : List Todo} (hs : s.seqOk l) (h : Fin 64) {o : JobState} (ho : o.terminal = true) (c : JobCause) :
    (s.tearJob h o c).1.seqOk ((s.tearJob h o c).2 ++ l) := by
  rcases tearJob_cases s h o c with ⟨e, -⟩ | ⟨j, hj, -, e⟩ <;> rewrite [e] <;> dsimp only
  · exact hs
  · refine hs.of_port (teardown_portsOk hs.ports hj ho c) (p := j.port) (by simp [afterTeardown]) fun i hi => ?_
    rw [teardown_ingest hj, setEntry_other _ _ _ _ (Ne.symm hi)]
    exact .refl _

/-! ## Operations that touch no seat -/

theorem modLeg_seats (s : State) (r : LegRef) (g : Leg → Leg) : s.sameSeats (s.modLeg r g) :=
  modJob_seats s r.job _ fun _ _ => rfl

theorem compareLeg_seats (s : State) (d : Fin 6) (r : LegRef) : s.sameSeats (s.compareLeg d r).1 := by
  rcases compareLeg_cases s d r with e | ⟨l, j, v, g, -, -, -, -, -, e⟩ <;> rw [e]
  · exact .refl s
  · exact (modLeg_seats s r _).trans (.of_jobs rfl fun _ => rfl)

theorem verifyFinal_seats (s : State) (d : Fin 6) (r : LegRef) : s.sameSeats (s.verifyFinal d r).1 := by
  rcases verifyFinal_cases s d r with e | ⟨j, -, -, e⟩ <;> rw [e]
  · exact .refl s
  · exact (modLeg_seats s r _).trans (compareLeg_seats _ d r)

theorem activateHead_seats (s : State) (d : Fin 6) : s.sameSeats (s.activateHead d).1 := by
  rcases activateHead_cases s d with e | ⟨r, rest, l, j, -, -, -, -, ⟨-, e⟩ | ⟨-, e⟩⟩ <;> rw [e]
  · exact .refl s
  · exact modLeg_seats s r _
  · exact (modLeg_seats s r _).trans (verifyFinal_seats _ d r)

theorem legWritten_seats (s : State) (r : LegRef) : s.sameSeats (s.legWritten r).1 := by
  rcases legWritten_cases s r with ⟨-, e⟩ | ⟨l, -, ⟨d, -, -, e⟩ | ⟨-, e⟩⟩ <;> rw [e]
  · exact .refl s
  · exact (modLeg_seats s r _).trans (.of_jobs rfl fun _ => rfl)
  · exact (modLeg_seats s r _).trans (modLeg_seats _ r _)

theorem writtenIfWriting_seats (s : State) (r : LegRef) : s.sameSeats (s.writtenIfWriting r).1 := by
  rcases writtenIfWriting_cases s r with e | ⟨l, -, -, e⟩ <;> rw [e]
  · exact .refl s
  · exact legWritten_seats s r

theorem compareWaiting_seats (s : State) (r : LegRef) : s.sameSeats (s.compareWaiting r) := by
  rcases compareWaiting_cases s r with e | ⟨l, d, -, -, e⟩ <;> rw [e]
  · exact .refl s
  · exact compareLeg_seats s d r

theorem withdrawVerify_seats (s : State) (d : Fin 6) (h : Fin 64) : s.sameSeats (s.withdrawVerify d h) :=
  .of_jobs (withdrawVerify_ingest s d h) fun k => by rw [withdrawVerify_job?]

theorem dropLeg_seats (s : State) (h : Fin 64) (x : Target) (y : LegState) (c : Option LegCause) : s.sameSeats (s.dropLeg h x y c) := by
  rcases dropLeg_cases s h x y c with e | ⟨r, l, -, -, ⟨-, e⟩ | ⟨-, ⟨d, -, e⟩ | ⟨-, e⟩⟩⟩ <;> rewrite [e]
  · exact .refl s
  · exact (modLeg_seats s r _).trans (.of_view rfl)
  · exact (modLeg_seats s r _).trans (withdrawVerify_seats _ d h)
  · exact modLeg_seats s r _

theorem emptyReader_ingest (s : State) (x : Target) : (s.emptyReader x).ingest = s.ingest := by
  cases x with
  | sink => rfl
  | drive d =>
    unfold State.emptyReader
    dsimp only
    split <;> rfl

theorem emptyReader_seats (s : State) (x : Target) : s.sameSeats (s.emptyReader x) :=
  .of_jobs (emptyReader_ingest s x) fun k => by rw [State.job?_congr (emptyReader_spec s x).1]

theorem foldl_seats {β : Type} (g : State → β → State) (hg : ∀ s b, State.sameSeats s (g s b)) (l : List β) (s : State) :
    s.sameSeats (l.foldl g s) :=
  foldl_inv (fun t => s.sameSeats t) g (fun t b h => h.trans (hg t b)) l s (.refl s)

theorem eachLeg_seats (l : List LegRef) (s : State) : s.sameSeats (eachLeg State.writtenIfWriting l s).1 :=
  eachLeg_inv (fun t => s.sameSeats t) (fun t r h => h.trans (writtenIfWriting_seats t r)) l s (.refl s)

theorem finaliseIngest_seats (s : State) (h : Fin 64) : s.sameSeats (s.finaliseIngest h) :=
  modJob_seats s h _ fun _ _ => rfl

/-- A SETTLING or terminal job that ends has no seat to give up. -/
theorem finishJob_seats (s : State) (h : Fin 64) {o : JobState} (ho : o.terminal = true) (c : Option JobCause)
    (hs : ∀ j, s.job? h = some j → j.seat = none) : s.sameSeats (s.finishJob h o c) := by
  refine .of_jobs (finishJob_ingest s h o c) fun k => ?_
  rw [finishJob_job?]
  split
  · next e =>
    subst e
    cases hj : s.job? h with
    | none => rfl
    | some j =>
      rw [Option.map_some, Option.bind_some, Option.bind_some, hs j hj]
      exact Job.seat_of_terminal (Job.finished_terminal _ ho _ _)
  · rfl

theorem testJob_seqOk {l : List Todo} (hs : s.seqOk l) (h : Fin 64) : (s.testJob h).1.seqOk ((s.testJob h).2 ++ l) := by
  have hend : ∀ j, s.job? h = some j → j.finalisable = true → ∀ o c, JobState.terminal o = true → (s.finishJob h o c).seqOk l := by
    intro j hj hf o c ho
    refine hs.of_same (finishJob_seats s h ho c fun q hq => ?_) []
    rw [hj] at hq
    cases hq
    obtain ⟨e, -⟩ := finalisable_spec hf
    simp [Job.seat, e]
  rcases testJob_cases s h with ⟨e, -⟩ | ⟨j, hj, -, ⟨-, e⟩ | ⟨-, hf, -, e⟩ | ⟨-, hf, -, e⟩⟩ <;> rewrite [e]
  · exact hs
  · exact tearJob_seqOk hs h rfl _
  · exact hend j hj hf _ _ rfl
  · exact hend j hj hf _ _ rfl

theorem ingestFinalised_seqOk {l : List Todo} (hs : s.seqOk l) (h : Fin 64) : (s.ingestFinalised h).1.seqOk ((s.ingestFinalised h).2 ++ l) := by
  have h1 := hs.of_same (finaliseIngest_seats s h) []
  rcases ingestFinalised_cases s h with ⟨e, -⟩ | ⟨j, hj, ht, ⟨-, e⟩ | ⟨-, e⟩⟩ <;> rewrite [e]
  · exact hs
  · exact h1.of_same (foldl_seats _ compareWaiting_seats _ _) _
  · exact tearJob_seqOk h1 h rfl _

end Sys2Proof.Machine
end

