-- ==== Sys2Proof/Proofs/P16.lean ====
section
/-! The Ingest Sequencers and the Job Table through starts, arrivals, losses, loads and grants, and so through each step: the third part of
O16. -/

namespace Sys2Proof.Machine

open Sys2Proof

variable {s t : State}

/-! ## Starts -/

theorem seat_of_job {h : Fin 64} {j : Job} (hj : s.job? h = some j) : s.seat h = j.seat := by
  rw [State.seat, hj, Option.bind_some]

theorem Job.seat_of_loaded {j : Job} (h : j.state = .loaded) : j.seat = some ⟨.loaded, j.port, j.requested, j.arrived, j.blocks⟩ := by
  unfold Job.seat
  rw [if_pos (.inl h), h]

theorem Job.seat_of_reading {j : Job} (h : j.state = .reading) : j.seat = some ⟨.reading, j.port, j.requested, j.arrived, j.blocks⟩ := by
  unfold Job.seat
  rw [if_pos (.inr h), h]

theorem busyJobs_eq_zero {p : IngestPort} (h : ∀ k : Fin 8, (p.tags[k.val]).job? = none) : p.busyJobs = 0 := by
  unfold IngestPort.busyJobs
  rw [List.length_eq_zero_iff, List.filter_eq_nil_iff]
  intro o ho
  obtain ⟨k, hk, rfl⟩ := List.mem_iff_getElem.mp ho
  simp only [Vector.toList_map, List.getElem_map, Vector.getElem_toList]
  have := h ⟨k, by simpa using hk⟩
  simp [this]

theorem State.portsOk.tags_none (h : s.portsOk) {i : Fin 8} (hr : (s.ingest[i.val]).reading = none) (k : Fin 8) :
    ((s.ingest[i.val]).tags[k.val]).job? = none := by
  by_contra hn
  obtain ⟨g, hg⟩ := Option.ne_none_iff_exists'.mp hn
  rw [h.busy i k g hg] at hr
  cases hr

theorem filter_tail {h : Fin 64} {l rest : List (Fin 64)} (hl : l = h :: rest) (hn : l.Nodup) : l.filter (fun x => x != h) = l.tail := by
  subst hl
  obtain ⟨h1, -⟩ := List.nodup_cons.mp hn
  rw [List.filter_cons_of_neg (by simp), List.tail_cons, List.filter_eq_self]
  rintro x hx
  simp only [bne_iff_ne, ne_eq]
  rintro rfl
  exact h1 hx

/-- The job at the head of a line-up that starts to be read. -/
theorem State.portsOk.startReading (hs : s.portsOk) {i : Fin 8} {h : Fin 64} {rest : List (Fin 64)} {x : Seat}
    (hr : (s.ingest[i.val]).reading = none) (hl : (s.ingest[i.val]).lineUp = h :: rest) (hx : s.seat h = some x)
    (hseat : ∀ k, t.seat k = if h = k then some { x with state := .reading } else s.seat k)
    (hm : (t.ingest[i.val]).media.isSome = (s.ingest[i.val]).media.isSome) (hlu : (t.ingest[i.val]).lineUp = rest)
    (hre : (t.ingest[i.val]).reading = some h) (htags : ∀ k : Fin 8, ((t.ingest[i.val]).tags[k.val]).job? = ((s.ingest[i.val]).tags[k.val]).job?)
    (ho : ∀ q : Fin 8, q ≠ i → (s.ingest[q.val]).sameView t.ingest[q.val]) : t.portsOk := by
  obtain ⟨y, hy, hyp, hys⟩ := (hs.lineUp i).2 h (by rw [hl]; exact List.mem_cons_self)
  rw [hx] at hy
  cases hy
  obtain ⟨h1, h2, h3, h4⟩ := hs.loaded h x hx hys
  have hne : ∀ k z, s.seat k = some z → z.state = .reading → h ≠ k := by
    rintro k z hz hzs rfl
    rw [hx] at hz
    cases hz
    rw [hys] at hzs
    cases hzs
  have hold : ∀ k, h ≠ k → t.seat k = s.seat k := fun k hk => by rw [hseat, if_neg hk]
  have hnone : ∀ k : Fin 8, ((t.ingest[i.val]).tags[k.val]).job? = none := fun k => (htags k).trans (hs.tags_none hr k)
  constructor
  · intro q g hg
    by_cases hq : q = i
    · subst hq
      rw [hre] at hg
      cases hg
      refine ⟨by rw [hm]; exact hyp ▸ h4, { x with state := .reading }, by rw [hseat, if_pos rfl], rfl, hyp, ?_, ?_⟩
      · rw [busyJobs_eq_zero hnone]
        dsimp only
        omega
      · dsimp only
        omega
    · rw [(ho q hq).reading] at hg
      obtain ⟨a, z, hz, b, c⟩ := hs.reading q g hg
      rw [(ho q hq).media, (ho q hq).busyJobs]
      exact ⟨a, z, by rw [hold g (hne g z hz b)]; exact hz, b, c⟩
  · intro g z hz hzs
    by_cases hg : h = g
    · subst hg
      rw [hseat, if_pos rfl] at hz
      cases hz
      dsimp only
      rw [show x.port = i from hyp]
      exact hre
    · rw [hold g hg] at hz
      have := hs.alone g z hz hzs
      by_cases hq : z.port = i
      · subst hq
        rw [hr] at this
        cases this
      · rw [(ho _ hq).reading]
        exact this
  · intro q k g hk
    by_cases hq : q = i
    · subst hq
      rw [hnone] at hk
      cases hk
    · rw [(ho q hq).tags] at hk
      rw [(ho q hq).reading]
      exact hs.busy q k g hk
  · intro q
    by_cases hq : q = i
    · subst hq
      have hnd := (hs.lineUp q).1
      rw [hl] at hnd
      obtain ⟨hni, hnd⟩ := List.nodup_cons.mp hnd
      rw [hlu]
      refine ⟨hnd, fun g hg => ?_⟩
      rw [hold g (fun e => hni (e ▸ hg))]
      exact (hs.lineUp q).2 g (by rw [hl]; exact List.mem_cons_of_mem _ hg)
    · rw [(ho q hq).lineUp]
      refine ⟨(hs.lineUp q).1, fun g hg => ?_⟩
      obtain ⟨z, hz, hzp, hzs⟩ := (hs.lineUp q).2 g hg
      refine ⟨z, ?_, hzp, hzs⟩
      rw [hold g]
      · exact hz
      · rintro rfl
        rw [hx] at hz
        cases hz
        exact hq (hzp.symm.trans hyp)
  · intro g z hz hzs
    by_cases hg : h = g
    · subst hg
      rw [hseat, if_pos rfl] at hz
      cases hz
      cases hzs
    · rw [hold g hg] at hz
      obtain ⟨a, b, c, d⟩ := hs.loaded g z hz hzs
      by_cases hq : z.port = i
      · subst hq
        rw [hlu, hm]
        rw [hl] at a
        exact ⟨(List.mem_cons.mp a).resolve_left (Ne.symm hg), b, c, d⟩
      · rw [(ho _ hq).lineUp, (ho _ hq).media]
        exact ⟨a, b, c, d⟩

theorem startJob_seqOk {l : List Todo} (hs : s.seqOk l) (ho : s.outcomesOk) {i : Fin 8} {h : Fin 64} {rest : List (Fin 64)} {j : Job}
    (hr : (s.ingest[i.val]).reading = none) (hl : (s.ingest[i.val]).lineUp = h :: rest) (hj : s.job? h = some j) (hst : j.state = .loaded) :
    (s.startJob i h).1.seqOk ((s.startJob i h).2 ++ l) := by
  have p := placeLegs_placedBy i hj ((ho.1 h j hj).fresh hst)
  obtain ⟨y, hy, hyp, -⟩ := (hs.ports.lineUp i).2 h (by rw [hl]; exact List.mem_cons_self)
  have hx : s.seat h = some ⟨.loaded, j.port, j.requested, j.arrived, j.blocks⟩ := (seat_of_job hj).trans (Job.seat_of_loaded hst)
  rw [hx] at hy
  cases hy
  dsimp only at hyp
  have hothers : ∀ (u : State), u.ingest = (s.placeLegs i h).ingest → ∀ q : Fin 8, q ≠ i → (s.ingest[q.val]).sameView u.ingest[q.val] := by
    intro u hu q hq
    rw [hu, p.ingest, setEntry_other _ _ _ _ (Ne.symm hq)]
    exact .refl _
  -- the job gives up its seat
  have hun : ∀ (u : State), u.ingest = (s.placeLegs i h).ingest → (∀ k, k ≠ h → u.job? k = (s.placeLegs i h).job? k) → u.seat h = none →
      ∀ m, Todo.start i ∈ m → u.seqOk (m ++ l) := by
    intro u hu huo hus m hm
    have hports : u.portsOk := by
      refine hs.ports.unseat (h := h) (p := i) (fun k => ?_) (fun x hx' => ?_) ?_ (hothers u hu)
      · split
        · next e => rw [← e]; exact hus
        · next e => rw [State.seat, huo k (Ne.symm e), p.others k (Ne.symm e)]; rfl
      · rw [hx] at hx'
        cases hx'
        exact hyp
      · have hne : ¬ (s.ingest[i.val]).reading = some h := by rw [hr]; simp
        rw [hu, p.ingest, setEntry_same]
        refine ⟨rfl, (if_neg hne).symm, ?_, fun k => (if_neg hne).symm⟩
        rw [if_neg hne]
        exact (filter_tail hl (hs.ports.lineUp i).1).symm
    exact hs.of_port hports hm (hothers u hu)
  rcases startJob_cases s i h with ⟨hn, -⟩ | ⟨q, hq, hc⟩
  · rw [p.job] at hn
    cases hn
  rw [p.job] at hq
  cases hq
  rcases hc with ⟨-, e⟩ | ⟨-, -, e⟩ | ⟨-, -, e⟩ <;> rewrite [e] <;> dsimp only
  · refine hun _ (finishJob_ingest _ h _ _) (fun k hk => by rw [finishJob_job?, if_neg (Ne.symm hk)]) ?_ _ List.mem_cons_self
    rw [State.seat, finishJob_job?, if_pos rfl, p.job]
    exact Job.seat_of_terminal (Job.finished_terminal _ rfl _ _)
  · have h1 : ((s.placeLegs i h).emptied h).seqOk ([.start i] ++ l) := by
      refine hun ((s.placeLegs i h).emptied h) rfl (fun k hk => ?_) ?_ [.start i] List.mem_cons_self
      · exact (State.job?_modJob _ h k _).trans (if_neg (Ne.symm hk))
      · rw [State.seat, State.emptied, State.job?_modJob, if_pos rfl, p.job]
        rfl
    have h2 := h1.of_same (eachLeg_seats ((s.beginStart i h).legRefs h) _)
      ((eachLeg State.writtenIfWriting ((s.beginStart i h).legRefs h) ((s.placeLegs i h).emptied h)).2 ++ [.ingestFinal h])
    simpa using h2
  · have hseat : ∀ k, State.seat (((s.placeLegs i h).modJob h fun j => { j with state := .reading }).modIngest i fun p =>
        { p with reading := some h }) k = if h = k then some ⟨.reading, j.port, j.requested, j.arrived, j.blocks⟩ else s.seat k := by
      intro k
      rw [State.seat, show State.job? (((s.placeLegs i h).modJob h fun j => { j with state := .reading }).modIngest i fun p =>
        { p with reading := some h }) k = ((s.placeLegs i h).modJob h fun j => { j with state := .reading }).job? k from rfl, State.job?_modJob]
      split
      · rw [p.job]
        rfl
      · next e => rw [p.others k (Ne.symm e)]; rfl
    have hing : State.ingest (((s.placeLegs i h).modJob h fun j => { j with state := .reading }).modIngest i fun p =>
        { p with reading := some h }) = setEntry s.ingest i fun p => { p with lineUp := p.lineUp.tail, reading := some h } := by
      rw [State.modIngest_ingest, State.modJob_ingest, p.ingest]
      simp [setEntry]
    have hothers' : ∀ q : Fin 8, q ≠ i → (s.ingest[q.val]).sameView (State.ingest (((s.placeLegs i h).modJob h fun j =>
        { j with state := .reading }).modIngest i fun p => { p with reading := some h }))[q.val] := by
      intro q hq
      rw [hing, setEntry_other _ _ _ _ (Ne.symm hq)]
      exact .refl _
    refine ⟨?_, fun q hq => ?_⟩
    · refine hs.ports.startReading hr hl hx hseat ?_ ?_ ?_ ?_ hothers'
      · rw [hing, setEntry_same]
      · rw [hing, setEntry_same]
        dsimp only
        rw [hl, List.tail_cons]
      · rw [hing, setEntry_same]
      · intro k
        rw [hing, setEntry_same]
    · by_cases hqi : q = i
      · subst hqi
        rw [hing, setEntry_same] at hq
        cases hq
      · rw [(hothers' q hqi).reading] at hq
        rw [(hothers' q hqi).lineUp]
        exact (hs.started q hq)

theorem State.seqOk.mono {l m : List Todo} (h : s.seqOk l) (hm : ∀ i, Todo.start i ∈ l → .start i ∈ m) : s.seqOk m :=
  ⟨h.ports, fun i hr => (h.started i hr).imp id (hm i)⟩

theorem testStart_seqOk {l : List Todo} {i : Fin 8} (hs : s.seqOk (.start i :: l)) (ho : s.outcomesOk) :
    (s.testStart i).1.seqOk ((s.testStart i).2 ++ l) := by
  rcases testStart_cases s i with ⟨e, hc⟩ | ⟨h, rest, j, hr, hl, hj, hst, e⟩
  · rw [e]
    refine ⟨hs.ports, fun q hq => ?_⟩
    by_cases hqi : q = i
    · subst hqi
      rcases hc with hc | hc | ⟨h, rest, hl, hn⟩
      · exact absurd hq hc
      · exact .inl hc
      · obtain ⟨x, hx, -, hxs⟩ := (hs.ports.lineUp q).2 h (by rw [hl]; exact List.mem_cons_self)
        obtain ⟨j, hj, -, rfl⟩ := seat_eq_some.mp hx
        exact absurd hxs (hn j hj)
    · refine (hs.started q hq).imp id fun hm => ?_
      exact (List.mem_cons.mp hm).resolve_left fun e => hqi (by cases e; rfl)
  · rewrite [e]
    -- the port's start is no longer in the list, but it is looked at here
    have h1 := startJob_seqOk hs ho hr hl hj hst
    have hport : ((s.startJob i h).1.ingest[i.val]).reading = none → ((s.startJob i h).1.ingest[i.val]).lineUp = [] ∨ .start i ∈ (s.startJob i h).2 := by
      intro hq
      have p := placeLegs_placedBy i hj ((ho.1 h j hj).fresh hst)
      rcases startJob_cases s i h with ⟨hn, -⟩ | ⟨q, hq', ⟨-, e⟩ | ⟨-, -, e⟩ | ⟨-, -, e⟩⟩
      · rw [p.job] at hn
        cases hn
      · rw [e]
        exact .inr List.mem_cons_self
      · rw [e]
        exact .inr (by simp)
      · rw [e] at hq
        dsimp only at hq
        rw [State.modIngest_ingest, setEntry_same] at hq
        cases hq
    refine ⟨h1.ports, fun q hq => ?_⟩
    by_cases hqi : q = i
    · subst hqi
      exact (hport hq).imp id (List.mem_append_left _)
    · refine (h1.started q hq).imp id fun hm => ?_
      rw [List.mem_append] at hm ⊢
      exact hm.imp id fun hm => (List.mem_cons.mp hm).resolve_left fun e => hqi (by cases e; rfl)

theorem perform_seqOk {l : List Todo} {x : Todo} (hs : s.seqOk (x :: l)) (ho : s.outcomesOk) :
    (s.perform x).1.seqOk ((s.perform x).2 ++ l) := by
  have hl : (∀ i, x ≠ .start i) → s.seqOk l := fun hx => hs.mono fun i hm => (List.mem_cons.mp hm).resolve_left fun e => hx i e.symm
  cases x with
  | activate d => exact (hl fun _ => Todo.noConfusion).of_same (activateHead_seats s d) _
  | test h => exact testJob_seqOk (hl fun _ => Todo.noConfusion) h
  | ingestFinal h => exact ingestFinalised_seqOk (hl fun _ => Todo.noConfusion) h
  | start i => exact testStart_seqOk hs ho

/-! ## Losses -/

theorem endLoadeds_job? (o : JobState) (c : JobCause) (ho : o.terminal = true) : ∀ (l : List (Fin 64)) (s : State) (k : Fin 64),
    (k ∉ l → (l.foldl (State.endLoaded · o c ·) s).job? k = s.job? k) ∧
      (k ∈ l → ∀ j, (l.foldl (State.endLoaded · o c ·) s).job? k = some j → j.state.terminal = true)
  | [], _, _ => ⟨fun _ => rfl, fun h => absurd h (by simp)⟩
  | h :: rest, s, k => by
    obtain ⟨h1, h2⟩ := endLoadeds_job? o c ho rest (s.endLoaded o c h) k
    refine ⟨fun hk => ?_, fun hk => ?_⟩
    · obtain ⟨hne, hk⟩ : k ≠ h ∧ k ∉ rest := by simpa using hk
      exact (h1 hk).trans (endLoaded_others s o c h k hne)
    · by_cases hr : k ∈ rest
      · exact h2 hr
      · have e : k = h := (List.mem_cons.mp hk).resolve_right hr
        subst e
        intro j hj
        rw [List.foldl_cons, h1 hr] at hj
        unfold State.endLoaded at hj
        rw [abandonLegs_job?, if_pos rfl, finishJob_job?, if_pos rfl, finishJob_now, Option.map_map] at hj
        obtain ⟨q, -, rfl⟩ := Option.map_eq_some_iff.mp hj
        exact Job.torn_terminal s.now ho c q

theorem endLoadeds_ingest (s : State) (o : JobState) (c : JobCause) (l : List (Fin 64)) :
    (l.foldl (State.endLoaded · o c ·) s).ingest = s.ingest :=
  foldl_keeps State.ingest (fun s h => s.endLoaded o c h) (fun s h => finishJob_ingest s h o (some c)) l s

/-- Every seat of one port is given up, and the port reads nothing and holds nothing. -/
theorem State.portsOk.unseatPort (hs : s.portsOk) {i : Fin 8} (hseat : ∀ k x, t.seat k = some x ↔ s.seat k = some x ∧ x.port ≠ i)
    (hr : (t.ingest[i.val]).reading = none) (hl : (t.ingest[i.val]).lineUp = [])
    (htags : ∀ k : Fin 8, ((t.ingest[i.val]).tags[k.val]).job? = none)
    (ho : ∀ q : Fin 8, q ≠ i → (s.ingest[q.val]).sameView t.ingest[q.val]) : t.portsOk := by
  constructor
  · intro q g hg
    by_cases hq : q = i
    · subst hq
      rw [hr] at hg
      cases hg
    · rw [(ho q hq).reading] at hg
      obtain ⟨a, x, hx, b, c, d⟩ := hs.reading q g hg
      rw [(ho q hq).media, (ho q hq).busyJobs]
      exact ⟨a, x, (hseat g x).mpr ⟨hx, fun e => hq (c.symm.trans e)⟩, b, c, d⟩
  · intro g x hx hxs
    obtain ⟨hx, hp⟩ := (hseat g x).mp hx
    rw [(ho _ hp).reading]
    exact hs.alone g x hx hxs
  · intro q k g hk
    by_cases hq : q = i
    · subst hq
      rw [htags] at hk
      cases hk
    · rw [(ho q hq).tags] at hk
      rw [(ho q hq).reading]
      exact hs.busy q k g hk
  · intro q
    by_cases hq : q = i
    · subst hq
      rw [hl]
      exact ⟨List.nodup_nil, fun g hg => by cases hg⟩
    · rw [(ho q hq).lineUp]
      refine ⟨(hs.lineUp q).1, fun g hg => ?_⟩
      obtain ⟨x, hx, hp, hxs⟩ := (hs.lineUp q).2 g hg
      exact ⟨x, (hseat g x).mpr ⟨hx, fun e => hq (hp.symm.trans e)⟩, hp, hxs⟩
  · intro g x hx hxs
    obtain ⟨hx, hp⟩ := (hseat g x).mp hx
    rw [(ho _ hp).lineUp, (ho _ hp).media]
    exact hs.loaded g x hx hxs

/-- What the loss of a card leaves of the seats and the ports. -/
theorem sourceLost_ports (hs : s.portsOk) {i : Fin 8} {f : IngestPort → IngestPort} (hf : (s.ingest[i.val]).lostBy f) :
    let t := ((s.modIngest i f).sourceLost i).1
    (∀ k x, t.seat k = some x ↔ s.seat k = some x ∧ x.port ≠ i) ∧ (t.ingest[i.val]).reading = none ∧ (t.ingest[i.val]).lineUp = [] ∧
      (∀ k : Fin 8, ((t.ingest[i.val]).tags[k.val]).job? = none) ∧ ∀ q : Fin 8, q ≠ i → (s.ingest[q.val]).sameView t.ingest[q.val] := by
  -- the port's LOADED jobs have ended, its line-up is empty
  let u := ((s.loadedJobs i).foldl (State.endLoaded · .failed .sourceLost ·) (s.modIngest i f)).modIngest i fun p => { p with lineUp := [] }
  have hui : u.ingest = setEntry s.ingest i fun p => { f p with lineUp := [] } := by
    have hu : u.ingest = setEntry ((s.loadedJobs i).foldl (State.endLoaded · .failed .sourceLost ·) (s.modIngest i f)).ingest i
        fun p => { p with lineUp := [] } := rfl
    rw [hu, endLoadeds_ingest, State.modIngest_ingest]
    simp [setEntry]
  have hujob : ∀ k, (k ∉ s.loadedJobs i → u.job? k = s.job? k) ∧
      (k ∈ s.loadedJobs i → ∀ j, u.job? k = some j → j.state.terminal = true) :=
    fun k => endLoadeds_job? .failed .sourceLost rfl (s.loadedJobs i) (s.modIngest i f) k
  have huport : u.ingest[i.val] = { f s.ingest[i.val] with lineUp := [] } := by rw [hui, setEntry_same]
  have huo : ∀ q : Fin 8, q ≠ i → u.ingest[q.val] = s.ingest[q.val] := fun q hq => by rw [hui, setEntry_other _ _ _ _ (Ne.symm hq)]
  have hseatu : ∀ k x, u.seat k = some x ↔ s.seat k = some x ∧ ¬ (x.port = i ∧ x.state = .loaded) := by
    intro k x
    by_cases hk : k ∈ s.loadedJobs i
    · obtain ⟨j, hj, hp, hst⟩ := mem_loadedJobs.mp hk
      constructor
      · intro hx
        obtain ⟨q, hq, hqs, -⟩ := seat_eq_some.mp hx
        have := (hujob k).2 hk q hq
        rcases hqs with e | e <;> rw [e] at this <;> cases this
      · rintro ⟨hx, hn⟩
        obtain ⟨q, hq, -, rfl⟩ := seat_eq_some.mp hx
        rw [hj] at hq
        cases hq
        exact absurd ⟨hp, hst⟩ hn
    · rw [State.seat, (hujob k).1 hk]
      change s.seat k = some x ↔ _
      constructor
      · intro hx
        refine ⟨hx, fun hn => hk ?_⟩
        obtain ⟨q, hq, -, rfl⟩ := seat_eq_some.mp hx
        exact mem_loadedJobs.mpr ⟨q, hq, hn.1, hn.2⟩
      · exact And.left
  have he : ((s.modIngest i f).sourceLost i).1 = match (u.ingest[i.val]).reading with
      | some h => (u.tearJob h .failed .sourceLost).1
      | none => u := by
    unfold State.sourceLost
    dsimp only
    change Prod.fst (match (u.ingest[i.val]).reading with
      | some h => u.tearJob h .failed .sourceLost
      | none => (u, [])) = _
    cases (u.ingest[i.val]).reading <;> rfl
  intro t
  have ht : t = _ := he
  have hread : (u.ingest[i.val]).reading = (s.ingest[i.val]).reading := by rw [huport]; exact hf.reading
  rw [hread] at ht
  cases hr : (s.ingest[i.val]).reading with
  | none =>
    rw [hr] at ht
    dsimp only at ht
    rw [ht]
    refine ⟨fun k x => ?_, hread.trans hr, by rw [huport], fun k => ?_, fun q hq => by rw [huo q hq]; exact .refl _⟩
    · rw [hseatu]
      refine and_congr_right fun hx => not_congr ⟨And.left, fun hp => ⟨hp, ?_⟩⟩
      obtain ⟨j, hj, hst, rfl⟩ := seat_eq_some.mp hx
      rcases hst with e | e
      · exact e
      · have := hs.alone k _ hx e
        subst hp
        rw [hr] at this
        cases this
    · rw [huport]
      dsimp only
      exact (hf.tags k).elim id fun e => e.trans (hs.tags_none hr k)
  | some h =>
    rw [hr] at ht
    dsimp only at ht
    obtain ⟨-, x, hx, hxs, hxp, -⟩ := hs.reading i h hr
    obtain ⟨j, hj, -, rfl⟩ := seat_eq_some.mp hx
    dsimp only at hxs hxp
    have hnot : h ∉ s.loadedJobs i := fun hm => by
      obtain ⟨q, hq, -, hqs⟩ := mem_loadedJobs.mp hm
      rw [hj] at hq
      cases hq
      rw [hxs] at hqs
      cases hqs
    have huj : u.job? h = some j := ((hujob h).1 hnot).trans hj
    have htear : (u.tearJob h .failed .sourceLost).1 = u.teardown h .failed .sourceLost := by
      rcases tearJob_cases u h .failed .sourceLost with ⟨-, hterm⟩ | ⟨q, -, -, e⟩
      · have := hterm j huj
        rw [hxs] at this
        cases this
      · rw [e]
    rw [htear] at ht
    have hti : t.ingest = setEntry u.ingest i (IngestPort.dropJob h) := by rw [ht, teardown_ingest huj, hxp]
    have hdrop : IngestPort.dropJob h u.ingest[i.val] =
        { u.ingest[i.val] with reading := none, tags := (u.ingest[i.val]).tags.map ReadTag.abandon } := if_pos (hread.trans hr)
    have htp : t.ingest[i.val] = { u.ingest[i.val] with reading := none, tags := (u.ingest[i.val]).tags.map ReadTag.abandon } := by
      rw [hti, setEntry_same, hdrop]
    refine ⟨fun k x => ?_, by rw [htp], by rw [htp, huport], fun k => by rw [htp]; simp [ReadTag.abandon_job?], fun q hq => ?_⟩
    · rw [State.seat, ht, teardown_job?]
      split
      · next e =>
        subst e
        rw [huj, Option.map_some, Option.bind_some, Job.seat_of_terminal (Job.torn_terminal _ rfl _ _)]
        constructor
        · intro hn
          cases hn
        · rintro ⟨hy, hp⟩
          rw [hx] at hy
          cases hy
          exact absurd hxp hp
      · next e =>
        change u.seat k = some x ↔ _
        rw [hseatu]
        refine and_congr_right fun hy => not_congr ⟨And.left, fun hp => ⟨hp, ?_⟩⟩
        obtain ⟨q, hq, hst, rfl⟩ := seat_eq_some.mp hy
        rcases hst with e' | e'
        · exact e'
        · have := hs.alone k _ hy e'
          subst hp
          rw [hr] at this
          exact absurd (Option.some.inj this) e
    · rw [hti, setEntry_other _ _ _ _ (Ne.symm hq), huo q hq]
      exact .refl _

theorem sourceLost_seqOk (hs : s.seqOk []) {i : Fin 8} {f : IngestPort → IngestPort} (hf : (s.ingest[i.val]).lostBy f) (l : List Todo) :
    ((s.modIngest i f).sourceLost i).1.seqOk l := by
  obtain ⟨h1, h2, h3, h4, h5⟩ := sourceLost_ports hs.ports hf
  refine ⟨hs.ports.unseatPort h1 h2 h3 h4 h5, fun q hq => .inl ?_⟩
  by_cases hqi : q = i
  · subst hqi
    exact h3
  · rw [(h5 q hqi).reading] at hq
    rw [(h5 q hqi).lineUp]
    exact (hs.started q hq).resolve_right (by simp)

end Sys2Proof.Machine
end

