-- ==== Sys2Proof/Proofs/P17.lean ====
section
/-! The Ingest Sequencers and the Job Table through arrivals, reads given up, loads, grants and the other moves, and so through each step:
the third part of O16. -/

namespace Sys2Proof.Machine

open Sys2Proof

variable {s t : State}

/-! ## One port at a time -/

/-- The sequencers' invariant as it stands of one port. -/
structure State.portOk (s : State) (i : Fin 8) : Prop where
  reading : ∀ h, (s.ingest[i.val]).reading = some h → (s.ingest[i.val]).media.isSome = true ∧
    ∃ x, s.seat h = some x ∧ x.state = .reading ∧ x.port = i ∧ x.arrived + (s.ingest[i.val]).busyJobs = x.requested ∧
      x.requested ≤ x.blocks
  alone : ∀ h x, s.seat h = some x → x.port = i → x.state = .reading → (s.ingest[i.val]).reading = some h
  busy : ∀ (k : Fin 8) (h : Fin 64), ((s.ingest[i.val]).tags[k.val]).job? = some h → (s.ingest[i.val]).reading = some h
  nodup : (s.ingest[i.val]).lineUp.Nodup
  lineUp : ∀ h ∈ (s.ingest[i.val]).lineUp, ∃ x, s.seat h = some x ∧ x.port = i ∧ x.state = .loaded
  loaded : ∀ h x, s.seat h = some x → x.port = i → x.state = .loaded →
    h ∈ (s.ingest[i.val]).lineUp ∧ x.requested = 0 ∧ x.arrived = 0 ∧ (s.ingest[i.val]).media.isSome = true

theorem State.portsOk.port (h : s.portsOk) (i : Fin 8) : s.portOk i := by
  refine ⟨h.reading i, fun g x hx hp hs => ?_, h.busy i, (h.lineUp i).1, (h.lineUp i).2, fun g x hx hp hs => ?_⟩
  · subst hp
    exact h.alone g x hx hs
  · subst hp
    exact h.loaded g x hx hs

/-- A change of one port and of the seats of its jobs leaves the invariant with that port alone to be looked at. -/
theorem State.portsOk.of_port (hs : s.portsOk) {p : Fin 8} (hp : t.portOk p)
    (hseat : ∀ k x, x.port ≠ p → (t.seat k = some x ↔ s.seat k = some x))
    (ho : ∀ q : Fin 8, q ≠ p → (s.ingest[q.val]).sameView t.ingest[q.val]) : t.portsOk := by
  constructor
  · intro q g hg
    by_cases hq : q = p
    · subst hq
      exact hp.reading g hg
    · rw [(ho q hq).reading] at hg
      obtain ⟨a, x, hx, b, c, d⟩ := hs.reading q g hg
      rw [(ho q hq).media, (ho q hq).busyJobs]
      exact ⟨a, x, (hseat g x (c ▸ hq)).mpr hx, b, c, d⟩
  · intro g x hx hxs
    by_cases hq : x.port = p
    · subst hq
      exact hp.alone g x hx rfl hxs
    · rw [(ho _ hq).reading]
      exact hs.alone g x ((hseat g x hq).mp hx) hxs
  · intro q k g hk
    by_cases hq : q = p
    · subst hq
      exact hp.busy k g hk
    · rw [(ho q hq).tags] at hk
      rw [(ho q hq).reading]
      exact hs.busy q k g hk
  · intro q
    by_cases hq : q = p
    · subst hq
      exact ⟨hp.nodup, hp.lineUp⟩
    · rw [(ho q hq).lineUp]
      refine ⟨(hs.lineUp q).1, fun g hg => ?_⟩
      obtain ⟨x, hx, hxp, hxs⟩ := (hs.lineUp q).2 g hg
      exact ⟨x, (hseat g x (hxp ▸ hq)).mpr hx, hxp, hxs⟩
  · intro g x hx hxs
    by_cases hq : x.port = p
    · subst hq
      exact hp.loaded g x hx rfl hxs
    · rw [(ho _ hq).lineUp, (ho _ hq).media]
      exact hs.loaded g x ((hseat g x hq).mp hx) hxs

/-- The ports whose start is to be looked at are those of the list, one of them changed with its reading. -/
theorem State.seqOk.of_reading {l : List Todo} (h : s.seqOk l) (hp : t.portsOk) {p : Fin 8} (hr : (t.ingest[p.val]).reading ≠ none)
    (ho : ∀ i : Fin 8, i ≠ p → (s.ingest[i.val]).sameView t.ingest[i.val]) : t.seqOk l :=
  ⟨hp, fun i hi => by
    by_cases hip : i = p
    · subst hip
      exact absurd hi hr
    · rw [(ho i hip).reading] at hi
      rw [(ho i hip).lineUp]
      exact h.started i hi⟩

theorem busyJobs_eq_countP (p : IngestPort) : p.busyJobs = (p.tags.map ReadTag.job?).toList.countP Option.isSome := by
  rw [IngestPort.busyJobs, List.countP_eq_length_filter]

/-- The number of BUSY tags after a change of one tag. -/
theorem busyJobs_setTag (p : IngestPort) (k : Fin 8) (f : ReadTag → ReadTag) :
    IngestPort.busyJobs { p with tags := setEntry p.tags k f } + (if (p.tags[k.val]).job?.isSome = true then 1 else 0) =
      p.busyJobs + (if (f p.tags[k.val]).job?.isSome = true then 1 else 0) := by
  have he : ((setEntry p.tags k f).map ReadTag.job?).toList = (p.tags.map ReadTag.job?).toList.set k.val (f p.tags[k.val]).job? := by
    unfold setEntry
    rw [Vector.map_set, Vector.toList_set]
  have hlen : k.val < ((p.tags.map ReadTag.job?).toList).length := by simp
  have hget : ((p.tags.map ReadTag.job?).toList)[k.val] = (p.tags[k.val]).job? := by simp
  have hle := List.boole_getElem_le_countP (p := Option.isSome) hlen
  rw [busyJobs_eq_countP, busyJobs_eq_countP]
  dsimp only
  rw [he, List.countP_set hlen]
  rw [hget] at hle ⊢
  omega

theorem queueSlot_ingest (s : State) (n : Nat) (h : Fin 64) (owed : List Target) : (s.queueSlot n h owed).ingest = s.ingest := by
  refine foldl_keeps State.ingest _ ?_ _ s
  intro t x
  split <;> rfl

/-! ## Moves -/

theorem inserted_seqOk {l : List Todo} (hs : s.seqOk l) (i : Fin 8) (m : Media) :
    ((s.modIngest i fun p => { p with media := some m }).clearSession i).seqOk l := by
  have hseat : ∀ k, State.seat ((s.modIngest i fun p => { p with media := some m }).clearSession i) k = s.seat k := by
    intro k
    rw [State.seat, clearSession_job?]
    change (Option.map _ (s.job? k)).bind _ = (s.job? k).bind _
    cases s.job? k with
    | none => rfl
    | some j =>
      rw [Option.map_some, Option.bind_some, Option.bind_some]
      split <;> rfl
  have hing : ∀ q : Fin 8, (State.ingest ((s.modIngest i fun p => { p with media := some m }).clearSession i))[q.val] =
      if i = q then { s.ingest[q.val] with media := some m } else s.ingest[q.val] := by
    intro q
    change (setEntry s.ingest i _)[q.val] = _
    split
    · next e => subst e; rw [setEntry_same]
    · next e => rw [setEntry_other _ _ _ _ e]
  have hother : ∀ q : Fin 8, q ≠ i → (s.ingest[q.val]).sameView
      (State.ingest ((s.modIngest i fun p => { p with media := some m }).clearSession i))[q.val] := fun q hq => by
    rw [hing, if_neg (Ne.symm hq)]
    exact .refl _
  have hp := hs.ports.port i
  refine ⟨hs.ports.of_port (p := i) ?_ (fun k x _ => by rw [hseat]) hother, fun q hq => ?_⟩
  · constructor
    all_goals rw [hing, if_pos rfl]
    · intro h hr
      obtain ⟨-, x, hx, a, b, c, d⟩ := hp.reading h hr
      exact ⟨rfl, x, (hseat h).trans hx, a, b, c, d⟩
    · exact fun h x hx => hp.alone h x ((hseat h).symm.trans hx)
    · exact hp.busy
    · exact hp.nodup
    · intro h hm
      rw [hseat]
      exact hp.lineUp h hm
    · intro h x hx a b
      obtain ⟨c, d, e, -⟩ := hp.loaded h x ((hseat h).symm.trans hx) a b
      exact ⟨c, d, e, rfl⟩
  · rw [hing] at hq ⊢
    have he : ∀ c : Prop, [Decidable c] → (if c then { s.ingest[q.val] with media := some m } else s.ingest[q.val]).reading =
        (s.ingest[q.val]).reading ∧ (if c then { s.ingest[q.val] with media := some m } else s.ingest[q.val]).lineUp =
        (s.ingest[q.val]).lineUp := fun c _ => by split <;> exact ⟨rfl, rfl⟩
    rw [(he _).1] at hq
    rw [(he _).2]
    exact hs.started q hq

theorem tagsReset_seats (hs : s.portsOk) {i : Fin 8} (hm : (s.ingest[i.val]).media = none) :
    s.sameSeats (s.modIngest i fun p => { p with tags := p.tags.map ReadTag.portReset }) := by
  have hr : (s.ingest[i.val]).reading = none := by
    by_contra hn
    obtain ⟨g, hg⟩ := Option.ne_none_iff_exists'.mp hn
    have := (hs.reading i g hg).1
    rw [hm] at this
    cases this
  refine ⟨fun _ => rfl, fun q => ?_⟩
  rw [State.modIngest_ingest]
  by_cases hq : i = q
  · subst hq
    rw [setEntry_same]
    refine ⟨rfl, rfl, rfl, fun k => ?_⟩
    rw [hs.tags_none hr k]
    simp [ReadTag.portReset, ReadTag.job?]
  · rw [setEntry_other _ _ _ _ hq]
    exact .refl _

/-- A block that has arrived and is not the last: one tag fewer is BUSY, one block more has arrived. -/
theorem State.portsOk.arrive (hs : s.portsOk) {i k : Fin 8} {h : Fin 64} {x : Seat} (hk : ((s.ingest[i.val]).tags[k.val]).job? = some h)
    (hx : s.seat h = some x) (hseat : ∀ g, t.seat g = if h = g then some { x with arrived := x.arrived + 1 } else s.seat g)
    (hi : t.ingest = (s.setReadTag i k ReadTag.release).ingest) : t.portsOk := by
  have hr := hs.busy i k h hk
  have hp := hs.port i
  obtain ⟨hm, y, hy, hys, hyp, hya, hyb⟩ := hp.reading h hr
  rw [hx] at hy
  cases hy
  have hti : t.ingest[i.val] = { s.ingest[i.val] with tags := setEntry (s.ingest[i.val]).tags k ReadTag.release } := by
    rw [hi, State.setReadTag, State.modIngest_ingest, setEntry_same]
  have hb := busyJobs_setTag s.ingest[i.val] k ReadTag.release
  rw [← hti, hk, ReadTag.release_job?] at hb
  simp only [Option.isSome_some, Option.isSome_none, if_true, Bool.false_eq_true, if_false] at hb
  refine hs.of_port (p := i) ?_ (fun g z hz => ?_) fun q hq => ?_
  · constructor
    · intro g hg
      rw [hti] at hg
      have e : h = g := Option.some.inj (hr.symm.trans hg)
      subst e
      refine ⟨by rw [hti]; exact hm, { x with arrived := x.arrived + 1 }, by rw [hseat, if_pos rfl], hys, hyp, ?_, hyb⟩
      dsimp only
      omega
    · intro g z hz hzp hzs
      rw [hti]
      rw [hseat] at hz
      split at hz
      · next e => rw [← e]; exact hr
      · exact hp.alone g z hz hzp hzs
    · intro m g hg
      rw [hti] at hg ⊢
      by_cases hmk : k = m
      · subst hmk
        rw [setEntry_same] at hg
        cases hg
      · rw [setEntry_other _ _ _ _ hmk] at hg
        exact hp.busy m g hg
    · rw [hti]
      exact hp.nodup
    · intro g hg
      rw [hti] at hg
      obtain ⟨z, hz, hzp, hzs⟩ := hp.lineUp g hg
      refine ⟨z, ?_, hzp, hzs⟩
      rw [hseat, if_neg]
      · exact hz
      · rintro rfl
        rw [hx] at hz
        cases hz
        rw [hys] at hzs
        cases hzs
    · intro g z hz hzp hzs
      rw [hti]
      rw [hseat] at hz
      split at hz
      · cases hz
        rw [show x.state = .loaded from hzs] at hys
        cases hys
      · exact hp.loaded g z hz hzp hzs
  · rw [hseat]
    split
    · next e =>
      subst e
      rw [hx]
      constructor
      · intro q
        cases q
        exact absurd hyp hz
      · intro q
        cases q
        exact absurd hyp hz
    · exact Iff.rfl
  · rw [hi, State.setReadTag, State.modIngest_ingest, setEntry_other _ _ _ _ (Ne.symm hq)]
    exact .refl _

/-- What a job is, once another of its blocks has arrived, to the sequencers. -/
theorem Job.seat_arrived {j : Job} {x : Seat} (h : j.seat = some x) :
    Job.seat { j with arrived := j.arrived + 1 } = some { x with arrived := x.arrived + 1 } := by
  unfold Job.seat at h ⊢
  dsimp only
  split at h
  · next hs =>
    cases h
    exact if_pos hs
  · cases h

theorem arrived_seqOk {l : List Todo} (hs : s.seqOk l) {i k : Fin 8} {h : Fin 64} (hk : ((s.ingest[i.val]).tags[k.val]).job? = some h)
    (index num : Nat) (data : List Byte) :
    (s.blockArrived i k h index num data).1.seqOk ((s.blockArrived i k h index num data).2 ++ l) := by
  have hr := hs.ports.busy i k h hk
  obtain ⟨-, x, hx, hxs, hxp, hxa, hxb⟩ := hs.ports.reading i h hr
  obtain ⟨j, hj, hst, rfl⟩ := seat_eq_some.mp hx
  dsimp only at hxs hxp hxa hxb
  have hjs := Job.seat_of_reading hxs
  unfold State.blockArrived
  dsimp only
  generalize hu : ((s.fill num data).setReadTag i k ReadTag.release).queueSlot num h (s.owedAt num) = u
  have huv : u.view = ((s.fill num data).setReadTag i k ReadTag.release).view := by rw [← hu, queueSlot_view]
  have hui : u.ingest = (s.setReadTag i k ReadTag.release).ingest := by
    rw [← hu]
    exact queueSlot_ingest _ _ _ _
  generalize hv : (if u.ingestAt h index = true then u.makeReady num else u) = v
  have hvj : v.jobs = s.jobs := by
    rw [← hv]
    refine Eq.trans ?_ ((view_jobs (s := (s.fill num data).setReadTag i k ReadTag.release) huv).trans rfl)
    split <;> rfl
  have hvi : v.ingest = (s.setReadTag i k ReadTag.release).ingest := by
    rw [← hui, ← hv]
    split <;> rfl
  have hcj : ∀ g, (v.count h fun j => { j with arrived := j.arrived + 1 }).job? g =
      if h = g then some { j with arrived := j.arrived + 1 } else s.job? g := by
    intro g
    rw [State.job?_count]
    split
    · next e =>
      subst e
      rw [State.job?_congr hvj, hj, Option.map_some, if_neg (by rw [hxs]; decide)]
    · exact State.job?_congr hvj g
  have hci : (v.count h fun j => { j with arrived := j.arrived + 1 }).ingest = (s.setReadTag i k ReadTag.release).ingest := hvi
  have harr : (v.count h fun j => { j with arrived := j.arrived + 1 }).portsOk := by
    refine hs.ports.arrive hk hx (fun g => ?_) hci
    rw [State.seat, hcj]
    split
    · exact Job.seat_arrived (seat_of_job hj ▸ hx)
    · rfl
  have hother : ∀ q : Fin 8, q ≠ i → (s.ingest[q.val]).sameView
      (State.ingest (v.count h fun j => { j with arrived := j.arrived + 1 }))[q.val] := fun q hq => by
    rw [hci, State.setReadTag, State.modIngest_ingest, setEntry_other _ _ _ _ (Ne.symm hq)]
    exact .refl _
  rw [show State.job? (v.count h fun j => { j with arrived := j.arrived + 1 }) h = some { j with arrived := j.arrived + 1 } from by
    rw [hcj, if_pos rfl]]
  dsimp only
  have hrt : ((v.count h fun j => { j with arrived := j.arrived + 1 }).ingest[i.val]).reading = some h := by
    rw [hci, State.setReadTag, State.modIngest_ingest, setEntry_same]
    exact hr
  generalize hw : (v.count h fun j => { j with arrived := j.arrived + 1 }) = w at *
  split
  · next hc =>
    have hlast : ∀ m : Fin 8, ((w.ingest[i.val]).tags[m.val]).job? = none := by
      -- with the last block no tag is BUSY
      obtain ⟨-, y, hy, -, -, hya, hyb⟩ := harr.reading i h hrt
      have hy' : w.seat h = some ⟨.reading, j.port, j.requested, j.arrived + 1, j.blocks⟩ := by
        rw [State.seat, hcj, if_pos rfl, Option.bind_some]
        exact Job.seat_arrived hjs
      rw [hy'] at hy
      cases hy
      dsimp only at hya hyb
      have hzero : (w.ingest[i.val]).busyJobs = 0 := by
        have : j.arrived + 1 = j.blocks := hc.1
        omega
      intro m
      by_contra hn
      rw [IngestPort.busyJobs, List.length_eq_zero_iff, List.filter_eq_nil_iff] at hzero
      refine hzero ((w.ingest[i.val]).tags[m.val]).job? ?_ (Option.isSome_iff_ne_none.mpr hn)
      rw [List.mem_iff_getElem]
      exact ⟨m.val, by simp, by simp⟩
    have hti : (State.ingest ((w.modJob h fun j => { j with state := .settling, arrivedAllAt := some w.now }).modIngest i fun p =>
        { p with reading := none })) = setEntry w.ingest i fun p => { p with reading := none } := by
      rw [State.modIngest_ingest, State.modJob_ingest]
    have hports : State.portsOk ((w.modJob h fun j => { j with state := .settling, arrivedAllAt := some w.now }).modIngest i fun p =>
        { p with reading := none }) := by
      refine harr.unseat (h := h) (p := i) (fun g => ?_) (fun y hy => ?_) ?_ fun q hq => ?_
      · rw [State.seat]
        change (State.job? (w.modJob h _) g).bind Job.seat = _
        rw [State.job?_modJob]
        split
        · next e =>
          rw [hcj, if_pos rfl]
          rfl
        · rfl
      · obtain ⟨z, hz, -, rfl⟩ := seat_eq_some.mp hy
        rw [hcj, if_pos rfl] at hz
        cases hz
        exact hxp
      · rw [hti, setEntry_same]
        refine ⟨rfl, (if_pos hrt).symm, (if_pos hrt).symm, fun m => ?_⟩
        rw [if_pos hrt]
        exact hlast m
      · rw [hti, setEntry_other _ _ _ _ (Ne.symm hq)]
        exact .refl _
    refine hs.of_port hports (p := i) (by simp) fun q hq => ?_
    rw [hti, setEntry_other _ _ _ _ (Ne.symm hq)]
    exact hother q hq
  · exact hs.of_reading harr (p := i) (by rw [hrt]; simp) hother

end Sys2Proof.Machine
end

