-- ==== Sys2Proof/Proofs/P18.lean ====
section
/-! The Ingest Sequencers and the Job Table along every path, and so through each step. -/

namespace Sys2Proof.Machine

open Sys2Proof

variable {s t : State}

theorem readGivenUp_seqOk {l : List Todo} (hs : s.seqOk l) {i k : Fin 8} {h : Fin 64} (hk : ((s.ingest[i.val]).tags[k.val]).job? = some h) :
    ((s.setReadTag i k ReadTag.release).tearJob h .failed .sourceReadError).1.seqOk
      (((s.setReadTag i k ReadTag.release).tearJob h .failed .sourceReadError).2 ++ l) := by
  have hr := hs.ports.busy i k h hk
  obtain ⟨-, x, hx, hxs, hxp, -⟩ := hs.ports.reading i h hr
  obtain ⟨j, hj, hst, rfl⟩ := seat_eq_some.mp hx
  dsimp only at hxs hxp
  have hj' : (s.setReadTag i k ReadTag.release).job? h = some j := hj
  rcases tearJob_cases (s.setReadTag i k ReadTag.release) h .failed .sourceReadError with ⟨-, hn⟩ | ⟨q, hq, -, e⟩
  · have := hn j hj'
    rw [hxs] at this
    cases this
  · rw [hj'] at hq
    cases hq
    rewrite [e]
    dsimp only
    have hti : ((s.setReadTag i k ReadTag.release).teardown h .failed .sourceReadError).ingest =
        setEntry (s.setReadTag i k ReadTag.release).ingest i (IngestPort.dropJob h) := by rw [teardown_ingest hj', hxp]
    have hother : ∀ q : Fin 8, q ≠ i → (s.ingest[q.val]).sameView
        ((s.setReadTag i k ReadTag.release).teardown h .failed .sourceReadError).ingest[q.val] := fun q hq => by
      rw [hti, setEntry_other _ _ _ _ (Ne.symm hq), State.setReadTag, State.modIngest_ingest, setEntry_other _ _ _ _ (Ne.symm hq)]
      exact .refl _
    refine hs.of_port (p := i) (hs.ports.unseat (h := h) (p := i) (fun g => ?_) (fun y hy => ?_) ?_ hother) ?_ hother
    · rw [State.seat, teardown_job?]
      split
      · rw [hj']
        exact Job.seat_of_terminal (Job.torn_terminal _ rfl _ _)
      · rfl
    · rw [hx] at hy
      cases hy
      exact hxp
    · rw [hti, setEntry_same, State.setReadTag, State.modIngest_ingest, setEntry_same, IngestPort.dropJob, if_pos hr]
      exact ⟨rfl, (if_pos hr).symm, (if_pos hr).symm, fun m => by rw [if_pos hr]; simp [ReadTag.abandon_job?]⟩
    · rw [hxp]
      simp [afterTeardown]

theorem loaded_seqOk {l : List Todo} (hs : s.seqOk l) {h : Fin 64} (b : LoadBody) (hn : s.job? h = none)
    (hm : (s.ingest[b.port.val]).media ≠ none) : (s.loadInto h b).seqOk ([.start b.port] ++ l) := by
  have hp := hs.ports.port b.port
  have hseat : ∀ k, (s.loadInto h b).seat k = if h = k then some ⟨.loaded, b.port, 0, 0, (b.job s.now).blocks⟩ else s.seat k := by
    intro k
    rw [State.seat, loadInto_job?]
    split
    · rfl
    · rfl
  have hnone : s.seat h = none := by rw [State.seat, hn]; rfl
  have hti : (s.loadInto h b).ingest = setEntry s.ingest b.port fun p => { p with lineUp := p.lineUp ++ [h] } := rfl
  have hpt : (s.loadInto h b).ingest[b.port.val] = { s.ingest[b.port.val] with lineUp := (s.ingest[b.port.val]).lineUp ++ [h] } := by
    rw [hti, setEntry_same]
  have hold : ∀ k x, s.seat k = some x → h ≠ k := by
    rintro k x hx rfl
    rw [hnone] at hx
    cases hx
  have hother : ∀ q : Fin 8, q ≠ b.port → (s.ingest[q.val]).sameView (s.loadInto h b).ingest[q.val] := fun q hq => by
    rw [hti, setEntry_other _ _ _ _ (Ne.symm hq)]
    exact .refl _
  refine hs.of_port (p := b.port) (hs.ports.of_port (p := b.port) ?_ (fun k x hx => ?_) hother) (by simp) hother
  · constructor
    all_goals rw [hpt]
    · intro g hg
      obtain ⟨a, x, hx, c⟩ := hp.reading g hg
      exact ⟨a, x, by rw [hseat, if_neg (hold g x hx)]; exact hx, c⟩
    · intro g x hx hxp hxs
      rw [hseat] at hx
      split at hx
      · cases hx
        cases hxs
      · exact hp.alone g x hx hxp hxs
    · exact hp.busy
    · refine List.nodup_append.mpr ⟨hp.nodup, List.nodup_singleton _, fun a ha b' hb' => ?_⟩
      obtain ⟨x, hx, -⟩ := hp.lineUp a ha
      cases List.mem_singleton.mp hb'
      exact (hold a x hx).symm
    · intro g hg
      rcases List.mem_append.mp hg with hg | hg
      · obtain ⟨x, hx, c⟩ := hp.lineUp g hg
        exact ⟨x, by rw [hseat, if_neg (hold g x hx)]; exact hx, c⟩
      · cases List.mem_singleton.mp hg
        exact ⟨_, by rw [hseat, if_pos rfl], rfl, rfl⟩
    · intro g x hx hxp hxs
      rw [hseat] at hx
      split at hx
      · next e =>
        cases hx
        subst e
        exact ⟨by simp, rfl, rfl, Option.isSome_iff_ne_none.mpr hm⟩
      · obtain ⟨a, c⟩ := hp.loaded g x hx hxp hxs
        exact ⟨List.mem_append_left _ a, c⟩
  · rw [hseat]
    split
    · next e =>
      subst e
      rw [hnone]
      constructor
      · intro q
        cases q
        exact absurd rfl hx
      · intro q
        cases q
    · exact Iff.rfl

theorem endLoaded_job? (s : State) (h k : Fin 64) (o : JobState) (c : JobCause) :
    (s.endLoaded o c h).job? k = if h = k then (s.job? h).map (fun j => j.torn s.now o c) else s.job? k := by
  rw [State.endLoaded, abandonLegs_job?]
  split
  · next e =>
    subst e
    rw [finishJob_job?, if_pos rfl, finishJob_now, Option.map_map]
    rfl
  · next e => rw [finishJob_job?, if_neg e]

theorem cancelLoaded_seqOk {l : List Todo} (hs : s.seqOk l) {h : Fin 64} {j : Job} (hj : s.job? h = some j) (hl : j.state = .loaded) :
    (s.cancelLoaded h j.port).seqOk ([.start j.port] ++ l) := by
  have hti : (s.cancelLoaded h j.port).ingest = setEntry s.ingest j.port fun p => { p with lineUp := p.lineUp.filter fun x => x != h } := by
    rw [State.cancelLoaded, State.modIngest_ingest, show (s.endLoaded .aborted .cancelled h).ingest = s.ingest from finishJob_ingest s h _ _]
  have hother : ∀ q : Fin 8, q ≠ j.port → (s.ingest[q.val]).sameView (s.cancelLoaded h j.port).ingest[q.val] := fun q hq => by
    rw [hti, setEntry_other _ _ _ _ (Ne.symm hq)]
    exact .refl _
  have hne : ¬ (s.ingest[j.port.val]).reading = some h := by
    intro hr
    obtain ⟨-, x, hx, hxs, -⟩ := hs.ports.reading _ h hr
    obtain ⟨q, hq, -, rfl⟩ := seat_eq_some.mp hx
    rw [hj] at hq
    cases hq
    rw [show j.state = .reading from hxs] at hl
    cases hl
  refine hs.of_port (p := j.port) (hs.ports.unseat (h := h) (p := j.port) (fun g => ?_) (fun x hx => ?_) ?_ hother) (by simp) hother
  · rw [State.seat, show (s.cancelLoaded h j.port).job? g = (s.endLoaded .aborted .cancelled h).job? g from rfl, endLoaded_job?]
    split
    · rw [hj]
      exact Job.seat_of_terminal (Job.torn_terminal _ rfl _ _)
    · rfl
  · obtain ⟨q, hq, -, rfl⟩ := seat_eq_some.mp hx
    rw [hj] at hq
    cases hq
    rfl
  · rw [hti, setEntry_same]
    exact ⟨rfl, (if_neg hne).symm, (if_neg hne).symm, fun m => (if_neg hne).symm⟩

theorem release_seats {h : Fin 64} {j : Job} (hj : s.job? h = some j) (ht : j.state.terminal = true) : s.sameSeats (s.release h j) := by
  have hi : (s.release h j).ingest = s.ingest := by
    unfold State.release
    dsimp only
    split <;> rfl
  refine .of_jobs hi fun g => ?_
  rw [release_job?]
  split
  · next e =>
    subst e
    rw [hj, Option.bind_some, Job.seat_of_terminal ht]
    rfl
  · rfl

theorem countLeg_seats (s : State) (r : LegRef) (g : Leg → Leg) : s.sameSeats (s.countLeg r g) := by
  refine modJob_seats s r.job _ fun j _ => ?_
  dsimp only
  split <;> rfl

/-- What lets a port's next block be requested: its job is READING, blocks are left, and a tag is FREE. -/
theorem ingestWants_spec {i : Fin 8} (h : s.ingestWants i = true) :
    ∃ g j k, (s.ingest[i.val]).reading = some g ∧ s.job? g = some j ∧ j.state = .reading ∧ j.requested < j.blocks ∧
      freeReadTag (s.ingest[i.val]).tags = some k := by
  unfold State.ingestWants at h
  split at h
  · cases h
  · next j hj =>
    obtain ⟨g, hg, hgj⟩ := Option.bind_eq_some_iff.mp hj
    simp only [Bool.and_eq_true, decide_eq_true_eq] at h
    obtain ⟨⟨⟨⟨⟨-, h1⟩, h2⟩, h3⟩, -⟩, -⟩ := h
    obtain ⟨k, hk⟩ := Option.isSome_iff_exists.mp h3
    exact ⟨g, j, k, hg, hgj, h1, h2, hk⟩

theorem grantIngest_seqOk {l : List Todo} (hs : s.seqOk l) {i : Fin 8} (hw : s.ingestWants i = true) : (s.grantIngest i).seqOk l := by
  obtain ⟨h, j, k, hr, hj, hst, hlt, hk⟩ := ingestWants_spec hw
  have hp := hs.ports.port i
  obtain ⟨hm, x, hx, hxs, hxp, hxa, hxb⟩ := hp.reading h hr
  obtain ⟨q, hq, -, rfl⟩ := seat_eq_some.mp hx
  rw [hj] at hq
  cases hq
  dsimp only at hxs hxp hxa hxb
  have hfree : ((s.ingest[i.val]).tags[k.val]).job? = none := by
    unfold ReadTag.job?
    rw [freeReadTag_free hk]
  obtain ⟨gen, num, he⟩ : ∃ gen num, s.grantIngest i = (((s.reserve h j.requested (.ingest j.writingTargets)).count h fun j =>
      { j with requested := j.requested + 1 }).modIngest i fun p =>
      { p with tags := setEntry p.tags k fun _ => ⟨.busy h j.requested num s.now 0, gen, false⟩ }).send (.ingest i)
        (.blockRead k gen (cardAddress j.runs j.requested)) := by
    unfold State.grantIngest
    rw [hr, hk]
    dsimp only
    rw [hj]
    exact ⟨_, _, rfl⟩
  have hti : (s.grantIngest i).ingest = setEntry s.ingest i fun p =>
      { p with tags := setEntry p.tags k fun _ => ⟨.busy h j.requested num s.now 0, gen, false⟩ } := by
    rw [he]
    rfl
  have hpt : (s.grantIngest i).ingest[i.val] = { s.ingest[i.val] with
      tags := setEntry (s.ingest[i.val]).tags k fun _ => ⟨.busy h j.requested num s.now 0, gen, false⟩ } := by
    rw [hti, setEntry_same]
  have hb := busyJobs_setTag s.ingest[i.val] k fun _ => ⟨.busy h j.requested num s.now 0, gen, false⟩
  rw [← hpt, hfree, ReadTag.job?] at hb
  simp only [Option.isSome_some, Option.isSome_none, if_true, Bool.false_eq_true, if_false] at hb
  have hseat : ∀ g, (s.grantIngest i).seat g =
      if h = g then some ⟨.reading, j.port, j.requested + 1, j.arrived, j.blocks⟩ else s.seat g := by
    intro g
    rw [State.seat, he]
    change State.seat ((s.reserve h j.requested (.ingest j.writingTargets)).count h fun j => { j with requested := j.requested + 1 }) g = _
    rw [State.seat, State.job?_count]
    split
    · change (Option.map _ (s.job? h)).bind _ = _
      rw [hj, Option.map_some, Option.bind_some, if_neg (by rw [hst]; decide)]
      exact Job.seat_of_reading hst
    · rfl
  have hother : ∀ q : Fin 8, q ≠ i → (s.ingest[q.val]).sameView (s.grantIngest i).ingest[q.val] := fun q hq => by
    rw [hti, setEntry_other _ _ _ _ (Ne.symm hq)]
    exact .refl _
  refine hs.of_reading (p := i) (hs.ports.of_port (p := i) ?_ (fun g x hgx => ?_) hother) (by rw [hpt]; simp [hr]) hother
  · constructor
    · intro g hg
      rw [hpt] at hg
      have e : h = g := Option.some.inj (hr.symm.trans hg)
      subst e
      refine ⟨by rw [hpt]; exact hm, ⟨.reading, j.port, j.requested + 1, j.arrived, j.blocks⟩, by rw [hseat, if_pos rfl], rfl, hxp, ?_, ?_⟩
      · dsimp only
        omega
      · dsimp only
        omega
    · intro g x hx hxp hxs
      rw [hpt]
      rw [hseat] at hx
      split at hx
      · next e => rw [← e]; exact hr
      · exact hp.alone g x hx hxp hxs
    · intro m g hg
      rw [hpt] at hg ⊢
      by_cases hmk : k = m
      · subst hmk
        rw [setEntry_same] at hg
        cases hg
        exact hr
      · rw [setEntry_other _ _ _ _ hmk] at hg
        exact hp.busy m g hg
    · rw [hpt]
      exact hp.nodup
    · intro g hg
      rw [hpt] at hg
      obtain ⟨x, hgx, a, b⟩ := hp.lineUp g hg
      refine ⟨x, ?_, a, b⟩
      rw [hseat, if_neg]
      · exact hgx
      · rintro rfl
        rw [hx] at hgx
        cases hgx
        rw [show j.state = .loaded from b] at hst
        cases hst
    · intro g x hgx hxp hxs
      rw [hpt]
      rw [hseat] at hgx
      split at hgx
      · cases hgx
        cases hxs
      · exact hp.loaded g x hgx hxp hxs
  · rw [hseat]
    split
    · next e =>
      subst e
      rw [hx]
      constructor
      · intro q
        cases q
        exact absurd hxp hgx
      · intro q
        cases q
        exact absurd hxp hgx
    · exact Iff.rfl

theorem Move.seqOk {G : Grounds} {l : List Todo} {f : Bool} (m : Move G s t l f) (hs : s.seqOk []) : t.seqOk l := by
  cases m with
  | quiet hv _ => exact hs.of_same (.of_view hv) []
  | owe => exact hs.mono fun i hi => by cases hi
  | inserted i m _ => exact inserted_seqOk hs i m
  | lost i f _ hf => exact sourceLost_seqOk hs hf _
  | tagsReset i hm => exact hs.of_same (tagsReset_seats hs.ports hm) []
  | arrived i k h index num data _ hk => simpa using arrived_seqOk hs hk index num data
  | readGivenUp i k h _ hk => simpa using readGivenUp_seqOk hs hk
  | written r _ => simpa using hs.of_same (legWritten_seats s r) (s.legWritten r).2
  | dropped h x c => simpa using hs.of_same (dropLeg_seats s h x .failed (some c)) (afterLeg h x)
  | legsLost x =>
    have h1 : s.sameSeats ((s.dropLegs x LegState.lostWithTarget .failed (some .lost)).emptyReader x) :=
      (foldl_seats _ (fun t g => dropLeg_seats t g x .failed (some .lost)) _ s).trans (emptyReader_seats _ x)
    simpa using hs.of_same h1 ((s.jobsWithLeg x LegState.lostWithTarget).map .test)
  | legsShed x =>
    have h1 : s.sameSeats (s.dropLegs x (fun y => decide (y = .writing)) .deferred none) :=
      foldl_seats _ (fun t g => dropLeg_seats t g x .deferred none) _ s
    simpa using hs.of_same h1 ((s.jobsWithLeg x fun y => decide (y = .writing)).map .test)
  | counted r g _ => exact hs.of_same (countLeg_seats s r g) []
  | digested h c _ =>
    refine hs.of_same (modJob_seats s h _ fun j _ => ?_) []
    dsimp only
    split <;> rfl
  | verified d r _ => simpa using hs.of_same (verifyFinal_seats s d r) (s.verifyFinal d r).2
  | loaded h b hn hm _ => simpa using loaded_seqOk hs b hn hm
  | cancelledLoaded h j _ hj hl => simpa using cancelLoaded_seqOk hs hj hl
  | cancelled h _ => simpa using tearJob_seqOk hs h rfl .cancelled
  | released h j _ hj ht => exact hs.of_same (release_seats hj ht) []
  | region d r _ _ => exact hs.of_same (t := s.modDrive d fun v => v.setRegion r) (.of_jobs rfl fun _ => rfl) []
  | granted i hw => exact grantIngest_seqOk hs hw

theorem announceJob_seats (s : State) (h : Fin 64) : s.sameSeats (s.announceJob h) := by
  rcases announceJob_cases s h with e | ⟨j, -, -, -, e⟩ <;> rw [e]
  · exact .refl s
  · exact (modJob_seats s h (fun j => { j with announced := true }) fun _ _ => rfl).trans (.of_view rfl)

theorem Path.seqOk {G : Grounds} {l : List Todo} {f : Bool} (p : Path G s t l f) (ho : s.outcomesOk) (hs : s.seqOk []) : t.seqOk l := by
  induction p with
  | start => exact hs
  | move _ m ih => exact m.seqOk ih
  | perform p ih => exact perform_seqOk ih (p.outcomes ho).outcomes
  | announce p ih => exact ih.of_same (foldl_seats _ announceJob_seats _ _) []
  | cut p hn _ => exact absurd (p.outcomes ho).outcomes.legsFit hn

theorem seqOk_nil : s.seqOk [] ↔ s.sequencersOk := by
  rw [sequencersOk_iff]
  exact ⟨fun h => ⟨h.ports, fun i hi => (h.started i hi).resolve_right (by simp)⟩, fun h => ⟨h.1, fun i hi => .inl (h.2 i hi)⟩⟩

theorem step_sequencers (ho : s.outcomesOk) (hs : s.sequencersOk) (h : step s = .next t) : t.sequencersOk := by
  rcases step_path h with hv | ⟨G, s1, hv, p⟩
  · exact seqOk_nil.mp ((seqOk_nil.mpr reset_sequencersOk).of_same (.of_view hv) [])
  · exact seqOk_nil.mp (p.seqOk (ho.of_view hv) ((seqOk_nil.mpr hs).of_same (.of_view hv) []))

end Sys2Proof.Machine
end

