-- ==== Sys2Proof/Proofs/P19.lean ====
section
/-! The end of each job when it is due, by a cause of its own: the fourth part of O16. Along a path a job's end is due only where its end is
still to be looked at, or was due before; and a job that has ended on the way has ended on the command's grounds. -/

namespace Sys2Proof.Machine

open Sys2Proof

variable {s t : State} {h : Fin 64} {l : List Todo} {Q : Fin 64 → Job → Prop}

/-! ## Grounds of an end -/

/-- A job ended on the grounds that a command gives. -/
def Job.endedFor (G : Grounds) (h : Fin 64) (k : Job) : Prop :=
  (k.state = .done ∧ k.cause = none ∧ k.required ≤ k.goodLegs) ∨
    (k.state = .failed ∧ k.cause = some .insufficientCopies ∧
      (k.goodLegs < k.required ∨ ∀ l ∈ k.legs, l.state.viable = false)) ∨
    (k.state = .failed ∧ k.cause = some .sourceMismatch ∧ ∃ g e, k.ingest.final = some g ∧ k.expected = some e ∧ e ≠ g) ∨
    (k.state = .failed ∧ k.cause = some .sourceLost ∧ G.lost k.port) ∨
    (k.state = .failed ∧ k.cause = some .sourceReadError ∧ G.givenUp k.port) ∨
    (k.state = .aborted ∧ k.cause = some .cancelled ∧ G.cancelled h)

theorem Job.endedFor_groundsOf {k : Job} {c : Instr} : k.endedFor (groundsOf c s) h ↔ k.endedBy h c s :=
  Iff.rfl

theorem Job.endedFor.terminal {G : Grounds} {k : Job} (e : k.endedFor G h) : k.state.terminal = true := by
  rcases e with ⟨e, -⟩ | ⟨e, -⟩ | ⟨e, -⟩ | ⟨e, -⟩ | ⟨e, -⟩ | ⟨e, -⟩ <;> rw [e] <;> rfl

/-- A job that has ended, with all its legs (R22). -/
def Job.settled (k : Job) : Prop :=
  k.state.terminal = true ∧ ∀ l ∈ k.legs, l.state.terminal = true

/-- A job ended with all its legs, on the grounds that a command gives. -/
def Job.endedOn (G : Grounds) (h : Fin 64) (k : Job) : Prop :=
  k.endedFor G h ∧ ∀ l ∈ k.legs, l.state.terminal = true

theorem Job.endedOn.settled {G : Grounds} {k : Job} (e : k.endedOn G h) : k.settled :=
  ⟨e.1.terminal, e.2⟩

theorem Job.goodLegs_congr {j k : Job} (hl : k.legs.map Leg.state = j.legs.map Leg.state) : k.goodLegs = j.goodLegs := by
  have he : ∀ q : Job, q.goodLegs = ((q.legs.map Leg.state).filter fun x => decide (x = .good)).length := fun q => by
    rw [List.filter_map, List.length_map]
    rfl
  rw [he, he, hl]

theorem viable_congr {p q : List Leg} (hl : q.map Leg.state = p.map Leg.state) (hp : ∀ l ∈ p, l.state.viable = false) :
    ∀ l ∈ q, l.state.viable = false := by
  intro l hm
  have : l.state ∈ p.map Leg.state := by
    rw [← hl]
    exact List.mem_map_of_mem hm
  obtain ⟨m, hm, e⟩ := List.mem_map.mp this
  rw [← e]
  exact hp m hm

theorem terminal_congr {p q : List Leg} (hl : q.map Leg.state = p.map Leg.state) (hp : ∀ l ∈ p, l.state.terminal = true) :
    ∀ l ∈ q, l.state.terminal = true := by
  intro l hm
  have : l.state ∈ p.map Leg.state := by
    rw [← hl]
    exact List.mem_map_of_mem hm
  obtain ⟨m, hm, e⟩ := List.mem_map.mp this
  rw [← e]
  exact hp m hm

/-- The legs of a job whose legs have all ended stand in their states. -/
theorem Job.advancesTo.legStates {j k : Job} (a : j.advancesTo k) (hl : ∀ l ∈ j.legs, l.state.terminal = true) :
    k.legs.map Leg.state = j.legs.map Leg.state := by
  refine List.ext_getElem? fun n => ?_
  rw [List.getElem?_map, List.getElem?_map]
  cases hn : j.legs[n]? with
  | none =>
    have : k.legs[n]? = none := by
      rw [List.getElem?_eq_none_iff] at hn ⊢
      rw [a.legCount]
      exact hn
    rw [this]
  | some l =>
    obtain ⟨m, hm, ha, -⟩ := a.legs n l hn
    rw [hm, Option.map_some, Option.map_some, (ha.final (hl l (List.mem_of_getElem? hn))).1]

/-- The end of a job stands with its grounds. -/
theorem Job.endedFor.stands {G : Grounds} {j k : Job} (e : j.endedFor G h) (a : j.advancesTo k) (ho : j.outcomeOk) : k.endedFor G h := by
  have ht := e.terminal
  obtain ⟨hs, hc, -⟩ := a.final ht
  have hl := a.legStates (ho.2.2.1 ht)
  unfold Job.endedFor at e ⊢
  rw [hs, hc, a.required, a.expected, a.port, (a.stands ht).2.2, Job.goodLegs_congr hl]
  refine e.imp id (Or.imp (fun ⟨h1, h2, h3⟩ => ⟨h1, h2, h3.imp id fun h4 => ?_⟩) id)
  exact viable_congr hl h4

/-! ## Ends that are due -/

/-- The end of a job is still to be looked at. -/
def dueIn (h : Fin 64) (l : List Todo) : Prop :=
  .test h ∈ l ∨ .ingestFinal h ∈ l

theorem dueIn.mono {m : List Todo} (d : dueIn h l) (hm : l ⊆ m) : dueIn h m :=
  d.imp (fun e => hm e) fun e => hm e

/-- A job that is terminal where it was, and whose end is due where it was or is to be looked at. -/
def Job.kept (s : State) (l : List Todo) (h : Fin 64) (k : Job) : Prop :=
  (k.state.terminal = true → ∃ j, s.job? h = some j ∧ j.state.terminal = true) ∧
    (k.endDue → (∃ j, s.job? h = some j ∧ j.endDue) ∨ dueIn h l)

theorem Job.endDue.running {k : Job} (d : k.endDue) : k.state = .reading ∨ k.state = .settling :=
  d.elim (fun d => d.1) fun d => .inr d.1

theorem Job.endDue.not_terminal {k : Job} (d : k.endDue) : ¬ k.state.terminal = true := by
  rcases d.running with e | e <;> rw [e] <;> exact Bool.false_ne_true

theorem Job.endDue.congr {j k : Job} (d : k.endDue) (hs : k.state = j.state) (hf : k.ingest.final = j.ingest.final) (he : k.expected = j.expected)
    (hl : k.legs.map Leg.state = j.legs.map Leg.state) : j.endDue := by
  unfold Job.endDue at d ⊢
  rw [hs, hf, he] at d
  exact d.imp (fun d => ⟨d.1, viable_congr hl.symm d.2⟩) fun d => ⟨d.1, d.2.1, terminal_congr hl.symm d.2.2⟩

/-- A job with a viable leg that has not ended: its end is not due. -/
theorem Job.not_endDue {k : Job} {m : Leg} (hm : m ∈ k.legs) (hv : m.state.viable = true) (ht : m.state.terminal = false) : ¬ k.endDue := by
  rintro (⟨-, d⟩ | ⟨-, -, d⟩)
  · have := d m hm
    rw [hv] at this
    cases this
  · have := d m hm
    rw [ht] at this
    cases this

theorem Job.kept.of {j k : Job} (hj : s.job? h = some j) (ht : k.state.terminal = true → j.state.terminal = true)
    (hd : k.endDue → j.endDue ∨ dueIn h l) : k.kept s l h :=
  ⟨fun e => ⟨j, hj, ht e⟩, fun e => (hd e).imp (fun e => ⟨j, hj, e⟩) id⟩

theorem Job.kept.of_terminal {j k : Job} (hj : s.job? h = some j) (ht : j.state.terminal = true) (hk : k.state.terminal = true) : k.kept s l h :=
  .of hj (fun _ => ht) fun e => absurd hk e.not_terminal

theorem Job.kept.same {k : Job} (hj : s.job? h = some k) : k.kept s l h :=
  .of hj id .inl

/-- A step that ends no job. -/
def DueStep (s t : State) (l : List Todo) : Prop :=
  ∀ h k, t.job? h = some k → k.kept s l h

/-- A step that ends jobs on grounds only. -/
def EndStep (Q : Fin 64 → Job → Prop) (s t : State) (l : List Todo) : Prop :=
  ∀ h k, t.job? h = some k → Q h k ∨ k.kept s l h

theorem DueStep.ends (d : DueStep s t l) : EndStep Q s t l :=
  fun h k hk => .inr (d h k hk)

theorem DueStep.refl (s : State) (l : List Todo) : DueStep s s l :=
  fun _ _ hk => .same hk

theorem DueStep.of_jobs (hj : t.jobs = s.jobs) (l : List Todo) : DueStep s t l :=
  fun h k hk => .same (by rw [← State.job?_congr hj]; exact hk)

theorem Job.kept.mono {k : Job} {m : List Todo} (d : k.kept s l h) (hm : l ⊆ m) : k.kept s m h :=
  ⟨d.1, fun e => (d.2 e).imp id fun e => e.mono hm⟩

theorem DueStep.mono {m : List Todo} (d : DueStep s t l) (hm : l ⊆ m) : DueStep s t m :=
  fun h k hk => (d h k hk).mono hm

theorem Job.kept.after {m : List Todo} {k : Job} (d : DueStep s t l) (e : k.kept t m h) : k.kept s (m ++ l) h := by
  refine ⟨fun ht => ?_, fun hd => ?_⟩
  · obtain ⟨j, hj, hjt⟩ := e.1 ht
    exact (d h j hj).1 hjt
  · rcases e.2 hd with ⟨j, hj, hjd⟩ | e
    · exact ((d h j hj).2 hjd).imp id fun e => e.mono (List.subset_append_right _ _)
    · exact .inr (e.mono (List.subset_append_left _ _))

theorem DueStep.trans {u : State} {m : List Todo} (d : DueStep s t l) (e : DueStep t u m) : DueStep s u (m ++ l) :=
  fun h k hk => .after d (e h k hk)

/-- A step that ends no job, and then one that may. -/
theorem DueStep.then {u : State} {m : List Todo} (d : DueStep s t l) (e : EndStep Q t u m) : EndStep Q s u (m ++ l) :=
  fun h k hk => (e h k hk).imp id fun e => .after d e

theorem EndStep.then {u : State} {m : List Todo} (d : EndStep Q s t l) (e : EndStep Q t u m)
    (hs : ∀ h j k, t.job? h = some j → u.job? h = some k → j.state.terminal = true → Q h j → Q h k)
    (hq : ∀ h j, t.job? h = some j → Q h j → j.state.terminal = true) : EndStep Q s u (m ++ l) := by
  intro h k hk
  refine (e h k hk).elim .inl fun e => ?_
  by_cases hex : ∃ j, t.job? h = some j
  · obtain ⟨j, hj⟩ := hex
    rcases d h j hj with q | d
    · exact .inl (hs h j k hj hk (hq h j hj q) q)
    · refine .inr ⟨fun ht => ?_, fun hd => ?_⟩
      · obtain ⟨j', hj', hjt⟩ := e.1 ht
        rw [hj] at hj'
        cases hj'
        exact d.1 hjt
      · rcases e.2 hd with ⟨j', hj', hjd⟩ | e
        · rw [hj] at hj'
          cases hj'
          exact (d.2 hjd).imp id fun e => e.mono (List.subset_append_right _ _)
        · exact .inr (e.mono (List.subset_append_left _ _))
  · refine .inr ⟨fun ht => ?_, fun hd => ?_⟩
    · obtain ⟨j, hj, -⟩ := e.1 ht
      exact absurd ⟨j, hj⟩ hex
    · rcases e.2 hd with ⟨j, hj, -⟩ | e
      · exact absurd ⟨j, hj⟩ hex
      · exact .inr (e.mono (List.subset_append_left _ _))

/-! ## Changes of records -/

theorem modJob_due (s : State) (h : Fin 64) (g : Job → Job) (l : List Todo) (hg : ∀ j, s.job? h = some j →
    ((g j).state.terminal = true → j.state.terminal = true) ∧ ((g j).endDue → j.endDue ∨ dueIn h l)) : DueStep s (s.modJob h g) l := by
  intro k q hq
  rw [State.job?_modJob] at hq
  split at hq
  · next e =>
    subst e
    obtain ⟨j, hj, rfl⟩ := Option.map_eq_some_iff.mp hq
    exact .of hj (hg j hj).1 (hg j hj).2
  · exact .same hq

/-- A job record changed in what no end looks at. -/
theorem modJob_due_of_same (s : State) (h : Fin 64) (g : Job → Job) (l : List Todo) (hg : ∀ j, s.job? h = some j → (g j).state = j.state ∧
    (g j).ingest.final = j.ingest.final ∧ (g j).expected = j.expected ∧ (g j).legs.map Leg.state = j.legs.map Leg.state) :
    DueStep s (s.modJob h g) l :=
  modJob_due s h g l fun j hj =>
    have ⟨a, b, c, d⟩ := hg j hj
    ⟨fun e => by rw [← a]; exact e, fun e => .inl (e.congr a b c d)⟩

theorem map_modify_state {p : List Leg} {n : Nat} {g : Leg → Leg} (hg : ∀ m, p[n]? = some m → (g m).state = m.state) :
    (p.modify n g).map Leg.state = p.map Leg.state := by
  refine List.ext_getElem? fun i => ?_
  rw [List.getElem?_map, List.getElem?_map, List.getElem?_modify]
  cases hi : p[i]? with
  | none => rfl
  | some m =>
    by_cases e : n = i
    · subst e
      simp [hg m hi]
    · simp [e]

/-- A leg changed: in what no end looks at, to a viable leg that has not ended, or with its job's end to be looked at. -/
theorem modLeg_due (s : State) (r : LegRef) (g : Leg → Leg) (l : List Todo) (hg : dueIn r.job l ∨ ∀ m, s.leg? r = some m →
    (g m).state = m.state ∨ ((g m).state.viable = true ∧ (g m).state.terminal = false)) : DueStep s (s.modLeg r g) l := by
  refine modJob_due s r.job _ l fun j hj => ⟨id, fun d => ?_⟩
  rcases hg with hg | hg
  · exact .inr hg
  · cases hn : j.legs[r.leg]? with
    | none =>
      refine .inl (d.congr rfl rfl rfl (map_modify_state fun m hm => ?_))
      rw [hn] at hm
      cases hm
    | some m =>
      rcases hg m (State.leg?_eq_some.mpr ⟨j, hj, hn⟩) with e | ⟨hv, ht⟩
      · refine .inl (d.congr rfl rfl rfl (map_modify_state fun q hq => ?_))
        rw [hn] at hq
        cases hq
        exact e
      · refine absurd d (Job.not_endDue (m := g m) ?_ hv ht)
        refine List.mem_of_getElem? (i := r.leg) ?_
        simp [hn]

theorem endLeg_due (s : State) (r : LegRef) (x : LegState) (c : Option LegCause) {l : List Todo} (hd : dueIn r.job l) :
    DueStep s (s.endLeg r x c) l :=
  modLeg_due s r _ l (.inl hd)

theorem compareLeg_due (s : State) (d : Fin 6) (r : LegRef) {l : List Todo} (hd : dueIn r.job l ∨ (s.compareLeg d r).2 = false) :
    DueStep s (s.compareLeg d r).1 l := by
  rcases compareLeg_cases s d r with e | ⟨m, j, v, g, -, -, -, -, -, e⟩ <;> rw [e] at hd ⊢
  · exact .refl s l
  · exact (endLeg_due s r _ none (hd.resolve_right (by simp))).trans (l := l) (m := []) (.of_jobs rfl [])

theorem verifyFinal_due (s : State) (d : Fin 6) (r : LegRef) : DueStep s (s.verifyFinal d r).1 (s.verifyFinal d r).2 := by
  rcases verifyFinal_cases s d r with e | ⟨j, -, -, e⟩ <;> rewrite [e] <;> dsimp only
  · exact .refl s _
  · have h1 : DueStep s (s.finaliseLeg r j.length) [] := modLeg_due s r _ [] (.inr fun m _ => .inl rfl)
    have h2 := h1.trans (compareLeg_due (s.finaliseLeg r j.length) d r
      (l := if ((s.finaliseLeg r j.length).compareLeg d r).2 = true then [.test r.job, .activate d] else []) ?_)
    · rw [List.append_nil] at h2
      exact h2
    · cases hc : ((s.finaliseLeg r j.length).compareLeg d r).2 with
      | false => exact .inr rfl
      | true => exact .inl (.inl (by simp))

theorem activateHead_due (s : State) (d : Fin 6) : DueStep s (s.activateHead d).1 (s.activateHead d).2 := by
  have h1 : ∀ r, DueStep s (s.modLeg r fun l => { l with state := .verifying }) [] :=
    fun r => modLeg_due s r _ [] (.inr fun m _ => .inr ⟨rfl, rfl⟩)
  rcases activateHead_cases s d with e | ⟨r, rest, m, j, -, -, -, -, ⟨-, e⟩ | ⟨-, e⟩⟩ <;> rewrite [e]
  · exact .refl s _
  · exact h1 r
  · have := (h1 r).trans (verifyFinal_due _ d r)
    rwa [List.append_nil] at this

theorem legWritten_due (s : State) (r : LegRef) : DueStep s (s.legWritten r).1 (s.legWritten r).2 := by
  have h1 : ∀ l, DueStep s (s.modLeg r fun l => { l with state := .written, written := some s.now }) l :=
    fun l => modLeg_due s r _ l (.inr fun m _ => .inr ⟨rfl, rfl⟩)
  rcases legWritten_cases s r with ⟨-, e⟩ | ⟨m, -, ⟨d, -, -, e⟩ | ⟨-, e⟩⟩ <;> rewrite [e] <;> dsimp only
  · exact .refl s _
  · exact (h1 [.activate d]).trans (m := []) (.of_jobs rfl [])
  · have := (h1 []).trans (endLeg_due _ r .good none (l := [.test r.job]) (.inl (by simp)))
    rwa [List.append_nil] at this

theorem writtenIfWriting_due (s : State) (r : LegRef) : DueStep s (s.writtenIfWriting r).1 (s.writtenIfWriting r).2 := by
  rcases writtenIfWriting_cases s r with e | ⟨m, -, -, e⟩ <;> rw [e]
  · exact .refl s _
  · exact legWritten_due s r

theorem eachLeg_due : ∀ (p : List LegRef) (s : State),
    DueStep s (eachLeg State.writtenIfWriting p s).1 (eachLeg State.writtenIfWriting p s).2
  | [], s => .refl s _
  | r :: rest, s => by
    refine ((writtenIfWriting_due s r).trans (eachLeg_due rest _)).mono ?_
    intro x hx
    change x ∈ (s.writtenIfWriting r).2 ++ (eachLeg State.writtenIfWriting rest (s.writtenIfWriting r).1).2
    rw [List.mem_append] at hx ⊢
    exact hx.symm

theorem foldl_due {β : Type} {l : List Todo} (g : State → β → State) : ∀ (p : List β) (s : State),
    (∀ t : State, ∀ b ∈ p, DueStep t (g t b) l) → DueStep s (p.foldl g s) l
  | [], s, _ => .refl s l
  | b :: rest, s, hg => by
    have := (hg s b List.mem_cons_self).trans (foldl_due g rest (g s b) fun t c hc => hg t c (List.mem_cons_of_mem _ hc))
    exact this.mono (by simp)

theorem dropLeg_due (s : State) (h : Fin 64) (x : Target) (y : LegState) (c : Option LegCause) {l : List Todo} (hd : dueIn h l) :
    DueStep s (s.dropLeg h x y c) l := by
  rcases dropLeg_cases s h x y c with e | ⟨r, m, hr, -, hc⟩
  · rw [e]
    exact .refl s l
  · have h1 : DueStep s (s.endLeg r y c) l := endLeg_due s r y c (by rw [(legOn_spec hr).1]; exact hd)
    rcases hc with ⟨-, e⟩ | ⟨-, ⟨d, -, e⟩ | ⟨-, e⟩⟩ <;> rewrite [e]
    · exact h1.trans (m := []) (.of_jobs rfl [])
    · exact h1.trans (m := []) fun k q hq => .same (by rw [← withdrawVerify_job? _ d h]; exact hq)
    · exact h1

theorem dropLegs_due (s : State) (x : Target) (test : LegState → Bool) (y : LegState) (c : Option LegCause) :
    DueStep s (s.dropLegs x test y c) ((s.jobsWithLeg x test).map .test) :=
  foldl_due _ _ s fun t h hm => dropLeg_due t h x y c (.inl (List.mem_map_of_mem hm))

/-! ## Ends -/

theorem Job.torn_spec {now : Tick} {o : JobState} {c : JobCause} {j : Job} (ht : j.state.terminal = false) :
    (j.torn now o c).state = o ∧ (j.torn now o c).cause = some c ∧ (j.torn now o c).port = j.port ∧
      (j.torn now o c).ingest = j.ingest ∧ (j.torn now o c).expected = j.expected := by
  unfold Job.torn Job.finished Job.abandoned
  rw [ht]
  exact ⟨rfl, rfl, rfl, rfl, rfl⟩

theorem Job.torn_viable {now : Tick} {o : JobState} {c : JobCause} {j : Job} (hv : ∀ l ∈ j.legs, l.state.viable = false) :
    ∀ l ∈ (j.torn now o c).legs, l.state.viable = false := by
  have hl : (j.finished now o (some c)).legs = j.legs := by
    unfold Job.finished
    split <;> rfl
  intro l hm
  unfold Job.torn Job.abandoned at hm
  dsimp only at hm
  rw [hl] at hm
  obtain ⟨m, hm', rfl⟩ := List.mem_map.mp hm
  split
  · exact hv m hm'
  · rfl

theorem Job.torn_settled {now : Tick} {o : JobState} (ho : o.terminal = true) (c : JobCause) (j : Job) : (j.torn now o c).settled := by
  refine ⟨Job.torn_terminal now ho c j, fun l hm => ?_⟩
  unfold Job.torn Job.abandoned at hm
  obtain ⟨m, -, rfl⟩ := List.mem_map.mp hm
  split
  · assumption
  · rfl

theorem tearJob_ends (s : State) (h : Fin 64) (o : JobState) (c : JobCause) (l : List Todo)
    (hq : ∀ j, s.job? h = some j → j.state.terminal = false → Q h (j.torn s.now o c)) : EndStep Q s (s.tearJob h o c).1 l := by
  rcases tearJob_cases s h o c with ⟨e, -⟩ | ⟨j, hj, ht, e⟩ <;> rewrite [e]
  · exact (DueStep.refl s l).ends
  · intro k q hk
    dsimp only at hk
    rw [teardown_job?] at hk
    split at hk
    · next e =>
      subst e
      rw [hj] at hk
      cases hk
      exact .inl (hq j hj ht)
    · exact .inr (.same hk)

theorem finishJob_ends (s : State) (h : Fin 64) (o : JobState) (c : Option JobCause) (l : List Todo)
    (hq : ∀ j, s.job? h = some j → j.state.terminal = false → Q h (j.finished s.now o c)) : EndStep Q s (s.finishJob h o c) l := by
  intro k q hk
  rw [finishJob_job?] at hk
  split at hk
  · next e =>
    subst e
    obtain ⟨j, hj, rfl⟩ := Option.map_eq_some_iff.mp hk
    cases ht : j.state.terminal with
    | false => exact .inl (hq j hj ht)
    | true =>
      refine .inr ?_
      rw [Job.finished, if_pos ht]
      exact .same hj
  · exact .inr (.same hk)

theorem finalisable_iff {j : Job} : j.finalisable = true ↔
    j.state = .settling ∧ (∃ g, j.ingest.final = some g ∧ (j.expected = none ∨ j.expected = some g)) ∧
      ∀ l ∈ j.legs, l.state.terminal = true := by
  refine ⟨finalisable_spec, fun ⟨h1, ⟨g, hg, he⟩, h3⟩ => ?_⟩
  unfold Job.finalisable Job.digestPassed
  rw [hg]
  simp only [Bool.and_eq_true, decide_eq_true_eq, List.all_eq_true]
  exact ⟨⟨h1, by simpa using he⟩, h3⟩

theorem Job.finished_spec {now : Tick} {o : JobState} {c : Option JobCause} {j : Job} (ht : j.state.terminal = false) :
    (j.finished now o c) = { j with state := o, cause := c, finishedAt := some now } := by
  unfold Job.finished
  rw [ht]
  rfl

theorem testJob_ends {G : Grounds} (hQ : ∀ h k, Job.endedOn G h k → Q h k) (s : State) (h : Fin 64) (l : List Todo) :
    EndStep Q s (s.testJob h).1 l ∧ ∀ k, (s.testJob h).1.job? h = some k → ¬ k.endDue := by
  have hrun : ∀ {j : Job}, j.state = .reading ∨ j.state = .settling → j.state.terminal = false := by
    rintro j (e | e) <;> rw [e] <;> rfl
  have hfin : ∀ j o c, s.job? h = some j → j.state.terminal = false → JobState.terminal o = true →
      Q h { j with state := o, cause := c, finishedAt := some s.now } →
      EndStep Q s (s.finishJob h o c) l ∧ ∀ k, (s.finishJob h o c).job? h = some k → ¬ k.endDue := by
    intro j o c hj ht ho hq
    refine ⟨finishJob_ends s h o c l fun q hq' _ => ?_, fun k hk hd => ?_⟩
    · rw [hj] at hq'
      cases hq'
      rw [Job.finished_spec ht]
      exact hq
    · rw [finishJob_job?, if_pos rfl, hj, Option.map_some, Job.finished_spec ht] at hk
      cases hk
      exact hd.not_terminal ho
  rcases testJob_cases s h with ⟨e, hc⟩ | ⟨j, hj, hs, ⟨hv, e⟩ | ⟨-, hf, hr, e⟩ | ⟨-, hf, hr, e⟩⟩ <;> rewrite [e]
  · refine ⟨(DueStep.refl s l).ends, fun k hk hd => ?_⟩
    obtain ⟨hv, hf⟩ := hc k hk hd.running
    rcases hd with ⟨-, hd⟩ | hd
    · exact hv (viableLegs_eq_zero.mpr hd)
    · rw [finalisable_iff.mpr hd] at hf
      cases hf
  · have ht := hrun hs
    refine ⟨tearJob_ends s h _ _ l fun q hq _ => hQ h _ ⟨?_, (Job.torn_settled rfl _ _).2⟩, fun k hk hd => ?_⟩
    · rw [hj] at hq
      cases hq
      obtain ⟨a, b, -⟩ := Job.torn_spec (now := s.now) (o := .failed) (c := .insufficientCopies) ht
      exact .inr (.inl ⟨a, b, .inr (Job.torn_viable (viableLegs_eq_zero.mp hv))⟩)
    · rcases tearJob_cases s h .failed .insufficientCopies with ⟨-, hn⟩ | ⟨q, hq, -, e'⟩
      · rw [hn j hj] at ht
        cases ht
      · rw [e'] at hk
        dsimp only at hk
        rw [teardown_job?, if_pos rfl, hj] at hk
        cases hk
        exact hd.not_terminal (Job.torn_terminal _ rfl _ _)
  · exact hfin j _ _ hj (hrun hs) rfl (hQ h _ ⟨.inl ⟨rfl, rfl, hr⟩, (finalisable_iff.mp hf).2.2⟩)
  · exact hfin j _ _ hj (hrun hs) rfl (hQ h _ ⟨.inr (.inl ⟨rfl, rfl, .inl (Nat.lt_of_not_le hr)⟩), (finalisable_iff.mp hf).2.2⟩)

end Sys2Proof.Machine
end

