-- ==== Sys2Proof/Proofs/P20.lean ====
section
/-! The end of each job when it is due along every path, and O16. -/

namespace Sys2Proof.Machine

open Sys2Proof

variable {s t : State} {h : Fin 64} {l : List Todo} {Q : Fin 64 → Job → Prop} {G : Grounds}

theorem legRefs_job {r : LegRef} (hr : r ∈ s.legRefs h) : r.job = h := by
  unfold State.legRefs at hr
  split at hr
  · obtain ⟨n, -, rfl⟩ := List.mem_map.mp hr
    rfl
  · cases hr

theorem compareWaiting_due (s : State) (r : LegRef) {l : List Todo} (hd : dueIn r.job l) : DueStep s (s.compareWaiting r) l := by
  rcases compareWaiting_cases s r with e | ⟨m, d, -, -, e⟩ <;> rw [e]
  · exact .refl s l
  · exact compareLeg_due s d r (.inl hd)

theorem ingestFinalised_ends (hQ : ∀ h k, Job.endedOn G h k → Q h k) (s : State) (h : Fin 64) :
    EndStep Q s (s.ingestFinalised h).1 (s.ingestFinalised h).2 ∧
      ∀ k, (s.ingestFinalised h).1.job? h = some k → k.endDue → .test h ∈ (s.ingestFinalised h).2 := by
  have hf : ∀ l, dueIn h l → DueStep s (s.finaliseIngest h) l := fun l hd => modJob_due s h _ l fun j _ => ⟨id, fun _ => .inr hd⟩
  rcases ingestFinalised_cases s h with ⟨e, ht⟩ | ⟨j, hj, ht, ⟨-, e⟩ | ⟨hx, e⟩⟩ <;> rewrite [e]
  · exact ⟨(DueStep.refl s _).ends, fun k hk hd => absurd (ht k hk) hd.not_terminal⟩
  · have hd : dueIn h (allDrives.map Todo.activate ++ [.test h]) := .inl (by simp)
    refine ⟨DueStep.ends ?_, fun k _ _ => by simp⟩
    have hr : ∀ r ∈ (s.finaliseIngest h).legRefs h, dueIn r.job (allDrives.map Todo.activate ++ [.test h]) :=
      fun r hr => by rw [legRefs_job hr]; exact hd
    exact ((hf _ hd).trans (foldl_due State.compareWaiting _ _ fun t r hm => compareWaiting_due t r (hr r hm))).mono (by simp)
  · have hj' : (s.finaliseIngest h).job? h = some { j with ingest := finalise j.ingest j.length } := by
      rw [State.finaliseIngest, State.job?_modJob, if_pos rfl, hj]
      rfl
    have ht' : ({ j with ingest := finalise j.ingest j.length } : Job).state.terminal = false := ht
    obtain ⟨u, he, htu⟩ : ∃ u, (s.finaliseIngest h).tearJob h .failed .sourceMismatch = (u, afterTeardown j.port) ∧
        ∀ k, u.job? k = if h = k then some (({ j with ingest := finalise j.ingest j.length } : Job).torn s.now .failed .sourceMismatch)
          else s.job? k := by
      rcases tearJob_cases (s.finaliseIngest h) h .failed .sourceMismatch with ⟨-, hn⟩ | ⟨q, hq, -, e'⟩
      · have := hn _ hj'
        rw [ht'] at this
        cases this
      · rw [hj'] at hq
        cases hq
        refine ⟨_, e', fun k => ?_⟩
        rw [teardown_job?]
        split
        · rw [hj', Option.map_some]
          rfl
        · next e => exact (State.job?_modJob s h k _).trans (if_neg e)
    rewrite [he]
    dsimp only
    refine ⟨fun k q hq => ?_, fun k hk hd => ?_⟩
    · rw [htu] at hq
      split at hq
      · next e' =>
        subst e'
        cases hq
        refine .inl (hQ h _ ⟨.inr (.inr (.inl ?_)), (Job.torn_settled rfl _ _).2⟩)
        obtain ⟨a, b, -, c, d⟩ := Job.torn_spec (now := s.now) (o := .failed) (c := .sourceMismatch) ht'
        refine ⟨a, b, ?_⟩
        rw [c, d]
        cases hexp : j.expected with
        | none => exact absurd (.inl hexp) hx
        | some x => exact ⟨_, x, rfl, rfl, fun e => hx (.inr (by rw [hexp, e]))⟩
      · exact .inr (.same hq)
    · rw [htu, if_pos rfl] at hk
      cases hk
      exact absurd (Job.torn_terminal _ rfl _ _) hd.not_terminal

/-- A leg's placement changes its own job alone, and leaves the leg not IDLE. -/
theorem placeLeg_leg (s : State) (r : LegRef) : (∀ k, k ≠ r.job → (s.placeLeg r).job? k = s.job? k) ∧
    (∀ l, (s.placeLeg r).leg? r = some l → l.state ≠ .idle) ∧ ∀ q, q ≠ r → (s.placeLeg r).leg? q = s.leg? q := by
  have hput : ∀ (u : State), u.jobs = s.jobs → ∀ g : Leg → Leg, (∀ l, s.leg? r = some l → (g l).state ≠ .idle) →
      (∀ k, k ≠ r.job → (u.modLeg r g).job? k = s.job? k) ∧ (∀ l, (u.modLeg r g).leg? r = some l → l.state ≠ .idle) ∧
        ∀ q, q ≠ r → (u.modLeg r g).leg? q = s.leg? q := by
    intro u hu g hg
    refine ⟨fun k hk => ?_, fun l hl => ?_, fun q hq => ?_⟩
    · rw [State.job?_modLeg, if_neg (Ne.symm hk), State.job?_congr hu]
    · rw [State.leg?_modLeg, if_pos rfl, State.leg?_congr hu] at hl
      obtain ⟨m, hm, rfl⟩ := Option.map_eq_some_iff.mp hl
      exact hg m hm
    · rw [State.leg?_modLeg, if_neg (Ne.symm hq), State.leg?_congr hu]
  have hfail : ∀ l : Leg, ∀ c, (Leg.ended s.now .failed c l).state ≠ .idle := by
    intro l c e
    have := Leg.ended_terminal s.now (x := .failed) rfl c l
    rw [e] at this
    cases this
  unfold State.placeLeg
  split
  · next m j hm hj =>
    split
    · next hs => exact ⟨fun _ _ => rfl, fun l hl => by rw [hm] at hl; cases hl; exact hs, fun _ _ => rfl⟩
    · split
      · split
        · exact hput s rfl _ fun l _ => LegState.noConfusion
        · dsimp only
          split
          · exact hput _ rfl _ fun l _ => LegState.noConfusion
          · exact hput _ rfl _ fun l _ => hfail l _
      · exact hput s rfl _ fun l _ => hfail l _
  · next hn =>
    refine ⟨fun _ _ => rfl, fun l hl => ?_, fun _ _ => rfl⟩
    obtain ⟨j, hj, -⟩ := State.leg?_eq_some.mp hl
    exact absurd hj (hn l j hl)

theorem placeLegs_others (i : Fin 8) (k : Fin 64) (hk : k ≠ h) : (s.placeLegs i h).job? k = s.job? k := by
  have h1 : ∀ (p : List LegRef) (t : State), (∀ r ∈ p, r.job = h) → (p.foldl State.placeLeg t).job? k = t.job? k := by
    intro p
    induction p with
    | nil => exact fun _ _ => rfl
    | cons r rest ih =>
      intro t hr
      rw [List.foldl_cons, ih _ fun q hq => hr q (List.mem_cons_of_mem _ hq)]
      exact (placeLeg_leg t r).1 k (by rw [hr r List.mem_cons_self]; exact hk)
  rw [State.placeLegs, h1 _ _ fun r hr => legRefs_job hr, beginStart_job?, if_neg (Ne.symm hk)]

/-- No leg of a started job is IDLE (R11). -/
theorem placeLegs_not_idle (i : Fin 8) {j : Job} (hj : (s.placeLegs i h).job? h = some j) : ∀ l ∈ j.legs, l.state ≠ .idle := by
  have h1 : ∀ (p : List LegRef) (t : State) (r : LegRef), r ∈ p ∨ (∀ l, t.leg? r = some l → l.state ≠ .idle) →
      ∀ l, (p.foldl State.placeLeg t).leg? r = some l → l.state ≠ .idle := by
    intro p
    induction p with
    | nil => exact fun t r hr => hr.resolve_left (by simp)
    | cons q rest ih =>
      intro t r hr
      refine ih _ r ?_
      by_cases e : r = q
      · subst e
        exact .inr (placeLeg_leg t r).2.1
      · refine hr.imp (fun hr => (List.mem_cons.mp hr).resolve_left e) fun hr => ?_
        rw [(placeLeg_leg t q).2.2 r e]
        exact hr
  intro l hl
  obtain ⟨n, hn, rfl⟩ := List.mem_iff_getElem.mp hl
  refine h1 _ (s.beginStart i h) ⟨h, n⟩ (.inl ?_) _ (State.leg?_eq_some.mpr ⟨j, hj, List.getElem?_eq_getElem hn⟩)
  have hlen : ((s.beginStart i h).job? h).map (fun q => q.legs.length) = some j.legs.length := by
    obtain ⟨q, hq⟩ : ∃ q, (s.beginStart i h).job? h = some q := by
      have := placeLegs_state s i h h
      rw [hj] at this
      obtain ⟨q, hq, -⟩ := Option.map_eq_some_iff.mp this.symm
      exact ⟨_, by rw [beginStart_job?, if_pos rfl, hq]; rfl⟩
    obtain ⟨k, hk, a⟩ := (foldl_inv (fun t : State => (s.beginStart i h).advancesTo t) State.placeLeg
      (fun t r ht => ht.trans (placeLeg_advances t r)) ((s.beginStart i h).legRefs h) _ (State.advancesTo_refl _)).jobs h q hq
    rw [State.placeLegs, hk] at hj
    cases hj
    rw [hq, Option.map_some, a.legCount]
  obtain ⟨q, hq, hql⟩ := Option.map_eq_some_iff.mp hlen
  unfold State.legRefs
  rw [hq]
  exact List.mem_map.mpr ⟨n, List.mem_range.mpr (by omega), rfl⟩

/-- A leg that is neither viable nor IDLE has ended. -/
theorem LegState.terminal_of_not_viable : ∀ {x : LegState}, x.viable = false → x ≠ .idle → x.terminal = true := by
  intro x
  cases x <;> decide

theorem startJob_ends (hQ : ∀ h k, Job.endedOn G h k → Q h k) {i : Fin 8} {j : Job} (hj : s.job? h = some j)
    (hs : j.state = .loaded) : EndStep Q s (s.startJob i h).1 (s.startJob i h).2 := by
  have hp : ∀ l, DueStep s (s.placeLegs i h) l := by
    intro l k q hq
    by_cases e : k = h
    · subst e
      have hst := placeLegs_state s i k k
      rw [hq, hj, Option.map_some, Option.map_some, Option.some_inj] at hst
      refine .of hj (fun ht => by rw [← hst]; exact ht) fun hd => ?_
      rcases hd.running with e | e <;> rw [hst, hs] at e <;> cases e
    · rw [placeLegs_others i k e] at hq
      exact .same hq
  rcases startJob_cases s i h with ⟨-, e⟩ | ⟨q, hq, ⟨hv, e⟩ | ⟨-, -, e⟩ | ⟨hv, -, e⟩⟩ <;> rewrite [e] <;> dsimp only
  · exact (hp _).ends
  · refine ((hp []).then (m := [.start i]) (finishJob_ends _ h _ _ _ fun k hk ht => hQ h _ ?_))
    rw [hq] at hk
    cases hk
    rw [Job.finished_spec ht]
    have hl := viableLegs_eq_zero.mp hv
    exact ⟨.inr (.inl ⟨rfl, rfl, .inr hl⟩), fun l hm => LegState.terminal_of_not_viable (hl l hm) (placeLegs_not_idle i hq l hm)⟩
  · have h1 : DueStep (s.placeLegs i h) ((s.placeLegs i h).emptied h) [.ingestFinal h, .start i] :=
      modJob_due _ h _ _ fun k hk => ⟨fun (e : JobState.settling.terminal = true) => (by cases e), fun _ => .inr (.inr (by simp))⟩
    exact (((hp []).trans h1).trans (eachLeg_due _ _)).mono (by simp) |>.ends
  · have h1 : DueStep (s.placeLegs i h) ((s.placeLegs i h).modJob h fun j => { j with state := .reading }) [] := by
      refine modJob_due _ h _ _ fun k hk => ⟨fun (e : JobState.reading.terminal = true) => (by cases e), fun d => ?_⟩
      rw [hq] at hk
      cases hk
      rcases d with ⟨-, d⟩ | ⟨d, -⟩
      · exact absurd (viableLegs_eq_zero.mpr d) hv
      · cases d
    exact DueStep.ends (((hp []).trans h1).trans (m := []) (.of_jobs rfl []))

theorem testStart_ends (hQ : ∀ h k, Job.endedOn G h k → Q h k) (i : Fin 8) :
    EndStep Q s (s.testStart i).1 (s.testStart i).2 := by
  rcases testStart_cases s i with ⟨e, -⟩ | ⟨h, rest, j, -, -, hj, hs, e⟩ <;> rw [e]
  · exact (DueStep.refl s _).ends
  · exact startJob_ends hQ hj hs

theorem perform_ends (hQ : ∀ h k, Job.endedOn G h k → Q h k) (x : Todo) :
    EndStep Q s (s.perform x).1 (s.perform x).2 ∧
      ∀ h k, (x = .test h ∨ x = .ingestFinal h) → (s.perform x).1.job? h = some k → k.endDue → dueIn h (s.perform x).2 := by
  cases x with
  | activate d => exact ⟨(activateHead_due s d).ends, fun h k hx => by rcases hx with hx | hx <;> cases hx⟩
  | start i => exact ⟨testStart_ends hQ i, fun h k hx => by rcases hx with hx | hx <;> cases hx⟩
  | test g =>
    obtain ⟨h1, h2⟩ := testJob_ends hQ s g (s.testJob g).2
    refine ⟨h1, fun h k hx hk hd => ?_⟩
    rcases hx with hx | hx <;> cases hx
    exact absurd hd (h2 k hk)
  | ingestFinal g =>
    obtain ⟨h1, h2⟩ := ingestFinalised_ends hQ s g
    refine ⟨h1, fun h k hx hk hd => ?_⟩
    rcases hx with hx | hx <;> cases hx
    exact .inl (h2 k hk hd)

/-! ## Moves -/

theorem endLoadeds_torn (o : JobState) (c : JobCause) : ∀ (l : List (Fin 64)) (s : State), l.Nodup → ∀ k,
    (l.foldl (State.endLoaded · o c ·) s).job? k = if k ∈ l then (s.job? k).map (Job.torn s.now o c) else s.job? k
  | [], _, _, _ => rfl
  | h :: rest, s, hn, k => by
    obtain ⟨hnot, hn⟩ := List.nodup_cons.mp hn
    have hnow : (s.endLoaded o c h).now = s.now := finishJob_now s h o (some c)
    rw [List.foldl_cons, endLoadeds_torn o c rest _ hn k, hnow, endLoaded_job?]
    by_cases e : h = k
    · subst e
      rw [if_neg hnot, if_pos rfl, if_pos List.mem_cons_self]
    · rw [if_neg e]
      simp [Ne.symm e]

theorem sourceLost_ends {i : Fin 8} {f : IngestPort → IngestPort} (hQ : ∀ h k, Job.endedOn G h k → Q h k) (hi : G.lost i)
    (hf : (s.ingest[i.val]).lostBy f) (hp : s.portsOk ∨ ∀ h k, k.settled → Q h k) :
    EndStep Q s ((s.modIngest i f).sourceLost i).1 ((s.modIngest i f).sourceLost i).2 := by
  have htorn : ∀ h j, s.job? h = some j → j.state.terminal = false → j.port = i ∨ (∀ h k, k.settled → Q h k) →
      Q h (j.torn s.now .failed .sourceLost) := by
    intro h j hj ht hpj
    rcases hpj with hpj | hpj
    · obtain ⟨a, b, c, -⟩ := Job.torn_spec (now := s.now) (o := .failed) (c := .sourceLost) ht
      refine hQ h _ ⟨.inr (.inr (.inr (.inl ⟨a, b, ?_⟩))), (Job.torn_settled rfl _ _).2⟩
      rw [c, hpj]
      exact hi
    · exact hpj h _ (Job.torn_settled rfl _ _)
  let u := ((s.loadedJobs i).foldl (State.endLoaded · .failed .sourceLost ·) (s.modIngest i f)).modIngest i fun p => { p with lineUp := [] }
  have huj : ∀ k, u.job? k = if k ∈ s.loadedJobs i then (s.job? k).map (Job.torn s.now .failed .sourceLost) else s.job? k :=
    endLoadeds_torn .failed .sourceLost (s.loadedJobs i) (s.modIngest i f) (loadedJobs_nodup s i)
  have hnow : u.now = s.now :=
    foldl_keeps State.now (fun s h => s.endLoaded .failed .sourceLost h) (fun s h => finishJob_now s h _ _) (s.loadedJobs i) (s.modIngest i f)
  have hu : EndStep Q s u [] := by
    intro k q hq
    rw [huj] at hq
    split at hq
    · next hm =>
      obtain ⟨j, hj, hjp, hjs⟩ := mem_loadedJobs.mp hm
      rw [hj] at hq
      cases hq
      exact .inl (htorn k j hj (by rw [hjs]; rfl) (.inl hjp))
    · exact .inr (.same hq)
  have hreadp : (u.ingest[i.val]).reading = (s.ingest[i.val]).reading := by
    have hui : u.ingest = setEntry ((s.loadedJobs i).foldl (State.endLoaded · .failed .sourceLost ·) (s.modIngest i f)).ingest i
        fun p => { p with lineUp := [] } := rfl
    rw [hui, setEntry_same, endLoadeds_ingest, State.modIngest_ingest, setEntry_same]
    exact hf.reading
  have he : (s.modIngest i f).sourceLost i = match (u.ingest[i.val]).reading with
      | some h => u.tearJob h .failed .sourceLost
      | none => (u, []) := rfl
  rw [hreadp] at he
  rewrite [he]
  cases hr : (s.ingest[i.val]).reading with
  | none => exact hu
  | some h =>
    dsimp only
    -- the job read is not one of the LOADED that have ended
    intro k q hq
    have hother : (k ≠ h ∨ ∀ j, u.job? h = some j → j.state.terminal = true) → u.job? k = some q →
        Q k q ∨ q.kept s (u.tearJob h .failed .sourceLost).2 k := fun _ hq' =>
      (hu k q hq').imp id fun e => e.mono (by simp)
    rcases tearJob_cases u h .failed .sourceLost with ⟨e, hn⟩ | ⟨j, hj, ht, e⟩
    · rw [e] at hq
      exact hother (.inr hn) hq
    · have hq' := hq
      rw [e] at hq'
      dsimp only at hq'
      rw [teardown_job?] at hq'
      split at hq'
      · next e' =>
        subst e'
        rw [hj] at hq'
        cases hq'
        have hjs : s.job? h = some j := by
          rw [huj] at hj
          split at hj
          · obtain ⟨j0, -, rfl⟩ := Option.map_eq_some_iff.mp hj
            rw [Job.torn_terminal _ rfl] at ht
            cases ht
          · exact hj
        rw [hnow]
        refine .inl (htorn h j hjs ht (hp.imp (fun hp => ?_) id))
        obtain ⟨-, x, hx, -, hxp, -⟩ := hp.reading i h hr
        obtain ⟨j', hj', -, rfl⟩ := seat_eq_some.mp hx
        rw [hjs] at hj'
        cases hj'
        exact hxp
      · next e' => exact hother (.inl (Ne.symm e')) hq'

theorem count_due (s : State) (h : Fin 64) (g : Job → Job) (l : List Todo) (hg : ∀ j, s.job? h = some j → (g j).state = j.state ∧
    (g j).ingest.final = j.ingest.final ∧ (g j).expected = j.expected ∧ (g j).legs.map Leg.state = j.legs.map Leg.state) :
    DueStep s (s.count h g) l := by
  refine modJob_due_of_same s h _ l fun j hj => ?_
  split
  · exact ⟨rfl, rfl, rfl, rfl⟩
  · exact hg j hj

/-- After the arrival of a block the end of a job is due only where it was or where a job still READING had a final digest. -/
theorem arrived_due (s : State) (i k : Fin 8) (g : Fin 64) (index num : Nat) (data : List Byte) :
    ∀ h q, (s.blockArrived i k g index num data).1.job? h = some q →
      (q.state.terminal = true → ∃ j, s.job? h = some j ∧ j.state.terminal = true) ∧
        (q.endDue → ∃ j, s.job? h = some j ∧ (j.endDue ∨ (j.state = .reading ∧ j.ingest.final ≠ none))) := by
  unfold State.blockArrived
  dsimp only
  generalize hu : ((s.fill num data).setReadTag i k ReadTag.release).queueSlot num g (s.owedAt num) = u
  have huj : u.jobs = s.jobs := by
    rw [← hu, queueSlot_jobs]
    rfl
  generalize hv : (if u.ingestAt g index = true then u.makeReady num else u) = v
  have hvj : v.jobs = s.jobs := by
    rw [← hv, ← huj]
    split <;> rfl
  have h1 : DueStep s (v.count g fun j => { j with arrived := j.arrived + 1 }) [] :=
    (DueStep.of_jobs hvj []).trans (m := []) (count_due v g _ [] fun j _ => ⟨rfl, rfl, rfl, rfl⟩)
  have hkeep : ∀ h q, (v.count g fun j => { j with arrived := j.arrived + 1 }).job? h = some q →
      (q.state.terminal = true → ∃ j, s.job? h = some j ∧ j.state.terminal = true) ∧
        (q.endDue → ∃ j, s.job? h = some j ∧ (j.endDue ∨ (j.state = .reading ∧ j.ingest.final ≠ none))) := fun h q hq =>
    ⟨(h1 h q hq).1, fun hd => by
      rcases (h1 h q hq).2 hd with ⟨j, hj, hjd⟩ | e
      · exact ⟨j, hj, .inl hjd⟩
      · exact absurd e (by simp [dueIn])⟩
  split
  · exact hkeep
  · next j hj =>
    split
    · next hc =>
      intro h q hq
      change (State.job? ((v.count g fun j => { j with arrived := j.arrived + 1 }).modJob g fun j =>
        { j with state := .settling, arrivedAllAt := some _ }) h) = some q at hq
      rw [State.job?_modJob] at hq
      split at hq
      · next e =>
        subst e
        rw [hj] at hq
        cases hq
        refine ⟨fun (e : JobState.settling.terminal = true) => (by cases e), fun hd => ?_⟩
        rw [State.job?_count, State.job?_congr hvj] at hj
        rw [if_pos rfl] at hj
        obtain ⟨j0, hj0, rfl⟩ := Option.map_eq_some_iff.mp hj
        have hr := hc.2
        split at hr
        · next ht =>
          rw [hr] at ht
          cases ht
        · next ht =>
          rw [if_neg ht] at hd
          refine ⟨j0, hj0, ?_⟩
          rcases hd with ⟨-, hd⟩ | ⟨-, ⟨x, hx, -⟩, -⟩
          · exact .inl (.inl ⟨.inl hr, hd⟩)
          · exact .inr ⟨hr, by rw [show j0.ingest.final = some x from hx]; simp⟩
      · exact hkeep h q hq
    · exact hkeep

end Sys2Proof.Machine
end

