-- ==== Sys2Proof/Proofs/P21.lean ====
section
/-! Ends along a path, and O16 (`outcomesStandUntilRelease`). -/

namespace Sys2Proof.Machine

open Sys2Proof

variable {s t : State} {h : Fin 64} {l : List Todo} {Q : Fin 64 → Job → Prop} {G : Grounds}

theorem readGivenUp_ends {i k : Fin 8} (hQ : ∀ h k, Job.endedOn G h k → Q h k) (hi : G.givenUp i)
    (hk : ((s.ingest[i.val]).tags[k.val]).job? = some h) (hp : s.portsOk ∨ ∀ h k, k.settled → Q h k) (l : List Todo) :
    EndStep Q s ((s.setReadTag i k ReadTag.release).tearJob h .failed .sourceReadError).1 l := by
  have h1 := (DueStep.of_jobs (s := s) (t := s.setReadTag i k ReadTag.release) rfl []).then
    (tearJob_ends (Q := Q) (s.setReadTag i k ReadTag.release) h .failed .sourceReadError l fun j hj ht => ?_)
  · rwa [List.append_nil] at h1
  · obtain ⟨a, b, c, -⟩ := Job.torn_spec (now := s.now) (o := .failed) (c := .sourceReadError) ht
    rcases hp with hp | hp
    · refine hQ h _ ⟨.inr (.inr (.inr (.inr (.inl ⟨a, b, ?_⟩)))), (Job.torn_settled rfl _ _).2⟩
      obtain ⟨-, x, hx, -, hxp, -⟩ := hp.reading i h (hp.busy i k h hk)
      obtain ⟨j', hj', -, rfl⟩ := seat_eq_some.mp hx
      have e : j' = j := Option.some.inj (hj'.symm.trans hj)
      subst e
      change G.givenUp (j'.torn s.now .failed .sourceReadError).port
      rw [c, show j'.port = i from hxp]
      exact hi
    · exact hp h _ (Job.torn_settled rfl _ _)

/-- What a move does to the ends of jobs, an arrival apart. -/
theorem Move.ends {f : Bool} (m : Move G s t l f) (hQ : ∀ h k, Job.endedOn G h k → Q h k)
    (hp : s.portsOk ∨ ∀ h k, k.settled → Q h k) : EndStep Q s t l ∨ (G.arrived s ∧
      ∀ h q, t.job? h = some q → (q.state.terminal = true → ∃ j, s.job? h = some j ∧ j.state.terminal = true) ∧
        (q.endDue → ∃ j, s.job? h = some j ∧ (j.endDue ∨ (j.state = .reading ∧ j.ingest.final ≠ none)))) := by
  cases m with
  | quiet hv _ => exact .inl (DueStep.of_jobs (view_jobs hv) _).ends
  | owe => exact .inl (DueStep.refl s _).ends
  | inserted i m _ =>
    refine .inl (DueStep.ends fun h k hk => ?_)
    rw [clearSession_job?] at hk
    obtain ⟨j, hj, rfl⟩ := Option.map_eq_some_iff.mp hk
    refine .of (s := s) hj ?_ ?_ <;> split
    · exact id
    · exact id
    · exact fun e => .inl (e.congr rfl rfl rfl rfl)
    · exact .inl
  | lost i f hi hf => exact .inl (sourceLost_ends hQ hi hf hp)
  | tagsReset i _ => exact .inl (DueStep.of_jobs rfl _).ends
  | arrived i k h index num data ha _ => exact .inr ⟨ha, arrived_due s i k h index num data⟩
  | readGivenUp i k h hi hk => exact .inl (readGivenUp_ends hQ hi hk hp _)
  | written r _ => exact .inl (legWritten_due s r).ends
  | dropped h x c => exact .inl (dropLeg_due s h x _ _ (.inl (by cases x <;> simp [afterLeg]))).ends
  | legsLost x =>
    refine .inl (DueStep.ends ?_)
    exact (dropLegs_due s x _ _ _).trans (m := []) (.of_jobs (emptyReader_spec _ x).1 [])
  | legsShed x => exact .inl (dropLegs_due s x _ _ _).ends
  | counted r g hg =>
    refine .inl (DueStep.ends (count_due s r.job _ _ fun j hj => ⟨rfl, rfl, rfl, map_modify_state fun m hm => ?_⟩))
    exact (hg m (State.leg?_eq_some.mpr ⟨j, hj, hm⟩)).state
  | digested h c hc => exact .inl (DueStep.ends (count_due s h _ _ fun j hj => ⟨rfl, (hc j hj).2, rfl, rfl⟩))
  | verified d r _ => exact .inl (verifyFinal_due s d r).ends
  | loaded h b hn _ _ =>
    refine .inl (DueStep.ends fun k q hq => ?_)
    rw [loadInto_job?] at hq
    split at hq
    · cases hq
      refine ⟨fun (e : JobState.loaded.terminal = true) => (by cases e), fun d => ?_⟩
      rcases d.running with e | e <;> cases e
    · exact .same hq
  | cancelledLoaded h j hc hj hl =>
    refine .inl fun k q hq => ?_
    have hq' : (s.endLoaded .aborted .cancelled h).job? k = some q := hq
    rw [endLoaded_job?] at hq'
    split at hq'
    · next e =>
      subst e
      rw [hj] at hq'
      cases hq'
      obtain ⟨a, b, -⟩ := Job.torn_spec (now := s.now) (o := .aborted) (c := .cancelled) (j := j) (by rw [hl]; rfl)
      exact .inl (hQ h _ ⟨.inr (.inr (.inr (.inr (.inr ⟨a, b, hc⟩)))), (Job.torn_settled rfl _ _).2⟩)
    · exact .inr (.same hq')
  | cancelled h hc =>
    refine .inl (tearJob_ends s h _ _ _ fun j _ ht => hQ h _ ⟨?_, (Job.torn_settled rfl _ _).2⟩)
    obtain ⟨a, b, -⟩ := Job.torn_spec (now := s.now) (o := .aborted) (c := .cancelled) ht
    exact .inr (.inr (.inr (.inr (.inr ⟨a, b, hc⟩))))
  | released h j _ hj ht =>
    refine .inl (DueStep.ends fun k q hq => ?_)
    rw [release_job?] at hq
    split at hq
    · cases hq
    · exact .same hq
  | region d r _ _ => exact .inl (DueStep.of_jobs rfl _).ends
  | granted i _ =>
    refine .inl (DueStep.ends ?_)
    unfold State.grantIngest
    split
    · split
      · exact .refl s _
      · next h k _ _ _ j hj =>
        exact ((DueStep.of_jobs (s := s) (t := s.reserve h j.requested (.ingest j.writingTargets)) rfl []).trans (m := [])
          (count_due _ h (fun j => { j with requested := j.requested + 1 }) [] fun _ _ => ⟨rfl, rfl, rfl, rfl⟩)).trans (m := []) (.of_jobs rfl [])
    · exact .refl s _

/-- A move either releases a terminal job or takes jobs forward. -/
theorem Move.advances {f : Bool} (m : Move G s t l f) :
    s.advancesTo t ∨ ∃ h j, s.job? h = some j ∧ t = s.release h j := by
  have hG : ∀ {G' : Grounds} {u : State} {k : List Todo} {b : Bool}, ¬ G'.released → Move G' s u k b → s.advancesTo u :=
    fun {G'} _ _ _ hr m => Atoms.inv (G := { G' with announces := False }) (fun t => s.advancesTo t) (fun _ _ a ih => ih.trans (a.advances hr))
      (m.atoms False) s.advancesTo_refl
  have hF : ¬ ({ G with released := False } : Grounds).released := id
  cases m with
  | quiet hv hh => exact .inl (hG hF (.quiet hv hh))
  | owe l hl => exact .inl (hG hF (.owe s l hl))
  | inserted i m hi => exact .inl (hG hF (.inserted s i m hi))
  | lost i f hi hf => exact .inl (hG hF (.lost s i f hi hf))
  | tagsReset i hm => exact .inl (hG hF (.tagsReset s i hm))
  | arrived i k h index num data ha hk => exact .inl (hG hF (.arrived s i k h index num data ha hk))
  | readGivenUp i k h hi hk => exact .inl (hG hF (.readGivenUp s i k h hi hk))
  | written r hr => exact .inl (hG hF (.written s r hr))
  | dropped h x c => exact .inl (hG hF (.dropped s h x c))
  | legsLost x => exact .inl (hG hF (.legsLost s x))
  | legsShed x => exact .inl (hG hF (.legsShed s x))
  | counted r g hg => exact .inl (hG hF (.counted s r g hg))
  | digested h c hc => exact .inl (hG hF (.digested s h c hc))
  | verified d r hr => exact .inl (hG hF (.verified s d r hr))
  | loaded h b hn hm hb => exact .inl (hG hF (.loaded s h b hn hm hb))
  | cancelledLoaded h j hc hj hl => exact .inl (hG hF (.cancelledLoaded s h j hc hj hl))
  | cancelled h hc => exact .inl (hG hF (.cancelled s h hc))
  | released h j _ hj _ => exact .inr ⟨h, j, hj, rfl⟩
  | region d r h1 h2 => exact .inl (hG hF (.region s d r h1 h2))
  | granted i hw => exact .inl (hG hF (.granted s i hw))

/-! ## Ends along a path -/

/-- A job's end was due, or it was still READING with a final digest (which no job is, R14). -/
def State.wasDue (s : State) (h : Fin 64) : Prop :=
  ∃ j, s.job? h = some j ∧ (j.endDue ∨ (j.state = .reading ∧ j.ingest.final ≠ none))

/-- A job of a path: ended on grounds, or as it was but for an end still to be looked at. -/
def Job.accounted (Q : Fin 64 → Job → Prop) (s : State) (l : List Todo) (h : Fin 64) (k : Job) : Prop :=
  Q h k ∨ ((k.state.terminal = true → ∃ j, s.job? h = some j ∧ j.state.terminal = true) ∧ (k.endDue → s.wasDue h ∨ dueIn h l))

theorem EndStep.accounted {u : State} {m : List Todo} (ha : ∀ h k, t.job? h = some k → k.accounted Q s l h) (e : EndStep Q t u m)
    (hst : ∀ h j k, t.job? h = some j → u.job? h = some k → Q h j → Q h k) : ∀ h k, u.job? h = some k → k.accounted Q s (m ++ l) h := by
  intro h k hk
  refine (e h k hk).elim .inl fun e => ?_
  by_cases hq : ∃ j, t.job? h = some j ∧ Q h j
  · obtain ⟨j, hj, hq⟩ := hq
    exact .inl (hst h j k hj hk hq)
  · have hold : ∀ j, t.job? h = some j → (j.state.terminal = true → ∃ j, s.job? h = some j ∧ j.state.terminal = true) ∧
        (j.endDue → s.wasDue h ∨ dueIn h l) := fun j hj => (ha h j hj).resolve_left fun q => hq ⟨j, hj, q⟩
    refine .inr ⟨fun ht => ?_, fun hd => ?_⟩
    · obtain ⟨j, hj, hjt⟩ := e.1 ht
      exact (hold j hj).1 hjt
    · rcases e.2 hd with ⟨j, hj, hjd⟩ | e
      · exact ((hold j hj).2 hjd).imp id fun e => e.mono (List.subset_append_right _ _)
      · exact .inr (e.mono (List.subset_append_left _ _))

/-- The ends of jobs along a path, Q being kept by the jobs that have it. -/
theorem Path.ends {f : Bool} (p : Path G s t l f) (ho : s.outcomesOk) (hQ : ∀ h k, Job.endedOn G h k → Q h k)
    (hA : ∀ u, G.arrived u → ∀ h, u.job? h = s.job? h)
    (hp : s.seqOk [] ∨ ∀ h k, k.settled → Q h k)
    (hst : ∀ h j k, Q h j → j.outcomeOk → j.advancesTo k → Q h k) : ∀ h k, t.job? h = some k → k.accounted Q s l h := by
  have stand : ∀ {t u : State}, t.outcomesOk → t.advancesTo u → ∀ h j k, t.job? h = some j → u.job? h = some k → Q h j → Q h k := by
    intro t u ht ha h j k hj hk hq
    obtain ⟨k', hk', a⟩ := ha.jobs h j hj
    rw [hk] at hk'
    cases hk'
    exact hst h j k hq (ht.1 h j hj) a
  induction p with
  | start => exact fun h k hk => .inr ⟨fun ht => ⟨k, hk, ht⟩, fun hd => .inl ⟨k, hk, .inl hd⟩⟩
  | @move t u l f g p m ih =>
    have ht := (p.outcomes ho).outcomes
    have hports : t.portsOk ∨ ∀ h k, k.settled → Q h k := hp.imp (fun hp => (p.seqOk ho hp).ports) id
    rcases m.ends hQ hports with e | ⟨ha, e⟩
    · have := EndStep.accounted ih e fun h j k hj hk hq => ?_
      · rwa [List.append_nil] at this
      · rcases m.advances with a | ⟨g, q, hg, rfl⟩
        · exact stand ht a h j k hj hk hq
        · rw [release_job?] at hk
          split at hk
          · cases hk
          · rw [hj] at hk
            cases hk
            exact hq
    · intro h k hk
      obtain ⟨e1, e2⟩ := e h k hk
      simp only [hA t ha] at e1 e2
      exact .inr ⟨e1, fun hd => .inl (e2 hd)⟩
  | @perform t x l f p ih =>
    have ht := (p.outcomes ho).outcomes
    obtain ⟨e1, e2⟩ := perform_ends (Q := Q) hQ x
    have := EndStep.accounted ih e1 (stand ht (perform_keepsJobs t x).advances)
    intro h k hk
    rcases this h k hk with q | ⟨h1, h2⟩
    · exact .inl q
    · refine .inr ⟨h1, fun hd => (h2 hd).imp id fun e => ?_⟩
      by_cases hx : x = .test h ∨ x = .ingestFinal h
      · exact (e2 h k hx hk hd).mono (List.subset_append_left _ _)
      · refine e.imp (fun e => ?_) fun e => ?_
        · rw [List.mem_append, List.mem_cons] at e
          rw [List.mem_append]
          exact e.imp id fun e => e.resolve_left fun e => hx (.inl e.symm)
        · rw [List.mem_append, List.mem_cons] at e
          rw [List.mem_append]
          exact e.imp id fun e => e.resolve_left fun e => hx (.inr e.symm)
  | @announce t f p ih =>
    have ht := (p.outcomes ho).outcomes
    have e : DueStep t t.announce [] := by
      refine foldl_due _ _ t fun u h _ => ?_
      rcases announceJob_cases u h with e | ⟨j, -, -, -, e⟩ <;> rw [e]
      · exact .refl u []
      · exact (modJob_due_of_same u h (fun j => { j with announced := true }) [] fun _ _ => ⟨rfl, rfl, rfl, rfl⟩).trans (m := [])
          (.of_jobs rfl [])
    exact EndStep.accounted ih e.ends (stand ht (announce_advances t))
  | cut p hn _ => exact absurd (p.outcomes ho).outcomes.legsFit hn

theorem job?_of_reset_view {t : State} (hv : t.view = State.reset.view) (h : Fin 64) : t.job? h = none := by
  rw [view_job? hv]
  simp [State.job?, State.reset]

/-- No event leaves the end of a job due that was not, and each end has a cause of its own. -/
theorem exec_ends {c : Instr} {k : Job} (ho : s.outcomesOk) (he : exec c s = .next t) (hk : t.job? h = some k) :
    (k.endDue → s.wasDue h) ∧
      (s.sequencersOk → k.state.terminal = true → (∃ j, s.job? h = some j ∧ j.state.terminal = true) ∨ k.endedBy h c s) := by
  rcases exec_path he with ⟨-, hv⟩ | ⟨s1, hv, p⟩
  · rw [job?_of_reset_view hv] at hk
    cases hk
  · have hjob : ∀ g, s1.job? g = s.job? g := fun g => view_job? hv g
    have ho1 : s1.outcomesOk := ho.of_view hv
    have hA : ∀ u, (groundsOf c s).arrived u → ∀ g, u.job? g = s1.job? g :=
      fun u hu g => (State.job?_congr hu g).trans (hjob g).symm
    refine ⟨fun hd => ?_, fun hs ht => ?_⟩
    · have := p.ends (Q := fun _ k => k.state.terminal = true) ho1 (fun _ _ e => e.settled.1) hA (.inr fun _ _ e => e.1)
        (fun _ j k e _ a => by rw [(a.final e).1]; exact e) h k hk
      rcases this with q | ⟨-, q⟩
      · exact absurd q hd.not_terminal
      · rcases q hd with ⟨j, hj, e⟩ | e
        · exact ⟨j, (hjob h).symm.trans hj, e⟩
        · exact absurd e (by simp [dueIn])
    · have := p.ends (Q := fun h k => k.endedFor (groundsOf c s) h) ho1 (fun _ _ e => e.1) hA
        (.inl ((seqOk_nil.mpr hs).of_same (.of_view hv) [])) (fun _ j k e o a => e.stands a o) h k hk
      rcases this with q | ⟨q, -⟩
      · exact .inr (Job.endedFor_groundsOf.mp q)
      · obtain ⟨j, hj, e⟩ := q ht
        exact .inl ⟨j, (hjob h).symm.trans hj, e⟩

/-- Settles O16: along the moves of a command jobs go forward, outcomes stay sound, sequencers and jobs agree, and each end that is due is
taken on the command's grounds. -/
theorem outcomesStandUntilRelease : Obligations.OutcomesStandUntilRelease := by
  unfold Obligations.OutcomesStandUntilRelease
  exact ⟨fun _ _ _ hc hf he => exec_advances hc hf he, fun _ _ ho hs => step_outcomes ho hs,
    fun _ _ ho hq hs => step_sequencers ho hq hs, fun _ _ _ _ _ ho he hk => exec_ends ho he hk⟩

end Sys2Proof.Machine
end

