-- ==== Sys2Proof/Proofs/P22.lean ====
section
/-! O13 (`everyEndIsAnnounced`): an ended job hands over its notice at the end of the event, and the session counters count the session's
jobs. -/

namespace Sys2Proof.Machine

open Sys2Proof

variable {s t : State} {h : Fin 64} {l : List Todo} {G : Grounds}

/-! ## What is announced -/

/-- A leg's placement leaves all of a job but its legs. -/
theorem placeLeg_job? (s : State) (r : LegRef) (k : Fin 64) :
    ∃ f : Job → List Leg, (s.placeLeg r).job? k = (s.job? k).map fun j => { j with legs := f j } := by
  have hid : ∃ f : Job → List Leg, s.job? k = (s.job? k).map fun j => { j with legs := f j } := ⟨Job.legs, by cases s.job? k <;> rfl⟩
  have hput : ∀ (u : State), u.jobs = s.jobs → ∀ g : Leg → Leg, ∃ f : Job → List Leg,
      (u.modLeg r g).job? k = (s.job? k).map fun j => { j with legs := f j } := by
    intro u hu g
    rw [State.job?_modLeg]
    split
    · next e =>
      subst e
      rw [State.job?_congr hu]
      exact ⟨_, rfl⟩
    · rw [State.job?_congr hu]
      exact hid
  unfold State.placeLeg
  split
  · split
    · exact hid
    · split
      · split
        · exact hput s rfl _
        · dsimp only
          split
          · exact hput _ rfl _
          · exact hput _ rfl _
      · exact hput s rfl _
  · exact hid

/-- A job that has handed over its notice has ended, in one step as in the next. -/
theorem Atom.announced (a : Atom G s t) (hs : ∀ h j, s.job? h = some j → j.announced = true → j.state.terminal = true) :
    ∀ h j, t.job? h = some j → j.announced = true → j.state.terminal = true := by
  intro h k hk ha
  cases a with
  | rest hj _ _ => exact hs h k (by rw [← State.job?_congr hj]; exact hk) ha
  | job g f hf =>
    rw [State.job?_modJob] at hk
    split at hk
    · next e =>
      subst e
      obtain ⟨j, hj, rfl⟩ := Option.map_eq_some_iff.mp hk
      rw [(hf j hj).terminal]
      exact hs g j hj (by rw [← (hf j hj).announced]; exact ha)
    · exact hs h k hk ha
  | place r =>
    obtain ⟨f, e⟩ := placeLeg_job? s r h
    rw [e] at hk
    obtain ⟨j, hj, rfl⟩ := Option.map_eq_some_iff.mp hk
    exact hs h j hj ha
  | finish g o c ho =>
    rw [finishJob_job?] at hk
    split at hk
    · obtain ⟨j, hj, rfl⟩ := Option.map_eq_some_iff.mp hk
      exact Job.finished_terminal _ ho _ _
    · exact hs h k hk ha
  | announce g _ =>
    rcases announceJob_cases s g with e | ⟨j, hj, ht, -, e⟩ <;> rw [e] at hk
    · exact hs h k hk ha
    · change (s.modJob g fun j => { j with announced := true }).job? h = some k at hk
      rw [State.job?_modJob] at hk
      split at hk
      · next e =>
        subst e
        rw [hj] at hk
        cases hk
        exact ht
      · exact hs h k hk ha
  | clear i _ =>
    rw [clearSession_job?] at hk
    obtain ⟨j, hj, rfl⟩ := Option.map_eq_some_iff.mp hk
    by_cases hp : j.port = i
    · rw [if_pos hp] at ha ⊢
      exact hs h j hj ha
    · rw [if_neg hp] at ha ⊢
      exact hs h j hj ha
  | load g b _ =>
    rw [loadInto_job?] at hk
    split at hk
    · cases hk
      cases ha
    · exact hs h k hk ha
  | release g j _ _ _ =>
    rw [release_job?] at hk
    split at hk
    · cases hk
    · exact hs h k hk ha
  | region d r _ _ => exact hs h k hk ha

/-- What a move leaves announced it found announced. -/
theorem Atom.found (a : Atom { G with announces := False } s t) {k : Job} (hk : t.job? h = some k) (ha : k.announced = true) :
    ∃ j, s.job? h = some j ∧ j.announced = true := by
  have hfin : ∀ now o c (j : Job), (j.finished now o c).announced = j.announced := by
    intro now o c j
    unfold Job.finished
    split <;> rfl
  cases a with
  | rest hj _ _ => exact ⟨k, by rw [← State.job?_congr hj]; exact hk, ha⟩
  | job g f hf =>
    rw [State.job?_modJob] at hk
    split at hk
    · next e =>
      subst e
      obtain ⟨j, hj, rfl⟩ := Option.map_eq_some_iff.mp hk
      exact ⟨j, hj, by rw [← (hf j hj).announced]; exact ha⟩
    · exact ⟨k, hk, ha⟩
  | place r =>
    obtain ⟨f, e⟩ := placeLeg_job? s r h
    rw [e] at hk
    obtain ⟨j, hj, rfl⟩ := Option.map_eq_some_iff.mp hk
    exact ⟨j, hj, ha⟩
  | finish g o c ho =>
    rw [finishJob_job?] at hk
    split at hk
    · next e =>
      subst e
      obtain ⟨j, hj, rfl⟩ := Option.map_eq_some_iff.mp hk
      exact ⟨j, hj, by rw [← hfin s.now o c j]; exact ha⟩
    · exact ⟨k, hk, ha⟩
  | announce g hG => exact hG.elim
  | clear i _ =>
    rw [clearSession_job?] at hk
    obtain ⟨j, hj, rfl⟩ := Option.map_eq_some_iff.mp hk
    exact ⟨j, hj, by split at ha <;> exact ha⟩
  | load g b _ =>
    rw [loadInto_job?] at hk
    split at hk
    · cases hk
      cases ha
    · exact ⟨k, hk, ha⟩
  | release g j _ _ _ =>
    rw [release_job?] at hk
    split at hk
    · cases hk
    · exact ⟨k, hk, ha⟩
  | region d r _ _ => exact ⟨k, hk, ha⟩

theorem Move.found {f : Bool} (m : Move G s t l f) {k : Job} (hk : t.job? h = some k) (ha : k.announced = true) :
    ∃ j, s.job? h = some j ∧ j.announced = true :=
  Atoms.inv (G := { G with announces := False })
    (fun t => ∀ k, t.job? h = some k → k.announced = true → ∃ j, s.job? h = some j ∧ j.announced = true)
    (fun _ _ a ih k hk ha => let ⟨j, hj, hja⟩ := a.found hk ha; ih j hj hja) (m.atoms False) (fun k hk ha => ⟨k, hk, ha⟩) k hk ha

theorem perform_found (s : State) (x : Todo) {k : Job} (hk : (s.perform x).1.job? h = some k) (ha : k.announced = true) :
    ∃ j, s.job? h = some j ∧ j.announced = true :=
  Atoms.inv (G := { groundsOf .tick s with announces := False })
    (fun t => ∀ k, t.job? h = some k → k.announced = true → ∃ j, s.job? h = some j ∧ j.announced = true)
    (fun _ _ a ih k hk ha => let ⟨j, hj, hja⟩ := Atom.found (G := groundsOf .tick s) a hk ha; ih j hj hja) (perform_atoms s x) (fun k hk ha => ⟨k, hk, ha⟩) k hk ha

/-- A job terminal after a move that ends none was terminal before it, with its notice as it was. -/
theorem Move.still {f : Bool} (m : Move G s t l f) (hf : f = false) : ∀ k, t.job? h = some k → k.state.terminal = true →
    ∃ j, s.job? h = some j ∧ j.state.terminal = true ∧ k.announced = j.announced := by
  have hmod : ∀ (g : Fin 64) (f : Job → Job), (∀ j, (f j).state = j.state ∧ (f j).announced = j.announced) → ∀ k,
      (s.modJob g f).job? h = some k → k.state.terminal = true →
        ∃ j, s.job? h = some j ∧ j.state.terminal = true ∧ k.announced = j.announced := by
    intro g f hf k hk ht
    rw [State.job?_modJob] at hk
    split at hk
    · next e =>
      subst e
      obtain ⟨j, hj, rfl⟩ := Option.map_eq_some_iff.mp hk
      exact ⟨j, hj, by rw [← (hf j).1]; exact ht, (hf j).2⟩
    · exact ⟨k, hk, ht, rfl⟩
  have hcount : ∀ (g : Fin 64) (f : Job → Job), (∀ j, (f j).state = j.state ∧ (f j).announced = j.announced) → ∀ k,
      (s.count g f).job? h = some k → k.state.terminal = true →
        ∃ j, s.job? h = some j ∧ j.state.terminal = true ∧ k.announced = j.announced :=
    fun g f hf => hmod g _ fun j => by
      split
      · exact ⟨rfl, rfl⟩
      · exact hf j
  intro k hk ht
  cases m with
  | quiet hv _ => exact ⟨k, by rw [← view_job? hv]; exact hk, ht, rfl⟩
  | owe => exact ⟨k, hk, ht, rfl⟩
  | tagsReset i _ => exact ⟨k, hk, ht, rfl⟩
  | counted r g _ => exact hcount r.job (fun j => { j with legs := j.legs.modify r.leg g }) (fun _ => ⟨rfl, rfl⟩) k hk ht
  | released g j _ _ _ =>
    rw [release_job?] at hk
    split at hk
    · cases hk
    · exact ⟨k, hk, ht, rfl⟩
  | region d r _ _ => exact ⟨k, hk, ht, rfl⟩
  | granted i _ =>
    unfold State.grantIngest at hk
    split at hk
    · split at hk
      · exact ⟨k, hk, ht, rfl⟩
      · next g n _ _ _ j hj =>
        obtain ⟨q, hq, e⟩ := hcount g (fun j => { j with requested := j.requested + 1 }) (fun _ => ⟨rfl, rfl⟩) k hk ht
        exact ⟨q, hq, e⟩
    · exact ⟨k, hk, ht, rfl⟩
  | _ => cases hf

/-- After the notices have been handed over each job that has ended has handed over its own. -/
theorem announced_of_announce (s : State) : ∀ k, s.announce.job? h = some k → k.state.terminal = true → k.announced = true := by
  have hone : ∀ (u : State) (g : Fin 64) (k : Job), (u.announceJob g).job? h = some k → k.state.terminal = true →
      (g = h ∨ ∀ j, u.job? h = some j → j.state.terminal = true → j.announced = true) → k.announced = true := by
    intro u g k hk ht hor
    unfold State.announceJob at hk
    split at hk
    · next hn =>
      rcases hor with e | e
      · subst e
        rw [hn] at hk
        cases hk
      · exact e k hk ht
    · next j hj =>
      split at hk
      · change (u.modJob g fun j => { j with announced := true }).job? h = some k at hk
        rw [State.job?_modJob] at hk
        split at hk
        · obtain ⟨q, -, rfl⟩ := Option.map_eq_some_iff.mp hk
          rfl
        · next hne => exact hor.resolve_left hne k hk ht
      · next hn =>
        rcases hor with e | e
        · subst e
          rw [hj] at hk
          cases hk
          simpa [ht] using hn
        · exact e k hk ht
  have hfold : ∀ (p : List (Fin 64)) (u : State), (h ∈ p ∨ ∀ j, u.job? h = some j → j.state.terminal = true → j.announced = true) →
      ∀ k, (p.foldl State.announceJob u).job? h = some k → k.state.terminal = true → k.announced = true := by
    intro p
    induction p with
    | nil => exact fun u hu => hu.resolve_left (by simp)
    | cons g rest ih =>
      intro u hu
      refine ih _ ?_
      by_cases e : g = h
      · exact .inr fun k hk ht => hone u g k hk ht (.inl e)
      · refine hu.imp (fun hm => (List.mem_cons.mp hm).resolve_left (Ne.symm e)) fun hu k hk ht => hone u g k hk ht (.inr hu)
  exact hfold allHandles s (.inl (mem_allHandles h))

/-- Along a path the jobs that have handed over their notices have ended, and where none has ended since, those that have ended have handed
it over. -/
theorem Path.announced {f : Bool} (p : Path G s t l f) (hs : s.endsAnnounced) :
    (∀ h j, t.job? h = some j → j.announced = true → j.state.terminal = true) ∧
      (f = false → ∀ h j, t.job? h = some j → j.state.terminal = true → j.announced = true) := by
  refine ⟨p.atoms.inv _ (fun _ _ a ih => a.announced ih) fun h j hj ha => by rw [← hs h j hj]; exact ha, ?_⟩
  induction p with
  | start => exact fun _ h j hj ht => by rw [hs h j hj]; exact ht
  | @move t u l f g p m ih =>
    intro hf h k hk ht
    obtain ⟨hf1, hf2⟩ : f = false ∧ g = false := by simpa using hf
    obtain ⟨j, hj, hjt, e⟩ := m.still hf2 k hk ht
    rw [e]
    exact ih hf1 h j hj hjt
  | perform p ih => exact fun hf => by cases hf
  | announce p ih => exact fun _ h k hk ht => announced_of_announce _ k hk ht
  | cut p hn ih => exact ih

theorem step_endsAnnounced (hs : s.endsAnnounced) (he : step s = .next t) : t.endsAnnounced := by
  rcases step_path he with hv | ⟨G, s1, hv, p⟩
  · intro h j hj
    rw [job?_of_reset_view hv] at hj
    cases hj
  · have hs1 : s1.endsAnnounced := fun h j hj => hs h j (by rw [← view_job? hv]; exact hj)
    obtain ⟨h1, h2⟩ := p.announced hs1
    intro h j hj
    have a := h1 h j hj
    have b := h2 rfl h j hj
    cases hc : j.announced <;> cases ht : j.state.terminal <;> simp_all

/-! ## Notices of ended jobs -/

/-- The notice of a job's end is in the Notice Queue, or notices were lost. -/
def State.holdsEnd (s : State) (h : Fin 64) (k : Job) : Prop :=
  .jobFinished h k.state k.cause k.goodLegs k.port ∈ s.handler.notices ∨ s.handler.noticeLost = true

theorem State.holdsEnd.grows {k : Job} (e : s.holdsEnd h k) (hg : s.handler.grows t.handler) : t.holdsEnd h k :=
  e.imp (fun e => hg.1.subset e) hg.2

theorem handler_of_frame (e : t.cascadeFrame = s.cascadeFrame) : t.handler = s.handler := by
  simp only [State.cascadeFrame, Prod.mk.injEq] at e
  obtain ⟨-, -, -, -, -, -, -, -, -, e, -⟩ := e
  exact e

theorem sourceLost_handler (s : State) (i : Fin 8) : (s.sourceLost i).1.handler = s.handler := by
  have hf : ∀ (p : List (Fin 64)) (u : State), (p.foldl (State.endLoaded · .failed .sourceLost ·) u).handler = u.handler :=
    fun p u => foldl_keeps State.handler (fun u h => u.endLoaded .failed .sourceLost h)
      (fun u h => handler_of_frame (by rw [State.endLoaded, abandonLegs_frame, finishJob_frame])) p u
  unfold State.sourceLost
  dsimp only
  split
  · refine (handler_of_frame (tearJob_frame _ _ _ _)).trans ?_
    exact hf _ s
  · exact hf _ s

theorem dropLeg_handler (s : State) (h : Fin 64) (x : Target) (y : LegState) (c : Option LegCause) :
    (s.dropLeg h x y c).handler = s.handler := by
  refine handler_of_frame ?_
  rcases dropLeg_cases s h x y c with e | ⟨r, m, -, -, ⟨-, e⟩ | ⟨-, ⟨d, -, e⟩ | ⟨-, e⟩⟩⟩ <;> rw [e]
  · rw [modWriter_frame, settleJobSlots_frame, endLeg_frame]
  · rw [withdrawVerify_frame, endLeg_frame]
  · rw [endLeg_frame]

theorem dropLegs_handler (s : State) (x : Target) (test : LegState → Bool) (y : LegState) (c : Option LegCause) :
    (s.dropLegs x test y c).handler = s.handler :=
  foldl_keeps State.handler (fun u h => u.dropLeg h x y c) (fun u h => dropLeg_handler u h x y c) _ s

theorem blockArrived_handler (s : State) (i k : Fin 8) (g : Fin 64) (index num : Nat) (data : List Byte) :
    (s.blockArrived i k g index num data).1.handler = s.handler := by
  unfold State.blockArrived
  dsimp only
  generalize hu : ((s.fill num data).setReadTag i k ReadTag.release).queueSlot num g (s.owedAt num) = u
  have huh : u.handler = s.handler := by
    rw [← hu]
    refine (foldl_keeps State.handler _ (fun t x => ?_) _ _).trans rfl
    split <;> rfl
  generalize hv : (if u.ingestAt g index = true then u.makeReady num else u) = v
  have hvh : v.handler = s.handler := by
    rw [← hv, ← huh]
    split <;> rfl
  split
  · exact hvh
  · split
    · exact hvh
    · exact hvh

theorem Move.grows {f : Bool} (m : Move G s t l f) : s.handler.grows t.handler := by
  have same : ∀ {u : State}, u.handler = s.handler → s.handler.grows u.handler := fun e => by rw [e]; exact .refl _
  cases m with
  | quiet _ hh => exact hh
  | lost i f _ _ => exact same (sourceLost_handler _ i)
  | arrived i k h index num data _ _ => exact same (blockArrived_handler s i k h index num data)
  | readGivenUp i k h _ _ => exact same ((handler_of_frame (tearJob_frame _ _ _ _)).trans rfl)
  | written r _ => exact same (handler_of_frame (legWritten_frame s r))
  | dropped h x c => exact same (dropLeg_handler s h x _ _)
  | legsLost x =>
    obtain ⟨-, hf, -⟩ := emptyReader_spec (s.dropLegs x LegState.lostWithTarget .failed (some .lost)) x
    exact same ((handler_of_frame hf).trans (dropLegs_handler s x _ _ _))
  | legsShed x => exact same (dropLegs_handler s x _ _ _)
  | verified d r _ => exact same (handler_of_frame (verifyFinal_frame s d r))
  | cancelledLoaded h j _ _ _ =>
    refine same ((handler_of_frame (t := s.endLoaded .aborted .cancelled h) ?_))
    rw [State.endLoaded, abandonLegs_frame, finishJob_frame]
  | cancelled h _ => exact same (handler_of_frame (tearJob_frame s h _ _))
  | released h j _ _ _ =>
    refine same ?_
    unfold State.release
    dsimp only
    split <;> rfl
  | granted i _ =>
    refine same ?_
    unfold State.grantIngest
    split
    · split <;> rfl
    · rfl
  | _ => exact same rfl

end Sys2Proof.Machine
end

