-- ==== Sys2Proof/Proofs/P23.lean ====
section
/-! O13: the notice of each end, and the session counters. -/

namespace Sys2Proof.Machine

open Sys2Proof

variable {s t : State} {h : Fin 64} {l : List Todo} {G : Grounds}

/-- A job that has ended on a path has ended with all its legs, and once handed over its notice is held, or notices were lost. -/
def State.tells (s t : State) : Prop :=
  ∀ h k, t.job? h = some k → k.state.terminal = true → (∃ j, s.job? h = some j ∧ j.state.terminal = true) ∨
    ((∀ l ∈ k.legs, l.state.terminal = true) ∧ (k.announced = true → t.holdsEnd h k))

/-- A step that takes jobs forward, ends jobs with all their legs only and hands over no notice. -/
theorem State.tells.step {u : State} (ht : s.tells t) (hg : t.handler.grows u.handler)
    (ha : ∀ h j k, t.job? h = some j → u.job? h = some k → j.advancesTo k)
    (hf : ∀ h k, u.job? h = some k → k.announced = true → ∃ j, t.job? h = some j ∧ j.announced = true)
    (hp : ∀ h j, t.job? h = some j → j.announced = true → j.state.terminal = true)
    (he : ∀ h k, u.job? h = some k → k.settled ∨ (k.state.terminal = true → ∃ j, t.job? h = some j ∧ j.state.terminal = true)) :
    s.tells u := by
  intro h k hk hkt
  by_cases hex : ∃ j, t.job? h = some j ∧ j.state.terminal = true
  · obtain ⟨j, hj, hjt⟩ := hex
    refine (ht h j hj hjt).imp id fun ⟨h1, h2⟩ => ?_
    have a := ha h j k hj hk
    have hl := a.legStates h1
    refine ⟨terminal_congr hl h1, fun hka => ?_⟩
    obtain ⟨j', hj', hja⟩ := hf h k hk hka
    rw [hj] at hj'
    cases hj'
    have := (h2 hja).grows hg
    unfold State.holdsEnd at this ⊢
    rw [(a.final hjt).1, (a.final hjt).2.1, a.port, Job.goodLegs_congr hl]
    exact this
  · rcases he h k hk with e | e
    · refine .inr ⟨e.2, fun hka => ?_⟩
      obtain ⟨j, hj, hja⟩ := hf h k hk hka
      exact absurd ⟨j, hj, hp h j hj hja⟩ hex
    · exact absurd (e hkt) hex

theorem announceJob_tells (ht : s.tells t) (g : Fin 64) : s.tells (t.announceJob g) := by
  rcases announceJob_cases t g with e | ⟨j, hj, hjt, -, e⟩ <;> rw [e]
  · exact ht
  · intro h k hk hkt
    have hn := notify_hands (t.modJob g fun j => { j with announced := true }) (.jobFinished g j.state j.cause j.goodLegs j.port)
    have hk' : (t.modJob g fun j => { j with announced := true }).job? h = some k := hk
    rw [State.job?_modJob] at hk'
    split at hk'
    · next e =>
      subst e
      rw [hj] at hk'
      cases hk'
      refine (ht g j hj hjt).imp id fun ⟨h1, h2⟩ => ⟨h1, fun _ => ?_⟩
      -- the notice is appended, or the queue is full and it is lost
      unfold State.holdsEnd
      rw [hn.1, hn.2]
      by_cases hlen : 32 - t.handler.notices.length < 1
      · right
        simp [State.modJob, hlen]
      · left
        refine List.mem_append_right _ ?_
        obtain ⟨m, hm⟩ : ∃ m, 32 - t.handler.notices.length = m + 1 := ⟨32 - t.handler.notices.length - 1, by omega⟩
        change _ ∈ List.take (32 - t.handler.notices.length) _
        rw [hm]
        simp [Job.goodLegs]
    · exact (ht h k hk' hkt).imp id fun ⟨h1, h2⟩ => ⟨h1, fun ha => (h2 ha).grows hn.grows⟩

theorem Path.tells {f : Bool} (p : Path G s t l f) (hs : s.endsAnnounced) : s.tells t := by
  induction p with
  | start => exact fun h k hk hkt => .inl ⟨k, hk, hkt⟩
  | @move t u l f g p m ih =>
    refine ih.step m.grows (fun h j k hj hk => ?_) (fun h k hk ha => m.found hk ha) (p.announced hs).1 fun h k hk => ?_
    · rcases m.advances with a | ⟨r, q, -, rfl⟩
      · obtain ⟨k', hk', a⟩ := a.jobs h j hj
        rw [hk] at hk'
        cases hk'
        exact a
      · rw [release_job?] at hk
        split at hk
        · cases hk
        · rw [hj] at hk
          cases hk
          exact j.advancesTo_refl
    · rcases m.ends (Q := fun _ k => k.settled) (fun _ _ e => e.settled) (.inr fun _ _ e => e) with e | ⟨-, e⟩
      · exact (e h k hk).imp id And.left
      · exact .inr (e h k hk).1
  | @perform t x l f p ih =>
    refine ih.step (by rw [handler_of_frame (perform_frame t x)]; exact .refl _) (fun h j k hj hk => ?_) (fun h k hk ha => perform_found t x hk ha)
      (p.announced hs).1 fun h k hk => ?_
    · obtain ⟨k', hk', a⟩ := (perform_keepsJobs t x).advances.jobs h j hj
      rw [hk] at hk'
      cases hk'
      exact a
    · exact ((perform_ends (Q := fun _ k => k.settled) (G := G) (fun _ _ e => e.settled) x).1 h k hk).imp id And.left
  | announce p ih => exact foldl_inv (fun t : State => s.tells t) _ (fun _ g ht => announceJob_tells ht g) _ _ ih
  | cut p hn ih => exact ih

/-! ## Counts over handles -/

/-- What the session counters see of a job: its port, whether it is of the session, and its outcome. -/
def Job.tally (j : Job) : Fin 8 × Bool × Option JobState :=
  (j.port, j.session, if j.state.terminal then some j.state else none)

def State.tally (s : State) (h : Fin 64) : Option (Fin 8 × Bool × Option JobState) :=
  (s.job? h).map Job.tally

/-- How many jobs of a port's session have an outcome, or have none. -/
def State.tallied (s : State) (i : Fin 8) (o : Option JobState) : Nat :=
  (allHandles.filter fun h => decide (s.tally h = some (i, true, o))).length

theorem tally_eq {i : Fin 8} {o : Option JobState} : s.tally h = some (i, true, o) ↔
    ∃ j, s.job? h = some j ∧ j.port = i ∧ j.session = true ∧ (if j.state.terminal then some j.state else none) = o := by
  unfold State.tally Job.tally
  rw [Option.map_eq_some_iff]
  simp [Prod.ext_iff]

theorem sessionJobs_eq (s : State) (i : Fin 8) {test : JobState → Bool} {o : Option JobState}
    (ht : ∀ x : JobState, test x = decide ((if x.terminal then some x else none) = o)) : s.sessionJobs i test = s.tallied i o := by
  unfold State.sessionJobs State.tallied
  congr 1
  refine List.filter_congr fun h _ => ?_
  rw [Bool.eq_iff_iff, decide_eq_true_eq, tally_eq]
  cases hj : s.job? h with
  | none => simp
  | some j => simp [ht, and_assoc]

/-- The session counters, by tallies. -/
theorem sessionsOk_iff : s.sessionsOk ↔ ∀ i : Fin 8, (s.sessions[i.val]).live = s.tallied i none ∧
    (s.sessions[i.val]).failed = s.tallied i (some .failed) ∧ s.tallied i (some .done) ≤ (s.sessions[i.val]).done ∧
      (s.sessions[i.val]).done ≤ 65535 := by
  unfold State.sessionsOk
  refine forall_congr' fun i => ?_
  rw [sessionJobs_eq s i (o := none) (fun x => by cases x <;> rfl), sessionJobs_eq s i (o := some .failed) (fun x => by cases x <;> rfl),
    sessionJobs_eq s i (o := some .done) (fun x => by cases x <;> rfl)]

theorem newlyDone_eq (s t : State) (i : Fin 8) : s.newlyDone t i =
    (allHandles.filter fun h => decide (t.tally h = some (i, true, some .done)) && !((s.job? h).any fun j => j.state.terminal)).length := by
  unfold State.newlyDone
  congr 1
  refine List.filter_congr fun h _ => ?_
  have hd : ∀ x : JobState, decide (x = .done) = decide ((if x.terminal then some x else none) = some .done) := fun x => by cases x <;> rfl
  rw [Bool.eq_iff_iff, Bool.and_eq_true, decide_eq_true_eq, tally_eq]
  cases hj : t.job? h with
  | none => simp
  | some j =>
    dsimp only
    rw [hd]
    simp [and_assoc]

/-- A count over the handles after a change at one. -/
theorem handles_change (p q : Fin 64 → Bool) (g : Fin 64) (hne : ∀ h, h ≠ g → q h = p h) :
    (allHandles.filter q).length + (if p g then 1 else 0) = (allHandles.filter p).length + (if q g then 1 else 0) := by
  have hsum : ∀ r : Fin 64 → Bool, (allHandles.filter r).length = ∑ h, if r h then 1 else 0 := by
    intro r
    rw [Finset.sum_boole, Nat.cast_id, ← List.toFinset_card_of_nodup (allHandles_nodup.filter r)]
    congr 1
    ext h
    simp [mem_allHandles]
  have hp := Finset.add_sum_erase Finset.univ (fun h => if p h then 1 else 0) (Finset.mem_univ g)
  have hq := Finset.add_sum_erase Finset.univ (fun h => if q h then 1 else 0) (Finset.mem_univ g)
  have he : ∑ h ∈ Finset.univ.erase g, (if q h then 1 else 0) = ∑ h ∈ Finset.univ.erase g, (if p h then 1 else 0) :=
    Finset.sum_congr rfl fun h hm => by rw [hne h (Finset.ne_of_mem_erase hm)]
  rw [hsum, hsum]
  omega

theorem tallied_change {i : Fin 8} {o : Option JobState} (g : Fin 64) (hne : ∀ h, h ≠ g → t.tally h = s.tally h) :
    t.tallied i o + (if s.tally g = some (i, true, o) then 1 else 0) = s.tallied i o + (if t.tally g = some (i, true, o) then 1 else 0) := by
  have := handles_change (fun h => decide (s.tally h = some (i, true, o))) (fun h => decide (t.tally h = some (i, true, o))) g
    fun h hh => by rw [hne h hh]
  simpa [State.tallied] using this

theorem tallied_congr {i : Fin 8} {o : Option JobState} (he : ∀ h, t.tally h = s.tally h) : t.tallied i o = s.tallied i o := by
  unfold State.tallied
  simp only [he]

theorem tallied_le (s : State) (i : Fin 8) (o : Option JobState) : s.tallied i o ≤ 64 := by
  have := List.length_filter_le (fun h => decide (s.tally h = some (i, true, o))) allHandles
  simpa [State.tallied, allHandles] using this

/-! ## Steps on tallies -/

theorem Job.movesTo.tally {j k : Job} (m : j.movesTo k) : k.tally = j.tally := by
  unfold Job.tally
  rw [m.advances.port, m.session, m.terminal]
  split
  · next ht => rw [(m.advances.final ht).1]
  · rfl

/-- What one step does to the tallies and the session counters. -/
inductive Tallies (G : Grounds) (s t : State) : Prop where
  | same : (∀ h, t.tally h = s.tally h) → t.sessions = s.sessions → Tallies G s t
  | finish (g : Fin 64) (p : Fin 8) (b : Bool) (o : JobState) : o.terminal = true → s.tally g = some (p, b, none) → t.tally g = some (p, b, some o) →
      (∀ h, h ≠ g → t.tally h = s.tally h) →
      t.sessions = (if b then setEntry s.sessions p fun c => c.ended o else s.sessions) → Tallies G s t
  | clear (i : Fin 8) : G.inserted i → (∀ h, t.tally h = (s.tally h).map fun x => if x.1 = i then (x.1, false, x.2.2) else x) →
      t.sessions = setEntry s.sessions i (fun _ => ⟨0, 0, 0⟩) → Tallies G s t
  | load (g : Fin 64) (p : Fin 8) : s.tally g = none → t.tally g = some (p, true, none) → (∀ h, h ≠ g → t.tally h = s.tally h) →
      t.sessions = setEntry s.sessions p (fun c => { c with live := c.live + 1 }) → Tallies G s t
  | release (g : Fin 64) (p : Fin 8) (b : Bool) (o : JobState) : G.released → s.tally g = some (p, b, some o) → t.tally g = none →
      (∀ h, h ≠ g → t.tally h = s.tally h) →
      t.sessions = (if o = .failed ∧ b = true then setEntry s.sessions p fun c => { c with failed := c.failed - 1 } else s.sessions) →
      Tallies G s t

theorem tally_of_job (e : t.job? h = s.job? h) : t.tally h = s.tally h := by
  rw [State.tally, e]
  rfl

theorem finishJob_sessions (s : State) (g : Fin 64) (o : JobState) (c : Option JobCause) {j : Job} (hj : s.job? g = some j)
    (ht : j.state.terminal = false) :
    (s.finishJob g o c).sessions = if j.session then setEntry s.sessions j.port fun c => c.ended o else s.sessions := by
  unfold State.finishJob
  rw [hj]
  simp only [ht, Bool.false_eq_true, if_false]
  split <;> rfl

theorem finishJob_of_none {g : Fin 64} (hj : s.job? g = none) (o : JobState) (c : Option JobCause) : s.finishJob g o c = s := by
  unfold State.finishJob
  rw [hj]

theorem finishJob_of_terminal {g : Fin 64} {j : Job} (hj : s.job? g = some j) (ht : j.state.terminal = true) (o : JobState) (c : Option JobCause) :
    s.finishJob g o c = s := by
  unfold State.finishJob
  rw [hj]
  simp only [ht, if_true]

theorem placeLeg_sessions (s : State) (r : LegRef) : (s.placeLeg r).sessions = s.sessions := by
  unfold State.placeLeg
  split
  · split
    · rfl
    · split
      · split
        · rfl
        · dsimp only
          split <;> rfl
      · rfl
  · rfl

theorem Atom.tallies (a : Atom G s t) : Tallies G s t := by
  cases a with
  | rest hj hs _ => exact .same (fun h => tally_of_job (State.job?_congr hj h)) hs
  | job g f hf =>
    refine .same (fun h => ?_) rfl
    rw [State.tally, State.job?_modJob]
    split
    · next e =>
      subst e
      rw [State.tally]
      cases hj : s.job? g with
      | none => rfl
      | some j => exact congrArg some (hf j hj).tally
    · rfl
  | place r =>
    refine .same (fun h => ?_) (placeLeg_sessions s r)
    obtain ⟨f, e⟩ := placeLeg_job? s r h
    rw [State.tally, e, Option.map_map]
    rfl
  | finish g o c ho =>
    cases hj : s.job? g with
    | none => rw [finishJob_of_none hj]; exact .same (fun _ => rfl) rfl
    | some j =>
      cases ht : j.state.terminal with
      | true => rw [finishJob_of_terminal hj ht]; exact .same (fun _ => rfl) rfl
      | false =>
        refine .finish g j.port j.session o ho ?_ ?_ (fun h hh => tally_of_job ?_) (finishJob_sessions s g o c hj ht)
        · simp [State.tally, hj, Job.tally, ht]
        · rw [State.tally, finishJob_job?, if_pos rfl, hj, Option.map_some, Job.finished_spec ht]
          simp [Job.tally, ho]
        · rw [finishJob_job?, if_neg (Ne.symm hh)]
  | announce g _ =>
    rcases announceJob_cases s g with e | ⟨j, -, -, -, e⟩ <;> rw [e]
    · exact .same (fun _ => rfl) rfl
    · refine .same (fun h => ?_) rfl
      change ((s.modJob g fun j => { j with announced := true }).job? h).map Job.tally = _
      rw [State.job?_modJob]
      split
      · next e => subst e; rw [Option.map_map]; rfl
      · rfl
  | clear i hi =>
    refine .clear i hi (fun h => ?_) rfl
    rw [State.tally, clearSession_job?, State.tally, Option.map_map, Option.map_map]
    congr 1
    funext j
    by_cases e : j.port = i <;> simp [Job.tally, e]
  | load g b hn =>
    refine .load g b.port ?_ ?_ (fun h hh => tally_of_job ?_) rfl
    · rw [State.tally, hn]; rfl
    · rw [State.tally, loadInto_job?, if_pos rfl]
      rfl
    · rw [loadInto_job?, if_neg (Ne.symm hh)]
  | release g j hg hj ht =>
    refine .release g j.port j.session j.state hg ?_ ?_ (fun h hh => tally_of_job ?_) ?_
    · simp [State.tally, hj, Job.tally, ht]
    · rw [State.tally, release_job?, if_pos rfl]
      rfl
    · rw [release_job?, if_neg (Ne.symm hh)]
    · unfold State.release
      dsimp only
      split <;> rfl
  | region d r _ _ => exact .same (fun _ => rfl) rfl

end Sys2Proof.Machine
end

