-- ==== Sys2Proof/Proofs/P24.lean ====
section
/-! The session counters along each step, and O13. -/

namespace Sys2Proof.Machine

open Sys2Proof

variable {s t : State} {h : Fin 64} {l : List Todo} {G : Grounds}

theorem JobState.outcome_of_terminal {o : JobState} (h : o.terminal = true) : o = .done ∨ o = .failed ∨ o = .aborted := by
  revert h
  cases o <;> decide

theorem Tallies.sessionsOk (a : Tallies G s t) (hs : s.sessionsOk) : t.sessionsOk := by
  rw [sessionsOk_iff] at hs ⊢
  intro i
  obtain ⟨h1, h2, h3, h4⟩ := hs i
  have hle := tallied_le s i (some .failed)
  have hle' := tallied_le t i (some .done)
  cases a with
  | same ht hse =>
    rw [hse, tallied_congr ht, tallied_congr ht, tallied_congr ht]
    exact ⟨h1, h2, h3, h4⟩
  | finish g p b o ho hsg htg hne hse =>
    have c1 := tallied_change (i := i) (o := none) g hne
    have c2 := tallied_change (i := i) (o := some .failed) g hne
    have c3 := tallied_change (i := i) (o := some .done) g hne
    rw [hsg, htg] at c1 c2 c3
    simp only [Option.some.injEq, Prod.mk.injEq, reduceCtorEq, and_false, if_false, Nat.add_zero, and_true] at c1 c2 c3
    rw [hse]
    by_cases hb : b = true
    · rw [if_pos hb]
      by_cases hp : p = i
      · subst hp
        rw [setEntry_same]
        simp only [hb, true_and] at c1 c2 c3
        rcases JobState.outcome_of_terminal ho with rfl | rfl | rfl
        all_goals
          simp only [if_true, reduceCtorEq, if_false] at c1 c2 c3
          simp only [Session.ended, Config.sessionLimit]
          omega
      · rw [setEntry_other _ _ _ _ hp]
        simp only [hp, false_and, if_false] at c1 c2 c3
        omega
    · rw [if_neg hb]
      simp only [hb, Bool.false_eq_true, false_and, and_false, if_false] at c1 c2 c3
      omega
  | clear j _ ht hse =>
    have hz : ∀ o, t.tallied i o = if j = i then 0 else s.tallied i o := by
      intro o
      unfold State.tallied
      split
      · next e =>
        rw [List.length_eq_zero_iff, List.filter_eq_nil_iff]
        intro h _
        rw [ht]
        cases s.tally h with
        | none => simp
        | some x =>
          by_cases hx : x.1 = j
          · simp [hx]
          · have hxi : x.1 ≠ i := by rw [← e]; exact hx
            simp [hx, Prod.ext_iff, hxi]
      · next e =>
        congr 1
        refine List.filter_congr fun h _ => ?_
        rw [ht]
        cases s.tally h with
        | none => rfl
        | some x =>
          by_cases hx : x.1 = j
          · simp [hx, Prod.ext_iff, e]
          · simp [hx]
    rw [hse, hz, hz, hz]
    by_cases e : j = i
    · subst e
      rw [setEntry_same]
      simp
    · rw [setEntry_other _ _ _ _ e, if_neg e, if_neg e, if_neg e]
      exact ⟨h1, h2, h3, h4⟩
  | load g p hsg htg hne hse =>
    have c1 := tallied_change (i := i) (o := none) g hne
    have c2 := tallied_change (i := i) (o := some .failed) g hne
    have c3 := tallied_change (i := i) (o := some .done) g hne
    rw [hsg, htg] at c1 c2 c3
    simp only [Option.some.injEq, Prod.mk.injEq, reduceCtorEq, and_false, if_false, Nat.add_zero, and_true] at c1 c2 c3
    rw [hse]
    by_cases hp : p = i
    · subst hp
      rw [setEntry_same]
      simp only [if_true] at c1
      dsimp only
      omega
    · rw [setEntry_other _ _ _ _ hp]
      simp only [hp, if_false] at c1
      omega
  | release g p b o _ hsg htg hne hse =>
    have c1 := tallied_change (i := i) (o := none) g hne
    have c2 := tallied_change (i := i) (o := some .failed) g hne
    have c3 := tallied_change (i := i) (o := some .done) g hne
    rw [hsg, htg] at c1 c2 c3
    simp only [Option.some.injEq, Prod.mk.injEq, reduceCtorEq, and_false, if_false, Nat.add_zero] at c1 c2 c3
    have hd : t.tallied i (some .done) ≤ s.tallied i (some .done) := by omega
    rw [hse]
    by_cases hb : o = .failed ∧ b = true
    · rw [if_pos hb]
      by_cases hp : p = i
      · subst hp
        rw [setEntry_same]
        simp only [hb, true_and, if_true] at c2
        dsimp only
        omega
      · rw [setEntry_other _ _ _ _ hp]
        simp only [hp, false_and, if_false] at c2
        omega
    · rw [if_neg hb]
      rw [if_neg (fun e => hb ⟨e.2.2, e.2.1⟩)] at c2
      omega

theorem sessionsOk_of_view (hv : t.view = s.view) (hs : s.sessionsOk) : t.sessionsOk :=
  (Tallies.same (G := groundsOf .tick s) (fun h => tally_of_job (view_job? hv h)) (view_sessions hv)).sessionsOk hs

theorem step_sessionsOk (hs : s.sessionsOk) (he : step s = .next t) : t.sessionsOk := by
  rcases step_path he with hv | ⟨G, s1, hv, p⟩
  · exact sessionsOk_of_view hv reset_sessionsOk
  · exact p.atoms.inv State.sessionsOk (fun _ _ a ih => a.tallies.sessionsOk ih) (sessionsOk_of_view hv hs)

/-! ## How many jobs are done -/

/-- The count of a port's jobs done since a state is what the jobs say. -/
def State.doneSince (s t : State) (i : Fin 8) : Prop :=
  (t.sessions[i.val]).done = min 65535 ((s.sessions[i.val]).done + s.newlyDone t i)

theorem newlyDone_congr {u : State} {i : Fin 8} (he : ∀ h, u.tally h = t.tally h) : s.newlyDone u i = s.newlyDone t i := by
  rw [newlyDone_eq, newlyDone_eq]
  simp only [he]

theorem newlyDone_change {u : State} {i : Fin 8} (g : Fin 64) (hne : ∀ h, h ≠ g → u.tally h = t.tally h) :
    s.newlyDone u i + (if t.tally g = some (i, true, some .done) ∧ ¬ (s.job? g).any (fun j => j.state.terminal) = true then 1 else 0) =
      s.newlyDone t i + (if u.tally g = some (i, true, some .done) ∧ ¬ (s.job? g).any (fun j => j.state.terminal) = true then 1 else 0) := by
  have := handles_change (fun h => decide (t.tally h = some (i, true, some .done)) && !((s.job? h).any fun j => j.state.terminal))
    (fun h => decide (u.tally h = some (i, true, some .done)) && !((s.job? h).any fun j => j.state.terminal)) g
    fun h hh => by rw [hne h hh]
  simpa [newlyDone_eq] using this

/-- A step that takes jobs forward, releases none and puts no card into the port. -/
theorem Tallies.doneSince {u : State} {i : Fin 8} (a : Tallies G t u) (hi : ¬ G.inserted i) (hr : ¬ G.released) (ha : s.advancesTo t)
    (hd : s.doneSince t i) : s.doneSince u i := by
  unfold State.doneSince at hd ⊢
  cases a with
  | same ht hse => rw [hse, newlyDone_congr ht, hd]
  | finish g p b o ho htg hug hne hse =>
    have c := newlyDone_change (s := s) (i := i) g hne
    have hn : ¬ (s.job? g).any (fun j => j.state.terminal) = true := by
      intro hany
      obtain ⟨j, hj, hjt⟩ := Option.any_eq_true _ _ |>.mp hany
      obtain ⟨k, hk, a⟩ := ha.jobs g j hj
      rw [State.tally, hk] at htg
      have hkt : k.state.terminal = true := by rw [(a.final hjt).1]; exact hjt
      simp [Job.tally, hkt] at htg
    rw [htg, hug] at c
    simp only [hn, Bool.false_eq_true, not_false_eq_true, and_true, Option.some.injEq, Prod.mk.injEq, reduceCtorEq, and_false, if_false,
      Nat.add_zero] at c
    rw [hse]
    by_cases hb : b = true
    · rw [if_pos hb]
      by_cases hp : p = i
      · subst hp
        rw [setEntry_same]
        simp only [hb, true_and] at c
        rcases JobState.outcome_of_terminal ho with rfl | rfl | rfl
        all_goals
          simp only [if_true, reduceCtorEq, if_false] at c
          simp only [Session.ended, Config.sessionLimit]
          omega
      · rw [setEntry_other _ _ _ _ hp]
        simp only [hp, false_and, if_false] at c
        rw [c, Nat.add_zero]
        exact hd
    · rw [if_neg hb]
      simp only [hb, Bool.false_eq_true, false_and, and_false, if_false] at c
      rw [c, Nat.add_zero]
      exact hd
  | clear j hj ht hse =>
    have hji : j ≠ i := fun e => hi (e ▸ hj)
    rw [hse, setEntry_other _ _ _ _ hji, hd]
    congr 2
    rw [newlyDone_eq, newlyDone_eq]
    congr 1
    refine List.filter_congr fun h _ => ?_
    rw [ht]
    cases t.tally h with
    | none => rfl
    | some x =>
      by_cases hx : x.1 = j
      · simp [hx, Prod.ext_iff, hji]
      · simp [hx]
  | load g p htg hug hne hse =>
    have c := newlyDone_change (s := s) (i := i) g hne
    rw [htg, hug] at c
    simp only [Option.some.injEq, Prod.mk.injEq, reduceCtorEq, and_false, false_and, if_false, Nat.add_zero] at c
    rw [hse, c]
    by_cases hp : p = i
    · subst hp
      rw [setEntry_same]
      exact hd
    · rw [setEntry_other _ _ _ _ hp]
      exact hd
  | release g p b o hg _ _ _ _ => exact absurd hg hr

/-- Where nothing has been done since, the count is the jobs' own. -/
theorem newlyDone_zero {i : Fin 8} (ht : ∀ h, t.tally h = s.tally h ∨ t.tally h = none) : s.newlyDone t i = 0 := by
  rw [newlyDone_eq, List.length_eq_zero_iff, List.filter_eq_nil_iff]
  intro h _
  rw [Bool.and_eq_true, decide_eq_true_eq]
  rintro ⟨e, hn⟩
  rcases ht h with ht | ht <;> rw [ht] at e
  · obtain ⟨j, hj, -, -, hjs⟩ := tally_eq.mp e
    rw [hj] at hn
    split at hjs
    · next hjt => simp [hjt] at hn
    · cases hjs
  · cases e

theorem release_sessions (s : State) (h : Fin 64) (j : Job) : (s.release h j).sessions =
    if j.state = .failed ∧ j.session = true then setEntry s.sessions j.port fun c => { c with failed := c.failed - 1 } else s.sessions := by
  unfold State.release
  dsimp only
  split <;> rfl

/-- RELEASE_JOB leaves jobs as they were or gone, and the done counts as they were. -/
theorem release_done (s : State) : (∀ h, ((s.take applyReleaseJob).relamp.transmit).tally h = s.tally h ∨
    ((s.take applyReleaseJob).relamp.transmit).tally h = none) ∧
      ∀ i : Fin 8, (((s.take applyReleaseJob).relamp.transmit).sessions[i.val]).done = (s.sessions[i.val]).done := by
  have hview : ∀ {u v : State}, v.view = u.view → (∀ h, v.tally h = u.tally h) ∧ v.sessions = u.sessions :=
    fun e => ⟨fun h => tally_of_job (view_job? e h), view_sessions e⟩
  have htx : ∀ u : State, (∀ h, u.transmit.tally h = u.tally h) ∧ u.transmit.sessions = u.sessions := by
    intro u
    have hw : ∀ v : State, (∀ h, v.tally h = u.tally h) ∧ v.sessions = u.sessions → ∀ x,
        (∀ h, (v.issueWrite x).tally h = u.tally h) ∧ (v.issueWrite x).sessions = u.sessions := by
      intro v hv x
      refine issueWrite_inv (fun t : State => (∀ h, t.tally h = u.tally h) ∧ t.sessions = u.sessions) (fun t x g h => h) (fun t x g h => h)
        (fun t p f h => h) (fun t r ht => ⟨fun h => ?_, ht.2⟩) x hv
      rw [← ht.1, State.tally, State.countLeg, State.job?_count, State.tally]
      split
      · next e =>
        subst e
        rw [Option.map_map]
        congr 1
        funext j
        dsimp only [Function.comp]
        split <;> rfl
      · rfl
    unfold State.transmit
    split
    · split
      · exact ⟨fun _ => rfl, rfl⟩
      · unfold State.sendFrom
        split
        · split <;> exact ⟨fun _ => rfl, rfl⟩
        · split <;> exact ⟨fun _ => rfl, rfl⟩
        · refine hw _ ?_ _
          exact ⟨fun _ => rfl, rfl⟩
    · exact ⟨fun _ => rfl, rfl⟩
  have htake : (∀ h, (s.take applyReleaseJob).tally h = s.tally h ∨ (s.take applyReleaseJob).tally h = none) ∧
      ∀ i : Fin 8, ((s.take applyReleaseJob).sessions[i.val]).done = (s.sessions[i.val]).done := by
    unfold State.take
    split
    · exact ⟨fun _ => .inl rfl, fun _ => rfl⟩
    · next r rest _ =>
      have happ : ∀ u : State, (∀ h, (applyReleaseJob r.body u).state.tally h = u.tally h ∨ (applyReleaseJob r.body u).state.tally h = none) ∧
          ∀ i : Fin 8, ((applyReleaseJob r.body u).state.sessions[i.val]).done = (u.sessions[i.val]).done := by
        intro u
        unfold applyReleaseJob
        split
        · exact ⟨fun _ => .inl rfl, fun _ => rfl⟩
        · next g _ =>
          split
          · exact ⟨fun _ => .inl rfl, fun _ => rfl⟩
          · next j _ =>
            split
            · refine ⟨fun h => ?_, fun i => ?_⟩
              · change (u.release g j).tally h = _ ∨ (u.release g j).tally h = none
                rw [State.tally, release_job?]
                split
                · exact .inr rfl
                · exact .inl rfl
              · change ((u.release g j).sessions[i.val]).done = _
                rw [release_sessions]
                by_cases hx : j.state = .failed ∧ j.session = true
                · rw [if_pos hx]
                  by_cases e : j.port = i
                  · subst e
                    rw [setEntry_same]
                  · rw [setEntry_other _ _ _ _ e]
                · rw [if_neg hx]
            · exact ⟨fun _ => .inl rfl, fun _ => rfl⟩
      exact happ (s.taken rest)
  obtain ⟨a, b⟩ := htx (s.take applyReleaseJob).relamp
  obtain ⟨c, d⟩ := hview (relamp_view (s.take applyReleaseJob))
  exact ⟨fun h => by rw [a, c]; exact htake.1 h, fun i => by rw [b, d]; exact htake.2 i⟩

theorem exec_doneSince {c : Instr} {i : Fin 8} (hs : s.sessionsOk) (hf : ¬ fullResets c s) (hc : ∀ m, c ≠ .ingestMediaReport i (some m))
    (he : exec c s = .next t) : s.doneSince t i := by
  have hzero : ∀ u : State, (∀ h, u.tally h = s.tally h ∨ u.tally h = none) → (u.sessions[i.val]).done = (s.sessions[i.val]).done →
      s.doneSince u i := by
    intro u hu hd
    obtain ⟨-, -, -, h4⟩ := hs i
    rw [State.doneSince, newlyDone_zero hu, hd]
    omega
  by_cases hr : c = .releaseJob
  · subst hr
    simp only [exec, execReleaseJob] at he
    refine event_inv (fun t => s.doneSince t i) he (hzero s (fun _ => .inl rfl) rfl) fun _ _ => ?_
    obtain ⟨a, b⟩ := release_done s
    exact hzero _ a (b i)
  · rcases exec_path he with ⟨hfull, -⟩ | ⟨s1, hv, p⟩
    · exact absurd hfull hf
    · refine (p.atoms.inv (fun t => s.advancesTo t ∧ s.doneSince t i) (fun u v a ih => ⟨ih.1.trans (a.advances hr), ?_⟩) ⟨?_, ?_⟩).2
      · exact a.tallies.doneSince (fun ⟨m, hm⟩ => hc m hm) hr ih.1 ih.2
      · exact State.advancesTo_of_jobs (view_jobs hv)
      · exact hzero s1 (fun h => .inl (tally_of_job (view_job? hv h))) (by rw [view_sessions hv])

theorem step_holdsEnd {k : Job} (hs : s.endsAnnounced) (he : step s = .next t) (hk : t.job? h = some k) (hkt : k.state.terminal = true)
    (hn : ∀ j, s.job? h = some j → j.state.terminal = false) : t.holdsEnd h k := by
  have ht := step_endsAnnounced hs he
  rcases step_path he with hv | ⟨G, s1, hv, p⟩
  · rw [job?_of_reset_view hv] at hk
    cases hk
  · rcases p.tells (fun g j hj => hs g j (by rw [← view_job? hv]; exact hj)) h k hk hkt with ⟨j, hj, hjt⟩ | ⟨-, hh⟩
    · rw [view_job? hv] at hj
      rw [hn j hj] at hjt
      cases hjt
    · exact hh (by rw [ht h k hk]; exact hkt)

/-- Settles O13, by the notices and tallies along the moves of a step. -/
theorem everyEndIsAnnounced : Obligations.EveryEndIsAnnounced := by
  unfold Obligations.EveryEndIsAnnounced
  exact ⟨fun _ _ hs he => step_endsAnnounced hs he, fun _ _ hs he => step_sessionsOk hs he,
    fun _ _ _ _ hs he hk hkt hn => step_holdsEnd hs he hk hkt hn, fun _ _ _ _ hs hf hc he => exec_doneSince hs hf hc he⟩

end Sys2Proof.Machine
end

