-- ==== Sys2Proof/Proofs/P25.lean ====
section
/-! The withdrawals of Table 1-8 as things that stand. Once the work of a job's leg has been withdrawn from a tag table, no later part of the
event brings it back; what the end of an event issues and reserves is for others (`State.issues`). -/

namespace Sys2Proof.Machine

open Sys2Proof

variable {s t : State} {h : Fin 64}

/-! ## Tag tables -/

section Tags

variable {n : Nat} {b a : Vector BlockTag n} {retry : List (Fin n)}

/-- The work of a job's leg has been withdrawn from a tag table, and no tag that it left FREE has been used again. -/
structure tagsGone (h : Fin 64) (b a : Vector BlockTag n) (retry : List (Fin n)) : Prop where
  busy : ∀ k : Fin n, (a[k.val]).isFor h = false
  sent : ∀ (k : Fin n) (w : TagWork) (issued : Tick), (b[k.val]).state = .sent w issued → w.ref.job = h →
    a[k.val] = { b[k.val] with state := .abandoned issued }
  waiting : ∀ (k : Fin n) (w : TagWork), (b[k.val]).state = .waiting w → w.ref.job = h → k ∉ retry ∧ a[k.val] = ⟨.free, (b[k.val]).gen, false⟩
  kept : ∀ (k : Fin n) (issued : Tick), (b[k.val]).state = .abandoned issued → a[k.val] = b[k.val]
  free : ∀ k : Fin n, (b[k.val]).state = .free → a[k.val] = b[k.val]

theorem tagsGone.withdrawn (g : tagsGone h b a retry) : tagsWithdrawn h b a retry :=
  ⟨g.busy, g.sent, fun k w hk hw => ⟨(g.waiting k w hk hw).1, .inl (g.waiting k w hk hw).2⟩, g.kept⟩

theorem BlockTag.work?_withdraw (g : Fin 64) (x : BlockTag) : (x.withdraw g).work? = if x.isFor g then none else x.work? := by
  unfold BlockTag.withdraw
  cases hx : x.state with
  | free => simp [BlockTag.isFor, BlockTag.work?, hx]
  | abandoned i => simp [BlockTag.isFor, BlockTag.work?, hx]
  | sent w i => by_cases e : w.ref.job = g <;> simp [BlockTag.isFor, BlockTag.work?, hx, e]
  | waiting w => by_cases e : w.ref.job = g <;> simp [BlockTag.isFor, BlockTag.work?, hx, e]

/-- After a withdrawal no tag is for the job, nor for a job that had none. -/
theorem BlockTag.isFor_withdraw {g : Fin 64} {x : BlockTag} (hx : x.isFor h = false ∨ g = h) : (x.withdraw g).isFor h = false := by
  unfold BlockTag.isFor
  rw [BlockTag.work?_withdraw]
  split
  · next e =>
    split at e
    · cases e
    · next hn =>
      have : x.isFor h = false := hx.elim id fun e => by rw [← e]; simpa using hn
      rw [BlockTag.isFor, e] at this
      exact this
  · rfl

theorem BlockTag.withdraw_of_work {x : BlockTag} (hx : x.work? = none) (g : Fin 64) : x.withdraw g = x := by
  cases hs : x.state with
  | free => simp [BlockTag.withdraw, hs]
  | abandoned i => simp [BlockTag.withdraw, hs]
  | sent w i => simp [BlockTag.work?, hs] at hx
  | waiting w => simp [BlockTag.work?, hs] at hx

theorem work?_of_free {x : BlockTag} (hx : x.state = .free) : x.work? = none := by
  rw [BlockTag.work?, hx]

theorem work?_of_abandoned {x : BlockTag} {i : Tick} (hx : x.state = .abandoned i) : x.work? = none := by
  rw [BlockTag.work?, hx]

/-- The withdrawal itself (R106). -/
theorem tagsGone_withdraw (h : Fin 64) (b : Vector BlockTag n) (retry : List (Fin n)) :
    tagsGone h b (b.map (BlockTag.withdraw h)) (retry.filter fun k => !(b[k.val]).isFor h) := by
  refine ⟨fun k => ?_, fun k w issued hk hw => ?_, fun k w hk hw => ⟨?_, ?_⟩, fun k issued hk => ?_, fun k hk => ?_⟩
  · rw [Vector.getElem_map]
    exact BlockTag.isFor_withdraw (.inr rfl)
  · rw [Vector.getElem_map, BlockTag.withdraw, hk]
    exact if_pos hw
  · intro hm
    have := (List.mem_filter.mp hm).2
    simp [BlockTag.isFor, BlockTag.work?, hk, hw] at this
  · rw [Vector.getElem_map, BlockTag.withdraw, hk]
    exact if_pos hw
  · rw [Vector.getElem_map]
    exact BlockTag.withdraw_of_work (work?_of_abandoned hk) h
  · rw [Vector.getElem_map]
    exact BlockTag.withdraw_of_work (work?_of_free hk) h

/-- A tag table after withdrawals: each tag as it stood, or ABANDONED, or no longer waiting and FREE. -/
structure tagsWind (b a : Vector BlockTag n) (r q : List (Fin n)) : Prop where
  retry : q ⊆ r
  tags : ∀ k : Fin n, a[k.val] = b[k.val] ∨
    (∃ w issued, (b[k.val]).state = .sent w issued ∧ a[k.val] = { b[k.val] with state := .abandoned issued }) ∨
    ∃ w, (b[k.val]).state = .waiting w ∧ k ∉ q ∧ a[k.val] = ⟨.free, (b[k.val]).gen, false⟩

theorem tagsWind.refl (b : Vector BlockTag n) (r : List (Fin n)) : tagsWind b b r r :=
  ⟨List.Subset.refl _, fun _ => .inl rfl⟩

theorem tagsWind.trans {z : Vector BlockTag n} {r q p : List (Fin n)} (x : tagsWind b a r q) (y : tagsWind a z q p) : tagsWind b z r p := by
  refine ⟨List.Subset.trans y.retry x.retry, fun k => ?_⟩
  rcases x.tags k with e | ⟨w, i, hs, e⟩ | ⟨w, hs, hk, e⟩
  · rcases y.tags k with f | ⟨w, i, hs, f⟩ | ⟨w, hs, hk, f⟩ <;> rw [e] at f
    · exact .inl f
    · exact .inr (.inl ⟨w, i, by rw [← e]; exact hs, f⟩)
    · exact .inr (.inr ⟨w, by rw [← e]; exact hs, hk, f⟩)
  · rcases y.tags k with f | ⟨_, _, hs', -⟩ | ⟨_, hs', -⟩
    · exact .inr (.inl ⟨w, i, hs, f.trans e⟩)
    all_goals rw [e] at hs'; cases hs'
  · rcases y.tags k with f | ⟨_, _, hs', -⟩ | ⟨_, hs', -⟩
    · exact .inr (.inr ⟨w, hs, fun hm => hk (y.retry hm), f.trans e⟩)
    all_goals rw [e] at hs'; cases hs'

theorem tagsWind_withdraw (h : Fin 64) (b : Vector BlockTag n) (r : List (Fin n)) :
    tagsWind b (b.map (BlockTag.withdraw h)) r (r.filter fun k => !(b[k.val]).isFor h) := by
  refine ⟨List.filter_subset_self _, fun k => ?_⟩
  rw [Vector.getElem_map]
  cases hs : (b[k.val]).state with
  | free => exact .inl (BlockTag.withdraw_of_work (work?_of_free hs) h)
  | abandoned i => exact .inl (BlockTag.withdraw_of_work (work?_of_abandoned hs) h)
  | sent w i =>
    unfold BlockTag.withdraw
    rw [hs]
    dsimp only
    split
    · exact .inr (.inl ⟨w, i, rfl, rfl⟩)
    · exact .inl rfl
  | waiting w =>
    unfold BlockTag.withdraw
    rw [hs]
    dsimp only
    split
    · next e =>
      refine .inr (.inr ⟨w, rfl, fun hm => ?_, rfl⟩)
      have := (List.mem_filter.mp hm).2
      simp [BlockTag.isFor, BlockTag.work?, hs, e] at this
    · exact .inl rfl

/-- Later withdrawals leave an earlier one as it stands. -/
theorem tagsGone.winds {z : Vector BlockTag n} {q : List (Fin n)} (g : tagsGone h b a retry) (w : tagsWind a z retry q) : tagsGone h b z q := by
  have hstay : ∀ k : Fin n, (∀ v i, (a[k.val]).state ≠ .sent v i) → (∀ v, (a[k.val]).state ≠ .waiting v) → z[k.val] = a[k.val] := by
    intro k h1 h2
    rcases w.tags k with e | ⟨v, i, hs, -⟩ | ⟨v, hs, -⟩
    · exact e
    · exact absurd hs (h1 v i)
    · exact absurd hs (h2 v)
  refine ⟨fun k => ?_, fun k v issued hk hv => ?_, fun k v hk hv => ⟨fun hm => (g.waiting k v hk hv).1 (w.retry hm), ?_⟩, fun k issued hk => ?_,
    fun k hk => ?_⟩
  · rcases w.tags k with e | ⟨v, i, -, e⟩ | ⟨v, -, -, e⟩ <;> rw [e]
    · exact g.busy k
    · rfl
    · rfl
  · have e := g.sent k v issued hk hv
    exact (hstay k (fun _ _ => by rw [e]; simp) fun _ => by rw [e]; simp).trans e
  · have e := (g.waiting k v hk hv).2
    exact (hstay k (fun _ _ => by rw [e]; simp) fun _ => by rw [e]; simp).trans e
  · have e := g.kept k issued hk
    exact (hstay k (fun _ _ => by rw [e, hk]; simp) fun _ => by rw [e, hk]; simp).trans e
  · have e := g.free k hk
    exact (hstay k (fun _ _ => by rw [e, hk]; simp) fun _ => by rw [e, hk]; simp).trans e

/-- A withdrawal as seen from before earlier ones. -/
theorem tagsWind.gone {z : Vector BlockTag n} {r q p : List (Fin n)} (w : tagsWind b a r q) (g : tagsGone h a z p) (hp : p ⊆ q) :
    tagsGone h b z p := by
  refine ⟨g.busy, fun k v issued hk hv => ?_, fun k v hk hv => ?_, fun k issued hk => ?_, fun k hk => ?_⟩
  · rcases w.tags k with e | ⟨v', i, hs, e⟩ | ⟨v', hs, -, e⟩
    · rw [g.sent k v issued (by rw [e]; exact hk) hv, e]
    · rw [hk] at hs
      cases hs
      rw [g.kept k issued (by rw [e]), e]
    · rw [hk] at hs
      cases hs
  · rcases w.tags k with e | ⟨v', i, hs, e⟩ | ⟨v', hs, hm, e⟩
    · have := g.waiting k v (by rw [e]; exact hk) hv
      rw [e] at this
      exact this
    · rw [hk] at hs
      cases hs
    · exact ⟨fun h => hm (hp h), by rw [g.free k (by rw [e]), e]⟩
  · rcases w.tags k with e | ⟨v', i, hs, e⟩ | ⟨v', hs, -, e⟩
    · rw [g.kept k issued (by rw [e]; exact hk), e]
    all_goals rw [hk] at hs; cases hs
  · rcases w.tags k with e | ⟨v', i, hs, e⟩ | ⟨v', hs, -, e⟩
    · rw [g.free k (by rw [e]; exact hk), e]
    all_goals rw [hk] at hs; cases hs

theorem tagsWithdrawn.mono {r : List (Fin n)} (g : tagsWithdrawn h b a retry) (hr : r ⊆ retry) : tagsWithdrawn h b a r :=
  ⟨g.busy, g.sent, fun k w hk hw => ⟨fun hm => (g.waiting k w hk hw).1 (hr hm), (g.waiting k w hk hw).2⟩, g.kept⟩

/-- A tag issued for another job: it was FREE, or waited in the retry list. -/
theorem tagsWithdrawn.issue (g : tagsWithdrawn h b a retry) (k : Fin n) (v : TagWork) (now : Tick) (hv : v.ref.job ≠ h)
    (hk : (a[k.val]).state = .free ∨ (k ∈ retry ∧ (a[k.val]).work? ≠ none)) :
    tagsWithdrawn h b (setEntry a k fun _ => ⟨.sent v now, (a[k.val]).gen + 1, false⟩) retry := by
  have hab : ∀ (m : Fin n) (i : Tick), (a[m.val]).state = .abandoned i → k ≠ m := by
    rintro m i hm rfl
    rcases hk with e | ⟨-, e⟩
    · rw [hm] at e
      cases e
    · exact e (work?_of_abandoned hm)
  refine ⟨fun m => ?_, fun m w issued hm hw => ?_, fun m w hm hw => ?_, fun m issued hm => ?_⟩
  · rw [setEntry_getElem]
    split
    · simp [BlockTag.isFor, BlockTag.work?, hv]
    · exact g.busy m
  · have e := g.sent m w issued hm hw
    rw [setEntry_other _ _ _ _ (hab m issued (by rw [e]))]
    exact e
  · obtain ⟨h1, h2⟩ := g.waiting m w hm hw
    refine ⟨h1, ?_⟩
    by_cases e : k = m
    · subst e
      rw [setEntry_same]
      have hfree := hk.resolve_right fun q => h1 q.1
      rcases h2 with h2 | ⟨u, i, h2, -⟩
      · exact .inr ⟨v, now, by rw [h2], hv⟩
      · rw [h2] at hfree
        cases hfree
    · rw [setEntry_other _ _ _ _ e]
      exact h2
  · have e := g.kept m issued hm
    rw [setEntry_other _ _ _ _ (hab m issued (by rw [e]; exact hm))]
    exact e

end Tags

/-- A writer with a job's writes withdrawn (R106). -/
def Writer.clear (w : Writer) (h : Fin 64) (b : Vector BlockTag 16) : Prop :=
  (∀ e ∈ w.queue, e.ref.job ≠ h) ∧ tagsWithdrawn h b w.tags w.retry

/-- A reader with a job's check reads withdrawn (R129). -/
def VerifyReader.clear (v : VerifyReader) (h : Fin 64) (b : Vector BlockTag 8) : Prop :=
  (∀ r ∈ v.work, r.job ≠ h) ∧ tagsWithdrawn h b v.tags v.retry

theorem writesWithdrawn_iff {x : Target} : State.writesWithdrawn x h s t ↔ (t.writer x).clear h (s.writer x).tags :=
  ⟨fun w => ⟨w.queue, w.tags⟩, fun w => ⟨w.1, w.2⟩⟩

/-! ## What the end of an event issues and reserves -/

/-- A slot that the grants of a state may reserve: for the next block of a READING job, owed to its WRITING legs' targets (R35), or for the
check of a leg in a verify work list (R36). -/
def State.reserves (s : State) (z : Slot) : Prop :=
  z.held = none ∧ ((∃ j, s.job? z.job = some j ∧ j.state = .reading ∧ z.kind = .ingest j.writingTargets) ∨
    ∃ (d : Fin 6) (r : LegRef), r ∈ (s.readers[d.val]).work ∧ z.job = r.job ∧ z.kind = .check r.leg)

/-- What the end of an event does to work that has been withdrawn: nothing; and the slots it leaves stood before or have been reserved. -/
structure State.issues (s t : State) : Prop where
  settles : s.settlesTo t
  writers : ∀ x h b, (s.writer x).clear h b → (t.writer x).clear h b
  readers : ∀ (d : Fin 6) h b, (s.readers[d.val]).clear h b → (t.readers[d.val]).clear h b
  slots : ∀ z ∈ t.slots, z ∈ s.slots ∨ s.reserves z

theorem State.issues.of_same (a : s.settlesTo t) (hw : t.writers = s.writers) (hr : t.readers = s.readers) (hs : t.slots = s.slots) :
    s.issues t :=
  ⟨a, fun x h b c => by rw [State.writer_congr hw]; exact c, fun d h b c => by rw [hr]; exact c, fun z hz => .inl (by rw [← hs]; exact hz)⟩

theorem State.issues.refl (s : State) : s.issues s :=
  .of_same (.refl s) rfl rfl rfl

theorem Job.issuesTo.state {j k : Job} (a : j.issuesTo k) : k.state = j.state := by
  rw [a.rest]

theorem Job.issuesTo.writingTargets {j k : Job} (a : j.issuesTo k) : k.writingTargets = j.writingTargets := by
  have he : ∀ q : Job, q.writingTargets = ((q.legs.map fun l => (l.state, l.target)).filter fun p => decide (p.1 = .writing)).map Prod.snd :=
    fun q => by
      rw [List.filter_map, List.map_map]
      rfl
  have hm : (k.legs.map fun l => (l.state, l.target)) = j.legs.map fun l => (l.state, l.target) := by
    refine List.ext_getElem? fun n => ?_
    rw [List.getElem?_map, List.getElem?_map]
    cases hn : j.legs[n]? with
    | none =>
      have : k.legs[n]? = none := by
        rw [List.getElem?_eq_none_iff] at hn ⊢
        rw [a.legCount]
        exact hn
      rw [this]
    | some l =>
      obtain ⟨m, hm, hi⟩ := a.legs n l hn
      rw [hm, Option.map_some, Option.map_some, hi.1]
  rw [he, he, hm]

theorem State.settlesTo.job_back {k : Job} (a : s.settlesTo t) (hk : t.job? h = some k) : ∃ j, s.job? h = some j ∧ j.issuesTo k := by
  cases hj : s.job? h with
  | none =>
    rw [a.jobs h hj] at hk
    cases hk
  | some j =>
    obtain ⟨k', hk', hi⟩ := a.job h j hj
    rw [hk] at hk'
    cases hk'
    exact ⟨j, rfl, hi⟩

theorem State.issues.trans {u : State} (a : s.issues t) (b : t.issues u) : s.issues u := by
  refine ⟨a.settles.trans b.settles, fun x h v c => b.writers x h v (a.writers x h v c), fun d h v c => b.readers d h v (a.readers d h v c),
    fun z hz => ?_⟩
  rcases b.slots z hz with hz | ⟨hn, hz⟩
  · exact a.slots z hz
  · refine .inr ⟨hn, hz.imp (fun ⟨k, hk, hks, hzk⟩ => ?_) fun ⟨d, r, hr, e⟩ => ⟨d, r, ?_, e⟩⟩
    · obtain ⟨j, hj, hi⟩ := a.settles.job_back hk
      exact ⟨j, hj, by rw [← hi.state]; exact hks, by rw [← hi.writingTargets]; exact hzk⟩
    · rw [← (a.settles.readers d).work]
      exact hr

/-! ## Grants and issues -/

theorem mem_insertSlot {x z : Slot} : ∀ {l : List Slot}, z ∈ insertSlot x l ↔ z = x ∨ z ∈ l
  | [] => by simp [insertSlot]
  | y :: rest => by
    unfold insertSlot
    split
    · simp
    · rw [List.mem_cons, mem_insertSlot, List.mem_cons]
      tauto

theorem modArbiter_issues (s : State) (g : SlotArbiter → SlotArbiter) : s.issues (s.modArbiter g) :=
  .of_same (modArbiter_settles s g) rfl rfl rfl

theorem grant_issues (s : State) (r : Requester) (hw : s.wants r = true) (hf : s.freeSlots ≠ 0) : s.issues (s.grant r) := by
  have hset := grant_settles s r hf
  cases r with
  | ingest i =>
    obtain ⟨h, j, k, hr, hj, hst, -, hk⟩ := ingestWants_spec hw
    have he : ∃ gen num, s.grant (.ingest i) = ((((s.reserve h j.requested (.ingest j.writingTargets)).count h fun j =>
        { j with requested := j.requested + 1 }).modIngest i fun p =>
        { p with tags := setEntry p.tags k fun _ => ⟨.busy h j.requested num s.now 0, gen, false⟩ }).send (.ingest i)
          (.blockRead k gen (cardAddress j.runs j.requested))).modArbiter fun a => { a with pointer := nextOf requesters (.ingest i) } := by
      unfold State.grant State.grantIngest
      dsimp only
      rw [hr, hk]
      dsimp only
      rw [hj]
      exact ⟨_, _, rfl⟩
    obtain ⟨gen, num, he⟩ := he
    rw [he] at hset ⊢
    refine ⟨hset, fun x h b c => c, fun d h b c => c, fun z hz => ?_⟩
    rcases mem_insertSlot.mp hz with rfl | hz
    · exact .inr ⟨rfl, .inl ⟨j, hj, hst, rfl⟩⟩
    · exact .inl hz
  | verify d =>
    have he : s.grant (.verify d) = (s.grantVerify d).modArbiter fun a => { a with pointer := nextOf requesters (.verify d) } := rfl
    rw [he] at hset ⊢
    unfold State.grantVerify at hset ⊢
    split at hset
    · exact modArbiter_issues s _
    · next r rest hwork =>
      split at hset
      · exact modArbiter_issues s _
      · next l hl =>
        dsimp only at hset ⊢
        refine ⟨hset, fun x h b c => c, fun e h b c => ?_, fun z hz => ?_⟩
        · change ((setEntry s.readers d _)[e.val]).clear h b
          rw [setEntry_getElem]
          split
          · next e => subst e; exact c
          · exact c
        · rcases mem_insertSlot.mp hz with rfl | hz
          · exact .inr ⟨rfl, .inr ⟨d, r, by rw [hwork]; exact List.mem_cons_self, rfl, rfl⟩⟩
          · exact .inl hz

theorem putWrite_writer (s : State) (x y : Target) (k : Fin 16) (w : TagWork) : (s.putWrite x k w).writer y =
    if x = y then { s.writer x with tags := setEntry (s.writer x).tags k fun _ => ⟨.sent w s.now, (((s.writer x).tags[k.val]).gen + 1), false⟩ }
    else s.writer y := by
  change (s.modWriter x _).writer y = _
  rw [State.writer_modWriter]

theorem writer_modWriter_same (s : State) (x : Target) (g : Writer → Writer) : (s.modWriter x g).writer x = g (s.writer x) := by
  rw [State.writer_modWriter, if_pos rfl]

/-- An issue leaves a job's withdrawn writes withdrawn. -/
theorem issueWrite_clear (s : State) (x y : Target) (h : Fin 64) (b : Vector BlockTag 16) (c : (s.writer y).clear h b) :
    ((s.issueWrite x).writer y).clear h b := by
  obtain ⟨hq, ht⟩ := c
  unfold State.issueWrite
  dsimp only
  split
  · next k rest hr =>
    have hsub : rest ⊆ (s.writer x).retry := by rw [hr]; exact List.subset_cons_self _ _
    split
    · next work hwork =>
      rw [putWrite_writer]
      by_cases e : x = y
      · subst e
        rw [if_pos rfl, writer_modWriter_same]
        have hjob : work.ref.job ≠ h := by
          intro e
          have := ht.busy k
          rw [BlockTag.isFor, hwork] at this
          simp [e] at this
        exact ⟨hq, (ht.issue k { work with attempt := work.attempt + 1 } _ hjob (.inr ⟨by rw [hr]; exact List.mem_cons_self, by rw [hwork]; simp⟩)).mono hsub⟩
      · rw [if_neg e, State.writer_modWriter, if_neg e]
        exact ⟨hq, ht⟩
    · rw [State.writer_modWriter]
      split
      · next e => subst e; exact ⟨hq, ht.mono hsub⟩
      · exact ⟨hq, ht⟩
  · split
    · next e rest k hque hk =>
      have hsub : rest ⊆ (s.writer x).queue := by rw [hque]; exact List.subset_cons_self _ _
      have hpop : ∀ {u : State}, u.writers = (s.modWriter x fun q => { q with queue := rest }).writers → (u.writer y).clear h b := by
        intro u hu
        rw [State.writer_congr hu, State.writer_modWriter]
        split
        · next e => subst e; exact ⟨fun e he => hq e (hsub he), ht⟩
        · exact ⟨hq, ht⟩
      split
      · next z _ =>
        rw [putWrite_writer]
        by_cases ex : x = y
        · subst ex
          rw [if_pos rfl]
          have hw : ((s.modWriter x fun q => { q with queue := rest }).countLeg e.ref fun l => { l with sent := l.sent + 1 }).writer x =
              { s.writer x with queue := rest } := writer_modWriter_same s x _
          rw [hw]
          exact ⟨fun e he => hq e (hsub he), ht.issue k _ _ (hq e (by rw [hque]; exact List.mem_cons_self)) (.inl (freeWriteTag_free hk))⟩
        · rw [if_neg ex]
          exact hpop rfl
      · exact hpop rfl
    · exact ⟨hq, ht⟩

theorem issueWrite_issues (s : State) (x : Target) : s.issues (s.issueWrite x) := by
  have hr : (s.issueWrite x).readers = s.readers := by
    unfold State.issueWrite
    dsimp only
    split
    · split <;> rfl
    · split
      · split <;> rfl
      · rfl
  exact ⟨issueWrite_settles s x, fun y h b c => issueWrite_clear s x y h b c, fun d h b c => by rw [hr]; exact c,
    fun z hz => .inl (by rw [← issueWrite_slots s x]; exact hz)⟩

theorem putCheck_reader (s : State) (d e : Fin 6) (k : Fin 8) (w : TagWork) : (s.putCheck d k w).readers[e.val] =
    if d = e then { s.readers[d.val] with
      tags := setEntry (s.readers[d.val]).tags k fun _ => ⟨.sent w s.now, (((s.readers[d.val]).tags[k.val]).gen + 1), false⟩ }
    else s.readers[e.val] := by
  change (setEntry s.readers d _)[e.val] = _
  rw [setEntry_getElem]

theorem modReader_reader (s : State) (d e : Fin 6) (g : VerifyReader → VerifyReader) :
    (s.modReader d g).readers[e.val] = if d = e then g s.readers[d.val] else s.readers[e.val] := by
  change (setEntry s.readers d _)[e.val] = _
  rw [setEntry_getElem]

theorem issueCheck_clear (s : State) (d e : Fin 6) (h : Fin 64) (b : Vector BlockTag 8) (c : (s.readers[e.val]).clear h b) :
    ((s.issueCheck d).readers[e.val]).clear h b := by
  obtain ⟨hq, ht⟩ := c
  unfold State.issueCheck
  dsimp only
  split
  · next k rest hr =>
    have hsub : rest ⊆ (s.readers[d.val]).retry := by rw [hr]; exact List.subset_cons_self _ _
    split
    · next work hwork =>
      rw [putCheck_reader]
      by_cases e' : d = e
      · subst e'
        rw [if_pos rfl, modReader_reader, if_pos rfl]
        have hjob : work.ref.job ≠ h := by
          intro e
          have := ht.busy k
          rw [BlockTag.isFor, hwork] at this
          simp [e] at this
        exact ⟨hq, (ht.issue k { work with attempt := work.attempt + 1 } _ hjob (.inr ⟨by rw [hr]; exact List.mem_cons_self, by rw [hwork]; simp⟩)).mono hsub⟩
      · rw [if_neg e', modReader_reader, if_neg e']
        exact ⟨hq, ht⟩
    · rw [modReader_reader]
      split
      · next e => subst e; exact ⟨hq, ht.mono hsub⟩
      · exact ⟨hq, ht⟩
  · split
    · next num r rest k haw hwork hk =>
      have hpop : ∀ {u : State}, u.readers = (s.modReader d fun v => { v with awaiting := none }).readers → (u.readers[e.val]).clear h b := by
        intro u hu
        rw [hu, modReader_reader]
        split
        · next e => subst e; exact ⟨hq, ht⟩
        · exact ⟨hq, ht⟩
      split
      · next z _ =>
        rw [putCheck_reader]
        by_cases ex : d = e
        · subst ex
          rw [if_pos rfl]
          have hw : ((s.modReader d fun v => { v with awaiting := none }).countLeg r fun l => { l with checked := l.checked + 1 }).readers[d.val] =
              { s.readers[d.val] with awaiting := none } := by
            change (setEntry s.readers d _)[d.val] = _
            rw [setEntry_same]
          rw [hw]
          exact ⟨hq, ht.issue k _ _ (hq r (by rw [hwork]; exact List.mem_cons_self)) (.inl (freeCheckTag_free hk))⟩
        · rw [if_neg ex]
          exact hpop rfl
      · exact hpop rfl
    · exact ⟨hq, ht⟩

theorem issueCheck_issues (s : State) (d : Fin 6) : s.issues (s.issueCheck d) := by
  have hr : (s.issueCheck d).writers = s.writers := by
    unfold State.issueCheck
    dsimp only
    split
    · split <;> rfl
    · split
      · split <;> rfl
      · rfl
  exact ⟨issueCheck_settles s d, fun y h b c => by rw [State.writer_congr hr]; exact c, fun e h b c => issueCheck_clear s d e h b c,
    fun z hz => .inl (by rw [← issueCheck_slots s d]; exact hz)⟩

theorem arbitrate_issues (s : State) (d : Fin 6) : s.issues (s.arbitrate d) := by
  unfold State.arbitrate
  split
  · exact .refl s
  · next h =>
    have h : (s.sides[d.val]).granted = false := by simpa using h
    have hc : ∀ x, s.issues (s.modSides d fun a => a.charge x) :=
      fun x => .of_same (modSides_settles s d _ (TargetArbiter.charge_issues _ _ h)) rfl rfl rfl
    split
    · exact .refl s
    · exact (hc .write).trans (issueWrite_issues _ _)
    · exact (hc .check).trans (issueCheck_issues _ _)

theorem transmit_issues (s : State) : s.issues s.transmit := by
  have hset := transmit_settles s
  unfold State.transmit at hset ⊢
  split
  · next hc =>
    rw [if_pos hc] at hset
    split
    · exact .refl s
    · next c hcs =>
      have hnone : s.control.sending = none := by
        simp at hc
        exact hc.2
      have h1 : s.issues (s.modControl fun q => { q with sending := some c, pointer := nextOf sources c }) :=
        .of_same (modControl_settles s _ rfl rfl hnone) rfl rfl rfl
      refine h1.trans ?_
      cases c with
      | response =>
        have := sendFrom_settles (s.modControl fun q => { q with sending := some .response, pointer := nextOf sources .response }) .response
        simp only [State.sendFrom] at this ⊢
        split
        · exact .of_same (send_settles _ _ _) rfl rfl rfl
        · exact .refl _
      | notice =>
        simp only [State.sendFrom]
        split
        · exact .of_same (send_settles _ _ _) rfl rfl rfl
        · exact .refl _
      | sink => exact issueWrite_issues _ .sink
  · exact .refl s

theorem noteWork_issues (s : State) : s.issues s.noteWork :=
  have hk : ∀ (u : State) (x : Target), ((u.modWindow x fun w => { w with hadWork := w.hadWork || (u.writer x).hasWork }).writers = u.writers) ∧
      (u.modWindow x fun w => { w with hadWork := w.hadWork || (u.writer x).hasWork }).readers = u.readers := fun _ _ => ⟨rfl, rfl⟩
  .of_same (noteWork_settles s)
    (foldl_keeps State.writers (fun u x => u.modWindow x fun w => { w with hadWork := w.hadWork || (u.writer x).hasWork })
      (fun u x => (hk u x).1) _ s)
    (foldl_keeps State.readers (fun u x => u.modWindow x fun w => { w with hadWork := w.hadWork || (u.writer x).hasWork })
      (fun u x => (hk u x).2) _ s) (noteWork_slots s)

theorem settle_issues (s : State) : s.issues s.settle :=
  settle_inv (fun t => s.issues t) (fun _ _ h => h.trans (modArbiter_issues _ _)) (fun _ r hw hf h => h.trans (grant_issues _ r hw hf))
    (fun _ d h => h.trans (arbitrate_issues _ d)) (fun _ h => h.trans (transmit_issues _)) (fun _ h => h.trans (noteWork_issues _)) (.refl s)

theorem announce_issues (s : State) : s.issues s.announce := by
  have hk : ∀ u : State, ∀ g, (u.announceJob g).writers = u.writers ∧ (u.announceJob g).readers = u.readers ∧ (u.announceJob g).slots = u.slots := by
    intro u g
    rcases announceJob_cases u g with e | ⟨j, -, -, -, e⟩ <;> rw [e] <;> exact ⟨rfl, rfl, rfl⟩
  exact .of_same (announce_settles s) (foldl_keeps State.writers _ (fun u g => (hk u g).1) _ s)
    (foldl_keeps State.readers _ (fun u g => (hk u g).2.1) _ s) (foldl_keeps State.slots _ (fun u g => (hk u g).2.2) _ s)

theorem close_issues (s : State) : s.issues s.close := by
  have h1 := announce_issues s
  have h2 : s.announce.issues s.announce.relamp := by
    have e := relamp_relamped s.announce
    simp only [State.relampFrame, Prod.mk.injEq] at e
    obtain ⟨-, -, -, -, -, -, -, hs, -, -, -, -, hw, hr, -⟩ := e
    exact .of_same (relamp_settles _) hw hr hs
  exact (h1.trans h2).trans (settle_issues _)

end Sys2Proof.Machine
end

