-- ==== Sys2Proof/Proofs/P26.lean ====
section
/-! What the rest of an event (`State.cascade`) may do to work: tags and slots are withdrawn, line-ups and lists lose entries, and only a LOADED
job that starts takes a place in a verify work list or at a port (`State.winds`). Work once withdrawn stays withdrawn. -/

namespace Sys2Proof.Machine

open Sys2Proof

variable {s t : State} {h : Fin 64}

/-- A LOADED job. -/
def State.startable (s : State) (g : Fin 64) : Prop :=
  ∃ j, s.job? g = some j ∧ j.state = .loaded

/-- A slot after withdrawals: its place and kind stand, it is owed to no one new, and a HELD block may be marked withdrawn. -/
structure Slot.winds (y z : Slot) : Prop where
  num : z.num = y.num
  job : z.job = y.job
  index : z.index = y.index
  ingest : z.isIngest = y.isIngest
  check : ∀ k, z.kind = .check k ↔ y.kind = .check k
  owed : z.owed ⊆ y.owed
  held : (y.held = none ∧ z.held = none) ∨
    ∃ b c, y.held = some b ∧ z.held = some c ∧ c.inDigest = b.inDigest ∧ (b.withdrawn = true → c.withdrawn = true)

/-- A HELD block that waits for its digest. -/
def Slot.waits (y : Slot) : Prop :=
  ∃ b, y.held = some b ∧ b.digested = false ∧ b.inDigest = false

/-- A read tag after withdrawals: as it stood, or ABANDONED. -/
def ReadTag.winds (g f : ReadTag) : Prop :=
  f = g ∨ ∃ h index num issued attempt, g.state = .busy h index num issued attempt ∧ f = { g with state := .abandoned issued }

/-- What the rest of an event may do to work. -/
structure State.winds (s t : State) : Prop where
  loaded : ∀ g, t.startable g → s.startable g
  queue : ∀ x, (t.writer x).queue ⊆ (s.writer x).queue
  writes : ∀ x, tagsWind (s.writer x).tags (t.writer x).tags (s.writer x).retry (t.writer x).retry
  checks : ∀ d : Fin 6, tagsWind (s.readers[d.val]).tags (t.readers[d.val]).tags (s.readers[d.val]).retry (t.readers[d.val]).retry
  work : ∀ d : Fin 6, ∀ q ∈ (t.readers[d.val]).work, q ∈ (s.readers[d.val]).work ∨ s.startable q.job
  slots : ∀ z ∈ t.slots, ∃ y ∈ s.slots, y.winds z
  waits : ∀ y ∈ s.slots, y.waits → (∃ z ∈ t.slots, y.winds z ∧ z.waits) ∨ y.num ∉ t.digest.ready
  ready : t.digest.ready ⊆ s.digest.ready
  tags : ∀ i k : Fin 8, ((s.ingest[i.val]).tags[k.val]).winds (t.ingest[i.val]).tags[k.val]
  reading : ∀ (i : Fin 8) g, (t.ingest[i.val]).reading = some g → (s.ingest[i.val]).reading = some g ∨ s.startable g
  lineUp : ∀ i : Fin 8, (t.ingest[i.val]).lineUp ⊆ (s.ingest[i.val]).lineUp
  now : t.now = s.now

theorem Slot.winds.refl (y : Slot) : y.winds y :=
  ⟨rfl, rfl, rfl, rfl, fun _ => Iff.rfl, List.Subset.refl _, by cases hy : y.held with
    | none => exact .inl ⟨rfl, rfl⟩
    | some b => exact .inr ⟨b, b, rfl, rfl, rfl, id⟩⟩

theorem Slot.winds.trans {x y z : Slot} (a : x.winds y) (b : y.winds z) : x.winds z := by
  refine ⟨b.num.trans a.num, b.job.trans a.job, b.index.trans a.index, b.ingest.trans a.ingest, fun k => (b.check k).trans (a.check k),
    fun q hq => a.owed (b.owed hq), ?_⟩
  rcases a.held with ⟨h1, h2⟩ | ⟨c, d, h1, h2, h3, h4⟩
  · rcases b.held with ⟨-, h6⟩ | ⟨e, f, h5, -⟩
    · exact .inl ⟨h1, h6⟩
    · rw [h2] at h5
      cases h5
  · rcases b.held with ⟨h5, -⟩ | ⟨e, f, h5, h6, h7, h8⟩
    · rw [h2] at h5
      cases h5
    · rw [h2] at h5
      cases h5
      exact .inr ⟨c, f, h1, h6, h7.trans h3, fun e => h8 (h4 e)⟩

theorem ReadTag.winds.trans {g f e : ReadTag} (a : g.winds f) (b : f.winds e) : g.winds e := by
  rcases a with rfl | ⟨h, i, n, u, m, h1, rfl⟩
  · exact b
  · rcases b with rfl | ⟨h', i', n', u', m', h2, -⟩
    · exact .inr ⟨h, i, n, u, m, h1, rfl⟩
    · cases h2

theorem State.winds.refl (s : State) : s.winds s :=
  ⟨fun _ => id, fun _ => List.Subset.refl _, fun _ => .refl _ _, fun _ => .refl _ _, fun _ _ => .inl, fun z hz => ⟨z, hz, .refl z⟩,
    fun y hy hw => .inl ⟨y, hy, .refl y, hw⟩, List.Subset.refl _,
    fun _ _ => .inl rfl, fun _ _ => .inl, fun _ => List.Subset.refl _, rfl⟩

theorem State.winds.trans {u : State} (a : s.winds t) (b : t.winds u) : s.winds u where
  loaded g hg := a.loaded g (b.loaded g hg)
  queue x := List.Subset.trans (b.queue x) (a.queue x)
  writes x := (a.writes x).trans (b.writes x)
  checks d := (a.checks d).trans (b.checks d)
  work d q hq := (b.work d q hq).elim (a.work d q) fun e => .inr (a.loaded _ e)
  slots z hz :=
    let ⟨y, hy, e⟩ := b.slots z hz
    let ⟨x, hx, f⟩ := a.slots y hy
    ⟨x, hx, f.trans e⟩
  waits y hy hw := by
    rcases a.waits y hy hw with ⟨z, hz, e, hzw⟩ | hn
    · rcases b.waits z hz hzw with ⟨x, hx, f, hxw⟩ | hn
      · exact .inl ⟨x, hx, e.trans f, hxw⟩
      · exact .inr (by rw [← e.num]; exact hn)
    · exact .inr fun hm => hn (b.ready hm)
  ready := List.Subset.trans b.ready a.ready
  tags i k := (a.tags i k).trans (b.tags i k)
  reading i g hg := (b.reading i g hg).elim (a.reading i g) fun e => .inr (a.loaded g e)
  lineUp i := List.Subset.trans (b.lineUp i) (a.lineUp i)
  now := b.now.trans a.now

/-! ## Elementary steps -/

/-- A step on jobs, sessions, drives and what no withdrawal touches. -/
theorem State.winds.of_rest (hl : ∀ g, t.startable g → s.startable g) (hw : t.writers = s.writers) (hr : t.readers = s.readers)
    (hs : t.slots = s.slots) (hd : t.digest = s.digest) (hi : t.ingest = s.ingest) (hn : t.now = s.now) : s.winds t where
  loaded := hl
  queue x := by rw [State.writer_congr hw]; exact List.Subset.refl _
  writes x := by rw [State.writer_congr hw]; exact .refl _ _
  checks d := by rw [hr]; exact .refl _ _
  work d q hq := by rw [hr] at hq; exact .inl hq
  slots z hz := ⟨z, by rw [← hs]; exact hz, .refl z⟩
  waits y hy hw := .inl ⟨y, by rw [hs]; exact hy, .refl y, hw⟩
  ready := by rw [hd]; exact List.Subset.refl _
  tags i k := by rw [hi]; exact .inl rfl
  reading i g hg := by rw [hi] at hg; exact .inl hg
  lineUp i := by rw [hi]; exact List.Subset.refl _
  now := hn

/-- A job record changed: to a state that is not LOADED, or from one that was. -/
theorem modJob_winds (s : State) (h : Fin 64) (g : Job → Job) (hg : ∀ j, s.job? h = some j → (g j).state = .loaded → j.state = .loaded) :
    s.winds (s.modJob h g) := by
  refine .of_rest (fun k => ?_) rfl rfl rfl rfl rfl rfl
  rintro ⟨q, hq, hs⟩
  rw [State.job?_modJob] at hq
  split at hq
  · next e =>
    subst e
    obtain ⟨j, hj, rfl⟩ := Option.map_eq_some_iff.mp hq
    exact ⟨j, hj, hg j hj hs⟩
  · exact ⟨q, hq, hs⟩

theorem modLeg_winds (s : State) (r : LegRef) (g : Leg → Leg) : s.winds (s.modLeg r g) :=
  modJob_winds s r.job _ fun _ _ => id

theorem endLeg_winds (s : State) (r : LegRef) (x : LegState) (c : Option LegCause) : s.winds (s.endLeg r x c) :=
  modLeg_winds s r _

theorem modArbiter_winds (s : State) (g : SlotArbiter → SlotArbiter) : s.winds (s.modArbiter g) :=
  .of_rest (fun _ => id) rfl rfl rfl rfl rfl rfl

theorem modReader_winds (s : State) (d : Fin 6) (g : VerifyReader → VerifyReader)
    (ht : tagsWind (s.readers[d.val]).tags (g s.readers[d.val]).tags (s.readers[d.val]).retry (g s.readers[d.val]).retry)
    (hw : ∀ q ∈ (g s.readers[d.val]).work, q ∈ (s.readers[d.val]).work ∨ s.startable q.job) : s.winds (s.modReader d g) :=
  { State.winds.refl s with
    checks := fun e => by
      rw [modReader_reader]
      split
      · next e => subst e; exact ht
      · exact .refl _ _
    work := fun e q hq => by
      rw [modReader_reader] at hq
      split at hq
      · next e => subst e; exact hw q hq
      · exact .inl hq }

/-- A verify work list that loses legs. -/
theorem modReader_winds_filter (s : State) (d : Fin 6) (test : LegRef → Bool) :
    s.winds (s.modReader d fun v => { v with work := v.work.filter test }) :=
  modReader_winds s d _ (.refl _ _) fun _ hq => .inl (List.mem_of_mem_filter hq)

theorem modWriter_withdraw_winds (s : State) (x : Target) (g : Fin 64) : s.winds (s.modWriter x fun w => w.withdraw g) :=
  { State.winds.refl s with
    queue := fun y => by
      rw [State.writer_modWriter]
      split
      · next e => subst e; exact List.filter_subset_self _
      · exact List.Subset.refl _
    writes := fun y => by
      rw [State.writer_modWriter]
      split
      · next e => subst e; exact tagsWind_withdraw g _ _
      · exact .refl _ _ }

theorem Slot.withdraw_winds {y z : Slot} (e : y.withdraw = some z) : y.winds z ∧ ∃ b, z.held = some b ∧ b.inDigest = true ∧ b.withdrawn = true := by
  unfold Slot.withdraw at e
  split at e
  · next b hb =>
    split at e
    · next hd =>
      cases e
      refine ⟨⟨rfl, rfl, rfl, ?_, fun k => ?_, ?_, .inr ⟨b, _, hb, rfl, rfl, fun _ => rfl⟩⟩, _, rfl, hd, rfl⟩
      · cases hk : y.kind <;> simp [Slot.isIngest, hk]
      · cases hk : y.kind <;> simp
      · cases hk : y.kind <;> simp [Slot.owed, hk]
    · cases e
  · cases e

theorem mem_withdrawSlots {mine : Slot → Bool} {z : Slot} (hz : z ∈ (s.withdrawSlots mine).slots) :
    ∃ y ∈ s.slots, y.winds z ∧ (mine y = true → ∃ b, z.held = some b ∧ b.inDigest = true ∧ b.withdrawn = true) := by
  change z ∈ s.slots.filterMap fun x => if mine x then x.withdraw else some x at hz
  obtain ⟨y, hy, e⟩ := List.mem_filterMap.mp hz
  refine ⟨y, hy, ?_⟩
  split at e
  · obtain ⟨a, b⟩ := Slot.withdraw_winds e
    exact ⟨a, fun _ => b⟩
  · next hn =>
    cases e
    exact ⟨.refl _, fun hm => absurd hm hn⟩

theorem withdrawSlots_winds (s : State) (mine : Slot → Bool) : s.winds (s.withdrawSlots mine) :=
  { State.winds.refl s with
    slots := fun _ hz => let ⟨y, hy, e, _⟩ := mem_withdrawSlots hz; ⟨y, hy, e⟩
    waits := fun y hy hw => by
      by_cases hm : mine y = true
      · right
        change y.num ∉ s.digest.ready.filter fun n => !((s.slots.filter mine).map Slot.num).contains n
        intro hin
        have := (List.mem_filter.mp hin).2
        have hmem : y.num ∈ (s.slots.filter mine).map Slot.num := List.mem_map_of_mem (List.mem_filter.mpr ⟨hy, hm⟩)
        simp [hmem] at this
      · refine .inl ⟨y, ?_, .refl y, hw⟩
        change y ∈ s.slots.filterMap fun x => if mine x then x.withdraw else some x
        exact List.mem_filterMap.mpr ⟨y, hy, if_neg hm⟩
    ready := List.filter_subset_self _ }

/-- A port that loses reading, tags or line-up. -/
theorem modIngest_winds (s : State) (i : Fin 8) (g : IngestPort → IngestPort)
    (ht : ∀ k : Fin 8, ((s.ingest[i.val]).tags[k.val]).winds (g s.ingest[i.val]).tags[k.val])
    (hr : ∀ h, (g s.ingest[i.val]).reading = some h → (s.ingest[i.val]).reading = some h ∨ s.startable h)
    (hl : (g s.ingest[i.val]).lineUp ⊆ (s.ingest[i.val]).lineUp) : s.winds (s.modIngest i g) := by
  have he : ∀ q : Fin 8, (s.modIngest i g).ingest[q.val] = if i = q then g s.ingest[i.val] else s.ingest[q.val] := fun q => by
    rw [State.modIngest_ingest, setEntry_getElem]
  exact
    { State.winds.refl s with
      tags := fun q k => by
        rw [he]
        split
        · next e => subst e; exact ht k
        · exact .inl rfl
      reading := fun q h hq => by
        rw [he] at hq
        split at hq
        · next e => subst e; exact hr h hq
        · exact .inl hq
      lineUp := fun q => by
        rw [he]
        split
        · next e => subst e; exact hl
        · exact List.Subset.refl _ }

theorem ReadTag.abandon_winds (g : ReadTag) : g.winds g.abandon := by
  unfold ReadTag.abandon
  split
  · next h i n u m e => exact .inr ⟨h, i, n, u, m, e, rfl⟩
  · exact .inl rfl
  · exact .inl rfl

theorem dropReading_winds (s : State) (h : Fin 64) : s.winds (s.dropReading h) := by
  unfold State.dropReading
  split
  · exact .refl s
  · split
    · refine (modIngest_winds s _ _ (fun k => ?_) (fun g e => by cases e) (List.Subset.refl _)).trans (modArbiter_winds _ _)
      rw [Vector.getElem_map]
      exact ReadTag.abandon_winds _
    · exact modIngest_winds s _ _ (fun k => .inl rfl) (fun g e => .inl e) (List.filter_subset_self _)

theorem withdrawVerify_winds (s : State) (d : Fin 6) (h : Fin 64) : s.winds (s.withdrawVerify d h) := by
  unfold State.withdrawVerify
  dsimp only
  split
  · exact .refl s
  · next r _ =>
    have h1 : s.winds (s.modReader d fun v => v.withdraw h) :=
      modReader_winds s d _ (tagsWind_withdraw h _ _) fun q hq => .inl (List.mem_of_mem_filter hq)
    have h2 := h1.trans (withdrawSlots_winds _ (Slot.checkOf r))
    split
    · exact h2.trans (modArbiter_winds _ _)
    · exact h2

theorem finishJob_winds (s : State) (h : Fin 64) {o : JobState} (ho : o.terminal = true) (c : Option JobCause) : s.winds (s.finishJob h o c) := by
  have hk : (s.finishJob h o c).writers = s.writers ∧ (s.finishJob h o c).digest = s.digest := by
    unfold State.finishJob
    split
    · exact ⟨rfl, rfl⟩
    · split
      · exact ⟨rfl, rfl⟩
      · dsimp only
        split <;> exact ⟨rfl, rfl⟩
  refine .of_rest (fun g => ?_) hk.1 (finishJob_readers s h o c) (finishJob_slots s h o c) hk.2 (finishJob_ingest s h o c) (finishJob_now s h o c)
  rintro ⟨q, hq, hs⟩
  rw [finishJob_job?] at hq
  split at hq
  · obtain ⟨j, -, rfl⟩ := Option.map_eq_some_iff.mp hq
    have := Job.finished_terminal s.now ho c j
    rw [hs] at this
    cases this
  · exact ⟨q, hq, hs⟩

theorem foldl_winds {β : Type} (g : State → β → State) (hg : ∀ s b, State.winds s (g s b)) (l : List β) (s : State) : s.winds (l.foldl g s) :=
  foldl_inv (fun t => s.winds t) g (fun _ b ht => ht.trans (hg _ b)) l s (.refl s)

theorem teardown_winds (s : State) (h : Fin 64) {o : JobState} (ho : o.terminal = true) (c : JobCause) : s.winds (s.teardown h o c) := by
  unfold State.teardown
  dsimp only
  refine (((((finishJob_winds s h ho (some c)).trans ?_).trans (dropReading_winds _ h)).trans (withdrawSlots_winds _ _)).trans
    (foldl_winds (fun s x => s.modWriter x fun w => w.withdraw h) (fun s x => modWriter_withdraw_winds s x h) _ _)).trans
    (foldl_winds (fun s d => s.withdrawVerify d h) (fun s d => withdrawVerify_winds s d h) _ _)
  exact modJob_winds _ h _ fun j _ e => e

theorem tearJob_winds (s : State) (h : Fin 64) {o : JobState} (ho : o.terminal = true) (c : JobCause) : s.winds (s.tearJob h o c).1 := by
  rcases tearJob_cases s h o c with ⟨e, -⟩ | ⟨j, -, -, e⟩ <;> rewrite [e] <;> dsimp only
  · exact .refl s
  · exact teardown_winds s h ho c

/-! ## The rest of an event -/

theorem compareLeg_winds (s : State) (d : Fin 6) (r : LegRef) : s.winds (s.compareLeg d r).1 := by
  rcases compareLeg_cases s d r with e | ⟨l, j, v, g, -, -, -, -, -, e⟩ <;> rewrite [e]
  · exact .refl s
  · exact (endLeg_winds s r _ none).trans (modReader_winds_filter _ d _)

theorem verifyFinal_winds (s : State) (d : Fin 6) (r : LegRef) : s.winds (s.verifyFinal d r).1 := by
  rcases verifyFinal_cases s d r with e | ⟨j, -, -, e⟩ <;> rewrite [e] <;> dsimp only
  · exact .refl s
  · exact (modLeg_winds s r _).trans (compareLeg_winds _ d r)

theorem activateHead_winds (s : State) (d : Fin 6) : s.winds (s.activateHead d).1 := by
  rcases activateHead_cases s d with e | ⟨r, rest, l, j, -, -, -, -, ⟨-, e⟩ | ⟨-, e⟩⟩ <;> rewrite [e]
  · exact .refl s
  · exact modLeg_winds s r _
  · exact (modLeg_winds s r _).trans (verifyFinal_winds _ d r)

theorem testJob_winds (s : State) (h : Fin 64) : s.winds (s.testJob h).1 := by
  rcases testJob_cases s h with ⟨e, -⟩ | ⟨j, -, -, ⟨-, e⟩ | ⟨-, -, -, e⟩ | ⟨-, -, -, e⟩⟩ <;> rewrite [e]
  · exact .refl s
  · exact tearJob_winds s h rfl _
  · exact finishJob_winds s h rfl _
  · exact finishJob_winds s h rfl _

theorem compareWaiting_winds (s : State) (r : LegRef) : s.winds (s.compareWaiting r) := by
  rcases compareWaiting_cases s r with e | ⟨m, d, -, -, e⟩ <;> rw [e]
  · exact .refl s
  · exact compareLeg_winds s d r

theorem ingestFinalised_winds (s : State) (h : Fin 64) : s.winds (s.ingestFinalised h).1 := by
  have h1 : s.winds (s.finaliseIngest h) := modJob_winds s h _ fun _ _ => id
  rcases ingestFinalised_cases s h with ⟨e, -⟩ | ⟨j, -, -, ⟨-, e⟩ | ⟨-, e⟩⟩ <;> rewrite [e]
  · exact .refl s
  · exact h1.trans (foldl_winds _ compareWaiting_winds _ _)
  · exact h1.trans (tearJob_winds _ h rfl _)

theorem placeLeg_winds (s : State) (r : LegRef) : s.winds (s.placeLeg r) := by
  have hl : ∀ g, (s.placeLeg r).startable g → s.startable g := by
    rintro g ⟨q, hq, hs⟩
    obtain ⟨f, e⟩ := placeLeg_job? s r g
    rw [e] at hq
    obtain ⟨j, hj, rfl⟩ := Option.map_eq_some_iff.mp hq
    exact ⟨j, hj, hs⟩
  have hk : (s.placeLeg r).writers = s.writers ∧ (s.placeLeg r).readers = s.readers ∧ (s.placeLeg r).digest = s.digest ∧
      (s.placeLeg r).ingest = s.ingest ∧ (s.placeLeg r).now = s.now := by
    unfold State.placeLeg
    split
    · split
      · exact ⟨rfl, rfl, rfl, rfl, rfl⟩
      · split
        · split
          · exact ⟨rfl, rfl, rfl, rfl, rfl⟩
          · dsimp only
            split <;> exact ⟨rfl, rfl, rfl, rfl, rfl⟩
        · exact ⟨rfl, rfl, rfl, rfl, rfl⟩
    · exact ⟨rfl, rfl, rfl, rfl, rfl⟩
  exact .of_rest hl hk.1 hk.2.1 (placeLeg_slots s r) hk.2.2.1 hk.2.2.2.1 hk.2.2.2.2

/-- The writing of the legs of a started job: they may take places in verify work lists. -/
structure State.writesLegs (h : Fin 64) (s t : State) : Prop where
  loaded : ∀ g, t.startable g → s.startable g
  writers : t.writers = s.writers
  checks : ∀ d : Fin 6, (t.readers[d.val]).tags = (s.readers[d.val]).tags ∧ (t.readers[d.val]).retry = (s.readers[d.val]).retry
  work : ∀ d : Fin 6, ∀ q ∈ (t.readers[d.val]).work, q ∈ (s.readers[d.val]).work ∨ q.job = h
  slots : t.slots = s.slots
  digest : t.digest = s.digest
  ingest : t.ingest = s.ingest
  now : t.now = s.now

theorem State.writesLegs.refl (h : Fin 64) (s : State) : State.writesLegs h s s :=
  ⟨fun _ => id, rfl, fun _ => ⟨rfl, rfl⟩, fun _ _ => .inl, rfl, rfl, rfl, rfl⟩

theorem State.writesLegs.trans {u : State} (a : State.writesLegs h s t) (b : State.writesLegs h t u) : State.writesLegs h s u :=
  ⟨fun g hg => a.loaded g (b.loaded g hg), b.writers.trans a.writers, fun d => ⟨(b.checks d).1.trans (a.checks d).1, (b.checks d).2.trans (a.checks d).2⟩,
    fun d q hq => (b.work d q hq).elim (a.work d q) .inr, b.slots.trans a.slots, b.digest.trans a.digest, b.ingest.trans a.ingest,
    b.now.trans a.now⟩

theorem modLeg_writesLegs (s : State) (r : LegRef) (g : Leg → Leg) : State.writesLegs h s (s.modLeg r g) :=
  ⟨(modLeg_winds s r g).loaded, rfl, fun _ => ⟨rfl, rfl⟩, fun _ _ => .inl, rfl, rfl, rfl, rfl⟩

theorem legWritten_writesLegs (s : State) {r : LegRef} (hr : r.job = h) : State.writesLegs h s (s.legWritten r).1 := by
  rcases legWritten_cases s r with ⟨-, e⟩ | ⟨m, -, ⟨d, -, -, e⟩ | ⟨-, e⟩⟩ <;> rewrite [e] <;> dsimp only
  · exact .refl h s
  · refine (modLeg_writesLegs s r fun l => { l with state := .written, written := some s.now }).trans
      ⟨fun _ => id, rfl, fun e => ?_, fun e q hq => ?_, rfl, rfl, rfl, rfl⟩
    · rw [modReader_reader]
      split
      · next e => subst e; exact ⟨rfl, rfl⟩
      · exact ⟨rfl, rfl⟩
    · rw [modReader_reader] at hq
      split at hq
      · next e =>
        subst e
        rcases List.mem_append.mp hq with hq | hq
        · exact .inl hq
        · rw [List.mem_singleton.mp hq]
          exact .inr hr
      · exact .inl hq
  · exact (modLeg_writesLegs s r _).trans (modLeg_writesLegs _ r _)

theorem eachLeg_writesLegs : ∀ (l : List LegRef) (s : State), (∀ r ∈ l, r.job = h) →
    State.writesLegs h s (eachLeg State.writtenIfWriting l s).1
  | [], s, _ => .refl h s
  | r :: rest, s, hl => by
    have h1 : State.writesLegs h s (s.writtenIfWriting r).1 := by
      rcases writtenIfWriting_cases s r with e | ⟨m, -, -, e⟩ <;> rw [e]
      · exact .refl h s
      · exact legWritten_writesLegs s (hl r List.mem_cons_self)
    exact h1.trans (eachLeg_writesLegs rest _ fun q hq => hl q (List.mem_cons_of_mem _ hq))

theorem beginStart_winds (s : State) (i : Fin 8) (h : Fin 64) : s.winds (s.beginStart i h) :=
  (modIngest_winds s i (fun p => { p with lineUp := p.lineUp.tail }) (fun _ => .inl rfl) (fun _ => .inl) (List.tail_subset _)).trans
    (modJob_winds _ h _ fun _ _ => id)

theorem startJob_winds {i : Fin 8} {j : Job} (hj : s.job? h = some j) (hs : j.state = .loaded) : s.winds (s.startJob i h).1 := by
  have hst : s.startable h := ⟨j, hj, hs⟩
  have hp : s.winds (s.placeLegs i h) := (beginStart_winds s i h).trans (foldl_winds _ placeLeg_winds _ _)
  rcases startJob_cases s i h with ⟨-, e⟩ | ⟨q, hq, ⟨-, e⟩ | ⟨-, -, e⟩ | ⟨-, -, e⟩⟩ <;> rewrite [e] <;> dsimp only
  · exact hp
  · exact hp.trans (finishJob_winds _ h rfl _)
  · have h1 : s.winds ((s.placeLegs i h).emptied h) := hp.trans (modJob_winds _ h _ fun _ _ (e : JobState.settling = .loaded) => by cases e)
    have h2 := eachLeg_writesLegs (h := h) ((s.beginStart i h).legRefs h) ((s.placeLegs i h).emptied h) fun r hr => legRefs_job hr
    exact
      { loaded := fun g hg => h1.loaded g (h2.loaded g hg)
        queue := fun x => by rw [State.writer_congr h2.writers]; exact h1.queue x
        writes := fun x => by rw [State.writer_congr h2.writers]; exact h1.writes x
        checks := fun d => by rw [(h2.checks d).1, (h2.checks d).2]; exact h1.checks d
        work := fun d q hq => (h2.work d q hq).elim (h1.work d q) fun e => .inr (e ▸ hst)
        slots := fun z hz => h1.slots z (by rw [← h2.slots]; exact hz)
        waits := fun y hy hw => by rw [h2.slots, h2.digest]; exact h1.waits y hy hw
        ready := by rw [h2.digest]; exact h1.ready
        tags := fun p k => by rw [h2.ingest]; exact h1.tags p k
        reading := fun p g hg => h1.reading p g (by rw [← h2.ingest]; exact hg)
        lineUp := fun p => by rw [h2.ingest]; exact h1.lineUp p
        now := h2.now.trans h1.now }
  · have h1 : s.winds ((s.placeLegs i h).modJob h fun j => { j with state := .reading }) :=
      hp.trans (modJob_winds _ h _ fun _ _ (e : JobState.reading = .loaded) => by cases e)
    have h2 : ∀ p : Fin 8, (State.ingest (((s.placeLegs i h).modJob h fun j => { j with state := .reading }).modIngest i fun p =>
        { p with reading := some h }))[p.val] = if i = p then { (s.placeLegs i h).ingest[i.val] with reading := some h } else
          (s.placeLegs i h).ingest[p.val] := fun p => by
      rw [State.modIngest_ingest, setEntry_getElem]
      rfl
    exact
      { h1 with
        tags := fun p k => by
          rw [h2]
          split
          · next e => subst e; exact h1.tags i k
          · exact h1.tags p k
        reading := fun p g hg => by
          rw [h2] at hg
          split at hg
          · cases hg
            exact .inr hst
          · exact h1.reading p g hg
        lineUp := fun p => by
          rw [h2]
          split
          · next e => subst e; exact h1.lineUp i
          · exact h1.lineUp p }

theorem perform_winds (s : State) (x : Todo) : s.winds (s.perform x).1 := by
  cases x with
  | activate d => exact activateHead_winds s d
  | test h => exact testJob_winds s h
  | ingestFinal h => exact ingestFinalised_winds s h
  | start i =>
    rcases testStart_cases s i with ⟨e, -⟩ | ⟨h, rest, j, -, -, hj, hs, e⟩
    · change s.winds (s.testStart i).1
      rw [e]
      exact .refl s
    · change s.winds (s.testStart i).1
      rw [e]
      exact startJob_winds hj hs

theorem cascade_winds (s : State) (l : List Todo) : s.winds (s.cascade l) :=
  run_inv (fun t => s.winds t) (fun _ x ht => ht.trans (perform_winds _ x)) _ l s (.refl s)

end Sys2Proof.Machine
end

