-- ==== Sys2Proof/Proofs/P27.lean ====
section
/-! The withdrawals of Table 1-8: brought about by a teardown (`teardown_out`), kept by the rest of an event, and so standing after it
(`State.workOut.issues`). -/

namespace Sys2Proof.Machine

open Sys2Proof

variable {s t u : State} {h : Fin 64}

/-- A job's writes have been withdrawn at a writer, and no tag so left FREE has been used again. -/
def State.writesOut (x : Target) (h : Fin 64) (s t : State) : Prop :=
  (∀ e ∈ (t.writer x).queue, e.ref.job ≠ h) ∧ tagsGone h (s.writer x).tags (t.writer x).tags (t.writer x).retry

/-- The slots that a test selects have been withdrawn from the pool and the ready list. -/
def State.slotsOut (mine : Slot → Bool) (s t : State) : Prop :=
  (∀ z ∈ t.slots, mine z = true → ∃ b, z.held = some b ∧ b.inDigest = true ∧ b.withdrawn = true) ∧
    ∀ y ∈ s.slots, mine y = true → y.waits → y.num ∉ t.digest.ready

/-- A leg has left its drive's verify work list with its reads and slots. -/
def State.verifyOut (d : Fin 6) (r : LegRef) (s t : State) : Prop :=
  ((∀ q ∈ (t.readers[d.val]).work, q.job ≠ r.job) ∧ tagsGone r.job (s.readers[d.val]).tags (t.readers[d.val]).tags (t.readers[d.val]).retry) ∧
    State.slotsOut (Slot.checkOf r) s t

theorem State.writesOut.winds {x : Target} (a : State.writesOut x h s t) (b : t.winds u) : State.writesOut x h s u :=
  ⟨fun e he => a.1 e (b.queue x he), a.2.winds (b.writes x)⟩

theorem State.slotsOut.winds {mine : Slot → Bool} (hm : ∀ {y z : Slot}, y.winds z → mine z = mine y) (a : State.slotsOut mine s t)
    (b : t.winds u) : State.slotsOut mine s u := by
  refine ⟨fun z hz hmz => ?_, fun y hy hmy hw hn => a.2 y hy hmy hw (b.ready hn)⟩
  obtain ⟨y, hy, e⟩ := b.slots z hz
  obtain ⟨c, hc, hi, hw⟩ := a.1 y hy (by rw [← hm e]; exact hmz)
  rcases e.held with ⟨e1, -⟩ | ⟨c', d, e1, e2, e3, e4⟩
  · rw [hc] at e1
    cases e1
  · rw [hc] at e1
    cases e1
    exact ⟨d, e2, e3.trans hi, e4 hw⟩

theorem ingestOf_winds {y z : Slot} (e : y.winds z) : Slot.ingestOf h z = Slot.ingestOf h y := by
  unfold Slot.ingestOf
  rw [e.job, e.ingest]

theorem checkOf_winds {r : LegRef} {y z : Slot} (e : y.winds z) : Slot.checkOf r z = Slot.checkOf r y := by
  unfold Slot.checkOf
  rw [e.job, decide_eq_decide.mpr (e.check r.leg)]

theorem State.verifyOut.winds {d : Fin 6} {r : LegRef} (a : State.verifyOut d r s t) (b : t.winds u) (hn : ¬ t.startable r.job) :
    State.verifyOut d r s u := by
  refine ⟨⟨fun q hq => ?_, a.1.2.winds (b.checks d)⟩, a.2.winds checkOf_winds b⟩
  rcases b.work d q hq with hq | hq
  · exact a.1.1 q hq
  · exact fun e => hn (e ▸ hq)

/-! ## Through the end of an event -/

theorem State.writesOut.issues {x : Target} (a : State.writesOut x h s t) (b : t.issues u) : State.writesWithdrawn x h s u :=
  writesWithdrawn_iff.mpr (b.writers x h _ ⟨a.1, a.2.withdrawn⟩)

theorem slot?_mem {n : Nat} {y : Slot} (e : s.slot? n = some y) : y ∈ s.slots ∧ y.num = n := by
  refine ⟨List.mem_of_find?_eq_some e, ?_⟩
  simpa using List.find?_some e

theorem State.slotsOut.issues {mine : Slot → Bool} (a : State.slotsOut mine s t) (b : t.issues u)
    (hr : ∀ z, t.reserves z → mine z = false) : State.slotsWithdrawn mine s u := by
  refine ⟨fun n y hy hm => ?_, fun n y c hy hm hc hd hi => ?_⟩
  · rcases b.slots y (slot?_mem hy).1 with hz | hz
    · exact a.1 y hz hm
    · rw [hr y hz] at hm
      cases hm
  · obtain ⟨hys, rfl⟩ := slot?_mem hy
    rw [b.settles.kept.2.1]
    exact a.2 y hys hm ⟨c, hc, hd, hi⟩

theorem ingestOf_reserves {z : Slot} (hz : t.reserves z) (hj : ∀ j, t.job? h = some j → j.state ≠ .reading) : Slot.ingestOf h z = false := by
  rw [Bool.eq_false_iff]
  intro e
  unfold Slot.ingestOf at e
  obtain ⟨e1, e2⟩ := Bool.and_eq_true_iff.mp e
  obtain ⟨-, ⟨j, hzj, hs, -⟩ | ⟨d, r, -, -, hk⟩⟩ := hz
  · exact hj j (by rw [← of_decide_eq_true e1]; exact hzj) hs
  · simp [Slot.isIngest, hk] at e2

theorem checkOf_reserves {z : Slot} {r : LegRef} (hz : t.reserves z) (hw : ∀ d : Fin 6, r ∉ (t.readers[d.val]).work) :
    Slot.checkOf r z = false := by
  rw [Bool.eq_false_iff]
  intro e
  unfold Slot.checkOf at e
  obtain ⟨e1, e2⟩ := Bool.and_eq_true_iff.mp e
  obtain ⟨-, ⟨j, -, -, hk⟩ | ⟨d, q, hq, hj, hk⟩⟩ := hz
  · have := of_decide_eq_true e2
    rw [hk] at this
    cases this
  · have hl := of_decide_eq_true e2
    rw [hk] at hl
    have hqr : q = r := by
      have h1 : q.job = r.job := hj.symm.trans (of_decide_eq_true e1)
      have h2 : q.leg = r.leg := by simpa using hl
      cases q
      cases r
      simp_all
    exact hw d (hqr ▸ hq)

theorem State.verifyOut.issues {d : Fin 6} {r : LegRef} (a : State.verifyOut d r s t) (b : t.issues u)
    (hw : ∀ e : Fin 6, r ∉ (t.readers[e.val]).work) : State.verifyGone d r s u := by
  obtain ⟨h1, h2⟩ := b.readers d r.job _ ⟨a.1.1, a.1.2.withdrawn⟩
  exact ⟨h1, h2, a.2.issues b fun z hz => checkOf_reserves hz hw⟩

/-- All of a job's work has been withdrawn. -/
structure State.workOut (h : Fin 64) (s t : State) : Prop where
  writes : ∀ x, State.writesOut x h s t
  slots : State.slotsOut (Slot.ingestOf h) s t
  verify : s.outcomesOk → ∀ d : Fin 6, ∀ r ∈ (s.readers[d.val]).work, r.job = h →
    State.verifyOut d r s t ∧ ∀ e : Fin 6, r ∉ (t.readers[e.val]).work

theorem not_mem_work_winds {r : LegRef} (a : ∀ e : Fin 6, r ∉ (t.readers[e.val]).work) (b : t.winds u) (hn : ¬ t.startable r.job) :
    ∀ e : Fin 6, r ∉ (u.readers[e.val]).work := by
  intro e hq
  rcases b.work e r hq with hq | hq
  · exact a e hq
  · exact hn hq

theorem State.workOut.winds (a : State.workOut h s t) (b : t.winds u) (hn : ¬ t.startable h) : State.workOut h s u :=
  ⟨fun x => (a.writes x).winds b, a.slots.winds ingestOf_winds b, fun ho d r hr e =>
    have ⟨a1, a2⟩ := a.verify ho d r hr e
    ⟨a1.winds b (e ▸ hn), not_mem_work_winds a2 b (e ▸ hn)⟩⟩

theorem State.workOut.issues (a : State.workOut h s t) (b : t.issues u) (hj : ∀ j, t.job? h = some j → j.state ≠ .reading) :
    State.workGone h s u :=
  ⟨fun x => (a.writes x).issues b, a.slots.issues b fun _ hz => ingestOf_reserves hz hj, fun ho d r hr e =>
    have ⟨a1, a2⟩ := a.verify ho d r hr e
    a1.issues b a2⟩

/-! ## The Ingest Sequencer's withdrawal -/

theorem State.readsAbandoned.winds (a : State.readsAbandoned h s t) (b : t.winds u) : State.readsAbandoned h s u := by
  intro j hj hr k g index num issued attempt hk
  have e := a j hj hr k g index num issued attempt hk
  rcases b.tags j.port k with e' | ⟨_, _, _, _, _, e', -⟩
  · rw [e', e]
  · rw [e] at e'
    cases e'

theorem State.readsAbandoned.issues (a : State.readsAbandoned h s t) (b : t.settlesTo u) : State.readsAbandoned h s u := by
  intro j hj hr k g index num issued attempt hk
  have e := a j hj hr k g index num issued attempt hk
  rcases (b.ingest j.port).tags k with e' | ⟨e', -⟩
  · rw [e', e]
  · rw [e] at e'
    cases e'

/-! ## A teardown -/

theorem State.outcomesOk.ref_unique (ho : s.outcomesOk) {r q : LegRef} {l m : Leg} (hr : s.leg? r = some l) (hq : s.leg? q = some m)
    (hj : r.job = q.job) (ht : l.target = m.target) : r = q := by
  obtain ⟨j, hjr, hl⟩ := State.leg?_eq_some.mp hr
  obtain ⟨k, hkq, hm⟩ := State.leg?_eq_some.mp hq
  rw [← hj, hjr] at hkq
  cases hkq
  have hn := (ho.1 r.job j hjr).1
  obtain ⟨hlt, -⟩ := List.getElem?_eq_some_iff.mp hl
  have : r.leg = q.leg := by
    refine (List.getElem?_inj (by simpa using hlt) hn).mp ?_
    rw [List.getElem?_map, List.getElem?_map, hl, hm, Option.map_some, Option.map_some, ht]
  cases r
  cases q
  simp_all

/-- A verify work list holds one leg of a job at most. -/
theorem State.outcomesOk.work_unique (ho : s.outcomesOk) {d : Fin 6} {r q : LegRef} (hr : r ∈ (s.readers[d.val]).work)
    (hq : q ∈ (s.readers[d.val]).work) (hj : r.job = q.job) : r = q := by
  obtain ⟨l, hl, hlt, -⟩ := ho.work hr
  obtain ⟨m, hm, hmt, -⟩ := ho.work hq
  exact ho.ref_unique hl hm hj (hlt.trans hmt.symm)

/-- A leg stands in the verify work list of its own drive only. -/
theorem State.outcomesOk.work_drive (ho : s.outcomesOk) {d e : Fin 6} {r : LegRef} (hr : r ∈ (s.readers[d.val]).work)
    (hq : r ∈ (s.readers[e.val]).work) : d = e := by
  obtain ⟨l, hl, hlt, -⟩ := ho.work hr
  obtain ⟨m, hm, hmt, -⟩ := ho.work hq
  rw [hl] at hm
  cases hm
  rw [hlt] at hmt
  exact Target.drive.inj hmt

theorem withdraw_writesOut (x : Target) (h : Fin 64) (hw : u.writer x = s.writer x) :
    State.writesOut x h s (u.modWriter x fun w => w.withdraw h) := by
  unfold State.writesOut
  rw [writer_modWriter_same, hw]
  refine ⟨fun e he => ?_, tagsGone_withdraw h _ _⟩
  have := (List.mem_filter.mp he).2
  simpa using this

/-- The withdrawal at every writer. -/
theorem foldl_withdraw_out (h : Fin 64) : ∀ (l : List Target) (u : State), (∀ x, u.writer x = s.writer x ∨ State.writesOut x h s u) →
    (∀ x, (l.foldl (fun s x => s.modWriter x fun w => w.withdraw h) u).writer x = s.writer x ∨
      State.writesOut x h s (l.foldl (fun s x => s.modWriter x fun w => w.withdraw h) u)) ∧
    ∀ x ∈ l, State.writesOut x h s (l.foldl (fun s x => s.modWriter x fun w => w.withdraw h) u)
  | [], u, hu => ⟨hu, fun x hx => by cases hx⟩
  | y :: rest, u, hu => by
    have hone : State.writesOut y h s (u.modWriter y fun w => w.withdraw h) := by
      rcases hu y with e | e
      · exact withdraw_writesOut y h e
      · exact e.winds (modWriter_withdraw_winds u y h)
    have hnext : ∀ x, (u.modWriter y fun w => w.withdraw h).writer x = s.writer x ∨
        State.writesOut x h s (u.modWriter y fun w => w.withdraw h) := by
      intro x
      by_cases e : y = x
      · exact .inr (e ▸ hone)
      · refine (hu x).imp (fun e' => ?_) fun e' => e'.winds (modWriter_withdraw_winds u y h)
        rw [State.writer_modWriter, if_neg e, e']
    obtain ⟨h1, h2⟩ := foldl_withdraw_out h rest _ hnext
    refine ⟨h1, fun x hx => ?_⟩
    rcases List.mem_cons.mp hx with e | hx
    · subst e
      exact hone.winds (foldl_winds (fun s x => s.modWriter x fun w => w.withdraw h) (fun s x => modWriter_withdraw_winds s x h) rest _)
    · exact h2 x hx

theorem mem_allTargets (x : Target) : x ∈ allTargets := by
  cases x with
  | sink => decide
  | drive d =>
    revert d
    decide

/-- A withdrawal of slots after others. -/
theorem withdrawSlots_out {mine : Slot → Bool} (hm : ∀ {y z : Slot}, y.winds z → mine z = mine y) (a : s.winds t) :
    State.slotsOut mine s (t.withdrawSlots mine) := by
  refine ⟨fun z hz hmz => ?_, fun y hy hmy hw hn => ?_⟩
  · obtain ⟨y, -, e, hy⟩ := mem_withdrawSlots hz
    exact hy (by rw [← hm e]; exact hmz)
  · rcases a.waits y hy hw with ⟨z, hz, e, -⟩ | hz
    · have hin := (List.mem_filter.mp (show y.num ∈ t.digest.ready.filter fun n => !((t.slots.filter mine).map Slot.num).contains n from hn)).2
      have hmem : z.num ∈ (t.slots.filter mine).map Slot.num := List.mem_map_of_mem (List.mem_filter.mpr ⟨hz, by rw [hm e]; exact hmy⟩)
      rw [e.num] at hmem
      simp [hmem] at hin
    · exact hz ((withdrawSlots_winds t mine).ready hn)

end Sys2Proof.Machine
end

