-- ==== Sys2Proof/Proofs/P28.lean ====
section
/-! A teardown withdraws all of its job's work, and the job's end and the withdrawals stand when the event is over (`tear_event`). -/

namespace Sys2Proof.Machine

open Sys2Proof

variable {s t u : State} {h : Fin 64} {o : JobState} {c : JobCause}

/-! ## The job's end -/

/-- A job has ended in this event, with its outcome, cause and finished timestamp, and every leg has. -/
def State.endsIn (s t : State) (h : Fin 64) (o : JobState) (c : JobCause) : Prop :=
  ∃ k, t.job? h = some k ∧ k.state = o ∧ k.cause = some c ∧ k.finishedAt = some s.now ∧ ∀ l ∈ k.legs, l.state.terminal = true

theorem State.endsIn.advances (a : s.endsIn t h o c) (ho : o.terminal = true) (b : t.advancesTo u) : s.endsIn u h o c := by
  obtain ⟨j, hj, h1, h2, h3, h4⟩ := a
  obtain ⟨k, hk, e⟩ := b.jobs h j hj
  have ht : j.state.terminal = true := by rw [h1]; exact ho
  obtain ⟨f1, f2, f3⟩ := e.final ht
  exact ⟨k, hk, f1.trans h1, f2.trans h2, f3.trans h3, terminal_congr (e.legStates h4) h4⟩

theorem teardown_endsIn {j : Job} (hj : s.job? h = some j) (ht : j.state.terminal = false) (ho : o.terminal = true) (c : JobCause) :
    s.endsIn (s.teardown h o c) h o c := by
  refine ⟨j.torn s.now o c, by rw [teardown_job?, if_pos rfl, hj, Option.map_some], ?_⟩
  obtain ⟨a, b, -⟩ := Job.torn_spec (now := s.now) (o := o) (c := c) ht
  refine ⟨a, b, ?_, (Job.torn_settled ho c j).2⟩
  unfold Job.torn Job.finished Job.abandoned
  rw [ht]
  rfl

/-- A job that has ended is neither LOADED nor READING. -/
theorem State.endsIn.not_running (a : s.endsIn t h o c) (ho : o.terminal = true) :
    ¬ t.startable h ∧ ∀ j, t.job? h = some j → j.state ≠ .reading := by
  obtain ⟨k, hk, h1, -⟩ := a
  refine ⟨fun ⟨j, hj, hs⟩ => ?_, fun j hj hs => ?_⟩
  · rw [hk] at hj
    cases hj
    rw [← h1, hs] at ho
    cases ho
  · rw [hk] at hj
    cases hj
    rw [← h1, hs] at ho
    cases ho

/-! ## Withdrawal from the verify work lists -/

theorem withdrawVerify_out {d : Fin 6} (hr : t.readers[d.val] = s.readers[d.val]) (a : s.winds t) {r : LegRef}
    (e : ((s.readers[d.val]).work.find? fun r => r.job == h) = some r) : State.verifyOut d r s (t.withdrawVerify d h) := by
  have hj : r.job = h := by simpa using List.find?_some e
  have hout : ∀ u : State, u.readers = (t.modReader d fun v => v.withdraw h).readers → u.slots = ((t.modReader d fun v => v.withdraw h).withdrawSlots
      (Slot.checkOf r)).slots → u.digest = ((t.modReader d fun v => v.withdraw h).withdrawSlots (Slot.checkOf r)).digest →
      State.verifyOut d r s u := by
    intro u hur hus hud
    have h1 := withdrawSlots_out (t := t.modReader d fun v => v.withdraw h) (mine := Slot.checkOf r) checkOf_winds
      (a.trans (modReader_winds t d _ (tagsWind_withdraw h _ _) fun q hq => .inl (List.mem_of_mem_filter hq)))
    refine ⟨?_, by rw [hus]; exact h1.1, by rw [hud]; exact h1.2⟩
    rw [hur, modReader_reader, if_pos rfl, hr, hj]
    refine ⟨fun q hq => ?_, tagsGone_withdraw h _ _⟩
    have := (List.mem_filter.mp hq).2
    simpa using this
  unfold State.withdrawVerify
  dsimp only
  rw [hr, e]
  dsimp only
  split
  · exact hout _ rfl rfl rfl
  · exact hout _ rfl rfl rfl

theorem withdrawVerify_reader (t : State) (d e : Fin 6) (h : Fin 64) (hne : d ≠ e) : (t.withdrawVerify d h).readers[e.val] = t.readers[e.val] := by
  have h1 : (t.modReader d fun v => v.withdraw h).readers[e.val] = t.readers[e.val] := by rw [modReader_reader, if_neg hne]
  unfold State.withdrawVerify
  dsimp only
  split
  · rfl
  · split
    · exact h1
    · exact h1

/-- A drive's reader stands, or its leg of the job has left. -/
def State.verifyDone (h : Fin 64) (s t : State) (d : Fin 6) : Prop :=
  ∀ r, ((s.readers[d.val]).work.find? fun r => r.job == h) = some r → State.verifyOut d r s t

theorem State.verifyDone.winds {d : Fin 6} (a : State.verifyDone h s t d) (b : t.winds u) (hn : ¬ t.startable h) : State.verifyDone h s u d := by
  intro r e
  have hj : r.job = h := by simpa using List.find?_some e
  exact (a r e).winds b (hj ▸ hn)

theorem foldl_verify_out (h : Fin 64) : ∀ (l : List (Fin 6)) (u : State), s.winds u → ¬ u.startable h →
    (∀ d : Fin 6, u.readers[d.val] = s.readers[d.val] ∨ State.verifyDone h s u d) →
    ∀ d ∈ l, State.verifyDone h s (l.foldl (fun s d => s.withdrawVerify d h) u) d
  | [], _, _, _, _ => fun d hd => by cases hd
  | e :: rest, u, ha, hn, hu => by
    have hw := withdrawVerify_winds u e h
    have hn' : ¬ (u.withdrawVerify e h).startable h := fun q => hn (hw.loaded h q)
    have hone : State.verifyDone h s (u.withdrawVerify e h) e := by
      rcases hu e with q | q
      · exact fun r hr => withdrawVerify_out q ha hr
      · exact q.winds hw hn
    have hnext : ∀ d : Fin 6, (u.withdrawVerify e h).readers[d.val] = s.readers[d.val] ∨ State.verifyDone h s (u.withdrawVerify e h) d := by
      intro d
      by_cases q : e = d
      · exact .inr (q ▸ hone)
      · exact (hu d).imp (fun q' => by rw [withdrawVerify_reader u e d h q, q']) fun q' => q'.winds hw hn
    have ih := foldl_verify_out h rest _ (ha.trans hw) hn' hnext
    intro d hd
    rcases List.mem_cons.mp hd with q | hd
    · subst q
      exact hone.winds (foldl_winds (fun s d => s.withdrawVerify d h) (fun s d => withdrawVerify_winds s d h) rest _) hn'
    · exact ih d hd

/-! ## The teardown -/

theorem abandonLegs_winds (s : State) (h : Fin 64) : s.winds (s.abandonLegs h) :=
  modJob_winds s h _ fun _ _ e => e

/-- A teardown withdraws all of its job's work (Table 1-8). -/
theorem teardown_out {j : Job} (hj : s.job? h = some j) (ho : o.terminal = true) (c : JobCause) :
    State.workOut h s (s.teardown h o c) := by
  -- the state with the job ended, its reading dropped and its INGEST slots withdrawn
  obtain ⟨v, hv, hsv⟩ : ∃ v : State, v = ((s.finishJob h o (some c)).abandonLegs h).dropReading h ∧ s.winds v := by
    exact ⟨_, rfl, ((finishJob_winds s h ho (some c)).trans (abandonLegs_winds _ h)).trans (dropReading_winds _ h)⟩
  have hvs : v.slots = s.slots := by
    rw [hv, dropReading_slots, abandonLegs_slots, finishJob_slots]
  have hkeep : v.writers = s.writers ∧ v.readers = s.readers ∧ v.digest = s.digest := by
    have h1 : (s.finishJob h o (some c)).writers = s.writers ∧ (s.finishJob h o (some c)).digest = s.digest := by
      unfold State.finishJob
      split
      · exact ⟨rfl, rfl⟩
      · split
        · exact ⟨rfl, rfl⟩
        · dsimp only
          split <;> exact ⟨rfl, rfl⟩
    have h2 : ∀ w : State, (w.dropReading h).writers = w.writers ∧ (w.dropReading h).readers = w.readers ∧ (w.dropReading h).digest = w.digest := by
      intro w
      unfold State.dropReading
      split
      · exact ⟨rfl, rfl, rfl⟩
      · split <;> exact ⟨rfl, rfl, rfl⟩
    rw [hv]
    obtain ⟨a, b, c'⟩ := h2 ((s.finishJob h o (some c)).abandonLegs h)
    exact ⟨a.trans h1.1, b.trans (finishJob_readers s h o (some c)), c'.trans h1.2⟩
  have hslots := withdrawSlots_out (mine := Slot.ingestOf h) ingestOf_winds hsv
  have hsp := hsv.trans (withdrawSlots_winds v (Slot.ingestOf h))
  generalize hp : v.withdrawSlots (Slot.ingestOf h) = p at hslots hsp
  have hpr : p.readers = s.readers := by rw [← hp]; exact hkeep.2.1
  have hpw : p.writers = s.writers := by rw [← hp]; exact hkeep.1
  obtain ⟨-, hwr⟩ := foldl_withdraw_out (s := s) h allTargets p fun x => .inl (State.writer_congr hpw x)
  have hwin := foldl_winds (fun (s : State) x => s.modWriter x fun w => w.withdraw h) (fun s x => modWriter_withdraw_winds s x h) allTargets p
  generalize hq : allTargets.foldl (fun (s : State) x => s.modWriter x fun w => w.withdraw h) p = q at hwr hwin
  have hqk : q.readers = s.readers ∧ q.slots = p.slots ∧ q.digest = p.digest := by
    rw [← hq]
    exact ⟨(foldl_keeps State.readers (fun (s : State) x => s.modWriter x fun w => w.withdraw h) (fun _ _ => rfl) _ p).trans hpr,
      foldl_keeps State.slots (fun (s : State) x => s.modWriter x fun w => w.withdraw h) (fun _ _ => rfl) _ p,
      foldl_keeps State.digest (fun (s : State) x => s.modWriter x fun w => w.withdraw h) (fun _ _ => rfl) _ p⟩
  have hw2 := foldl_winds (fun (s : State) d => s.withdrawVerify d h) (fun s d => withdrawVerify_winds s d h) allDrives q
  have hend : s.teardown h o c = allDrives.foldl (fun s d => s.withdrawVerify d h) q := by
    rw [← hq, ← hp, hv]
    rfl
  have hns : ¬ q.startable h := by
    have h1 : ∀ w : State, w.winds q → ¬ w.startable h → ¬ q.startable h := fun w hw hn e => hn (hw.loaded h e)
    refine h1 v ?_ ?_
    · exact State.winds.trans (by rw [← hp]; exact withdrawSlots_winds v _) hwin
    · rintro ⟨k, hk, hks⟩
      have hvj : v.job? h = some (j.torn s.now o c) := by
        rw [hv, State.job?_congr (dropReading_jobs _ h), abandonLegs_job?, if_pos rfl, finishJob_job?, if_pos rfl, hj, finishJob_now]
        rfl
      rw [hvj] at hk
      cases hk
      have := Job.torn_terminal s.now ho c j
      rw [hks] at this
      cases this
  have hver := foldl_verify_out (s := s) h allDrives q (hsp.trans hwin) hns fun d => .inl (by rw [hqk.1])
  generalize s.teardown h o c = z at hend
  generalize allDrives.foldl (fun s d => s.withdrawVerify d h) q = y at hend hw2 hver
  subst hend
  refine ⟨fun x => (hwr x (mem_allTargets x)).winds hw2, ?_, fun hout d r hr hrj => ?_⟩
  · exact State.slotsOut.winds ingestOf_winds (t := q) ⟨by rw [hqk.2.1]; exact hslots.1, by rw [hqk.2.2]; exact hslots.2⟩ hw2
  · -- the leg of the job in the list is the one that the withdrawal finds
    obtain ⟨r', hr'⟩ : ∃ r', ((s.readers[d.val]).work.find? fun r => r.job == h) = some r' := by
      rw [← Option.isSome_iff_exists, List.find?_isSome]
      exact ⟨r, hr, by simpa using hrj⟩
    have e : r' = r := hout.work_unique (List.mem_of_find?_eq_some hr') hr ((by simpa using List.find?_some hr' : r'.job = h).trans hrj.symm)
    subst e
    have hv' := hver d (mem_allDrives d) r' hr'
    refine ⟨hv', fun e he => ?_⟩
    have hes : r' ∈ (s.readers[e.val]).work := by
      rcases hw2.work e r' he with hm | hm
      · rw [hqk.1] at hm
        exact hm
      · exact absurd (hrj ▸ hm) hns
    have hde := hout.work_drive hr hes
    subst hde
    exact hv'.1.1 r' he rfl

theorem teardown_reads {j : Job} (hj : s.job? h = some j) (o : JobState) (c : JobCause) : State.readsAbandoned h s (s.teardown h o c) := by
  intro j' hj' hr k g index num issued attempt hk
  rw [hj] at hj'
  cases hj'
  rw [teardown_ingest hj, setEntry_same, IngestPort.dropJob, if_pos hr]
  dsimp only
  rw [Vector.getElem_map, ReadTag.abandon, hk]

/-- What a teardown and the rest of its event leave of the job. -/
structure State.tornBy (h : Fin 64) (o : JobState) (c : JobCause) (s t : State) : Prop where
  ends : s.endsIn t h o c
  work : State.workGone h s t
  reads : State.readsAbandoned h s t

/-- A teardown before the rest of the event. -/
structure State.torn (h : Fin 64) (o : JobState) (c : JobCause) (s t : State) : Prop where
  ends : s.endsIn t h o c
  work : State.workOut h s t
  reads : State.readsAbandoned h s t

theorem tearJob_torn {j : Job} (hj : s.job? h = some j) (ht : j.state.terminal = false) (ho : o.terminal = true) (c : JobCause) :
    State.torn h o c s (s.tearJob h o c).1 := by
  rcases tearJob_cases s h o c with ⟨-, hn⟩ | ⟨q, -, -, e⟩
  · rw [hn j hj] at ht
    cases ht
  · have h1 := teardown_endsIn hj ht ho c
    have h2 := teardown_out hj ho c
    have h3 := teardown_reads hj o c
    rewrite [e]
    generalize s.teardown h o c = z at h1 h2 h3 ⊢
    exact ⟨h1, h2, h3⟩

theorem State.torn.later (a : State.torn h o c s t) (ho : o.terminal = true) (b : t.winds u) (d : t.advancesTo u) : State.torn h o c s u :=
  ⟨a.ends.advances ho d, a.work.winds b (a.ends.not_running ho).1, a.reads.winds b⟩

theorem State.torn.cascade (a : State.torn h o c s t) (ho : o.terminal = true) (l : List Todo) : State.torn h o c s (t.cascade l) :=
  a.later ho (cascade_winds t l) (cascade_advances t l)

theorem State.torn.close (a : State.torn h o c s t) (ho : o.terminal = true) : State.tornBy h o c s t.close :=
  ⟨a.ends.advances ho (close_advances t), a.work.issues (close_issues t) (a.ends.not_running ho).2, a.reads.issues (close_settles t)⟩

/-- A teardown event: the job has ended and all of its work is withdrawn when the event is over. -/
theorem tear_event {j : Job} (hj : s.job? h = some j) (ht : j.state.terminal = false) (ho : o.terminal = true) (c : JobCause) :
    State.tornBy h o c s (cascadeOf (s.tearJob h o c)).close :=
  ((tearJob_torn hj ht ho c).cascade ho _).close ho

/-- The withdrawals as seen from another state of the same pool, tags, lists and jobs. -/
theorem State.workGone.of_base {v : State} (a : State.workGone h v t) (hw : v.writers = s.writers) (hr : v.readers = s.readers)
    (hs : v.slots = s.slots) (hj : v.jobs = s.jobs) : State.workGone h s t := by
  have hslot : ∀ mine, State.slotsWithdrawn mine v t → State.slotsWithdrawn mine s t := fun mine a =>
    ⟨a.slots, fun n y b hy => a.ready n y b (by rw [State.slot?_congr hs]; exact hy)⟩
  refine ⟨fun x => ⟨(a.writes x).queue, ?_⟩, hslot _ a.slots, fun ho d r hm e => ?_⟩
  · rw [← State.writer_congr hw]
    exact (a.writes x).tags
  · have hov : v.outcomesOk := (OutStep.of_same (l := []) ho hj fun d => by rw [hr]).outcomes
    have g := a.verify hov d r (by rw [hr]; exact hm) e
    exact ⟨g.work, by rw [← hr]; exact g.tags, hslot _ g.slots⟩

end Sys2Proof.Machine
end

