-- ==== Sys2Proof/Proofs/P29.lean ====
section
/-! A failed read without retries left (R19, R61). -/

namespace Sys2Proof.Machine

open Sys2Proof

variable {s t v : State} {h : Fin 64}

/-- The frame is received and the event enabled: the effect is the next state. -/
theorem exec_blockData {i : Fin 8} {tag : Byte} {gen : Gen} {answer : ReadAnswer} (hr : s.resetN = true) (hl : s.linkUp (.ingest i) = true)
    (hw : answer.wellFormed = true) : exec (.blockData i tag gen answer) s = .next (blockDataEffect i tag gen answer s) := by
  simp only [exec, execBlockData]
  rw [event_enabled hr hl, if_pos hw]

theorem exec_readTagExpiry {i k : Fin 8} (hr : s.resetN = true) (hd : ((s.ingest[i.val]).tags[k.val]).due = true) :
    exec (.readTagExpiry i k) s = .next (readExpiryEffect i k s) := by
  simp only [exec, execReadTagExpiry]
  exact event_enabled hr hd

/-- The tag byte of a tag names it. -/
theorem tagOf_ofNat {n : Nat} (hn : n ≤ 256) (k : Fin n) : tagOf n (BitVec.ofNat 8 k.val) = some k := by
  have hk := k.isLt
  have e : (BitVec.ofNat 8 k.val).toNat = k.val := by
    rw [BitVec.toNat_ofNat]
    exact Nat.mod_eq_of_lt (by omega)
  unfold tagOf
  rw [dif_pos (by rw [e]; exact hk)]
  exact congrArg some (Fin.ext e)

theorem blockDataEffect_ok {i k : Fin 8} {index num attempt : Nat} {issued : Tick} {gen : Gen} {due : Bool}
    (htag : (s.ingest[i.val]).tags[k.val] = ⟨.busy h index num issued attempt, gen, due⟩) (data : List Byte) :
    blockDataEffect i (BitVec.ofNat 8 k.val) gen (.ok data) s =
      (cascadeOf ((s.received (.ingest i)).blockArrived i k h index num data)).close := by
  have htag' : ((s.received (.ingest i)).ingest[i.val]).tags[k.val] = ⟨.busy h index num issued attempt, gen, due⟩ := htag
  unfold blockDataEffect
  dsimp only
  rw [tagOf_ofNat (by omega) k]
  dsimp only
  rw [htag']
  dsimp only
  rw [if_pos rfl]

theorem blockDataEffect_readError {i k : Fin 8} {index num attempt : Nat} {issued : Tick} {gen : Gen} {due : Bool}
    (htag : (s.ingest[i.val]).tags[k.val] = ⟨.busy h index num issued attempt, gen, due⟩) :
    blockDataEffect i (BitVec.ofNat 8 k.val) gen .readError s =
      (cascadeOf ((s.received (.ingest i)).readFailed i k h index num attempt)).close := by
  have htag' : ((s.received (.ingest i)).ingest[i.val]).tags[k.val] = ⟨.busy h index num issued attempt, gen, due⟩ := htag
  unfold blockDataEffect
  dsimp only
  rw [tagOf_ofNat (by omega) k]
  dsimp only
  rw [htag']
  dsimp only
  rw [if_pos rfl]

theorem readExpiryEffect_busy {i k : Fin 8} {index num attempt : Nat} {issued : Tick} {gen : Gen} {due : Bool}
    (htag : (s.ingest[i.val]).tags[k.val] = ⟨.busy h index num issued attempt, gen, due⟩) :
    readExpiryEffect i k s = (cascadeOf (s.readFailed i k h index num attempt)).close := by
  unfold readExpiryEffect
  rw [htag]

/-- Two changes of an entry that agree on what stands there. -/
theorem setEntry_congr {α : Type} {n : Nat} (v : Vector α n) (i : Fin n) {f g : α → α} (e : f v[i.val] = g v[i.val]) :
    setEntry v i f = setEntry v i g := by
  refine Vector.ext fun m hm => ?_
  rw [setEntry_getElem v i ⟨m, hm⟩ f, setEntry_getElem v i ⟨m, hm⟩ g, e]

/-- A read tag once released. -/
theorem setReadTag_release {i k : Fin 8} {x : ReadTagState} {gen : Gen} {due : Bool} (htag : (s.ingest[i.val]).tags[k.val] = ⟨x, gen, due⟩) :
    s.setReadTag i k ReadTag.release = s.modIngest i fun p => { p with tags := setEntry p.tags k fun _ => ⟨.free, gen, false⟩ } := by
  have e : setEntry s.ingest i (fun p => { p with tags := setEntry p.tags k ReadTag.release }) =
      setEntry s.ingest i fun p => { p with tags := setEntry p.tags k fun _ => ⟨.free, gen, false⟩ } := by
    refine setEntry_congr _ i ?_
    rw [setEntry_congr (s.ingest[i.val]).tags k (g := fun _ => ⟨.free, gen, false⟩) (by rw [htag]; rfl)]
  unfold State.setReadTag State.modIngest
  rw [e]

theorem State.readsAbandoned.of_base {w : State} (a : State.readsAbandoned h v t) (hi : v.ingest = w.ingest) (hj : v.jobs = w.jobs) :
    State.readsAbandoned h w t := by
  unfold State.readsAbandoned at a ⊢
  simp only [State.job?_congr hj, hi] at a
  exact a

/-- A FREE read tag through a teardown and the end of the event. -/
theorem tear_tag {i k : Fin 8} {g : ReadTag} {o : JobState} (ho : o.terminal = true) (c : JobCause) (hk : (v.ingest[i.val]).tags[k.val] = g)
    (hg : g.state = .free) : g.issuesTo v.now (((cascadeOf (v.tearJob h o c)).close.ingest[i.val]).tags[k.val]) := by
  have hw : v.winds (cascadeOf (v.tearJob h o c)) := (tearJob_winds v h ho c).trans (cascade_winds _ _)
  have hs := ((close_settles (cascadeOf (v.tearJob h o c))).ingest i).tags k
  rw [hw.now] at hs
  rcases hw.tags i k with e | ⟨_, _, _, _, _, e, -⟩
  · rw [e, hk] at hs
    exact hs
  · rw [hk, hg] at e
    cases e

/-- Settles O34: the teardown of the reading job, from the state with the tag released. -/
theorem exhaustedReadFailsTheJob : Obligations.ExhaustedReadFailsTheJob := by
  intro s i k h index num attempt issued gen due j hr htag hlim hj ht freed after
  have main : ∀ u : State, u.ingest = s.ingest → u.jobs = s.jobs → u.writers = s.writers → u.readers = s.readers → u.slots = s.slots →
      u.timer = s.timer → after (cascadeOf (u.readFailed i k h index num attempt)).close := by
    intro u hi hju hw hre hsl htm
    have htagu : (u.ingest[i.val]).tags[k.val] = ⟨.busy h index num issued attempt, gen, due⟩ := by rw [hi]; exact htag
    have he : u.readFailed i k h index num attempt =
        (u.modIngest i fun p => { p with tags := setEntry p.tags k fun _ => ⟨.free, gen, false⟩ }).tearJob h .failed .sourceReadError := by
      unfold State.readFailed
      rw [if_neg (by rw [hi]; omega), setReadTag_release htagu]
    rw [he]
    generalize hv : (u.modIngest i fun p => { p with tags := setEntry p.tags k fun _ => ⟨.free, gen, false⟩ }) = v
    have hvi : v.ingest = freed.ingest := by
      rw [← hv, State.modIngest_ingest, State.modIngest_ingest, hi]
    have hvj : v.jobs = s.jobs := by rw [← hv]; exact hju
    have hvn : v.now = s.now := by rw [← hv]; exact congrArg Timer.tick htm
    have a := tear_event (s := v) (o := .failed) (c := .sourceReadError) (by rw [State.job?_congr hvj]; exact hj) ht rfl
    have htag2 : (v.ingest[i.val]).tags[k.val] = ⟨.free, gen, false⟩ := by
      rw [hvi, State.modIngest_ingest, setEntry_same]
      dsimp only
      rw [setEntry_same]
    refine ⟨?_, a.work.of_base (by rw [← hv]; exact hw) (by rw [← hv]; exact hre) (by rw [← hv]; exact hsl) hvj,
      a.reads.of_base hvi hvj, ?_, ?_⟩
    · have := a.ends
      unfold State.endsIn at this
      rw [hvn] at this
      exact this
    · have := tear_tag (h := h) (o := .failed) rfl .sourceReadError htag2 rfl
      rw [hvn] at this
      exact this
    · have h1 : v.advancesTo (cascadeOf (v.tearJob h .failed .sourceReadError)).close :=
        ((tearJob_advances v h .failed .sourceReadError rfl).trans (cascadeOf_advances _)).trans (close_advances _)
      exact h1.afterJobs hvj
  refine ⟨fun hl => ⟨_, exec_blockData hr hl rfl, ?_⟩, fun hd => ⟨_, exec_readTagExpiry hr (by rw [htag]; exact hd), ?_⟩⟩
  · rw [blockDataEffect_readError htag]
    exact main _ rfl rfl rfl rfl rfl rfl
  · rw [readExpiryEffect_busy htag]
    exact main s rfl rfl rfl rfl rfl rfl

end Sys2Proof.Machine
end

