-- ==== Sys2Proof/Proofs/P30.lean ====
section
/-! CANCEL_JOB and RELEASE_JOB (R25, R26). -/

namespace Sys2Proof.Machine

open Sys2Proof

variable {s t u v : State} {h : Fin 64} {r : Request} {rest : List Request}

/-! ## Taking a request -/

theorem State.takes.canTake (a : s.takes r rest) {k : Byte} (hk : r.kind = k) : s.canTake (isKind k) = true :=
  (canTake_iff s _).mpr ⟨a.2.1, r, rest, a.2.2, by simp [isKind, hk]⟩

/-- A request's application: its head has left the queue, and its RESPONSE joins the response queue. -/
theorem State.takes.take_eq (a : s.takes r rest) (apply : List Byte → State → Answer) :
    s.take apply = (apply r.body (s.taken rest)).state.respond
      ⟨r.seq, r.kind, (apply r.body (s.taken rest)).result, (apply r.body (s.taken rest)).body⟩ :=
  Machine.take_eq apply a.2.2

/-- An accepted request: what its application leaves of the queues of handler and link C. -/
theorem answer_close {w : State} {x : Response} (hw : w.cascadeFrame = (s.taken rest).cascadeFrame) :
    (w.respond x).close.handler.requests = rest ∧ (w.respond x).close.control.responses = s.control.responses ++ [x] := by
  simp only [State.cascadeFrame, Prod.mk.injEq] at hw
  obtain ⟨-, -, -, -, -, -, -, -, -, hh, hc, -⟩ := hw
  have a := close_settles (w.respond x)
  refine ⟨a.handler.1.trans (show w.handler.requests = rest by rw [hh]; rfl), a.control.2.1.trans ?_⟩
  change w.control.responses ++ [x] = _
  rw [hc]
  rfl

theorem respond_winds (s : State) (x : Response) : s.winds (s.respond x) :=
  .of_rest (fun _ => id) rfl rfl rfl rfl rfl rfl

theorem respond_advances (s : State) (x : Response) : s.advancesTo (s.respond x) :=
  State.advancesTo_of_jobs rfl

/-! ## Cancelling a job whose work is under way -/

/-- A port stops reading a job that is torn down. -/
theorem teardown_reading {j : Job} (hj : s.job? h = some j) (o : JobState) (c : JobCause) :
    ((s.teardown h o c).ingest[j.port.val]).reading ≠ some h := by
  rw [teardown_ingest hj, setEntry_same, IngestPort.dropJob]
  split
  · exact fun e => by cases (show none = some h from e)
  · next e => exact e

/-- The end of an event leaves a port's reading job and line-up. -/
theorem close_port (u : State) (i : Fin 8) :
    (u.close.ingest[i.val]).reading = (u.ingest[i.val]).reading ∧ (u.close.ingest[i.val]).lineUp = (u.ingest[i.val]).lineUp := by
  rw [((close_settles u).ingest i).rest]
  exact ⟨rfl, rfl⟩

/-- What no withdrawal has left comes back neither in the rest of the event nor at its end. -/
theorem not_reading_close {i : Fin 8} (hn : (t.ingest[i.val]).reading ≠ some h) (hs : ¬ t.startable h) (a : t.winds u) :
    (u.close.ingest[i.val]).reading ≠ some h := by
  rw [(close_port u i).1]
  exact fun hr => (a.reading i h hr).elim hn hs

theorem tear_close {j : Job} (hj : v.job? h = some j) (ht : j.state.terminal = false) (x : Response) :
    State.tornBy h .aborted .cancelled v ((cascadeOf (v.tearJob h .aborted .cancelled)).respond x).close ∧
      (((cascadeOf (v.tearJob h .aborted .cancelled)).respond x).close.ingest[j.port.val]).reading ≠ some h := by
  have a := tearJob_torn hj ht (o := .aborted) rfl .cancelled
  have hw := (cascade_winds (v.tearJob h .aborted .cancelled).1 (v.tearJob h .aborted .cancelled).2).trans (respond_winds _ x)
  refine ⟨((a.cascade rfl _).later rfl (respond_winds _ x) (respond_advances _ x)).close rfl, ?_⟩
  refine not_reading_close ?_ (a.ends.not_running rfl).1 hw
  rcases tearJob_cases v h .aborted .cancelled with ⟨-, hn⟩ | ⟨q, -, -, e⟩
  · rw [hn j hj] at ht
    cases ht
  · have hr := teardown_reading hj .aborted .cancelled
    rewrite [e]
    exact hr

/-! ## Cancelling a LOADED job -/

theorem cancelLoaded_endsIn {j : Job} (hj : v.job? h = some j) (ht : j.state.terminal = false) :
    v.endsIn (v.cancelLoaded h j.port) h .aborted .cancelled := by
  have hk : (v.cancelLoaded h j.port).job? h = some (j.torn v.now .aborted .cancelled) := by
    change (v.endLoaded .aborted .cancelled h).job? h = _
    rw [endLoaded_job?, if_pos rfl, hj]
    rfl
  obtain ⟨k, hk', e⟩ := teardown_endsIn hj ht (o := .aborted) rfl .cancelled
  rw [teardown_job?, if_pos rfl, hj, Option.map_some] at hk'
  cases hk'
  exact ⟨_, hk, e⟩

theorem cancelLoaded_lineUp {j : Job} (h : Fin 64) : h ∉ ((v.cancelLoaded h j.port).ingest[j.port.val]).lineUp := by
  rw [State.cancelLoaded, State.modIngest_ingest, setEntry_same]
  intro hm
  have := (List.mem_filter.mp hm).2
  simp at this

theorem cancelLoaded_frame (v : State) (h : Fin 64) (i : Fin 8) : (v.cancelLoaded h i).cascadeFrame = v.cascadeFrame := by
  rw [State.cancelLoaded, modIngest_frame, State.endLoaded, abandonLegs_frame, finishJob_frame]

theorem cancelLoaded_close {j : Job} (hj : v.job? h = some j) (ht : j.state.terminal = false) (x : Response) :
    v.endsIn (((v.cancelLoaded h j.port).cascade [.start j.port]).respond x).close h .aborted .cancelled ∧
      h ∉ ((((v.cancelLoaded h j.port).cascade [.start j.port]).respond x).close.ingest[j.port.val]).lineUp := by
  have hw := (cascade_winds (v.cancelLoaded h j.port) [.start j.port]).trans (respond_winds _ x)
  refine ⟨(cancelLoaded_endsIn hj ht).advances rfl
    (((cascade_advances _ _).trans (respond_advances _ x)).trans (close_advances _)), fun hm => ?_⟩
  rw [(close_port _ _).2] at hm
  exact cancelLoaded_lineUp h (hw.lineUp j.port hm)

/-! ## The commands -/

theorem exec_cancelJob (a : s.takes r rest) (hk : r.kind = 2) : exec .cancelJob s = .next (s.take applyCancelJob).close := by
  simp only [exec, execCancelJob]
  exact event_enabled a.1 (a.canTake hk)

theorem exec_releaseJob (a : s.takes r rest) (hk : r.kind = 3) :
    exec .releaseJob s = .next (s.take applyReleaseJob).relamp.transmit := by
  simp only [exec, execReleaseJob]
  exact event_enabled a.1 (a.canTake hk)

theorem applyCancelJob_loaded {body : List Byte} {j : Job} (hb : readHandle body = some h) (hj : v.job? h = some j) (hs : j.state = .loaded) :
    applyCancelJob body v = answerOk ((v.cancelLoaded h j.port).cascade [.start j.port]) := by
  unfold applyCancelJob
  rw [hb]
  dsimp only
  rw [hj]
  dsimp only
  rw [hs]

theorem applyCancelJob_running {body : List Byte} {j : Job} (hb : readHandle body = some h) (hj : v.job? h = some j)
    (hs : j.state = .reading ∨ j.state = .settling) :
    applyCancelJob body v = answerOk (cascadeOf (v.tearJob h .aborted .cancelled)) := by
  unfold applyCancelJob
  rw [hb]
  dsimp only
  rw [hj]
  dsimp only
  rcases hs with hs | hs <;> rw [hs]

theorem applyReleaseJob_terminal {body : List Byte} {j : Job} (hb : readHandle body = some h) (hj : v.job? h = some j)
    (ht : j.state.terminal = true) : applyReleaseJob body v = answerOk (v.release h j) := by
  unfold applyReleaseJob
  rw [hb]
  dsimp only
  rw [hj]
  dsimp only
  rw [if_pos ht]

theorem release_frame (v : State) (h : Fin 64) (j : Job) :
    v.release h j = { v with jobs := (v.release h j).jobs, sessions := (v.release h j).sessions } := by
  unfold State.release
  dsimp only
  split <;> rfl

theorem cancel_ends (a : s.takes r rest) (hb : readHandle r.body = some h) {j : Job} (hj : s.job? h = some j) (hk : r.kind = 2)
    (ht : j.state.terminal = false) :
    ∃ t, exec .cancelJob s = .next t ∧ s.abortedIn t h ∧ s.advancesTo t ∧ t.handler.requests = rest ∧
      t.control.responses = s.control.responses ++ [⟨r.seq, r.kind, .ok, []⟩] ∧
      (j.state = .loaded → h ∉ (t.ingest[j.port.val]).lineUp) ∧
      (j.state = .reading ∨ j.state = .settling →
        State.workGone h s t ∧ State.readsAbandoned h s t ∧
          ((s.ingest[j.port.val]).reading = some h → (t.ingest[j.port.val]).reading ≠ some h)) := by
  have hadv : s.advancesTo (s.take applyCancelJob).close := by
    refine exec_advances (c := .cancelJob) (fun e => by cases e) ?_ (exec_cancelJob a hk)
    rintro (e | e | ⟨-, e | e⟩) <;> cases e
  have hjv : (s.taken rest).job? h = some j := hj
  refine ⟨_, exec_cancelJob a hk, ?_⟩
  rw [a.take_eq] at hadv ⊢
  cases hs : j.state with
  | loaded =>
    rw [applyCancelJob_loaded hb hjv hs] at hadv ⊢
    unfold answerOk at hadv ⊢
    dsimp only at hadv ⊢
    obtain ⟨h1, h2⟩ := cancelLoaded_close hjv ht ⟨r.seq, r.kind, .ok, []⟩
    obtain ⟨h3, h4⟩ := answer_close (s := s) (rest := rest) (w := ((s.taken rest).cancelLoaded h j.port).cascade [.start j.port])
      (x := ⟨r.seq, r.kind, .ok, []⟩) (by rw [cascade_frame, cancelLoaded_frame])
    exact ⟨h1, hadv, h3, h4, fun _ => h2, fun e => absurd e (by decide)⟩
  | reading | settling =>
    rw [applyCancelJob_running hb hjv (by rw [hs]; simp)] at hadv ⊢
    unfold answerOk at hadv ⊢
    dsimp only at hadv ⊢
    obtain ⟨h1, h2⟩ := tear_close hjv ht ⟨r.seq, r.kind, .ok, []⟩
    obtain ⟨h3, h4⟩ := answer_close (s := s) (rest := rest) (w := cascadeOf ((s.taken rest).tearJob h .aborted .cancelled))
      (x := ⟨r.seq, r.kind, .ok, []⟩) (by rw [cascadeOf_frame, tearJob_frame])
    exact ⟨h1.ends, hadv, h3, h4, fun e => absurd e (by decide),
      fun _ => ⟨h1.work.of_base rfl rfl rfl rfl, h1.reads.of_base rfl rfl, fun _ => h2⟩⟩
  | done | failed | aborted =>
    rw [hs] at ht
    cases ht

theorem release_ends (a : s.takes r rest) (hb : readHandle r.body = some h) {j : Job} (hj : s.job? h = some j) (hk : r.kind = 3)
    (ht : j.state.terminal = true) :
    ∃ t u : State, exec .releaseJob s = .next t ∧ u.settlesTo t ∧
      u = { s.answered r rest .ok [] with jobs := u.jobs, sessions := u.sessions } ∧
      (∀ g, u.job? g = if g = h then none else s.job? g) ∧
      ∀ i : Fin 8, u.sessions[i.val] =
        if i = j.port ∧ j.state = .failed ∧ j.session = true then { s.sessions[i.val] with failed := (s.sessions[i.val]).failed - 1 }
        else s.sessions[i.val] := by
  have hjv : (s.taken rest).job? h = some j := hj
  have hu : s.take applyReleaseJob = ((s.taken rest).release h j).respond ⟨r.seq, r.kind, .ok, []⟩ := by
    rw [a.take_eq, applyReleaseJob_terminal hb hjv ht]
    rfl
  refine ⟨_, s.take applyReleaseJob, exec_releaseJob a hk, (relamp_settles _).trans (transmit_settles _), ?_⟩
  rw [hu]
  refine ⟨?_, fun g => ?_, fun i => ?_⟩
  · rw [release_frame]
    rfl
  · change ((s.taken rest).release h j).job? g = _
    rw [release_job?]
    split
    · next e => rw [if_pos e.symm]
    · next e => rw [if_neg (Ne.symm e)]; rfl
  · change (((s.taken rest).release h j).sessions)[i.val] = _
    rw [release_sessions]
    by_cases hc : j.state = .failed ∧ j.session = true
    · rw [if_pos hc, setEntry_getElem]
      by_cases hp : j.port = i
      · subst hp
        rw [if_pos rfl, if_pos ⟨rfl, hc⟩]
        rfl
      · rw [if_neg hp, if_neg fun e => hp e.1.symm]
        rfl
    · rw [if_neg hc, if_neg fun e => hc e.2]
      rfl

/-- Settles O56: the cancel by the job's state, and the release. -/
theorem cancelAndReleaseEndJobs : Obligations.CancelAndReleaseEndJobs :=
  fun _ _ _ _ _ a hb hj => ⟨fun hk ht => cancel_ends a hb hj hk ht, fun hk ht => release_ends a hb hj hk ht⟩

end Sys2Proof.Machine
end

