-- ==== Sys2Proof/Proofs/P31.lean ====
section
/-! A leg that leaves its target: its end, and the withdrawals that go with it (R20, R40, R106, R129). -/

namespace Sys2Proof.Machine

open Sys2Proof

variable {s t u v : State} {h : Fin 64} {r : LegRef} {x : Target} {y : LegState} {c : Option LegCause} {l : Leg}

/-! ## Withdrawals as seen from before others -/

theorem State.writesOut.before (a : State.writesOut x h v t) (w : s.winds v) (b : v.winds t) : State.writesOut x h s t :=
  ⟨a.1, (w.writes x).gone a.2 (b.writes x).retry⟩

theorem State.slotsOut.before {mine : Slot → Bool} (hm : ∀ {y z : Slot}, y.winds z → mine z = mine y) (a : State.slotsOut mine v t) (w : s.winds v)
    (b : v.winds t) : State.slotsOut mine s t := by
  refine ⟨a.1, fun y hy hmy hw hn => ?_⟩
  rcases w.waits y hy hw with ⟨z, hz, e, hzw⟩ | hr
  · exact a.2 z hz (by rw [hm e]; exact hmy) hzw (by rw [e.num]; exact hn)
  · exact hr (b.ready hn)

/-! ## A leg's end -/

/-- A leg has ended in this event, with its outcome, cause and finished timestamp. -/
def State.legEndsIn (s t : State) (r : LegRef) (y : LegState) (c : Option LegCause) : Prop :=
  ∃ m, t.leg? r = some m ∧ m.state = y ∧ m.cause = c ∧ m.finished = some s.now

theorem State.advancesTo.leg? {m : Leg} (b : t.advancesTo u) (hm : t.leg? r = some m) : ∃ n, u.leg? r = some n ∧ m.advancesTo n := by
  obtain ⟨j, hj, hl⟩ := State.leg?_eq_some.mp hm
  obtain ⟨k, hk, e⟩ := b.jobs r.job j hj
  obtain ⟨n, hn, f, -⟩ := e.legs r.leg m hl
  exact ⟨n, State.leg?_eq_some.mpr ⟨k, hk, hn⟩, f⟩

theorem State.legEndsIn.advances (a : s.legEndsIn t r y c) (hy : y.terminal = true) (b : t.advancesTo u) : s.legEndsIn u r y c := by
  obtain ⟨m, hm, h1, h2, h3⟩ := a
  obtain ⟨n, hn, f⟩ := b.leg? hm
  obtain ⟨g1, g2, g3⟩ := f.final (by rw [h1]; exact hy)
  exact ⟨n, hn, g1.trans h1, g2.trans h2, g3.trans h3⟩

theorem endLeg_legEndsIn (hl : s.leg? r = some l) (ht : l.state.terminal = false) (y : LegState) (c : Option LegCause) :
    s.legEndsIn (s.endLeg r y c) r y c := by
  refine ⟨l.ended s.now y c, by rw [State.leg?_endLeg, if_pos rfl, hl, Option.map_some], ?_⟩
  unfold Leg.ended
  rw [ht]
  exact ⟨rfl, rfl, rfl⟩

theorem legOnIs_of {test : LegState → Bool} (hr : s.legOn h x = some r) (hl : s.leg? r = some l) : s.legOnIs h x test = test l.state := by
  rw [Bool.eq_iff_iff, legOnIs_iff]
  constructor
  · rintro ⟨q, m, hq, hm, ht⟩
    rw [hr] at hq
    cases hq
    rw [hl] at hm
    cases hm
    exact ht
  · exact fun ht => ⟨r, l, hr, hl, ht⟩

/-- A WRITING leg that leaves its target (R40, R106). -/
theorem dropLeg_writing (hr : s.legOn h x = some r) (hl : s.leg? r = some l) (hs : l.state = .writing) (y : LegState) (c : Option LegCause) :
    s.dropLeg h x y c = ((s.endLeg r y c).settleJobSlots h x).modWriter x fun w => w.withdraw h := by
  unfold State.dropLeg
  rw [hr]
  dsimp only
  rw [legOnIs_of hr hl, hs]
  rfl

/-- A leg that leaves its drive's verify work list (R129). -/
theorem dropLeg_verifying {d : Fin 6} (hr : s.legOn h (.drive d) = some r) (hl : s.leg? r = some l) (hs : l.state = .written ∨ l.state = .verifying)
    (y : LegState) (c : Option LegCause) : s.dropLeg h (.drive d) y c = (s.endLeg r y c).withdrawVerify d h := by
  unfold State.dropLeg
  rw [hr]
  dsimp only
  rw [legOnIs_of hr hl, legOnIs_of hr hl]
  rcases hs with hs | hs <;> rw [hs] <;> rfl

/-! ## The slots of a leg that leaves WRITING -/

theorem Slot.settle_winds (z : Slot) (x : Target) : z.winds (z.settle x) := by
  have hheld : (z.held = none ∧ z.held = none) ∨ ∃ b c, z.held = some b ∧ z.held = some c ∧ c.inDigest = b.inDigest ∧
      (b.withdrawn = true → c.withdrawn = true) := (Slot.winds.refl z).held
  unfold Slot.settle
  split
  · next owed hk =>
    refine ⟨rfl, rfl, rfl, by simp [Slot.isIngest, hk], fun k => by simp [hk], ?_, hheld⟩
    simp only [Slot.owed, hk]
    exact List.filter_subset_self _
  · exact .refl z

theorem Slot.settle_held (z : Slot) (x : Target) : (z.settle x).held = z.held := by
  unfold Slot.settle
  split <;> rfl

theorem Slot.settle_owed (z : Slot) (x : Target) : x ∉ (z.settle x).owed := by
  unfold Slot.settle
  split
  · simp [Slot.owed]
  · next k hk => simp [Slot.owed, hk]

/-- What the settling leaves of the job's slots, and of the others. -/
theorem mem_settleJobSlots {z : Slot} : z ∈ (s.settleJobSlots h x).slots ↔
    ∃ y ∈ s.slots, z = (if y.job = h then y.settle x else y) ∧ ¬ (z.job = h ∧ z.freeable = true) := by
  change z ∈ (s.slots.map fun y => if y.job = h then y.settle x else y).filter (fun y => !(decide (y.job = h) && y.freeable)) ↔ _
  rw [List.mem_filter, List.mem_map]
  constructor
  · rintro ⟨⟨y, hy, e⟩, hn⟩
    exact ⟨y, hy, e.symm, by simpa [imp_iff_not_or] using hn⟩
  · rintro ⟨y, hy, e, hn⟩
    exact ⟨⟨y, hy, e.symm⟩, by simpa [imp_iff_not_or] using hn⟩

theorem settleJobSlots_winds (s : State) (h : Fin 64) (x : Target) : s.winds (s.settleJobSlots h x) := by
  have hone : ∀ y : Slot, y.winds (if y.job = h then y.settle x else y) := fun y => by
    split
    · exact Slot.settle_winds y x
    · exact .refl y
  exact
    { State.winds.refl s with
      slots := fun z hz => by
        obtain ⟨y, hy, e, -⟩ := mem_settleJobSlots.mp hz
        exact ⟨y, hy, e ▸ hone y⟩
      waits := fun y hy hw => by
        obtain ⟨b, hb, hd, hi⟩ := hw
        have hheld : (if y.job = h then y.settle x else y).held = some b := by
          split
          · rw [Slot.settle_held, hb]
          · exact hb
        refine .inl ⟨_, mem_settleJobSlots.mpr ⟨y, hy, rfl, ?_⟩, hone y, b, hheld, hd, hi⟩
        rintro ⟨-, hf⟩
        rw [Slot.freeable, hheld] at hf
        simp [hd] at hf }

theorem dropLeg_winds (s : State) (h : Fin 64) (x : Target) (y : LegState) (c : Option LegCause) : s.winds (s.dropLeg h x y c) := by
  rcases dropLeg_cases s h x y c with e | ⟨r, l, -, -, ⟨-, e⟩ | ⟨-, ⟨d, -, e⟩ | ⟨-, e⟩⟩⟩ <;> rewrite [e]
  · exact .refl s
  · exact ((endLeg_winds s r y c).trans (settleJobSlots_winds _ h x)).trans (modWriter_withdraw_winds _ x h)
  · exact (endLeg_winds s r y c).trans (withdrawVerify_winds _ d h)
  · exact endLeg_winds s r y c

/-! ## A leg that leaves its verify work list -/

/-- A VERIFYING leg's work is withdrawn as it fails. -/
theorem dropLeg_verifyOut {d : Fin 6} (hr : s.legOn h (.drive d) = some r) (hl : s.leg? r = some l) (hs : l.state = .verifying)
    (y : LegState) (c : Option LegCause) :
    (∀ q ∈ ((s.dropLeg h (.drive d) y c).readers[d.val]).work, q.job ≠ h) ∧
      (s.outcomesOk → r ∈ (s.readers[d.val]).work →
        State.verifyOut d r s (s.dropLeg h (.drive d) y c) ∧ ∀ e : Fin 6, r ∉ ((s.dropLeg h (.drive d) y c).readers[e.val]).work) := by
  have hrj : r.job = h := (legOn_spec hr).1
  rw [dropLeg_verifying hr hl (.inr hs)]
  refine ⟨fun q hq => ?_, fun ho hm => ?_⟩
  · rw [withdrawVerify_work, if_pos rfl] at hq
    simpa using (List.mem_filter.mp hq).2
  · obtain ⟨q, hq⟩ : ∃ q, ((s.readers[d.val]).work.find? fun r => r.job == h) = some q := by
      rw [← Option.isSome_iff_exists, List.find?_isSome]
      exact ⟨r, hm, by simpa using hrj⟩
    have e : q = r := ho.work_unique (List.mem_of_find?_eq_some hq) hm
      ((by simpa using List.find?_some hq : q.job = h).trans hrj.symm)
    subst e
    refine ⟨withdrawVerify_out (s := s) (t := s.endLeg q y c) rfl (endLeg_winds s q y c) hq, fun e he => ?_⟩
    rw [withdrawVerify_work] at he
    split at he
    · simpa [hrj] using (List.mem_filter.mp he).2
    · next hne => exact hne (ho.work_drive hm he)

end Sys2Proof.Machine
end

