-- ==== Sys2Proof/Proofs/P32.lean ====
section
/-! A failed check read: it waits for its reissue, or its leg fails VERIFY_READ_ERROR (R125, R129). -/

namespace Sys2Proof.Machine

open Sys2Proof

variable {s t u v : State} {d : Fin 6} {k : Fin 8} {w : TagWork} {issued : Tick} {gen : Gen} {due : Bool}

theorem exec_checkData {tag : Byte} {answer : ReadAnswer} (hr : s.resetN = true) (hl : s.linkUp (.drive d) = true)
    (hw : answer.wellFormed = true) : exec (.checkData d tag gen answer) s = .next (checkDataEffect d tag gen answer s) := by
  simp only [exec, execCheckData]
  rw [event_enabled hr hl, if_pos hw]

theorem exec_checkTagExpiry (hr : s.resetN = true) (hd : ((s.readers[d.val]).tags[k.val]).due = true) :
    exec (.checkTagExpiry d k) s = .next (checkExpiryEffect d k s) := by
  simp only [exec, execCheckTagExpiry]
  exact event_enabled hr hd

theorem checkDataEffect_readError (htag : (s.readers[d.val]).tags[k.val] = ⟨.sent w issued, gen, due⟩) :
    checkDataEffect d (BitVec.ofNat 8 k.val) gen .readError s = (cascadeOf ((s.received (.drive d)).checkFailed d k w)).close := by
  have htag' : ((s.received (.drive d)).readers[d.val]).tags[k.val] = ⟨.sent w issued, gen, due⟩ := htag
  unfold checkDataEffect
  dsimp only
  rw [tagOf_ofNat (by omega) k]
  dsimp only
  rw [htag']
  dsimp only
  rw [if_pos rfl]

theorem checkExpiryEffect_sent (htag : (s.readers[d.val]).tags[k.val] = ⟨.sent w issued, gen, due⟩) :
    checkExpiryEffect d k s = (cascadeOf (s.checkFailed d k w)).close := by
  unfold checkExpiryEffect
  rw [htag]

/-- A check tag changed, by what it becomes. -/
theorem setCheckTag_eq {f : BlockTag → BlockTag} {g : BlockTag} (htag : f (s.readers[d.val]).tags[k.val] = g) :
    s.setCheckTag d k f = s.modReader d fun q => { q with tags := setEntry q.tags k fun _ => g } := by
  have e : setEntry s.readers d (fun v => { v with tags := setEntry v.tags k f }) =
      setEntry s.readers d fun v => { v with tags := setEntry v.tags k fun _ => g } := by
    refine setEntry_congr _ d ?_
    rw [setEntry_congr (s.readers[d.val]).tags k (g := fun _ => g) htag]
  unfold State.setCheckTag State.modReader
  rw [e]

/-- A failed attempt with retries left. -/
theorem checkFailed_waits (htag : (s.readers[d.val]).tags[k.val] = ⟨.sent w issued, gen, due⟩)
    (hlim : w.attempt < (s.writer (.drive d)).retryLimit) : s.checkFailed d k w =
      (s.modReader d fun q => { q with tags := setEntry q.tags k fun _ => ⟨.waiting w, gen, false⟩, retry := q.retry ++ [k] }, []) := by
  unfold State.checkFailed
  rw [if_pos hlim, setCheckTag_eq (g := ⟨.waiting w, gen, false⟩) (by rw [htag]; rfl), modReader_modReader]

/-- A failed attempt without. -/
theorem checkFailed_gives (htag : (s.readers[d.val]).tags[k.val] = ⟨.sent w issued, gen, due⟩)
    (hlim : (s.writer (.drive d)).retryLimit ≤ w.attempt) : s.checkFailed d k w =
      ((s.modReader d fun q => { q with tags := setEntry q.tags k fun _ => ⟨.free, gen, false⟩ }).dropLeg w.ref.job (.drive d) .failed
        (some .verifyReadError), afterLeg w.ref.job (.drive d)) := by
  unfold State.checkFailed
  rw [if_neg (by omega), setCheckTag_eq (g := ⟨.free, gen, false⟩) (by rw [htag]; rfl)]

theorem State.verifyGone.of_base {r : LegRef} (a : State.verifyGone d r v t) (hr : v.readers = s.readers) (hs : v.slots = s.slots) :
    State.verifyGone d r s t :=
  ⟨a.work, by rw [← hr]; exact a.tags, a.slots.slots, fun n y b hy => a.slots.ready n y b (by rw [State.slot?_congr hs]; exact hy)⟩

/-- The withdrawal of a leg that fails at its drive's check reads. -/
theorem drop_check {h : Fin 64} {r : LegRef} {l : Leg} (hns : ∀ j, v.job? h = some j → j.state ≠ .loaded)
    (hr : v.legOn h (.drive d) = some r) (hl : v.leg? r = some l) (hs : l.state = .verifying) (c : LegCause) (z : List Todo) :
    v.legFailed (((v.dropLeg h (.drive d) .failed (some c)).cascade z).close) r c ∧
      (∀ q ∈ ((((v.dropLeg h (.drive d) .failed (some c)).cascade z).close).readers[d.val]).work, q.job ≠ h) ∧
      (v.outcomesOk → r ∈ (v.readers[d.val]).work → State.verifyGone d r v (((v.dropLeg h (.drive d) .failed (some c)).cascade z).close)) := by
  have hrj : r.job = h := (legOn_spec hr).1
  have hnot : ¬ (v.dropLeg h (.drive d) .failed (some c)).startable h := by
    intro hst
    obtain ⟨j, hj, e⟩ := (dropLeg_winds v h (.drive d) .failed (some c)).loaded h hst
    exact hns j hj e
  obtain ⟨h1, h2⟩ := dropLeg_verifyOut hr hl hs .failed (some c)
  have hend : v.legEndsIn (v.dropLeg h (.drive d) .failed (some c)) r .failed (some c) := by
    rw [dropLeg_verifying hr hl (.inr hs)]
    obtain ⟨m, hm, e⟩ := endLeg_legEndsIn hl (by rw [hs]; rfl) .failed (some c)
    exact ⟨m, by rw [State.leg?_congr (withdrawVerify_jobs _ d h)]; exact hm, e⟩
  revert h1 h2 hend hnot
  generalize v.dropLeg h (.drive d) .failed (some c) = p
  intro hnot h1 h2 hend
  have hw := cascade_winds p z
  refine ⟨hend.advances rfl ((cascade_advances p z).trans (close_advances _)), fun q hq => ?_, fun ho hm => ?_⟩
  · rw [((close_settles (p.cascade z)).readers d).work] at hq
    rcases hw.work d q hq with hq | hq
    · exact h1 q hq
    · exact fun e => hnot (e ▸ hq)
  · obtain ⟨h3, h4⟩ := h2 ho hm
    have hnot' : ¬ p.startable r.job := by rw [hrj]; exact hnot
    exact (h3.winds hw hnot').issues (close_issues _) (not_mem_work_winds h4 hw hnot')

/-- Settles O46: the reissue by the tag's own change, the failure by the leg's leaving its drive. -/
theorem checkFailuresRetryOrFailTheLeg : Obligations.CheckFailuresRetryOrFailTheLeg := by
  intro s d k w issued gen due hr htag hns waits freed fails
  have hwaits : ∀ u : State, (u.readers[d.val]).tags[k.val] = ⟨.sent w issued, gen, due⟩ → w.attempt < (u.writer (.drive d)).retryLimit →
      (waits u).settlesTo (cascadeOf (u.checkFailed d k w)).close := by
    intro u hu hlim
    rw [checkFailed_waits hu hlim]
    exact close_settles _
  have hfails : ∀ u : State, u.jobs = s.jobs → u.readers = s.readers → u.slots = s.slots → u.timer = s.timer →
      (u.writer (.drive d)).retryLimit ≤ w.attempt → fails (cascadeOf (u.checkFailed d k w)).close := by
    intro u hj hre hsl htm hlim
    rw [checkFailed_gives (by rw [hre]; exact htag) hlim]
    generalize hv : (u.modReader d fun q => { q with tags := setEntry q.tags k fun _ => ⟨.free, gen, false⟩ }) = v
    have hvj : v.jobs = s.jobs := by rw [← hv]; exact hj
    have hvn : v.now = s.now := by rw [← hv]; exact congrArg Timer.tick htm
    have hvr : v.readers = freed.readers := by
      rw [← hv]
      rw [State.modReader_readers, State.modReader_readers, hre]
    refine ⟨State.advancesTo.afterJobs (((dropLeg_advances v w.ref.job (.drive d) .failed (some .verifyReadError) rfl).trans (cascadeOf_advances (_, _))).trans
      (close_advances _)) hvj, fun r l hon hl hs => ?_⟩
    have hjob : ∀ g, v.job? g = s.job? g := State.job?_congr hvj
    obtain ⟨h1, h2, h3⟩ := drop_check (v := v) (fun j hj => hns j (by rw [← hjob]; exact hj)) ((legOn_congr (hjob _) _).trans hon)
      ((State.leg?_congr hvj r).trans hl) hs .verifyReadError (afterLeg w.ref.job (.drive d))
    refine ⟨?_, h2, fun ho hm => (h3 ?_ ?_).of_base hvr (by rw [← hv]; exact hsl)⟩
    · unfold State.legFailed at h1
      rw [hvn] at h1
      exact h1
    · refine (OutStep.of_same (l := []) ho hvj fun e => ?_).outcomes
      rw [hvr]
      change ((s.modReader d _).readers[e.val]).work = _
      rw [modReader_reader]
      split
      · next e => subst e; rfl
      · rfl
    · rw [hvr]
      change r ∈ ((s.modReader d _).readers[d.val]).work
      rw [modReader_reader, if_pos rfl]
      exact hm
  refine ⟨fun hlim => ⟨fun hl => ⟨_, exec_checkData hr hl rfl, ?_⟩, fun hd => ⟨_, exec_checkTagExpiry hr (by rw [htag]; exact hd), ?_⟩⟩,
    fun hlim => ⟨fun hl => ⟨_, exec_checkData hr hl rfl, ?_⟩, fun hd => ⟨_, exec_checkTagExpiry hr (by rw [htag]; exact hd), ?_⟩⟩⟩
  · rw [checkDataEffect_readError htag]
    exact hwaits _ htag hlim
  · rw [checkExpiryEffect_sent htag]
    exact hwaits s htag hlim
  · rw [checkDataEffect_readError htag]
    exact hfails _ rfl rfl rfl rfl hlim
  · rw [checkExpiryEffect_sent htag]
    exact hfails s rfl rfl rfl rfl hlim

end Sys2Proof.Machine
end

