-- ==== Sys2Proof/Proofs/P33.lean ====
section
/-! What is done in an event for other jobs leaves a job's record and its port's reading of it as they stand, so that the test of a job that has
lost its last viable leg finds it as the leg left it (R16). -/

namespace Sys2Proof.Machine

open Sys2Proof

variable {s t u v : State} {h : Fin 64}

/-- A job's record stands, and a port that read it reads it still. -/
def State.spares (h : Fin 64) (s t : State) : Prop :=
  t.job? h = s.job? h ∧ ∀ i : Fin 8, (s.ingest[i.val]).reading = some h → (t.ingest[i.val]).reading = some h

theorem State.spares.refl (h : Fin 64) (s : State) : State.spares h s s :=
  ⟨rfl, fun _ => id⟩

theorem State.spares.trans (a : State.spares h s t) (b : State.spares h t u) : State.spares h s u :=
  ⟨b.1.trans a.1, fun i e => b.2 i (a.2 i e)⟩

theorem State.spares.of_ingest (hj : t.job? h = s.job? h) (hi : t.ingest = s.ingest) : State.spares h s t :=
  ⟨hj, fun i e => by rw [hi]; exact e⟩

theorem modLeg_spares {r : LegRef} (hr : r.job ≠ h) (s : State) (g : Leg → Leg) : State.spares h s (s.modLeg r g) :=
  .of_ingest (by rw [State.job?_modLeg, if_neg hr]) rfl

theorem modJob_spares {k : Fin 64} (hk : k ≠ h) (s : State) (g : Job → Job) : State.spares h s (s.modJob k g) :=
  .of_ingest (by rw [State.job?_modJob, if_neg hk]) rfl

theorem compareLeg_spares {r : LegRef} (hr : r.job ≠ h) (s : State) (d : Fin 6) : State.spares h s (s.compareLeg d r).1 := by
  rcases compareLeg_cases s d r with e | ⟨l, j, v, g, -, -, -, -, -, e⟩ <;> rewrite [e]
  · exact .refl h s
  · exact (modLeg_spares hr s _).trans (.of_ingest rfl rfl)

theorem verifyFinal_spares {r : LegRef} (hr : r.job ≠ h) (s : State) (d : Fin 6) : State.spares h s (s.verifyFinal d r).1 := by
  rcases verifyFinal_cases s d r with e | ⟨j, -, -, e⟩ <;> rewrite [e] <;> dsimp only
  · exact .refl h s
  · exact (modLeg_spares hr s _).trans (compareLeg_spares hr _ d)

theorem activateHead_spares (s : State) (d : Fin 6) (hw : ∀ r ∈ (s.readers[d.val]).work, r.job ≠ h) : State.spares h s (s.activateHead d).1 := by
  rcases activateHead_cases s d with e | ⟨r, rest, l, j, hr, -, -, -, hc⟩
  · rewrite [e]
    exact .refl h s
  · have hne : r.job ≠ h := hw r (by rw [hr]; exact List.mem_cons_self)
    rcases hc with ⟨-, e⟩ | ⟨-, e⟩ <;> rewrite [e]
    · exact modLeg_spares hne s _
    · exact (modLeg_spares hne s _).trans (verifyFinal_spares hne _ d)

theorem finishJob_spares {k : Fin 64} (hk : k ≠ h) (s : State) (o : JobState) (c : Option JobCause) : State.spares h s (s.finishJob k o c) :=
  .of_ingest (by rw [finishJob_job?, if_neg hk]) (finishJob_ingest s k o c)

theorem tearJob_spares {k : Fin 64} (hk : k ≠ h) (s : State) (o : JobState) (c : JobCause) : State.spares h s (s.tearJob k o c).1 := by
  rcases tearJob_cases s k o c with ⟨e, -⟩ | ⟨j, hj, -, e⟩ <;> rewrite [e] <;> dsimp only
  · exact .refl h s
  · refine ⟨by rw [teardown_job?, if_neg hk], fun i hi => ?_⟩
    rw [teardown_ingest hj, setEntry_getElem]
    split
    · next e =>
      subst e
      rw [IngestPort.dropJob]
      split
      · next e' =>
        rw [hi] at e'
        exact absurd (Option.some.inj e').symm hk
      · exact hi
    · exact hi

theorem tearJob_todos (s : State) (k : Fin 64) (o : JobState) (c : JobCause) : .ingestFinal h ∉ (s.tearJob k o c).2 := by
  rcases tearJob_cases s k o c with ⟨e, -⟩ | ⟨j, -, -, e⟩ <;> rewrite [e]
  · simp
  · simp [afterTeardown]

theorem verifyFinal_todos (s : State) (d : Fin 6) (r : LegRef) : .ingestFinal h ∉ (s.verifyFinal d r).2 := by
  rcases verifyFinal_cases s d r with e | ⟨j, -, -, e⟩ <;> rewrite [e]
  · simp
  · dsimp only
    split <;> simp

theorem testJob_spares {k : Fin 64} (hk : k ≠ h) (s : State) : State.spares h s (s.testJob k).1 ∧ .ingestFinal h ∉ (s.testJob k).2 := by
  rcases testJob_cases s k with ⟨e, -⟩ | ⟨j, -, -, ⟨-, e⟩ | ⟨-, -, -, e⟩ | ⟨-, -, -, e⟩⟩ <;> rewrite [e]
  · exact ⟨.refl h s, by simp⟩
  · exact ⟨tearJob_spares hk s _ _, tearJob_todos s k _ _⟩
  · exact ⟨finishJob_spares hk s _ _, by simp⟩
  · exact ⟨finishJob_spares hk s _ _, by simp⟩

theorem compareWaiting_spares {r : LegRef} (hr : r.job ≠ h) (s : State) : State.spares h s (s.compareWaiting r) := by
  rcases compareWaiting_cases s r with e | ⟨m, d, -, -, e⟩ <;> rw [e]
  · exact .refl h s
  · exact compareLeg_spares hr s d

theorem ingestFinalised_spares {k : Fin 64} (hk : k ≠ h) (s : State) :
    State.spares h s (s.ingestFinalised k).1 ∧ .ingestFinal h ∉ (s.ingestFinalised k).2 := by
  have h1 : State.spares h s (s.finaliseIngest k) := modJob_spares hk s _
  rcases ingestFinalised_cases s k with ⟨e, -⟩ | ⟨j, -, -, ⟨-, e⟩ | ⟨-, e⟩⟩ <;> rewrite [e]
  · exact ⟨.refl h s, by simp⟩
  · refine ⟨h1.trans ?_, by simp⟩
    have hfold : ∀ (p : List LegRef) (t : State), (∀ r ∈ p, r.job = k) → State.spares h t (p.foldl State.compareWaiting t) := by
      intro p
      induction p with
      | nil => exact fun t _ => .refl h t
      | cons r rest ih =>
        exact fun t hp => (compareWaiting_spares (by rw [hp r List.mem_cons_self]; exact hk) t).trans
          (ih _ fun q hq => hp q (List.mem_cons_of_mem _ hq))
    exact hfold _ _ fun r hr => legRefs_job hr
  · exact ⟨h1.trans (tearJob_spares hk _ _ _), tearJob_todos _ k _ _⟩

theorem writtenIfWriting_spares {r : LegRef} (hr : r.job ≠ h) (s : State) :
    State.spares h s (s.writtenIfWriting r).1 ∧ .ingestFinal h ∉ (s.writtenIfWriting r).2 := by
  rcases writtenIfWriting_cases s r with e | ⟨l, -, -, e⟩ <;> rewrite [e]
  · exact ⟨.refl h s, by simp⟩
  · rcases legWritten_cases s r with ⟨-, e⟩ | ⟨m, -, ⟨d, -, -, e⟩ | ⟨-, e⟩⟩ <;> rewrite [e] <;> dsimp only
    · exact ⟨.refl h s, by simp⟩
    · exact ⟨(modLeg_spares hr s _).trans (.of_ingest rfl rfl), by simp⟩
    · exact ⟨(modLeg_spares hr s _).trans (modLeg_spares hr _ _), by simp⟩

theorem eachLeg_spares : ∀ (p : List LegRef) (s : State), (∀ r ∈ p, r.job ≠ h) →
    State.spares h s (eachLeg State.writtenIfWriting p s).1 ∧ .ingestFinal h ∉ (eachLeg State.writtenIfWriting p s).2
  | [], s, _ => ⟨.refl h s, by simp [eachLeg]⟩
  | r :: rest, s, hp => by
    have h1 := writtenIfWriting_spares (hp r List.mem_cons_self) s
    have h2 := eachLeg_spares rest (s.writtenIfWriting r).1 fun q hq => hp q (List.mem_cons_of_mem _ hq)
    refine ⟨h1.1.trans h2.1, fun hm => ?_⟩
    rcases List.mem_append.mp hm with hm | hm
    · exact h1.2 hm
    · exact h2.2 hm

theorem placeLegs_ingest (s : State) (i : Fin 8) (k : Fin 64) :
    (s.placeLegs i k).ingest = setEntry s.ingest i fun p => { p with lineUp := p.lineUp.tail } := by
  have hplace : ∀ (t : State) r, (t.placeLeg r).ingest = t.ingest := by
    intro t r
    unfold State.placeLeg
    split
    · split
      · rfl
      · split
        · split
          · rfl
          · dsimp only
            split <;> rfl
        · rfl
    · rfl
  rw [State.placeLegs, foldl_keeps State.ingest State.placeLeg hplace]
  rfl

theorem startJob_spares {i : Fin 8} {k : Fin 64} (hk : k ≠ h) (hr : (s.ingest[i.val]).reading = none) :
    State.spares h s (s.startJob i k).1 ∧ .ingestFinal h ∉ (s.startJob i k).2 := by
  have hp : State.spares h s (s.placeLegs i k) := by
    refine ⟨placeLegs_others i h (Ne.symm hk), fun q hq => ?_⟩
    rw [placeLegs_ingest, setEntry_getElem]
    split
    · next e => subst e; exact hq
    · exact hq
  have hpr : ((s.placeLegs i k).ingest[i.val]).reading = none := by
    rw [placeLegs_ingest, setEntry_same]
    exact hr
  rcases startJob_cases s i k with ⟨-, e⟩ | ⟨q, -, ⟨-, e⟩ | ⟨-, -, e⟩ | ⟨-, -, e⟩⟩ <;> rewrite [e] <;> dsimp only
  · exact ⟨hp, by simp⟩
  · exact ⟨hp.trans (finishJob_spares hk _ _ _), by simp⟩
  · have h2 := eachLeg_spares (h := h) ((s.beginStart i k).legRefs k) ((s.placeLegs i k).emptied k)
      fun r hr => by rw [legRefs_job hr]; exact hk
    refine ⟨(hp.trans (modJob_spares hk _ _)).trans h2.1, fun hm => ?_⟩
    rcases List.mem_append.mp hm with hm | hm
    · exact h2.2 hm
    · simp only [List.mem_cons, Todo.ingestFinal.injEq, reduceCtorEq, List.not_mem_nil, or_false] at hm
      exact hk hm.symm
  · refine ⟨(hp.trans (modJob_spares hk _ _)).trans ⟨rfl, fun q hq => ?_⟩, by simp⟩
    rw [State.modIngest_ingest, setEntry_getElem]
    split
    · next e =>
      subst e
      rw [State.modJob_ingest, hpr] at hq
      cases hq
    · exact hq

/-- A thing done for other jobs. -/
theorem perform_spares (s : State) (x : Todo) (hx : x ≠ .test h ∧ x ≠ .ingestFinal h) (hn : ¬ s.startable h)
    (hw : ∀ d : Fin 6, ∀ r ∈ (s.readers[d.val]).work, r.job ≠ h) :
    State.spares h s (s.perform x).1 ∧ .ingestFinal h ∉ (s.perform x).2 := by
  cases x with
  | activate d =>
    refine ⟨activateHead_spares s d (hw d), ?_⟩
    change .ingestFinal h ∉ (s.activateHead d).2
    rcases activateHead_cases s d with e | ⟨r, rest, l, j, -, -, -, -, ⟨-, e⟩ | ⟨-, e⟩⟩ <;> rewrite [e]
    · simp
    · simp
    · exact verifyFinal_todos _ d r
  | test k => exact testJob_spares (fun e => hx.1 (by rw [e])) s
  | ingestFinal k => exact ingestFinalised_spares (fun e => hx.2 (by rw [e])) s
  | start i =>
    change State.spares h s (s.testStart i).1 ∧ .ingestFinal h ∉ (s.testStart i).2
    rcases testStart_cases s i with ⟨e, -⟩ | ⟨k, rest, j, hr, -, hj, hs, e⟩ <;> rewrite [e]
    · exact ⟨.refl h s, by simp⟩
    · refine startJob_spares (fun e => hn ?_) hr
      subst e
      exact ⟨j, hj, hs⟩

end Sys2Proof.Machine
end

