-- ==== Sys2Proof/Proofs/P34.lean ====
section
/-! A WRITING leg that leaves its target for good: its writes, its slots (R40, R106), and, where it was the job's last viable leg, the job's
end with teardown (R16). -/

namespace Sys2Proof.Machine

open Sys2Proof

variable {s t u v : State} {h : Fin 64} {x : Target} {r : LegRef} {l : Leg}

/-! ## Slots -/

/-- No slot of a job names the target any longer, and the slots that this left digested and owed to none are FREE. -/
structure State.settleOut (x : Target) (h : Fin 64) (s t : State) : Prop where
  owed : ∀ z ∈ t.slots, z.job = h → x ∉ z.owed
  freed : s.poolOk → ∀ y ∈ s.slots, ∀ b, y.job = h → x ∈ y.owed → (∀ z ∈ y.owed, z = x) → y.held = some b → b.digested = true →
    ∀ z ∈ t.slots, z.num ≠ y.num

theorem State.settleOut.winds (a : State.settleOut x h s t) (b : t.winds u) : State.settleOut x h s u := by
  refine ⟨fun z hz hj hx => ?_, fun hp y hy c h1 h2 h3 h4 h5 z hz => ?_⟩
  · obtain ⟨y, hy, e⟩ := b.slots z hz
    exact a.owed y hy (by rw [← e.job]; exact hj) (e.owed hx)
  · obtain ⟨y', hy', e⟩ := b.slots z hz
    rw [e.num]
    exact a.freed hp y hy c h1 h2 h3 h4 h5 y' hy'

theorem State.settleOut.issues (a : State.settleOut x h s t) (b : t.issues u) (hj : ∀ j, t.job? h = some j → x ∉ j.writingTargets) :
    State.slotsSettled x h s u := by
  refine ⟨fun n y hy hyj hx => ?_, fun hp n y c hy h1 h2 h3 h4 h5 z hz => ?_⟩
  · rcases b.slots y (slot?_mem hy).1 with hm | ⟨-, ⟨j, hjj, -, hk⟩ | ⟨d, q, -, -, hk⟩⟩
    · exact a.owed y hm hyj hx
    · rw [hyj] at hjj
      rw [Slot.owed, hk] at hx
      exact hj j hjj hx
    · rw [Slot.owed, hk] at hx
      cases hx
  · obtain ⟨hys, rfl⟩ := slot?_mem hy
    obtain ⟨hzs, e⟩ := slot?_mem hz
    rcases b.slots z hzs with hm | ⟨hn, -⟩
    · exact absurd e (a.freed hp y hys c h1 h2 h3 h4 h5 z hm)
    · exact hn

theorem State.slotsSettled.of_base (a : State.slotsSettled x h v t) (hs : v.slots = s.slots) : State.slotsSettled x h s t :=
  ⟨a.owed, fun hp n y b hy => a.freed (by unfold State.poolOk; rw [hs]; exact hp) n y b (by rw [State.slot?_congr hs]; exact hy)⟩

/-- Slots of one number are one slot. -/
theorem State.poolOk.num_unique (hp : s.poolOk) {y z : Slot} (hy : y ∈ s.slots) (hz : z ∈ s.slots) (e : y.num = z.num) : y = z := by
  have hn : (s.slots.map Slot.num).Pairwise (· ≠ ·) := ((poolWf_iff _).mp hp).1.imp Nat.ne_of_lt
  exact List.inj_on_of_nodup_map hn hy hz e

theorem settleJobSlots_settleOut (s : State) (h : Fin 64) (x : Target) : State.settleOut x h s (s.settleJobSlots h x) := by
  have hjob : ∀ y : Slot, (if y.job = h then y.settle x else y).job = y.job := fun y => by
    split
    · exact (Slot.settle_winds y x).job
    · rfl
  refine ⟨fun z hz hj hx => ?_, fun hp y hy b h1 h2 h3 h4 h5 z hz e => ?_⟩
  · obtain ⟨y, hy, rfl, -⟩ := mem_settleJobSlots.mp hz
    rw [hjob] at hj
    rw [if_pos hj] at hx
    exact Slot.settle_owed y x hx
  · obtain ⟨y', hy', rfl, hn⟩ := mem_settleJobSlots.mp hz
    have hnum : y'.num = y.num := by
      rw [← e]
      split
      · rw [Slot.settle_num]
      · rfl
    have := hp.num_unique hy' hy hnum
    subst this
    refine hn ⟨by rw [hjob]; exact h1, ?_⟩
    rw [if_pos h1, Slot.freeable, Slot.settle_held, h4]
    dsimp only
    rw [h5, Bool.true_and, List.isEmpty_iff, List.eq_nil_iff_forall_not_mem]
    intro q hq
    have := h3 q ((Slot.settle_winds y' x).owed hq)
    subst this
    exact Slot.settle_owed y' q hq

/-! ## A leg that leaves WRITING -/

/-- What a WRITING leg's leaving makes of its work. -/
theorem dropLeg_writing_out (hr : s.legOn h x = some r) (hl : s.leg? r = some l) (hs : l.state = .writing) (y : LegState) (c : Option LegCause) :
    s.legEndsIn (s.dropLeg h x y c) r y c ∧ State.writesOut x h s (s.dropLeg h x y c) ∧ State.settleOut x h s (s.dropLeg h x y c) := by
  rw [dropLeg_writing hr hl hs]
  refine ⟨endLeg_legEndsIn hl (by rw [hs]; rfl) y c, withdraw_writesOut (s := s) (u := (s.endLeg r y c).settleJobSlots h x) x h rfl, ?_⟩
  exact (settleJobSlots_settleOut s h x).winds
    (u := ((s.endLeg r y c).settleJobSlots h x).modWriter x fun w => w.withdraw h)
    (State.winds.trans (t := (s.endLeg r y c).settleJobSlots h x) (.of_rest
      (fun g hg => (endLeg_winds (s.settleJobSlots h x) r y c).loaded g hg) rfl rfl rfl rfl rfl rfl) (modWriter_withdraw_winds _ x h))

/-- The job whose leg on a target has ended writes to it no more. -/
theorem State.outcomesOk.not_writing (ho : s.outcomesOk) (hl : s.leg? r = some l) (hx : l.target = x) (a : s.advancesTo u) {m : Leg}
    (hm : u.leg? r = some m) (hw : m.state ≠ .writing) : ∀ j, u.job? r.job = some j → x ∉ j.writingTargets := by
  intro k hk hin
  obtain ⟨f, hf, hfx⟩ := List.mem_map.mp hin
  obtain ⟨hfk, hfs⟩ := List.mem_filter.mp hf
  obtain ⟨n, hn⟩ := List.getElem?_of_mem hfk
  obtain ⟨j, hj, hjl⟩ := State.leg?_eq_some.mp hl
  obtain ⟨k', hk', e⟩ := a.jobs r.job j hj
  rw [hk] at hk'
  cases hk'
  have hlt : n < j.legs.length := by
    rw [← e.legCount]
    exact (List.getElem?_eq_some_iff.mp hn).1
  obtain ⟨g, hg, hadv, -⟩ := e.legs n j.legs[n] (List.getElem?_eq_getElem hlt)
  rw [hn] at hg
  cases hg
  have hq : (⟨r.job, n⟩ : LegRef) = r :=
    ho.ref_unique (State.leg?_eq_some.mpr ⟨j, hj, List.getElem?_eq_getElem hlt⟩) hl rfl (by rw [← hadv.target, hfx, hx])
  have : u.leg? r = some f := by
    rw [← hq]
    exact State.leg?_eq_some.mpr ⟨k, hk, hn⟩
  rw [hm] at this
  cases this
  exact hw (of_decide_eq_true hfs)

/-! ## The job's end -/

theorem State.workOut.before (a : State.workOut h v t) (w : s.winds v) (b : v.winds t)
    (hv : s.outcomesOk → ∀ d : Fin 6, ∀ r ∈ (s.readers[d.val]).work, r.job ≠ h) : State.workOut h s t :=
  ⟨fun x => (a.writes x).before w b, a.slots.before ingestOf_winds w b, fun ho d r hr e => absurd e (hv ho d r hr)⟩

theorem State.readsAbandoned.before (a : State.readsAbandoned h v t) (w : s.winds v) (b : v.winds t) {j k : Job} (hj : s.job? h = some j)
    (hk : v.job? h = some k) (hp : k.port = j.port)
    (hr : (s.ingest[j.port.val]).reading = some h → (v.ingest[j.port.val]).reading = some h) : State.readsAbandoned h s t := by
  intro j' hj' hreading m g index num issued attempt hm
  rw [hj] at hj'
  cases hj'
  rcases w.tags j.port m with e | ⟨_, _, _, i, _, hs, e⟩
  · have ha := a k hk
    simp only [hp] at ha
    exact (ha (hr hreading) m g index num issued attempt (by rw [e]; exact hm)).trans (by rw [e])
  · rw [hm] at hs
    cases hs
    rcases b.tags j.port m with f | ⟨_, _, _, _, _, hs, -⟩
    · exact f.trans e
    · rw [e] at hs
      cases hs

/-- A running job without a viable leg, whose test is to come, or whose teardown has come. -/
def State.endsHopeless (h : Fin 64) (s t : State) (l : List Todo) : Prop :=
  t.outcomesOk ∧ s.winds t ∧ ((State.spares h s t ∧ .test h ∈ l ∧ .ingestFinal h ∉ l) ∨
    ∃ v, State.spares h s v ∧ s.winds v ∧ v.winds t ∧ State.torn h .failed .insufficientCopies v t)

theorem testJob_hopeless {j : Job} (hj : s.job? h = some j) (hs : j.state = .reading ∨ j.state = .settling)
    (hv : ∀ l ∈ j.legs, l.state.viable = false) : s.testJob h = s.tearJob h .failed .insufficientCopies := by
  unfold State.testJob
  rw [hj]
  dsimp only
  rw [if_pos hs, if_pos (viableLegs_eq_zero.mpr hv)]

theorem State.endsHopeless.perform {j : Job} (hj : s.job? h = some j) (hs : j.state = .reading ∨ j.state = .settling)
    (hv : ∀ l ∈ j.legs, l.state.viable = false) {y : Todo} {rest : List Todo} (a : State.endsHopeless h s t (y :: rest)) :
    State.endsHopeless h s (t.perform y).1 ((t.perform y).2 ++ rest) := by
  obtain ⟨ho, hw, hc⟩ := a
  have hpw := perform_winds t y
  refine ⟨(perform_outcomes ho y).1, hw.trans hpw, ?_⟩
  rcases hc with ⟨hsp, hin, hnf⟩ | ⟨v, h1, h2, h3, h4⟩
  · have htj : t.job? h = some j := hsp.1.trans hj
    have hnt : j.state.terminal = false := by rcases hs with e | e <;> rw [e] <;> rfl
    by_cases hy : y = .test h
    · subst hy
      refine .inr ⟨t, hsp, hw, hpw, ?_⟩
      change State.torn h _ _ t (t.testJob h).1
      rw [testJob_hopeless htj hs hv]
      exact tearJob_torn htj hnt rfl _
    · have hne : y ≠ .ingestFinal h := fun e => hnf (e ▸ List.mem_cons_self)
      obtain ⟨h1, h2⟩ := perform_spares (h := h) t y ⟨hy, hne⟩
        (fun ⟨q, hq, hqs⟩ => by
          rw [htj] at hq
          cases hq
          rw [hqs] at hs
          simp at hs)
        (fun d => ho.work_job_ne (fun q hq l hl => by
          rw [htj] at hq
          cases hq
          have := hv l hl
          refine ⟨fun e => ?_, fun e => ?_⟩ <;> rw [e] at this <;> cases this) d)
      refine .inl ⟨hsp.trans h1, ?_, fun hm => ?_⟩
      · rcases List.mem_cons.mp hin with e | hm
        · exact absurd e.symm hy
        · exact List.mem_append_right _ hm
      · rcases List.mem_append.mp hm with hm | hm
        · exact h2 hm
        · exact hnf (List.mem_cons_of_mem _ hm)
  · exact .inr ⟨v, h1, h2, h3.trans hpw, h4.later rfl hpw (perform_advances t y)⟩

/-- The test of a running job without a viable leg tears it down, whatever is done before it and after. -/
theorem hopeless_ends {j : Job} (ho : s.outcomesOk) (hj : s.job? h = some j) (hs : j.state = .reading ∨ j.state = .settling)
    (hv : ∀ l ∈ j.legs, l.state.viable = false) {z : List Todo} (hz : .test h ∈ z) (hf : .ingestFinal h ∉ z) (hwt : todoWeight z ≤ 1728) :
    ∃ v, State.spares h s v ∧ s.winds v ∧ v.winds (s.cascade z) ∧ State.torn h .failed .insufficientCopies v (s.cascade z) := by
  have a := cascade_ends (fun t l => State.endsHopeless h s t l) (fun t y rest a => a.perform hj hs hv) ho.legsFit hwt
    (show State.endsHopeless h s s z from ⟨ho, .refl s, .inl ⟨.refl h s, hz, hf⟩⟩)
  obtain ⟨-, -, ⟨-, hm, -⟩ | hv⟩ := a
  · cases hm
  · exact hv

end Sys2Proof.Machine
end

