-- ==== Sys2Proof/Proofs/P35.lean ====
section
/-! A failed write: it waits for its reissue, or its leg fails (R103, R106), and with the last viable leg its job (R16). -/

namespace Sys2Proof.Machine

open Sys2Proof

variable {s t u v : State} {x : Target} {k : Fin 16} {w : TagWork} {issued : Tick} {gen : Gen} {due : Bool} {h : Fin 64} {r : LegRef} {l : Leg}

/-! ## The commands -/

theorem exec_writeDone {d : Fin 6} {tag : Byte} (hr : s.resetN = true) (hl : s.linkUp (.drive d) = true) (status : WriteStatus) :
    exec (.writeDone d tag gen status) s = .next (writeAnswerEffect (.drive d) tag gen status s) := by
  simp only [exec, execWriteDone]
  exact event_enabled hr hl

theorem exec_sinkDone {tag : Byte} (hr : s.resetN = true) (hl : s.linkUp .control = true) (status : SinkStatus) :
    exec (.sinkDone tag gen status) s = .next (writeAnswerEffect .sink tag gen (sinkStatus status) s) := by
  simp only [exec, execSinkDone]
  exact event_enabled hr hl

theorem exec_writeTagExpiry (hr : s.resetN = true) (hd : ((s.writer x).tags[k.val]).due = true) :
    exec (.writeTagExpiry x k) s = .next (writeExpiryEffect x k s) := by
  simp only [exec, execWriteTagExpiry]
  exact event_enabled hr hd

/-- What an answer to a write does, by its status. -/
def State.writeAnswered (s : State) (x : Target) (k : Fin 16) (w : TagWork) : WriteStatus → State × List Todo
  | .ok => s.acknowledge x k w
  | .mediaError => s.writeFailed x k w
  | .noSpace => s.writeGivenUp x k w .targetFull

theorem writeAnswerEffect_sent (htag : (s.writer x).tags[k.val] = ⟨.sent w issued, gen, due⟩) (status : WriteStatus) :
    writeAnswerEffect x (BitVec.ofNat 8 k.val) gen status s =
      (cascadeOf ((s.received (targetPort x)).writeAnswered x k w status)).close := by
  have htag' : ((s.received (targetPort x)).writer x).tags[k.val] = ⟨.sent w issued, gen, due⟩ := htag
  unfold writeAnswerEffect
  dsimp only
  rw [tagOf_ofNat (by omega) k]
  dsimp only
  rw [htag']
  dsimp only
  rw [if_pos rfl]
  cases status with
  | ok => rfl
  | mediaError => rfl
  | noSpace => rfl

theorem writeExpiryEffect_sent (htag : (s.writer x).tags[k.val] = ⟨.sent w issued, gen, due⟩) :
    writeExpiryEffect x k s = (cascadeOf (s.writeFailed x k w)).close := by
  unfold writeExpiryEffect
  rw [htag]

/-! ## The tag -/

/-- Two changes of a writer that agree on it as it stands. -/
theorem modWriter_congr {f g : Writer → Writer} (e : f (s.writer x) = g (s.writer x)) : s.modWriter x f = s.modWriter x g := by
  unfold State.modWriter
  rw [setEntry_congr s.writers _ e]

/-- A write tag changed, by what it becomes. -/
theorem setWriteTag_eq {f : BlockTag → BlockTag} {g : BlockTag} (htag : f (s.writer x).tags[k.val] = g) :
    s.setWriteTag x k f = s.modWriter x fun q => { q with tags := setEntry q.tags k fun _ => g } :=
  modWriter_congr (by rw [setEntry_congr (s.writer x).tags k (g := fun _ => g) htag])

theorem writeFailed_waits (htag : (s.writer x).tags[k.val] = ⟨.sent w issued, gen, due⟩) (hlim : w.attempt < (s.writer x).retryLimit) :
    s.writeFailed x k w =
      (s.modWriter x fun q => { q with tags := setEntry q.tags k fun _ => ⟨.waiting w, gen, false⟩, retry := q.retry ++ [k] }, []) := by
  unfold State.writeFailed
  rw [if_pos hlim, setWriteTag_eq (g := ⟨.waiting w, gen, false⟩) (by rw [htag]; rfl), modWriter_modWriter]

theorem writeFailed_gives (hlim : (s.writer x).retryLimit ≤ w.attempt) : s.writeFailed x k w = s.writeGivenUp x k w .writeError := by
  unfold State.writeFailed
  rw [if_neg (by omega)]

theorem writeGivenUp_eq (htag : (s.writer x).tags[k.val] = ⟨.sent w issued, gen, due⟩) (c : LegCause) : s.writeGivenUp x k w c =
    ((s.modWriter x fun q => { q with tags := setEntry q.tags k fun _ => ⟨.free, gen, false⟩ }).dropLeg w.ref.job x .failed (some c),
      afterLeg w.ref.job x) := by
  unfold State.writeGivenUp
  rw [setWriteTag_eq (g := ⟨.free, gen, false⟩) (by rw [htag]; rfl)]

/-! ## A leg that fails at a write -/

theorem afterLeg_spec (h : Fin 64) (x : Target) : .test h ∈ afterLeg h x ∧ .ingestFinal h ∉ afterLeg h x ∧ todoWeight (afterLeg h x) ≤ 1728 := by
  cases x with
  | sink => exact ⟨by simp [afterLeg], by simp [afterLeg], by simp [afterLeg, Todo.weight]⟩
  | drive d => exact ⟨by simp [afterLeg], by simp [afterLeg], by simp [afterLeg, Todo.weight]⟩

/-- What a leg that fails at a write leaves when the event is over. -/
structure State.writeLegGone (x : Target) (h : Fin 64) (r : LegRef) (c : LegCause) (s t : State) : Prop where
  failed : s.legFailed t r c
  writes : State.writesWithdrawn x h s t
  slots : s.outcomesOk → State.slotsSettled x h s t
  job : ∀ j, s.outcomesOk → s.job? h = some j → j.state = .reading ∨ j.state = .settling →
    (∀ n m, j.legs[n]? = some m → n ≠ r.leg → m.state.viable = false) →
    s.failedIn t h .insufficientCopies ∧ State.workGone h s t ∧ State.readsAbandoned h s t

theorem drop_write (hr : s.legOn h x = some r) (hl : s.leg? r = some l) (hs : l.state = .writing) (c : LegCause) :
    State.writeLegGone x h r c s (((s.dropLeg h x .failed (some c)).cascade (afterLeg h x)).close) := by
  obtain ⟨hrj, l', hl', hlx⟩ := legOn_spec hr
  rw [hl] at hl'
  cases hl'
  obtain ⟨hend, hwr, hsl⟩ := dropLeg_writing_out hr hl hs .failed (some c)
  have hpw := dropLeg_winds s h x .failed (some c)
  have hpa := dropLeg_advances s h x .failed (some c) rfl
  have hpo := fun ho : s.outcomesOk => (dropLeg_outcomes ho h x (y := .failed) (some c) rfl).1
  have hpi : (s.dropLeg h x .failed (some c)).ingest = s.ingest := by rw [dropLeg_writing hr hl hs]; rfl
  have hpj : (s.dropLeg h x .failed (some c)).job? h = (s.endLeg r .failed (some c)).job? h := by rw [dropLeg_writing hr hl hs]; rfl
  revert hend hwr hsl hpw hpa hpo hpi hpj
  generalize s.dropLeg h x .failed (some c) = p
  intro hend hwr hsl hpw hpa hpo hpi hpj
  have hcw := cascade_winds p (afterLeg h x)
  have hca := cascade_advances p (afterLeg h x)
  have hci := close_issues (p.cascade (afterLeg h x))
  refine ⟨hend.advances rfl (hca.trans (close_advances _)), (hwr.winds hcw).issues hci, fun ho => (hsl.winds hcw).issues hci ?_,
    fun j ho hj hrun hvia => ?_⟩
  · obtain ⟨m, hm, hms, -⟩ := hend.advances rfl hca
    have := ho.not_writing hl hlx (hpa.trans hca) hm (by rw [hms]; decide)
    rw [hrj] at this
    exact this
  · have hpjob : p.job? h = some { j with legs := j.legs.modify r.leg (Leg.ended s.now .failed (some c)) } := by
      rw [hpj, State.job?_endLeg, if_pos hrj, hrj, hj]
      rfl
    have hjl : j.legs[r.leg]? = some l := by
      obtain ⟨q, hq, hql⟩ := State.leg?_eq_some.mp hl
      rw [hrj, hj] at hq
      cases hq
      exact hql
    obtain ⟨v, hsp, h1, h2, h3⟩ := hopeless_ends (hpo ho) hpjob hrun
      (fun m hm => by
        obtain ⟨n, hn⟩ := List.getElem?_of_mem hm
        rw [List.getElem?_modify] at hn
        obtain ⟨f, hf, rfl⟩ := Option.map_eq_some_iff.mp hn
        split
        · next e =>
          rw [← e, hjl] at hf
          cases hf
          rw [Leg.ended, hs]
          rfl
        · next e => exact hvia n f hf (Ne.symm e))
      (afterLeg_spec h x).1 (afterLeg_spec h x).2.1 (afterLeg_spec h x).2.2
    have hwork : ∀ d : Fin 6, ∀ q ∈ (s.readers[d.val]).work, q.job ≠ h := fun d => ho.work_job_ne (fun q hq m hm => by
      rw [hj] at hq
      cases hq
      obtain ⟨n, hn⟩ := List.getElem?_of_mem hm
      by_cases e : n = r.leg
      · subst e
        rw [hjl] at hn
        cases hn
        rw [hs]
        decide
      · have := hvia n m hn e
        refine ⟨fun e => ?_, fun e => ?_⟩ <;> rw [e] at this <;> cases this) d
    have hends := h3.ends.advances rfl (close_advances _)
    unfold State.endsIn at hends
    rw [h1.now, hpw.now] at hends
    refine ⟨hends, (h3.work.before (hpw.trans h1) h2 fun _ => hwork).issues hci (h3.ends.not_running rfl).2, ?_⟩
    exact (h3.reads.before (hpw.trans h1) h2 hj (hsp.1.trans hpjob) rfl fun e => hsp.2 _ (by rw [hpi]; exact e)).issues (close_settles _)

/-- A write given up, in a state that differs from another only in what a received frame changes. -/
theorem write_given (htag : (s.writer x).tags[k.val] = ⟨.sent w issued, gen, due⟩) (hj : u.jobs = s.jobs) (hre : u.readers = s.readers)
    (hsl : u.slots = s.slots) (htm : u.timer = s.timer) (hwr : u.writers = s.writers) (hin : u.ingest = s.ingest) (c : LegCause) :
    let freed : State := s.modWriter x fun q => { q with tags := setEntry q.tags k fun _ => ⟨.free, gen, false⟩ }
    let t := (cascadeOf (u.writeGivenUp x k w c)).close
    s.advancesTo t ∧ ∀ r l, s.legOn w.ref.job x = some r → s.leg? r = some l → l.state = .writing →
      s.legFailed t r c ∧ State.writesWithdrawn x w.ref.job freed t ∧ (s.outcomesOk → State.slotsSettled x w.ref.job s t) ∧
        ∀ j, s.outcomesOk → s.job? w.ref.job = some j → j.state = .reading ∨ j.state = .settling →
          (∀ n m, j.legs[n]? = some m → n ≠ r.leg → m.state.viable = false) →
          s.failedIn t w.ref.job .insufficientCopies ∧ State.workGone w.ref.job freed t ∧ State.readsAbandoned w.ref.job s t := by
  intro freed t
  have ht : t = (cascadeOf (u.writeGivenUp x k w c)).close := rfl
  clear_value t
  rw [writeGivenUp_eq (by rw [State.writer_congr hwr]; exact htag)] at ht
  generalize hv : (u.modWriter x fun q => { q with tags := setEntry q.tags k fun _ => ⟨.free, gen, false⟩ }) = v at ht
  subst ht
  have hvj : v.jobs = s.jobs := by rw [← hv]; exact hj
  have hvn : v.now = s.now := by rw [← hv]; exact congrArg Timer.tick htm
  have hvr : v.readers = s.readers := by rw [← hv]; exact hre
  have hvs : v.slots = s.slots := by rw [← hv]; exact hsl
  have hvi : v.ingest = s.ingest := by rw [← hv]; exact hin
  have hvw : v.writers = freed.writers := by rw [← hv, State.modWriter_writers, State.modWriter_writers, hwr]
  have hjob : ∀ g, v.job? g = s.job? g := State.job?_congr hvj
  have hov : s.outcomesOk → v.outcomesOk := fun ho => (OutStep.of_same (l := []) ho hvj fun e => by rw [hvr]).outcomes
  refine ⟨State.advancesTo.afterJobs (((dropLeg_advances v w.ref.job x .failed (some c) rfl).trans (cascadeOf_advances (_, _))).trans
    (close_advances _)) hvj, fun r l hon hl hs => ?_⟩
  have a := drop_write (s := v) ((legOn_congr (hjob _) _).trans hon) ((State.leg?_congr hvj r).trans hl) hs c
  refine ⟨?_, ⟨a.writes.queue, ?_⟩, fun ho => (a.slots (hov ho)).of_base hvs, fun j ho hj hrun hvia => ?_⟩
  · have := a.failed
    unfold State.legFailed at this
    rw [hvn] at this
    exact this
  · have := a.writes.tags
    rw [State.writer_congr hvw] at this
    exact this
  · obtain ⟨h1, h2, h3⟩ := a.job j (hov ho) ((hjob _).trans hj) hrun hvia
    unfold State.failedIn at h1
    rw [hvn] at h1
    exact ⟨h1, h2.of_base hvw hvr hvs hvj, h3.of_base hvi hvj⟩

/-- Settles O41: the reissue by the tag's own change, the failure by the leg's leaving WRITING. -/
theorem writeFailuresRetryOrFailTheLeg : Obligations.WriteFailuresRetryOrFailTheLeg := by
  intro s x k w issued gen due hr htag heard waits freed fails
  have hwaits : ∀ u : State, (u.writer x).tags[k.val] = ⟨.sent w issued, gen, due⟩ → w.attempt < (u.writer x).retryLimit →
      (waits u).settlesTo (cascadeOf (u.writeFailed x k w)).close := by
    intro u hu hlim
    rw [writeFailed_waits hu hlim]
    exact close_settles _
  have hgiven : ∀ c, fails (cascadeOf ((s.received (targetPort x)).writeGivenUp x k w c)).close c :=
    fun c => write_given (u := s.received (targetPort x)) htag rfl rfl rfl rfl rfl rfl c
  have hdue : due = true → ((s.writer x).tags[k.val]).due = true := fun hd => by rw [htag]; exact hd
  refine ⟨fun hlim => ⟨?_, ?_, fun hd => ⟨_, exec_writeTagExpiry hr (hdue hd), ?_⟩⟩,
    fun hlim => ⟨?_, ?_, fun hd => ⟨_, exec_writeTagExpiry hr (hdue hd), ?_⟩⟩, ?_⟩
  · rintro d rfl hl
    refine ⟨_, exec_writeDone hr hl _, ?_⟩
    rw [writeAnswerEffect_sent htag]
    exact hwaits _ htag hlim
  · rintro rfl hl
    refine ⟨_, exec_sinkDone hr hl _, ?_⟩
    rw [writeAnswerEffect_sent htag]
    exact hwaits _ htag hlim
  · rw [writeExpiryEffect_sent htag]
    exact hwaits s htag hlim
  · rintro d rfl hl
    refine ⟨_, exec_writeDone hr hl _, ?_⟩
    rw [writeAnswerEffect_sent htag, State.writeAnswered, writeFailed_gives (s := s.received (targetPort (.drive d))) hlim]
    exact hgiven _
  · rintro rfl hl
    refine ⟨_, exec_sinkDone hr hl _, ?_⟩
    rw [writeAnswerEffect_sent htag, sinkStatus, State.writeAnswered, writeFailed_gives (s := s.received (targetPort .sink)) hlim]
    exact hgiven _
  · rw [writeExpiryEffect_sent htag, writeFailed_gives hlim]
    exact write_given htag rfl rfl rfl rfl rfl rfl _
  · rintro d rfl hl
    refine ⟨_, exec_writeDone hr hl _, ?_⟩
    rw [writeAnswerEffect_sent htag]
    exact hgiven _

end Sys2Proof.Machine
end

