-- ==== Sys2Proof/Proofs/P36.lean ====
section
/-! Which legs on a target are WRITING after the rest of an event: those that were, and those of a LOADED job that has started while the target
was available (R11). -/

namespace Sys2Proof.Machine

open Sys2Proof

variable {s t u : State} {x : Target} {h : Fin 64}

/-- A leg on a target is WRITING. -/
def State.writesTo (s : State) (x : Target) (r : LegRef) : Prop :=
  ∃ l, s.leg? r = some l ∧ l.state = .writing ∧ l.target = x

/-- A leg that is WRITING after was so before, or its job was LOADED and the target available. -/
structure State.opens (x : Target) (s t : State) : Prop where
  writes : ∀ r, t.writesTo x r → s.writesTo x r ∨ (s.startable r.job ∧ s.available x = true)
  available : t.available x = s.available x
  loaded : ∀ g, t.startable g → s.startable g

theorem State.opens.refl (x : Target) (s : State) : State.opens x s s :=
  ⟨fun _ => .inl, rfl, fun _ => id⟩

theorem State.opens.trans (a : State.opens x s t) (b : State.opens x t u) : State.opens x s u :=
  ⟨fun r hr => (b.writes r hr).elim (a.writes r) fun e => .inr ⟨a.loaded _ e.1, by rw [← a.available]; exact e.2⟩,
    b.available.trans a.available, fun g hg => a.loaded g (b.loaded g hg)⟩

/-- The links and drives decide what is available. -/
theorem available_congr (hl : t.links = s.links) (hm : ∀ d : Fin 6, (t.drives[d.val]).media = (s.drives[d.val]).media) (x : Target) :
    t.available x = s.available x := by
  cases x with
  | sink =>
    change ((t.link .control).up) = (s.link .control).up
    unfold State.link
    rw [hl]
  | drive d =>
    unfold State.available State.linkUp State.link
    dsimp only
    rw [hl, hm]

/-- A step that makes no leg WRITING. -/
theorem State.opens.of_legs (hw : ∀ r, t.writesTo x r → s.writesTo x r) (hl : t.links = s.links)
    (hm : ∀ d : Fin 6, (t.drives[d.val]).media = (s.drives[d.val]).media) (hs : ∀ g, t.startable g → s.startable g) : State.opens x s t :=
  ⟨fun r hr => .inl (hw r hr), available_congr hl hm x, hs⟩

/-- A step that leaves links, drives and jobs. -/
theorem State.opens.of_same (hj : t.jobs = s.jobs) (hl : t.links = s.links)
    (hm : ∀ d : Fin 6, (t.drives[d.val]).media = (s.drives[d.val]).media) : State.opens x s t :=
  .of_legs (fun r ⟨l, h1, h2⟩ => ⟨l, by rw [← State.leg?_congr hj]; exact h1, h2⟩) hl hm
    fun g ⟨j, h1, h2⟩ => ⟨j, by rw [← State.job?_congr hj]; exact h1, h2⟩

theorem modLeg_opens (s : State) (r : LegRef) (g : Leg → Leg)
    (hg : ∀ l, s.leg? r = some l → (g l).state = .writing → l.state = .writing ∧ (g l).target = l.target) : State.opens x s (s.modLeg r g) := by
  refine .of_legs (fun q ⟨l, h1, h2, h3⟩ => ?_) rfl (fun _ => rfl) (modLeg_winds s r g).loaded
  rw [State.leg?_modLeg] at h1
  split at h1
  · next e =>
    subst e
    obtain ⟨m, hm, rfl⟩ := Option.map_eq_some_iff.mp h1
    obtain ⟨h4, h5⟩ := hg m hm h2
    exact ⟨m, hm, h4, h5 ▸ h3⟩
  · exact ⟨l, h1, h2, h3⟩

theorem endLeg_opens (s : State) (r : LegRef) {y : LegState} (hy : y ≠ .writing) (c : Option LegCause) : State.opens x s (s.endLeg r y c) := by
  refine modLeg_opens s r _ fun l _ hs => ?_
  by_cases e : l.state.terminal = true
  · rw [if_pos e] at hs ⊢
    exact ⟨hs, rfl⟩
  · rw [if_neg e] at hs
    exact absurd hs hy

/-- A change of jobs that makes no leg WRITING. -/
theorem opens_of_jobs (hl : t.links = s.links) (hm : ∀ d : Fin 6, (t.drives[d.val]).media = (s.drives[d.val]).media)
    (hs : ∀ g, t.startable g → s.startable g) (hj : ∀ g k, t.job? g = some k → ∃ j, s.job? g = some j ∧
      ∀ (n : Nat) l, k.legs[n]? = some l → l.state = .writing → j.legs[n]? = some l) : State.opens x s t := by
  refine .of_legs (fun r ⟨l, h1, h2, h3⟩ => ?_) hl hm hs
  obtain ⟨k, hk, hkl⟩ := State.leg?_eq_some.mp h1
  obtain ⟨j, hj', hjl⟩ := hj r.job k hk
  exact ⟨l, State.leg?_eq_some.mpr ⟨j, hj', hjl r.leg l hkl h2⟩, h2, h3⟩

theorem cascadeFrame_links (e : t.cascadeFrame = s.cascadeFrame) : t.links = s.links := by
  simp only [State.cascadeFrame, Prod.mk.injEq] at e
  exact e.2.2.2.2.1

theorem recordFrame_media (e : t.recordFrame = s.recordFrame) (d : Fin 6) : (t.drives[d.val]).media = (s.drives[d.val]).media :=
  (recordFrame_entries e).1 d

theorem finishJob_opens (s : State) (h : Fin 64) {o : JobState} (ho : o.terminal = true) (c : Option JobCause) :
    State.opens x s (s.finishJob h o c) := by
  refine opens_of_jobs (cascadeFrame_links (finishJob_frame s h o c)) (recordFrame_media (finishJob_records s h o c))
    (finishJob_winds s h ho c).loaded fun g k hk => ?_
  rw [finishJob_job?] at hk
  split at hk
  · next e =>
    subst e
    obtain ⟨j, hj, rfl⟩ := Option.map_eq_some_iff.mp hk
    refine ⟨j, hj, fun n l hl _ => ?_⟩
    unfold Job.finished at hl
    split at hl <;> exact hl
  · exact ⟨k, hk, fun _ _ hl _ => hl⟩

theorem tearJob_opens (s : State) (h : Fin 64) {o : JobState} (ho : o.terminal = true) (c : JobCause) : State.opens x s (s.tearJob h o c).1 := by
  refine opens_of_jobs (cascadeFrame_links (tearJob_frame s h o c)) (recordFrame_media (tearJob_records s h o c)) (tearJob_winds s h ho c).loaded
    fun g k hk => ?_
  rcases tearJob_cases s h o c with ⟨e, -⟩ | ⟨q, -, -, e⟩ <;> rewrite [e] at hk
  · exact ⟨k, hk, fun _ _ hl _ => hl⟩
  · dsimp only at hk
    rw [teardown_job?] at hk
    split at hk
    · next e =>
      subst e
      obtain ⟨j, hj, rfl⟩ := Option.map_eq_some_iff.mp hk
      refine ⟨j, hj, fun n l hl hs => ?_⟩
      have := (Job.torn_settled (now := s.now) ho c j).2 l (List.mem_of_getElem? hl)
      rw [hs] at this
      cases this
    · exact ⟨k, hk, fun _ _ hl _ => hl⟩

theorem compareLeg_opens (s : State) (d : Fin 6) (r : LegRef) : State.opens x s (s.compareLeg d r).1 := by
  rcases compareLeg_cases s d r with e | ⟨l, j, v, g, -, -, -, -, -, e⟩ <;> rewrite [e]
  · exact .refl x s
  · refine (endLeg_opens s r ?_ none).trans (.of_same rfl rfl fun _ => rfl)
    split <;> exact LegState.noConfusion

theorem verifyFinal_opens (s : State) (d : Fin 6) (r : LegRef) : State.opens x s (s.verifyFinal d r).1 := by
  rcases verifyFinal_cases s d r with e | ⟨j, -, -, e⟩ <;> rewrite [e] <;> dsimp only
  · exact .refl x s
  · have h1 : State.opens x s (s.finaliseLeg r j.length) := modLeg_opens s r _ fun l _ hs => ⟨hs, rfl⟩
    exact h1.trans (compareLeg_opens _ d r)

theorem activateHead_opens (s : State) (d : Fin 6) : State.opens x s (s.activateHead d).1 := by
  have h1 : ∀ r, State.opens x s (s.modLeg r fun l => { l with state := .verifying }) :=
    fun r => modLeg_opens s r _ fun l _ (hs : LegState.verifying = .writing) => by cases hs
  rcases activateHead_cases s d with e | ⟨r, rest, l, j, -, -, -, -, ⟨-, e⟩ | ⟨-, e⟩⟩ <;> rewrite [e]
  · exact .refl x s
  · exact h1 r
  · exact (h1 r).trans (verifyFinal_opens _ d r)

theorem testJob_opens (s : State) (h : Fin 64) : State.opens x s (s.testJob h).1 := by
  rcases testJob_cases s h with ⟨e, -⟩ | ⟨j, -, -, ⟨-, e⟩ | ⟨-, -, -, e⟩ | ⟨-, -, -, e⟩⟩ <;> rewrite [e]
  · exact .refl x s
  · exact tearJob_opens s h rfl _
  · exact finishJob_opens s h rfl _
  · exact finishJob_opens s h rfl _

theorem foldl_opens {β : Type} (g : State → β → State) (hg : ∀ s b, State.opens x s (g s b)) (l : List β) (s : State) :
    State.opens x s (l.foldl g s) :=
  foldl_inv (fun t => State.opens x s t) g (fun _ b ht => ht.trans (hg _ b)) l s (.refl x s)

theorem compareWaiting_opens (s : State) (r : LegRef) : State.opens x s (s.compareWaiting r) := by
  rcases compareWaiting_cases s r with e | ⟨m, d, -, -, e⟩ <;> rw [e]
  · exact .refl x s
  · exact compareLeg_opens s d r

theorem modJob_opens (s : State) (h : Fin 64) (g : Job → Job) (hl : ∀ j, (g j).legs = j.legs)
    (hs : ∀ j, s.job? h = some j → (g j).state = .loaded → j.state = .loaded) : State.opens x s (s.modJob h g) := by
  refine opens_of_jobs rfl (fun _ => rfl) (modJob_winds s h g hs).loaded fun q k hk => ?_
  rw [State.job?_modJob] at hk
  split at hk
  · next e =>
    subst e
    obtain ⟨j, hj, rfl⟩ := Option.map_eq_some_iff.mp hk
    exact ⟨j, hj, fun n l hn _ => by rw [← hl j]; exact hn⟩
  · exact ⟨k, hk, fun _ _ hn _ => hn⟩

theorem ingestFinalised_opens (s : State) (h : Fin 64) : State.opens x s (s.ingestFinalised h).1 := by
  have h1 : State.opens x s (s.finaliseIngest h) := modJob_opens s h _ (fun _ => rfl) fun _ _ => id
  rcases ingestFinalised_cases s h with ⟨e, -⟩ | ⟨j, -, -, ⟨-, e⟩ | ⟨-, e⟩⟩ <;> rewrite [e]
  · exact .refl x s
  · exact h1.trans (foldl_opens _ compareWaiting_opens _ _)
  · exact h1.trans (tearJob_opens _ h rfl _)

/-! ## A job's start -/

/-- A leg placed WRITING found its target available. -/
theorem placeLeg_opens (a : State.opens x s t) {r : LegRef} (hs : s.startable r.job) : State.opens x s (t.placeLeg r) := by
  have hav : (t.placeLeg r).available x = t.available x :=
    available_congr (cascadeFrame_links (placeLeg_frame t r)) (recordFrame_media (placeLeg_records t r)) x
  refine ⟨fun q ⟨l, h1, h2, h3⟩ => ?_, hav.trans a.available, fun g hg => a.loaded g ((placeLeg_winds t r).loaded g hg)⟩
  by_cases e : q = r
  · subst e
    have hfail : ∀ m c, (Leg.ended t.now .failed c m).state = .writing → m.state = .writing ∧ (Leg.ended t.now .failed c m).target = m.target := by
      intro m c he
      refine ⟨?_, Leg.ended_target _ _ _ m⟩
      unfold Leg.ended at he
      split at he
      · exact he
      · cases he
    have hend : ∀ u : State, u.jobs = t.jobs → u.now = t.now → ∀ c, (u.endLeg q .failed c).leg? q = some l → s.writesTo x q ∨ s.available x = true := by
      intro u hu hn c he
      rw [State.leg?_endLeg, if_pos rfl, State.leg?_congr hu, hn] at he
      obtain ⟨m, hm, rfl⟩ := Option.map_eq_some_iff.mp he
      obtain ⟨h4, h5⟩ := hfail m c h2
      exact (a.writes q ⟨m, hm, h4, h5 ▸ h3⟩).imp id And.right
    have hput : ∀ u : State, u.jobs = t.jobs → ∀ m b, t.leg? q = some m → t.available m.target = true →
        (u.modLeg q fun l => { l with state := .writing, base := b }).leg? q = some l → s.writesTo x q ∨ s.available x = true := by
      intro u hu m b hm hav' he
      rw [State.leg?_modLeg, if_pos rfl, State.leg?_congr hu, hm] at he
      cases he
      exact .inr (by rw [← a.available, ← h3]; exact hav')
    have key : s.writesTo x q ∨ s.available x = true := by
      unfold State.placeLeg at h1
      split at h1
      · next m j hm hj =>
        split at h1
        · exact (a.writes q ⟨l, h1, h2, h3⟩).imp id And.right
        · split at h1
          · next hav' =>
            split at h1
            · exact hput t rfl m _ hm hav' h1
            · dsimp only at h1
              split at h1
              · exact hput _ rfl m _ hm hav' h1
              · exact hend _ rfl rfl _ h1
          · exact hend t rfl rfl _ h1
      · exact (a.writes q ⟨l, h1, h2, h3⟩).imp id And.right
    exact key.imp id fun e => ⟨hs, e⟩
  · rw [(placeLeg_leg t r).2.2 q e] at h1
    exact a.writes q ⟨l, h1, h2, h3⟩

theorem legWritten_opens (s : State) (r : LegRef) : State.opens x s (s.legWritten r).1 := by
  have h1 : ∀ r, State.opens x s (s.modLeg r fun l => { l with state := .written, written := some s.now }) :=
    fun r => modLeg_opens s r _ fun l _ (hs : LegState.written = .writing) => by cases hs
  rcases legWritten_cases s r with ⟨-, e⟩ | ⟨m, -, ⟨d, -, -, e⟩ | ⟨-, e⟩⟩ <;> rewrite [e] <;> dsimp only
  · exact .refl x s
  · exact (h1 r).trans (.of_same rfl rfl fun _ => rfl)
  · exact (h1 r).trans (endLeg_opens _ r LegState.noConfusion none)

theorem eachLeg_opens : ∀ (p : List LegRef) (s : State), State.opens x s (eachLeg State.writtenIfWriting p s).1
  | [], s => .refl x s
  | r :: rest, s => by
    have h1 : State.opens x s (s.writtenIfWriting r).1 := by
      rcases writtenIfWriting_cases s r with e | ⟨l, -, -, e⟩ <;> rewrite [e]
      · exact .refl x s
      · exact legWritten_opens s r
    exact h1.trans (eachLeg_opens rest _)

theorem placeLegs_opens {i : Fin 8} (hs : s.startable h) : State.opens x s (s.placeLegs i h) := by
  have h0 : State.opens x s (s.beginStart i h) :=
    State.opens.trans (t := s.modIngest i fun p => { p with lineUp := p.lineUp.tail }) (.of_same rfl rfl fun _ => rfl)
      (modJob_opens _ h _ (fun _ => rfl) fun _ _ => id)
  have hfold : ∀ (p : List LegRef) (t : State), (∀ r ∈ p, r.job = h) → State.opens x s t → State.opens x s (p.foldl State.placeLeg t) := by
    intro p
    induction p with
    | nil => exact fun t _ a => a
    | cons r rest ih =>
      exact fun t hp a => ih _ (fun q hq => hp q (List.mem_cons_of_mem _ hq)) (placeLeg_opens a (by rw [hp r List.mem_cons_self]; exact hs))
  exact hfold _ _ (fun r hr => legRefs_job hr) h0

theorem startJob_opens {i : Fin 8} (hs : s.startable h) : State.opens x s (s.startJob i h).1 := by
  have hp := placeLegs_opens (x := x) (i := i) hs
  rcases startJob_cases s i h with ⟨-, e⟩ | ⟨q, -, ⟨-, e⟩ | ⟨-, -, e⟩ | ⟨-, -, e⟩⟩ <;> rewrite [e] <;> dsimp only
  · exact hp
  · exact hp.trans (finishJob_opens _ h rfl _)
  · have h1 : State.opens x (s.placeLegs i h) ((s.placeLegs i h).emptied h) :=
      modJob_opens _ h _ (fun _ => rfl) fun _ _ (e : JobState.settling = .loaded) => by cases e
    exact (hp.trans h1).trans (eachLeg_opens _ _)
  · refine (hp.trans (modJob_opens _ h (fun j => { j with state := .reading }) (fun _ => rfl) fun _ _ (e : JobState.reading = .loaded) => by cases e)).trans
      (.of_same rfl rfl fun _ => rfl)

theorem perform_opens (s : State) (y : Todo) : State.opens x s (s.perform y).1 := by
  cases y with
  | activate d => exact activateHead_opens s d
  | test h => exact testJob_opens s h
  | ingestFinal h => exact ingestFinalised_opens s h
  | start i =>
    change State.opens x s (s.testStart i).1
    rcases testStart_cases s i with ⟨e, -⟩ | ⟨h, rest, j, -, -, hj, hs, e⟩ <;> rewrite [e]
    · exact .refl x s
    · exact startJob_opens ⟨j, hj, hs⟩

theorem cascade_opens (s : State) (l : List Todo) : State.opens x s (s.cascade l) :=
  run_inv (fun t => State.opens x s t) (fun _ y ht => ht.trans (perform_opens _ y)) _ l s (.refl x s)

theorem dropLeg_opens (s : State) (h : Fin 64) (z : Target) {y : LegState} (hy : y ≠ .writing) (c : Option LegCause) :
    State.opens x s (s.dropLeg h z y c) := by
  rcases dropLeg_cases s h z y c with e | ⟨r, l, -, -, ⟨-, e⟩ | ⟨-, ⟨d, -, e⟩ | ⟨-, e⟩⟩⟩ <;> rewrite [e]
  · exact .refl x s
  · exact (endLeg_opens s r hy c).trans (.of_same rfl rfl fun _ => rfl)
  · exact (endLeg_opens s r hy c).trans (.of_same (withdrawVerify_jobs _ d h) (cascadeFrame_links (withdrawVerify_frame _ d h))
      (recordFrame_media (withdrawVerify_records _ d h)))
  · exact endLeg_opens s r hy c

end Sys2Proof.Machine
end

