-- ==== Sys2Proof/Proofs/P37.lean ====
section
/-! Every leg of a kind on a target leaves it, in handle order (R21, R110): each ends, with its writes and slots, and no slot and no leg of
theirs names the target any longer. -/

namespace Sys2Proof.Machine

open Sys2Proof

variable {s t u v : State} {x : Target} {h : Fin 64} {r : LegRef} {l : Leg}

/-! ## One leg, seen from before others -/

/-- The slots of a job stand. -/
def State.slotsStand (h : Fin 64) (s t : State) : Prop :=
  ∀ y ∈ s.slots, y.job = h → y ∈ t.slots

theorem withdrawSlots_stand {mine : Slot → Bool} (hm : ∀ y, y.job = h → mine y = false) : State.slotsStand h s (s.withdrawSlots mine) := by
  intro y hy hj
  change y ∈ s.slots.filterMap fun x => if mine x then x.withdraw else some x
  exact List.mem_filterMap.mpr ⟨y, hy, if_neg (by rw [hm y hj]; decide)⟩

theorem withdrawVerify_stand {k : Fin 64} (hk : k ≠ h) (s : State) (d : Fin 6) : State.slotsStand h s (s.withdrawVerify d k) := by
  unfold State.withdrawVerify
  dsimp only
  split
  · exact fun y hy _ => hy
  · next r hr =>
    have hrk : r.job = k := by simpa using List.find?_some hr
    have h1 : State.slotsStand h s ((s.modReader d fun v => v.withdraw k).withdrawSlots (Slot.checkOf r)) :=
      withdrawSlots_stand (s := s.modReader d fun v => v.withdraw k) fun y hj => by
        rw [Slot.checkOf, decide_eq_false (by rw [hj, hrk]; exact Ne.symm hk)]
        rfl
    split
    · exact h1
    · exact h1

theorem dropLeg_stand {k : Fin 64} (hk : k ≠ h) (s : State) (z : Target) (y : LegState) (c : Option LegCause) :
    State.slotsStand h s (s.dropLeg k z y c) := by
  rcases dropLeg_cases s k z y c with e | ⟨r, l, -, -, ⟨-, e⟩ | ⟨-, ⟨d, -, e⟩ | ⟨-, e⟩⟩⟩ <;> rewrite [e]
  · exact fun y hy _ => hy
  · intro y' hy hj
    have hne : y'.job ≠ k := by rw [hj]; exact Ne.symm hk
    exact mem_settleJobSlots.mpr ⟨y', hy, (if_neg hne).symm, fun a => hne a.1⟩
  · exact withdrawVerify_stand hk (s.endLeg r y c) d
  · exact fun y hy _ => hy

theorem poolOk_num_of_stand (hp : s.poolOk → t.poolOk) (a : State.slotsStand h s t) (b : State.settleOut x h t u) : State.settleOut x h s u :=
  ⟨b.owed, fun ho y hy c h1 h2 h3 h4 h5 => b.freed (hp ho) y (a y hy h1) c h1 h2 h3 h4 h5⟩

/-! ## The fold -/

/-- Legs of the given jobs leave a target one after another. -/
def State.dropAll (x : Target) (y : LegState) (c : Option LegCause) (l : List (Fin 64)) (s : State) : State :=
  l.foldl (fun s h => s.dropLeg h x y c) s

theorem dropAll_winds (s : State) (x : Target) (y : LegState) (c : Option LegCause) (l : List (Fin 64)) : s.winds (s.dropAll x y c l) :=
  foldl_winds (fun s h => s.dropLeg h x y c) (fun s h => dropLeg_winds s h x y c) l s

theorem dropAll_advances (s : State) (x : Target) {y : LegState} (hy : y.terminal = true) (c : Option LegCause) (l : List (Fin 64)) :
    s.advancesTo (s.dropAll x y c l) :=
  foldl_advances (fun s h => s.dropLeg h x y c) (fun s h => dropLeg_advances s h x y c hy) l s

theorem dropAll_opens (s : State) (z x : Target) {y : LegState} (hy : y ≠ .writing) (c : Option LegCause) (l : List (Fin 64)) :
    State.opens z s (s.dropAll x y c l) :=
  foldl_opens (fun s h => s.dropLeg h x y c) (fun s h => dropLeg_opens s h x hy c) l s

/-- Jobs that are not among the given ones keep their records and slots. -/
theorem dropAll_others (x : Target) (y : LegState) (c : Option LegCause) : ∀ (l : List (Fin 64)) (s : State), h ∉ l →
    (s.dropAll x y c l).job? h = s.job? h ∧ State.slotsStand h s (s.dropAll x y c l) ∧ (s.poolOk → (s.dropAll x y c l).poolOk)
  | [], s, _ => ⟨rfl, fun _ hy _ => hy, id⟩
  | k :: rest, s, hn => by
    have hk : h ≠ k := fun e => hn (e ▸ List.mem_cons_self)
    obtain ⟨h1, h2, h3⟩ := dropAll_others x y c rest (s.dropLeg k x y c) fun hm => hn (List.mem_cons_of_mem _ hm)
    exact ⟨h1.trans (dropLeg_others s k h x y c hk), fun z hz hj => h2 z (dropLeg_stand (Ne.symm hk) s x y c z hz hj) hj,
      fun hp => h3 (dropLeg_poolWf s k x y c hp)⟩

/-- What became of one of the legs, when all have left. -/
theorem dropAll_leg {y : LegState} (hy : y.terminal = true) (c : Option LegCause) {p : List (Fin 64)} (hp : p.Nodup) (hm : h ∈ p)
    (hr : s.legOn h x = some r) (hl : s.leg? r = some l) (hs : l.state.lostWithTarget = true) :
    s.legEndsIn (s.dropAll x y c p) r y c ∧
      (l.state = .writing → State.writesOut x h s (s.dropAll x y c p) ∧ State.settleOut x h s (s.dropAll x y c p)) := by
  obtain ⟨pre, post, rfl⟩ := List.append_of_mem hm
  have hpre : h ∉ pre := fun e => (List.nodup_append.mp hp).2.2 h e h List.mem_cons_self rfl
  have hsplit : s.dropAll x y c (pre ++ h :: post) = ((s.dropAll x y c pre).dropLeg h x y c).dropAll x y c post := by
    unfold State.dropAll
    rw [List.foldl_append, List.foldl_cons]
  obtain ⟨hj, hst, hpool⟩ := dropAll_others (h := h) x y c pre s hpre
  have haw := dropAll_winds s x y c pre
  have hnow := haw.now
  rw [hsplit]
  generalize s.dropAll x y c pre = a at hj hst hpool haw hnow ⊢
  have hra : a.legOn h x = some r := (legOn_congr hj x).trans hr
  have hla : a.leg? r = some l := (leg?_of_job? (by rw [(legOn_spec hr).1]; exact hj)).trans hl
  have hpw := dropAll_winds (a.dropLeg h x y c) x y c post
  have hpa := dropAll_advances (a.dropLeg h x y c) x hy c post
  refine ⟨?_, fun hw => ?_⟩
  · have hend : a.legEndsIn (a.dropLeg h x y c) r y c := by
      have hnt : l.state.terminal = false := by
        revert hs
        cases l.state <;> decide
      by_cases hw : l.state = .writing
      · exact (dropLeg_writing_out hra hla hw y c).1
      · have hv : l.state = .written ∨ l.state = .verifying := by
          unfold LegState.lostWithTarget at hs
          simpa [hw] using hs
        obtain ⟨m, hm, e⟩ := endLeg_legEndsIn (s := a) hla hnt y c
        refine ⟨m, ?_, e⟩
        cases x with
        | drive d =>
          rw [dropLeg_verifying hra hla hv, State.leg?_congr (withdrawVerify_jobs _ d h)]
          exact hm
        | sink =>
          have : a.dropLeg h .sink y c = a.endLeg r y c := by
            unfold State.dropLeg
            rw [hra]
            dsimp only
            rw [legOnIs_of hra hla, legOnIs_of hra hla]
            rcases hv with hv | hv <;> rw [hv] <;> rfl
          rw [this]
          exact hm
    have := hend.advances hy hpa
    unfold State.legEndsIn at this
    rw [hnow] at this
    exact this
  · obtain ⟨-, h2, h3⟩ := dropLeg_writing_out hra hla hw y c
    exact ⟨((h2.before haw (dropLeg_winds a h x y c))).winds hpw, (poolOk_num_of_stand hpool hst h3).winds hpw⟩

/-! ## The target's slots -/

/-- Slots that name a target belong to jobs that are not among those whose legs have left it. -/
theorem owed_back {P : Fin 64 → Prop} (hown : s.owedByWriting x) (a : s.winds t)
    (hgone : ∀ g, s.legOnIs g x (fun z => decide (z = .writing)) = true → State.settleOut x g s t) (b : t.issues u)
    (hnew : ∀ g j, t.job? g = some j → x ∈ j.writingTargets → P g) : ∀ z ∈ u.slots, x ∈ z.owed → P z.job := by
  intro z hz hx
  rcases b.slots z hz with hz | ⟨-, ⟨j, hj, -, hk⟩ | ⟨d, q, -, -, hk⟩⟩
  · obtain ⟨y, hy, e⟩ := a.slots z hz
    exact absurd hx ((hgone y.job (hown y hy (e.owed hx))).owed z hz e.job)
  · rw [Slot.owed, hk] at hx
    exact hnew z.job j hj hx
  · rw [Slot.owed, hk] at hx
    cases hx

/-- A job that writes to a target. -/
theorem writesTo_of_targets {j : Job} {g : Fin 64} (hj : t.job? g = some j) (hx : x ∈ j.writingTargets) :
    ∃ r : LegRef, r.job = g ∧ t.writesTo x r := by
  obtain ⟨l, hl, hlx⟩ := List.mem_map.mp hx
  obtain ⟨hlj, hls⟩ := List.mem_filter.mp hl
  obtain ⟨n, hn⟩ := List.getElem?_of_mem hlj
  exact ⟨⟨g, n⟩, rfl, l, State.leg?_eq_some.mpr ⟨j, hj, hn⟩, of_decide_eq_true hls, hlx⟩

/-- The leg of a job on a target, where no job has two. -/
theorem State.outcomesOk.legOn (ho : s.outcomesOk) (hl : s.leg? r = some l) (hx : l.target = x) : s.legOn r.job x = some r := by
  obtain ⟨j, hj, hjl⟩ := State.leg?_eq_some.mp hl
  have hsome : (j.legs.findIdx? fun m => decide (m.target = x)).isSome = true := by
    rw [List.findIdx?_isSome, List.any_eq_true]
    exact ⟨l, List.mem_of_getElem? hjl, by simpa using hx⟩
  obtain ⟨n, hn⟩ := Option.isSome_iff_exists.mp hsome
  have hon : s.legOn r.job x = some ⟨r.job, n⟩ := by
    unfold State.legOn
    rw [hj, Option.bind_some, hn]
    rfl
  obtain ⟨-, m, hm, hmx⟩ := legOn_spec hon
  rw [hon, ho.ref_unique hm hl rfl (hmx.trans hx.symm)]

/-- After all WRITING legs on a target have ended, only a job that has started since writes to it. -/
theorem State.opens.started (a : State.opens x s t) (ho : s.outcomesOk)
    (hend : ∀ r l, s.legOn r.job x = some r → s.leg? r = some l → l.state = .writing → ∃ m, t.leg? r = some m ∧ m.state ≠ .writing)
    {g : Fin 64} {j : Job} (hj : t.job? g = some j) (hx : x ∈ j.writingTargets) : s.startable g ∧ s.available x = true := by
  obtain ⟨r, rfl, hw⟩ := writesTo_of_targets hj hx
  rcases a.writes r hw with ⟨l, h1, h2, h3⟩ | e
  · obtain ⟨m, hm, hms⟩ := hend r l (ho.legOn h1 h3) h1 h2
    obtain ⟨m', hm', hs, -⟩ := hw
    rw [hm] at hm'
    cases hm'
    exact absurd hs hms
  · exact e

end Sys2Proof.Machine
end

