-- ==== Sys2Proof/Proofs/P38.lean ====
section
/-! A target's own part of the state (its link, its writer, its window, and its arbiter or C's transmitter) at the end of an event: only the
target's own issue of one write touches it, and only while its link is UP and nothing is being sent there (R131, R168). -/

namespace Sys2Proof.Machine

open Sys2Proof

variable {s t u : State} {x : Target}

/-- What decides whether a target may be sent a frame: its arbiter, or C's transmitter. -/
def State.sender (s : State) : Target → TargetArbiter ⊕ ControlPort
  | .drive d => .inl s.sides[d.val]
  | .sink => .inr s.control

/-- A frame is being sent. -/
def State.sending (s : State) : Target → Bool
  | .drive d => (s.sides[d.val]).granted
  | .sink => s.control.sending.isSome

theorem sending_congr (h : t.sender x = s.sender x) : t.sending x = s.sending x := by
  cases x with
  | drive d => exact congrArg TargetArbiter.granted (Sum.inl.inj h)
  | sink => exact congrArg (fun c : ControlPort => c.sending.isSome) (Sum.inr.inj h)

/-- A target's own part of the state. -/
def State.own (x : Target) (s : State) : LinkPort × Writer × Window × (TargetArbiter ⊕ ControlPort) :=
  (s.link (targetPort x), s.writer x, s.window x, s.sender x)

theorem targetPort_inj {x y : Target} (h : targetPort x = targetPort y) : x = y := by
  cases x <;> cases y <;> simp_all [targetPort]

theorem targetPort_ne_ingest (x : Target) (i : Fin 8) : Port.ingest i ≠ targetPort x := by
  cases x <;> simp [targetPort]

/-- A step that leaves links, writers, windows, sides and C. -/
theorem own_congr (hl : t.links = s.links) (hw : t.writers = s.writers) (hn : t.windows = s.windows) (hs : t.sides = s.sides)
    (hc : t.control = s.control) (x : Target) : t.own x = s.own x := by
  unfold State.own
  rw [State.link_congr hl, State.writer_congr hw, State.window_congr hn]
  cases x with
  | drive d =>
    unfold State.sender
    dsimp only
    rw [hs]
  | sink =>
    unfold State.sender
    dsimp only
    rw [hc]

theorem send_own {p : Port} (hp : p ≠ targetPort x) (s : State) (f : TxFrame) : (s.send p f).own x = s.own x := by
  have hl : (s.send p f).link (targetPort x) = s.link (targetPort x) := by
    unfold State.send
    rw [State.link_modLink, if_neg hp]
  unfold State.own
  rw [hl]
  cases x <;> rfl

theorem grant_own (s : State) (r : Requester) : (s.grant r).own x = s.own x := by
  cases r with
  | ingest i =>
    have h1 : (s.grantIngest i).own x = s.own x := by
      unfold State.grantIngest
      dsimp only
      split
      · split
        · rfl
        · exact (send_own (targetPort_ne_ingest x i) _ _).trans (own_congr rfl rfl rfl rfl rfl x)
      · rfl
    exact (own_congr rfl rfl rfl rfl rfl x).trans h1
  | verify d =>
    have h1 : (s.grantVerify d).own x = s.own x := by
      unfold State.grantVerify
      split
      · rfl
      · split <;> exact own_congr rfl rfl rfl rfl rfl x
    exact (own_congr rfl rfl rfl rfl rfl x).trans h1

theorem modWriter_own {y : Target} (hy : y ≠ x) (s : State) (g : Writer → Writer) : (s.modWriter y g).own x = s.own x := by
  have h1 : (s.modWriter y g).writer x = s.writer x := by rw [State.writer_modWriter, if_neg hy]
  unfold State.own
  rw [h1]
  cases x <;> rfl

theorem modWindow_own {y : Target} (hy : y ≠ x) (s : State) (g : Window → Window) : (s.modWindow y g).own x = s.own x := by
  have h1 : (s.modWindow y g).window x = s.window x := by rw [State.window_modWindow, if_neg hy]
  unfold State.own
  rw [h1]
  cases x <;> rfl

theorem putWrite_own {y : Target} (hy : y ≠ x) (s : State) (k : Fin 16) (w : TagWork) : (s.putWrite y k w).own x = s.own x := by
  unfold State.putWrite
  dsimp only
  rw [send_own fun e => hy (targetPort_inj e), modWindow_own hy, modWriter_own hy]

theorem issueWrite_own {y : Target} (hy : y ≠ x) (s : State) : (s.issueWrite y).own x = s.own x := by
  unfold State.issueWrite
  dsimp only
  split
  · split
    · rw [putWrite_own hy, modWriter_own hy]
    · rw [modWriter_own hy]
  · split
    · split
      · rw [putWrite_own hy]
        exact (own_congr rfl rfl rfl rfl rfl x).trans (modWriter_own hy s _)
      · rw [modWriter_own hy]
    · rfl

theorem putCheck_own {d : Fin 6} (hd : .drive d ≠ x) (s : State) (k : Fin 8) (w : TagWork) : (s.putCheck d k w).own x = s.own x := by
  unfold State.putCheck
  dsimp only
  exact (send_own (fun e => hd (targetPort_inj (x := .drive d) e)) _ _).trans (own_congr rfl rfl rfl rfl rfl x)

theorem issueCheck_own {d : Fin 6} (hd : .drive d ≠ x) (s : State) : (s.issueCheck d).own x = s.own x := by
  unfold State.issueCheck
  dsimp only
  split
  · split
    · exact (putCheck_own hd _ _ _).trans (own_congr rfl rfl rfl rfl rfl x)
    · exact own_congr rfl rfl rfl rfl rfl x
  · split
    · split
      · exact (putCheck_own hd _ _ _).trans (own_congr rfl rfl rfl rfl rfl x)
      · exact own_congr rfl rfl rfl rfl rfl x
    · rfl

theorem modSides_own {d : Fin 6} (hd : .drive d ≠ x) (s : State) (g : TargetArbiter → TargetArbiter) : (s.modSides d g).own x = s.own x := by
  unfold State.own State.sender
  cases x with
  | drive e =>
    have : (s.modSides d g).sides[e.val] = s.sides[e.val] := by
      rw [State.modSides_sides, setEntry_other _ _ _ _ fun h => hd (by rw [h])]
    dsimp only
    rw [this]
    rfl
  | sink => rfl

theorem arbitrate_own {d : Fin 6} (hd : .drive d ≠ x) (s : State) : (s.arbitrate d).own x = s.own x := by
  unfold State.arbitrate
  split
  · rfl
  · split
    · rfl
    · rw [issueWrite_own hd, modSides_own hd]
    · rw [issueCheck_own hd, modSides_own hd]

theorem modControl_own (hx : x ≠ .sink) (s : State) (g : ControlPort → ControlPort) : (s.modControl g).own x = s.own x := by
  cases x with
  | drive d => rfl
  | sink => exact absurd rfl hx

theorem transmit_own (hx : x ≠ .sink) (s : State) : s.transmit.own x = s.own x := by
  have hc : Port.control ≠ targetPort x := fun e => hx (targetPort_inj (x := .sink) e).symm
  unfold State.transmit
  split
  · split
    · rfl
    · next c _ =>
      rw [← modControl_own hx s fun q => { q with sending := some c, pointer := nextOf sources c }]
      generalize s.modControl (fun q => { q with sending := some c, pointer := nextOf sources c }) = v
      cases c with
      | response =>
        simp only [State.sendFrom]
        split
        · exact send_own hc _ _
        · rfl
      | notice =>
        simp only [State.sendFrom]
        split
        · exact send_own hc _ _
        · rfl
      | sink => exact issueWrite_own (Ne.symm hx) v
  · rfl

/-- The end of an event, up to its had-work flags. -/
def State.settled (s : State) : State :=
  (State.serveNew grantSteps (allDrives.foldl State.arbitrate (State.serveNew grantSteps (State.handOn grantSteps s)))).transmit

theorem settle_eq (s : State) : s.settle = s.settled.noteWork := rfl

/-- What grants, arbiters and transmitter keep. -/
theorem settled_inv (P : State → Prop) (ha : ∀ s g, P s → P (State.modArbiter s g)) (hg : ∀ s r, P s → P (State.grant s r))
    (hd : ∀ s d, P s → P (State.arbitrate s d)) (ht : ∀ s, P s → P (State.transmit s)) (h : P s) : P s.settled := by
  have hg' : ∀ s r, State.wants s r = true → State.freeSlots s ≠ 0 → P s → P (State.grant s r) := fun s r _ _ => hg s r
  unfold State.settled
  exact ht _ (serveNew_inv P ha hg' _ (foldl_inv P _ hd _ _ (serveNew_inv P ha hg' _ (handOn_inv P ha hg' _ h))))

theorem noteWork_links (s : State) : s.noteWork.links = s.links ∧ s.noteWork.writers = s.writers ∧ s.noteWork.sides = s.sides ∧
    s.noteWork.control = s.control := by
  have h : s.noteWork.links = s.links ∧ s.noteWork.writers = s.writers ∧ s.noteWork.sides = s.sides ∧ s.noteWork.control = s.control :=
    foldl_inv (fun t : State => t.links = s.links ∧ t.writers = s.writers ∧ t.sides = s.sides ∧ t.control = s.control)
      (fun u x => u.modWindow x fun w => { w with hadWork := w.hadWork || (u.writer x).hasWork }) (fun _ _ h => h) _ s ⟨rfl, rfl, rfl, rfl⟩
  exact h

/-- Announcing and relamping leave a target's own part. -/
theorem relamp_own (s : State) : s.announce.relamp.own x = s.own x := by
  have hk : ∀ u : State, ∀ g, (u.announceJob g).own x = u.own x := by
    intro u g
    rcases announceJob_cases u g with e | ⟨j, -, -, -, e⟩ <;> rw [e]
    exact own_congr rfl rfl rfl rfl rfl x
  have h1 : s.announce.own x = s.own x := foldl_keeps (State.own x) _ hk _ s
  obtain ⟨-, -, -, -, hl, -, -, -, -, -, -, -, hw, -, hs, hn, -, -, hc, -⟩ := relamp_fields s.announce
  exact (own_congr hl hw hn hs hc x).trans h1

/-- While C's link is DOWN the end of an event leaves C and T6 as they stand. -/
theorem close_sink (hl : s.linkUp .control = false) :
    s.close.link .control = s.link .control ∧ s.close.control = s.control ∧ s.close.writer .sink = s.writer .sink := by
  have hx : ∀ d : Fin 6, Target.drive d ≠ .sink := fun d => Target.noConfusion
  have h1 : (s.announce.relamp.settled).own .sink = s.own .sink := by
    refine settled_inv (fun u => u.own .sink = s.own .sink) (fun u g h => (own_congr rfl rfl rfl rfl rfl _).trans h)
      (fun u r h => (grant_own u r).trans h) (fun u d h => (arbitrate_own (hx d) u).trans h) (fun u h => ?_) (relamp_own s)
    have : u.linkUp .control = false := by
      rw [← hl]
      exact congrArg (fun p : LinkPort × _ => p.1.up) h
    unfold State.transmit
    rw [this]
    exact h
  obtain ⟨n1, n2, -, n4⟩ := noteWork_links s.announce.relamp.settled
  unfold State.own State.sender at h1
  simp only [Prod.mk.injEq] at h1
  obtain ⟨e1, e2, -, e4⟩ := h1
  rw [State.close, settle_eq]
  exact ⟨(State.link_congr n1 _).trans e1, n4.trans (Sum.inr.inj e4), (State.writer_congr n2 _).trans e2⟩

end Sys2Proof.Machine
end

