-- ==== Sys2Proof/Proofs/P39.lean ====
section
/-! C's link goes DOWN (R170): what C clears, and the port reset of T6 (R112). -/

namespace Sys2Proof.Machine

open Sys2Proof

variable {s t u v : State} {x : Target} {h : Fin 64}

/-! ## Notices -/

theorem Handler.hands.stand {q r : Handler} {l : List Notice} (a : q.hands l r) : q.notices <+: r.notices := by
  rw [a.1]
  exact List.prefix_append _ _

/-- A notice handed over to a queue with room keeps its place whatever joins behind it. -/
theorem nextNotice_of_notify {n : Notice} (a : ∃ l, (s.notify n).handler.hands l t.handler) :
    s.nextNotice t n ∧ s.handler.notices <+: t.handler.notices := by
  obtain ⟨l, a⟩ := a
  have hp := a.stand
  have hs : s.handler.notices <+: (s.notify n).handler.notices := by
    have := (notify_hands s n).1
    rw [this]
    exact List.prefix_append _ _
  refine ⟨fun hlt => ?_, hs.trans hp⟩
  have he : (s.notify n).handler.notices = s.handler.notices ++ [n] := by
    change (if s.handler.notices.length < Config.noticePlaces then _ else _ : Handler).notices = _
    rw [if_pos hlt]
  rw [he] at hp
  obtain ⟨m, hm⟩ := hp
  rw [← hm, List.append_assoc, List.getElem?_append_right (Nat.le_refl _), Nat.sub_self]
  rfl

theorem hands_of_handler {q : Handler} (hu : u.handler = q) (a : u.settlesTo t) : ∃ l, q.hands l t.handler := by
  obtain ⟨l, hl, -⟩ := a.notices
  exact ⟨l, hu ▸ hl⟩

/-! ## The loss of T6 -/

/-- The loss of a target's legs, as far as the jobs' tests. -/
def State.legsGone (s : State) (x : Target) : State :=
  (s.dropAll x .failed (some .lost) (s.jobsWithLeg x LegState.lostWithTarget)).cascade ((s.jobsWithLeg x LegState.lostWithTarget).map .test)

theorem legsGone_frame (s : State) (x : Target) : (s.legsGone x).cascadeFrame = s.cascadeFrame := by
  unfold State.legsGone State.dropAll
  rw [cascade_frame, foldl_keeps State.cascadeFrame _ fun s h => dropLeg_frame s h x _ _]

theorem legsGone_winds (s : State) (x : Target) : s.winds (s.legsGone x) :=
  (dropAll_winds s x _ _ _).trans (cascade_winds _ _)

theorem legsGone_opens (s : State) (x : Target) : State.opens x s (s.legsGone x) :=
  (dropAll_opens s x x LegState.noConfusion _ _).trans (cascade_opens _ _)

/-- Each leg lost with its target. -/
theorem legsGone_leg {r : LegRef} {l : Leg} (hr : s.legOn h x = some r) (hl : s.leg? r = some l) (hs : l.state.lostWithTarget = true) :
    s.legFailed (s.legsGone x) r .lost ∧
      (l.state = .writing → State.writesOut x h s (s.legsGone x) ∧ State.settleOut x h s (s.legsGone x)) := by
  have hm : h ∈ s.jobsWithLeg x LegState.lostWithTarget :=
    List.mem_filter.mpr ⟨mem_allHandles h, by rw [legOnIs_of hr hl]; exact hs⟩
  obtain ⟨h1, h2⟩ := dropAll_leg (y := .failed) rfl (some .lost) (jobsWithLeg_nodup s x _) hm hr hl hs
  have hw := cascade_winds (s.dropAll x .failed (some .lost) (s.jobsWithLeg x LegState.lostWithTarget))
    ((s.jobsWithLeg x LegState.lostWithTarget).map .test)
  exact ⟨h1.advances rfl (cascade_advances _ _), fun e => ⟨(h2 e).1.winds hw, (h2 e).2.winds hw⟩⟩

/-- A lost target that is not available is written to no more. -/
theorem legsGone_unwritten (ho : s.outcomesOk) (ha : s.available x = false) {g : Fin 64} {j : Job} (hj : (s.legsGone x).job? g = some j) :
    x ∉ j.writingTargets := by
  intro hx
  have := (legsGone_opens s x).started ho (fun r l hr hl hs => ?_) hj hx
  · rw [ha] at this
    exact absurd this.2 Bool.false_ne_true
  · obtain ⟨⟨m, hm, hms, -⟩, -⟩ := legsGone_leg hr hl (by rw [hs]; rfl)
    exact ⟨m, hm, by rw [hms]; decide⟩

theorem legOnIs_writing {g : Fin 64} (hg : s.legOnIs g x (fun z => decide (z = .writing)) = true) :
    ∃ r l, s.legOn g x = some r ∧ s.leg? r = some l ∧ l.state = .writing := by
  obtain ⟨r, l, hr, hl, ht⟩ := legOnIs_iff.mp hg
  exact ⟨r, l, hr, hl, of_decide_eq_true ht⟩

/-- The slots that were owed to a lost target. -/
theorem legsGone_slots (ho : s.outcomesOk) (ha : s.available x = false) (b : (s.legsGone x).issues t) :
    (∀ g, s.legOnIs g x (fun z => decide (z = .writing)) = true → State.slotsSettled x g s t) ∧
      (s.owedByWriting x → t.occupancy x = 0) := by
  have hgone : ∀ g, s.legOnIs g x (fun z => decide (z = .writing)) = true → State.settleOut x g s (s.legsGone x) := fun g hg => by
    obtain ⟨r, l, hr, hl, hs⟩ := legOnIs_writing hg
    exact ((legsGone_leg hr hl (by rw [hs]; rfl)).2 hs).2
  refine ⟨fun g hg => (hgone g hg).issues b fun j hj => legsGone_unwritten ho ha hj, fun hown => ?_⟩
  have hno := owed_back (P := fun _ => False) hown (legsGone_winds s x) hgone b fun g j hj hx => legsGone_unwritten ho ha hj hx
  unfold State.occupancy
  rw [List.length_eq_zero_iff, List.filter_eq_nil_iff]
  intro z hz hx
  exact hno z hz (by simpa using hx)

/-- T6 as its port reset leaves it, once its link is DOWN: its writer is empty and its legs are lost. -/
structure State.sinkLost (s t : State) : Prop where
  writer : (t.writer .sink).queue = [] ∧ (t.writer .sink).retry = [] ∧
    ∀ k : Fin 16, (t.writer .sink).tags[k.val] = ⟨.free, ((s.writer .sink).tags[k.val]).gen + 1, false⟩
  legs : s.legsLost .sink t
  notice : s.nextNotice t (.targetLost .sink (s.jobsWithLeg .sink LegState.lostWithTarget).length)
  notices : s.handler.notices <+: t.handler.notices
  slots : s.outcomesOk → (∀ g, s.legOnIs g .sink (fun z => decide (z = .writing)) = true → State.slotsSettled .sink g s t) ∧
    (s.owedByWriting .sink → t.occupancy .sink = 0)
  link : t.link .control = s.link .control
  control : t.control = s.control
  handler : t.handler.requests = s.handler.requests ∧ t.handler.taking = s.handler.taking

theorem targetPortReset_sink (s : State) : s.targetPortReset .sink true =
    (((s.modWriter .sink Writer.portReset).notify (.targetLost .sink (s.legsToLose .sink))).legsGone .sink).announce := rfl

theorem sink_reset (hl : s.linkUp .control = false) : s.sinkLost (s.targetPortReset .sink true).close := by
  rw [targetPortReset_sink]
  generalize hv : (s.modWriter .sink Writer.portReset).notify (.targetLost .sink (s.legsToLose .sink)) = v
  have hvj : v.jobs = s.jobs := by rw [← hv]; rfl
  have hvs : v.slots = s.slots := by rw [← hv]; rfl
  have hvr : v.readers = s.readers := by rw [← hv]; rfl
  have hvl : v.links = s.links := by rw [← hv]; rfl
  have hvc : v.control = s.control := by rw [← hv]; rfl
  have hvh : v.handler = (s.notify (.targetLost .sink (s.legsToLose .sink))).handler := by rw [← hv]; rfl
  have hvt : v.now = s.now := by rw [← hv]; rfl
  have hvw : v.writer .sink = Writer.portReset (s.writer .sink) := by rw [← hv]; exact writer_modWriter_same s .sink _
  have hjob : ∀ g, v.job? g = s.job? g := State.job?_congr hvj
  have hon : ∀ g test, v.legOnIs g .sink test = s.legOnIs g .sink test := fun g test => legOnIs_congr (hjob g) _ _
  have hfr := legsGone_frame v .sink
  simp only [State.cascadeFrame, Prod.mk.injEq] at hfr
  obtain ⟨-, -, -, -, hql, -, -, -, -, hqh, hqc, -⟩ := hfr
  have hav : v.available .sink = false := by
    rw [← hl]
    exact congrArg LinkPort.up (State.link_congr hvl .control)
  have hw := legsGone_winds v .sink
  have hiss := (announce_issues (v.legsGone .sink)).trans (close_issues (v.legsGone .sink).announce)
  have hset := hiss.settles
  obtain ⟨hcl, hcc, hcw⟩ := close_sink (s := (v.legsGone .sink).announce) (by
    have : (v.legsGone .sink).announce.links = (v.legsGone .sink).links := (announce_fields _).2.2.2.2.1
    unfold State.linkUp
    rw [State.link_congr (this.trans (hql.trans hvl))]
    exact hl)
  obtain ⟨-, -, -, -, hal, -, -, -, -, -, -, haw, -, -, -, -, -, hac, -⟩ := announce_fields (v.legsGone .sink)
  have hwt : ((v.legsGone .sink).announce.close).writer .sink = (v.legsGone .sink).writer .sink := by
    rw [hcw]
    exact State.writer_congr haw _
  refine
    { writer := ⟨?_, ?_, fun k => ?_⟩
      legs := fun g r l hr hl' hs => ?_
      notice := (nextNotice_of_notify (hands_of_handler (hqh.trans hvh) hset)).1
      notices := (nextNotice_of_notify (hands_of_handler (hqh.trans hvh) hset)).2
      slots := fun ho => ?_
      link := ?_
      control := ?_
      handler := ?_ }
  · rw [hwt]
    have := hw.queue .sink
    rw [hvw] at this
    exact List.subset_nil.mp this
  · rw [hwt]
    have := (hw.writes .sink).retry
    rw [hvw] at this
    exact List.subset_nil.mp this
  · rw [hwt]
    have hk : ((v.writer .sink).tags)[k.val] = ⟨.free, ((s.writer .sink).tags[k.val]).gen + 1, false⟩ := by
      rw [hvw]
      exact Vector.getElem_map _ _
    rcases (hw.writes .sink).tags k with e | ⟨_, _, e, -⟩ | ⟨_, e, -⟩
    · rw [e, hk]
    all_goals rw [hk] at e; cases e
  · obtain ⟨h1, -⟩ := legsGone_leg (s := v) ((legOn_congr (hjob g) _).trans hr) ((State.leg?_congr hvj r).trans hl') hs
    have h2 := State.legEndsIn.advances (c := some .lost) (y := .failed) h1 rfl ((announce_advances _).trans (close_advances _))
    unfold State.legEndsIn at h2
    rw [hvt] at h2
    exact h2
  · have hov : v.outcomesOk := (OutStep.of_same (l := []) ho hvj fun e => by rw [hvr]).outcomes
    obtain ⟨h1, h2⟩ := legsGone_slots hov hav hiss
    refine ⟨fun g hg => (h1 g (by rw [hon]; exact hg)).of_base hvs, fun hown => h2 fun y hy hx => ?_⟩
    rw [hon]
    exact hown y (by rw [← hvs]; exact hy) hx
  · rw [hcl]
    exact State.link_congr (hal.trans (hql.trans hvl)) _
  · exact hcc.trans (hac.trans (hqc.trans hvc))
  · have h1 : v.handler.requests = s.handler.requests ∧ v.handler.taking = s.handler.taking := by
      rw [hvh]
      unfold State.notify State.modHandler
      dsimp only
      split <;> exact ⟨rfl, rfl⟩
    exact ⟨hset.handler.1.trans ((congrArg Handler.requests hqh).trans h1.1), hset.handler.2.trans ((congrArg Handler.taking hqh).trans h1.2)⟩

theorem exec_linkDown {p : Port} (hr : s.resetN = true) (hl : s.linkUp p = true) : exec (.linkDown p) s = .next (linkDownEffect p s) := by
  simp only [exec, execLinkDown]
  exact event_enabled hr hl

/-- C as its link's loss leaves it, before T6's port reset. -/
def State.controlDown (s : State) : State :=
  (s.modLink .control fun l => { l with up := false, tx := [] }).cleanControl

theorem controlDown_link (s : State) : s.controlDown.link .control = { s.link .control with up := false, tx := [] } := by
  change (s.modLink .control fun l => { l with up := false, tx := [] }).link .control = _
  rw [State.link_modLink, if_pos rfl]

theorem linkDownEffect_control (hl : s.linkUp .control = true) (ht : s.handler.taking = false) :
    linkDownEffect .control s = (s.controlDown.targetPortReset .sink true).close := by
  unfold linkDownEffect
  dsimp only
  rw [ht, if_neg Bool.false_ne_true, show s.available .sink = true from hl]
  rfl

/-- Settles O30: C's clean-up, then T6's port reset; or the full reset. -/
theorem controlLinkDownCleansUp : Obligations.ControlLinkDownCleansUp := by
  intro s hr hl
  refine ⟨fun ht => ⟨_, exec_linkDown hr hl, ?_⟩, fun ht => ?_⟩
  · have hadv : s.advancesTo (linkDownEffect .control s) := by
      refine exec_advances (c := .linkDown .control) (fun e => by cases e) ?_ (exec_linkDown hr hl)
      rintro (e | e | ⟨e, -⟩)
      · cases e
      · cases e
      · rw [ht] at e
        cases e
    rw [linkDownEffect_control hl ht] at hadv ⊢
    have hd := controlDown_link s
    have a := sink_reset (s := s.controlDown) (by
      change (s.controlDown.link .control).up = false
      rw [hd])
    revert a hadv
    generalize (s.controlDown.targetPortReset .sink true).close = t
    intro hadv a
    obtain ⟨hq, hre, htags⟩ := a.writer
    have hlink := a.link.trans hd
    refine ⟨congrArg LinkPort.up hlink, congrArg LinkPort.tx hlink, a.control, a.handler.1, a.handler.2.trans ht, a.notices, hq, hre, htags,
      a.legs, a.notice, fun ho => ?_, hadv⟩
    obtain ⟨h1, h2⟩ := a.slots ho
    exact ⟨fun h hh => (h1 h hh).of_base rfl, h2⟩
  · rw [exec_linkDown hr hl]
    unfold linkDownEffect
    dsimp only
    rw [if_pos ht, State.fullReset, hr]
    rfl

end Sys2Proof.Machine
end

