-- ==== Sys2Proof/Proofs/P40.lean ====
section
/-! A target's window at the end of an event: at most one write is issued to the target, and only while its link is UP and nothing is being sent
there (R131, R141); the had-work flag is set while the target has writes to do (R143). -/

namespace Sys2Proof.Machine

open Sys2Proof

variable {s t u : State} {x : Target}

/-! ## The had-work flag -/

/-- A window whose had-work flag has followed its writer. -/
def Window.noted (v : Window) (w : Writer) : Window :=
  { v with hadWork := v.hadWork || w.hasWork }

theorem Window.noted_issued (v : Window) (w : Writer) : (v.noted w).issued = v.issued := rfl

theorem noteWork_window (s : State) (x : Target) : s.noteWork.window x = (s.window x).noted (s.writer x) := by
  have h : ∀ (l : List Target) (u : State), u.writers = s.writers →
      (u.window x = s.window x ∨ u.window x = (s.window x).noted (s.writer x)) →
      (l.foldl (fun s t => s.modWindow t fun w => { w with hadWork := w.hadWork || (s.writer t).hasWork }) u).window x =
        if x ∈ l then (s.window x).noted (s.writer x) else u.window x := by
    intro l
    induction l with
    | nil => exact fun _ _ _ => rfl
    | cons y rest ih =>
      intro u hu hw
      rw [List.foldl_cons]
      have hstep : (u.modWindow y fun w => { w with hadWork := w.hadWork || (u.writer y).hasWork }).window x =
          if y = x then (s.window x).noted (s.writer x) else u.window x := by
        rw [State.window_modWindow]
        split
        · next e =>
          subst e
          rw [State.writer_congr hu]
          rcases hw with hw | hw <;> rw [hw] <;> simp [Window.noted]
        · rfl
      rw [ih (u.modWindow y fun w => { w with hadWork := w.hadWork || (u.writer y).hasWork }) hu
        (by rw [hstep]; split; exact .inr rfl; exact hw), hstep]
      by_cases e : y = x
      · simp [e]
      · simp [e, Ne.symm e]
  have := h allTargets s rfl (.inl rfl)
  rw [if_pos (mem_allTargets x)] at this
  exact this

theorem Writer.hasWork_iff (w : Writer) : w.hasWork = true ↔ w.toDo := by
  have hbusy : (w.tags.toList.any BlockTag.busy) = true ↔
      ∃ k : Fin 16, (∃ v issued, (w.tags[k.val]).state = .sent v issued) ∨ ∃ v, (w.tags[k.val]).state = .waiting v := by
    rw [List.any_eq_true]
    have hone : ∀ g : BlockTag, g.busy = true ↔ (∃ v issued, g.state = .sent v issued) ∨ ∃ v, g.state = .waiting v := by
      intro g
      unfold BlockTag.busy
      cases g.state <;> simp
    constructor
    · rintro ⟨g, hg, hb⟩
      obtain ⟨n, hn, rfl⟩ := List.getElem_of_mem hg
      rw [Vector.length_toList] at hn
      exact ⟨⟨n, hn⟩, (hone _).mp (by simpa using hb)⟩
    · rintro ⟨k, hk⟩
      exact ⟨w.tags[k.val], by simp, (hone _).mpr hk⟩
  unfold Writer.hasWork Writer.toDo
  rw [Bool.or_eq_true, Bool.or_eq_true, hbusy, or_assoc]
  simp

/-! ## Issues -/

/-- A window with some count of writes issued: as it stood, or one higher. -/
def Window.issuesOne (w v : Window) : Prop :=
  v = w ∨ v = { w with issued := countUp w.issued }

theorem putWrite_window (s : State) (x : Target) (k : Fin 16) (w : TagWork) :
    (s.putWrite x k w).window x = { s.window x with issued := countUp (s.window x).issued } := by
  unfold State.putWrite
  dsimp only
  change (((s.modWriter x _).modWindow x fun q => { q with issued := countUp q.issued }).window x) = _
  rw [State.window_modWindow, if_pos rfl]
  rfl

theorem issueWrite_window (s : State) (x : Target) : (s.window x).issuesOne ((s.issueWrite x).window x) := by
  unfold State.issueWrite
  dsimp only
  split
  · split
    · exact .inr (putWrite_window _ x _ _)
    · exact .inl rfl
  · split
    · split
      · exact .inr (putWrite_window _ x _ _)
      · exact .inl rfl
    · exact .inl rfl

theorem link_send_up (s : State) (p q : Port) (f : TxFrame) : (s.send p f).linkUp q = s.linkUp q := by
  unfold State.linkUp State.send
  rw [State.link_modLink]
  split
  · next e => subst e; rfl
  · rfl

/-- An issue of a write leaves every link UP or DOWN, and what decides who sends. -/
theorem issueWrite_sender (s : State) (x : Target) :
    (∀ q, (s.issueWrite x).linkUp q = s.linkUp q) ∧ (s.issueWrite x).sides = s.sides ∧ (s.issueWrite x).control = s.control :=
  issueWrite_inv (fun t : State => (∀ q, t.linkUp q = s.linkUp q) ∧ t.sides = s.sides ∧ t.control = s.control)
    (fun _ _ _ h => h) (fun _ _ _ h => h) (fun t p f h => ⟨fun q => (link_send_up t p q f).trans (h.1 q), h.2⟩) (fun _ _ h => h) x
    ⟨fun _ => rfl, rfl, rfl⟩

theorem issueCheck_sender (s : State) (d : Fin 6) :
    (∀ q, (s.issueCheck d).linkUp q = s.linkUp q) ∧ (s.issueCheck d).sides = s.sides ∧ (s.issueCheck d).control = s.control ∧
      (s.issueCheck d).windows = s.windows :=
  issueCheck_inv (fun t : State => (∀ q, t.linkUp q = s.linkUp q) ∧ t.sides = s.sides ∧ t.control = s.control ∧ t.windows = s.windows)
    (fun _ _ _ _ h => h) (fun t p f h => ⟨fun q => (link_send_up t p q f).trans (h.1 q), h.2⟩) (fun _ _ h => h) d
    ⟨fun _ => rfl, rfl, rfl, rfl⟩

/-- What the end of an event does to a target's window, up to its had-work flag. -/
structure State.issuesAtMostOne (x : Target) (s t : State) : Prop where
  up : t.linkUp (targetPort x) = s.linkUp (targetPort x)
  busy : s.sending x = true → t.sending x = true
  window : t.window x = s.window x ∨ (t.window x = { s.window x with issued := countUp (s.window x).issued } ∧
    s.linkUp (targetPort x) = true ∧ s.sending x = false ∧ t.sending x = true)

theorem State.issuesAtMostOne.of_own (a : State.issuesAtMostOne x s t) (h : u.own x = t.own x) : State.issuesAtMostOne x s u := by
  unfold State.own at h
  simp only [Prod.mk.injEq] at h
  obtain ⟨h1, -, h3, h4⟩ := h
  have hs := sending_congr h4
  exact ⟨(congrArg LinkPort.up h1).trans a.up, fun e => hs.trans (a.busy e), by rw [h3, hs]; exact a.window⟩

/-- A step by which the target begins to send. -/
theorem State.issuesAtMostOne.sends (a : State.issuesAtMostOne x s t) (ht : t.sending x = false) (hl : t.linkUp (targetPort x) = true)
    (hup : u.linkUp (targetPort x) = t.linkUp (targetPort x)) (hb : u.sending x = true) (hw : (t.window x).issuesOne (u.window x)) :
    State.issuesAtMostOne x s u := by
  have hs : s.sending x = false := by
    by_contra e
    have := a.busy (by simpa using e)
    rw [ht] at this
    cases this
  have hwin : t.window x = s.window x := a.window.resolve_right fun e => by
    rw [ht] at e
    cases e.2.2.2
  refine ⟨hup.trans a.up, fun _ => hb, ?_⟩
  rw [← hwin]
  exact hw.imp id fun e => ⟨e, a.up ▸ hl, hs, hb⟩

theorem charge_granted (a : TargetArbiter) (y : Side) : (a.charge y).granted = true := by
  unfold TargetArbiter.charge
  split
  · split <;> rfl
  · rfl

theorem choice_write {a : TargetArbiter} {w c : Bool} (h : a.choice w c = some .write) : w = true := by
  unfold TargetArbiter.choice at h
  split at h <;> simp_all

theorem choice_check {a : TargetArbiter} {w c : Bool} (h : a.choice w c = some .check) : c = true := by
  unfold TargetArbiter.choice at h
  split at h <;> simp_all

theorem writeEligible_up (h : t.writeEligible x = true) : t.linkUp (targetPort x) = true := by
  unfold State.writeEligible at h
  simp only [Bool.and_eq_true] at h
  exact h.1.1

theorem checkEligible_up {d : Fin 6} (h : t.checkEligible d = true) : t.linkUp (.drive d) = true := by
  unfold State.checkEligible at h
  exact (Bool.and_eq_true_iff.mp h).1

theorem arbitrate_issuesAtMostOne (a : State.issuesAtMostOne x s t) (d : Fin 6) : State.issuesAtMostOne x s (t.arbitrate d) := by
  by_cases hd : Target.drive d = x
  · subst hd
    have hgr : ∀ y, ((t.modSides d fun a => a.charge y).sides[d.val]).granted = true := fun y => by
      rw [State.modSides_sides, setEntry_same]
      exact charge_granted _ y
    unfold State.arbitrate
    split
    · exact a
    · next hg =>
      have hg : t.sending (.drive d) = false := by simpa [State.sending] using hg
      split
      · exact a
      · next hc =>
        obtain ⟨h1, h2, -⟩ := issueWrite_sender (t.modSides d fun a => a.charge .write) (.drive d)
        exact a.sends hg (writeEligible_up (choice_write hc)) (h1 _) (by unfold State.sending; dsimp only; rw [h2]; exact hgr _)
          (issueWrite_window (t.modSides d fun a => a.charge .write) (.drive d))
      · next hc =>
        obtain ⟨h1, h2, -, h4⟩ := issueCheck_sender (t.modSides d fun a => a.charge .check) d
        exact a.sends hg (checkEligible_up (choice_check hc)) (h1 _) (by unfold State.sending; dsimp only; rw [h2]; exact hgr _)
          (.inl (State.window_congr h4 _))
  · exact a.of_own (arbitrate_own hd t)

theorem transmit_issuesAtMostOne (a : State.issuesAtMostOne x s t) : State.issuesAtMostOne x s t.transmit := by
  by_cases hx : x = .sink
  · subst hx
    unfold State.transmit
    split
    · next hc =>
      obtain ⟨hl, hn⟩ := Bool.and_eq_true_iff.mp hc
      split
      · exact a
      · next c _ =>
        have hfree : t.sending .sink = false := by
          unfold State.sending
          dsimp only
          rw [Option.isSome_eq_false_iff]
          exact hn
        have hs : State.sending (t.modControl fun q => { q with sending := some c, pointer := nextOf sources c }) .sink = true := rfl
        have hup : (t.modControl fun q => { q with sending := some c, pointer := nextOf sources c }).linkUp .control = t.linkUp .control := rfl
        have hw : (t.modControl fun q => { q with sending := some c, pointer := nextOf sources c }).window .sink = t.window .sink := rfl
        revert hs hup hw
        generalize (t.modControl fun q => { q with sending := some c, pointer := nextOf sources c }) = v
        intro hs hup hw
        refine a.sends hfree hl ?_ ?_ ?_
        · cases c with
          | response =>
            simp only [State.sendFrom]
            split
            · exact (link_send_up _ _ _ _).trans hup
            · exact hup
          | notice =>
            simp only [State.sendFrom]
            split
            · exact (link_send_up _ _ _ _).trans hup
            · exact hup
          | sink => exact ((issueWrite_sender v .sink).1 _).trans hup
        · cases c with
          | response => simp only [State.sendFrom]; split <;> exact hs
          | notice => simp only [State.sendFrom]; split <;> exact hs
          | sink =>
            unfold State.sending
            dsimp only [State.sendFrom]
            rw [(issueWrite_sender v .sink).2.2]
            exact hs
        · cases c with
          | response => simp only [State.sendFrom]; split <;> exact .inl hw
          | notice => simp only [State.sendFrom]; split <;> exact .inl hw
          | sink => rw [← hw]; exact issueWrite_window v .sink
    · exact a
  · exact a.of_own (transmit_own hx t)

theorem settled_issuesAtMostOne (s : State) (x : Target) : State.issuesAtMostOne x s s.settled :=
  settled_inv (fun u => State.issuesAtMostOne x s u) (fun _ _ h => h.of_own (own_congr rfl rfl rfl rfl rfl x))
    (fun u r h => h.of_own (grant_own u r)) (fun _ d h => arbitrate_issuesAtMostOne h d) (fun _ h => transmit_issuesAtMostOne h)
    ⟨rfl, id, .inl rfl⟩

/-- A window that is reloaded before the end of an event. -/
theorem close_window (s : State) (x : Target) (hi : (s.window x).issued = 0) (hw : (s.window x).hadWork = false) :
    (s.close.window x).issued ≤ 1 ∧ ((s.close.window x).hadWork = true ↔ (s.close.writer x).toDo) ∧
      (s.linkUp (targetPort x) = false ∨ s.sending x = true → (s.close.window x).issued = 0) := by
  have a := settled_issuesAtMostOne s.announce.relamp x
  have h := relamp_own (x := x) s
  unfold State.own at h
  simp only [Prod.mk.injEq] at h
  obtain ⟨h1, -, h3, h4⟩ := h
  have hs : s.announce.relamp.sending x = s.sending x := sending_congr h4
  have hup : s.announce.relamp.linkUp (targetPort x) = s.linkUp (targetPort x) := congrArg LinkPort.up h1
  have hclose : s.close = s.announce.relamp.settled.noteWork := rfl
  have hwriter : s.close.writer x = s.announce.relamp.settled.writer x := by
    rw [hclose]
    exact State.writer_congr (noteWork_links _).2.1 x
  have hwindow : s.close.window x = (s.announce.relamp.settled.window x).noted (s.close.writer x) := by
    rw [hwriter, hclose]
    exact noteWork_window _ x
  have hhad : (s.announce.relamp.settled.window x).hadWork = false := by
    rcases a.window with e | ⟨e, -⟩ <;> rw [e, h3] <;> exact hw
  have hiss : (s.close.window x).issued = (s.announce.relamp.settled.window x).issued :=
    (congrArg Window.issued hwindow).trans (Window.noted_issued _ _)
  refine ⟨?_, ?_, fun hc => ?_⟩
  · rw [hiss]
    rcases a.window with e | ⟨e, -⟩ <;> rw [e, h3]
    · rw [hi]
      exact Nat.zero_le 1
    · dsimp only
      rw [hi]
      exact Nat.min_le_left _ _
  · rw [hwindow, ← Writer.hasWork_iff]
    unfold Window.noted
    rw [hhad, Bool.false_or]
  · rw [hiss]
    rcases a.window with e | ⟨-, e1, e2, -⟩
    · rw [e, h3, hi]
    · rw [hup] at e1
      rw [hs] at e2
      rcases hc with hc | hc
      · rw [hc] at e1
        cases e1
      · rw [hc] at e2
        cases e2

end Sys2Proof.Machine
end

