-- ==== Sys2Proof/Proofs/P41.lean ====
section
/-! A window ends (R144): rate, stall, SLOW and its notice, shedding, and the reload. -/

namespace Sys2Proof.Machine

open Sys2Proof

variable {s t u v : State} {x : Target} {h : Fin 64}

theorem exec_windowEnd (hr : s.resetN = true) (hd : (s.window x).endDue = true) : exec (.windowEnd x) s = .next (windowEndEffect x s) := by
  simp only [exec, execWindowEnd]
  exact event_enabled hr hd

/-! ## Steps 1 to 3 -/

/-- A target's window judged, with the notice of its SLOW (R145, R146). -/
def State.judged (s : State) (x : Target) : State :=
  (s.modWindow x Window.judge).notifyIf (slowNotice x (s.window x) (s.window x).judge)

/-- The same with a notice that is handed over. -/
theorem judged_eq (s : State) (x : Target) : s.judged x =
    (if (s.window x).slow = (s.window x).judge.slow then s
      else s.notify (if (s.window x).judge.slow then .targetSlow x (s.window x).judge.streak (s.window x).judge.rate
        else .targetRecovered x (s.window x).judge.rate)).modWindow x Window.judge := by
  unfold State.judged slowNotice
  cases (s.window x).slow <;> cases (s.window x).judge.slow <;> rfl

/-- A state that differs in windows and notices only. -/
structure State.sameBut (s t : State) : Prop where
  jobs : t.jobs = s.jobs
  slots : t.slots = s.slots
  writers : t.writers = s.writers
  readers : t.readers = s.readers
  sides : t.sides = s.sides
  links : t.links = s.links
  control : t.control = s.control
  drives : t.drives = s.drives
  now : t.now = s.now

theorem State.sameBut.trans (a : s.sameBut t) (b : t.sameBut u) : s.sameBut u :=
  ⟨b.jobs.trans a.jobs, b.slots.trans a.slots, b.writers.trans a.writers, b.readers.trans a.readers, b.sides.trans a.sides,
    b.links.trans a.links, b.control.trans a.control, b.drives.trans a.drives, b.now.trans a.now⟩

theorem judged_sameBut (s : State) (x : Target) : s.sameBut (s.judged x) := by
  unfold State.judged State.notifyIf
  split <;> exact ⟨rfl, rfl, rfl, rfl, rfl, rfl, rfl, rfl, rfl⟩

theorem judged_window (s : State) (x : Target) : (s.judged x).window x = (s.window x).judge := by
  have h : ((s.modWindow x Window.judge).window x) = (s.window x).judge := by rw [State.window_modWindow, if_pos rfl]
  unfold State.judged State.notifyIf
  split <;> exact h

/-! ## Step 4 -/

/-- A target shed, before its window's reload. -/
def State.shedding (s : State) (x : Target) : State :=
  (s.modWindow x fun w => { w with streak := 0 }).notify (.shed x (s.jobsWithLeg x fun y => decide (y = .writing)).length)

theorem shed_eq (s : State) (x : Target) : s.shed x =
    ((s.shedding x).dropAll x .deferred none (s.jobsWithLeg x fun y => decide (y = .writing))).cascade
      ((s.jobsWithLeg x fun y => decide (y = .writing)).map .test) := rfl

theorem shedding_sameBut (s : State) (x : Target) : s.sameBut (s.shedding x) :=
  ⟨rfl, rfl, rfl, rfl, rfl, rfl, rfl, rfl, rfl⟩

theorem State.sameBut.jobsWithLeg (a : s.sameBut t) (x : Target) (test : LegState → Bool) : t.jobsWithLeg x test = s.jobsWithLeg x test :=
  List.filter_congr fun g _ => legOnIs_congr (State.job?_congr a.jobs g) x test

theorem shed_frame (s : State) (x : Target) : (s.shed x).cascadeFrame = (s.shedding x).cascadeFrame := by
  rw [shed_eq, cascade_frame]
  exact foldl_keeps State.cascadeFrame _ (fun s h => dropLeg_frame s h x _ _) _ _

theorem shed_winds (s : State) (x : Target) : (s.shedding x).winds (s.shed x) :=
  (dropAll_winds _ x _ _ _).trans (cascade_winds _ _)

theorem shed_opens (s : State) (x : Target) : State.opens x (s.shedding x) (s.shed x) :=
  (dropAll_opens _ x x LegState.noConfusion _ _).trans (cascade_opens _ _)

/-- Each leg deferred at a shedding. -/
theorem shed_leg {r : LegRef} {l : Leg} (hr : s.legOn h x = some r) (hl : s.leg? r = some l) (hs : l.state = .writing) :
    (s.shedding x).legEndsIn (s.shed x) r .deferred none ∧ State.writesOut x h (s.shedding x) (s.shed x) ∧
      State.settleOut x h (s.shedding x) (s.shed x) := by
  have hm : h ∈ s.jobsWithLeg x fun y => decide (y = .writing) :=
    List.mem_filter.mpr ⟨mem_allHandles h, by rw [legOnIs_of hr hl, hs]; rfl⟩
  have hb := shedding_sameBut s x
  obtain ⟨h1, h2⟩ := dropAll_leg (s := s.shedding x) (y := .deferred) rfl none (jobsWithLeg_nodup s x _) hm
    ((legOn_congr (State.job?_congr hb.jobs h) x).trans hr) ((State.leg?_congr hb.jobs r).trans hl) (by rw [hs]; rfl)
  have hw := cascade_winds ((s.shedding x).dropAll x .deferred none (s.jobsWithLeg x fun y => decide (y = .writing)))
    ((s.jobsWithLeg x fun y => decide (y = .writing)).map .test)
  exact ⟨h1.advances rfl (cascade_advances _ _), (h2 hs).1.winds hw, (h2 hs).2.winds hw⟩

/-- After a shedding only a job that was LOADED before it writes to the target. -/
theorem shed_started (ho : s.outcomesOk) {g : Fin 64} {j : Job} (hj : (s.shed x).job? g = some j) (hx : x ∈ j.writingTargets) :
    s.startable g := by
  have hb := shedding_sameBut s x
  have hov : (s.shedding x).outcomesOk := (OutStep.of_same (l := []) ho hb.jobs fun e => by rw [hb.readers]).outcomes
  obtain ⟨⟨q, hq, hs⟩, -⟩ := (shed_opens s x).started hov (fun r l hr hl hs => by
    obtain ⟨⟨m, hm, hms, -⟩, -⟩ := shed_leg (s := s) ((legOn_congr (State.job?_congr hb.jobs _) x).symm.trans hr)
      ((State.leg?_congr hb.jobs r).symm.trans hl) hs
    exact ⟨m, hm, by rw [hms]; decide⟩) hj hx
  exact ⟨q, (State.job?_congr hb.jobs g).symm.trans hq, hs⟩

/-- A LOADED job writes to no target. -/
theorem State.outcomesOk.not_startable (ho : s.outcomesOk) (hg : s.legOnIs h x (fun z => decide (z = .writing)) = true) : ¬ s.startable h := by
  rintro ⟨j, hj, hs⟩
  obtain ⟨r, l, hr, hl, hw⟩ := legOnIs_writing hg
  obtain ⟨q, hq, hql⟩ := State.leg?_eq_some.mp hl
  rw [(legOn_spec hr).1, hj] at hq
  cases hq
  have := (ho.1 h j hj).2.1 hs l (List.mem_of_getElem? hql)
  rw [hw] at this
  cases this

/-- What a shedding withdraws, once the window is reloaded and the event is over. -/
theorem shed_slots (ho : s.outcomesOk) (b : ((s.shed x).modWindow x Window.reload).issues t) :
    (∀ g ∈ s.jobsWithLeg x (fun y => decide (y = .writing)), State.writesWithdrawn x g s t ∧ State.slotsSettled x g s t) ∧
      (s.owedByWriting x → ∀ y ∈ t.slots, x ∈ y.owed → s.startable y.job) := by
  have hb := shedding_sameBut s x
  have hre : (s.shed x).winds ((s.shed x).modWindow x Window.reload) := .of_rest (fun _ => id) rfl rfl rfl rfl rfl rfl
  have hgone : ∀ g, s.legOnIs g x (fun z => decide (z = .writing)) = true →
      State.writesOut x g (s.shedding x) ((s.shed x).modWindow x Window.reload) ∧
        State.settleOut x g (s.shedding x) ((s.shed x).modWindow x Window.reload) := fun g hg => by
    obtain ⟨r, l, hr, hl, hs⟩ := legOnIs_writing hg
    obtain ⟨-, h1, h2⟩ := shed_leg hr hl hs
    exact ⟨h1.winds hre, h2.winds hre⟩
  refine ⟨fun g hg => ?_, fun hown => ?_⟩
  · have hg := (List.mem_filter.mp hg).2
    obtain ⟨h1, h2⟩ := hgone g hg
    have hw := h1.issues b
    refine ⟨⟨hw.queue, ?_⟩, (h2.issues b fun j hj hx => ho.not_startable hg (shed_started ho hj hx)).of_base hb.slots⟩
    rw [← State.writer_congr hb.writers]
    exact hw.tags
  · have hon : ∀ g, (s.shedding x).legOnIs g x (fun z => decide (z = .writing)) = s.legOnIs g x (fun z => decide (z = .writing)) :=
      fun g => legOnIs_congr (State.job?_congr hb.jobs g) _ _
    exact owed_back (s := s.shedding x) (fun y hy hx => by rw [hon]; exact hown y hy hx) ((shed_winds s x).trans hre)
      (fun g hg => (hgone g (by rw [← hon]; exact hg)).2) b fun g j hj hx => shed_started ho hj hx

/-! ## The end -/

/-- A target's window reloaded, before the rest of the event (R149). -/
def State.reloaded (s : State) (x : Target) : State :=
  (if (s.judged x).shedsNow x then (s.judged x).shed x else s.judged x).modWindow x Window.reload

theorem windowEndEffect_eq (x : Target) (s : State) : windowEndEffect x s = (s.reloaded x).close := rfl

/-- The window that a judged one is at its end: shed or not. -/
def Window.ending (w : Window) (sheds : Bool) : Window :=
  { w.judge with streak := if sheds then 0 else w.judge.streak }

/-- The target is shed at this window's end (R148). -/
def State.sheds (s : State) (x : Target) : Bool :=
  decide ((s.writer x).policy = .shed) && decide ((s.window x).effective.stallLimit ≤ (s.window x).judge.streak)

theorem shedsNow_judged (s : State) (x : Target) : (s.judged x).shedsNow x = s.sheds x := by
  unfold State.shedsNow State.sheds
  rw [judged_window, State.writer_congr (judged_sameBut s x).writers]
  rfl

theorem frame_windows (e : t.cascadeFrame = s.cascadeFrame) : t.windows = s.windows ∧ t.links = s.links ∧ t.sides = s.sides ∧
    t.control = s.control ∧ t.handler = s.handler := by
  simp only [State.cascadeFrame, Prod.mk.injEq] at e
  obtain ⟨-, -, -, -, hl, hs, hw, -, -, hh, hc, -⟩ := e
  exact ⟨hw, hl, hs, hc, hh⟩

theorem reloaded_window (s : State) (x : Target) : (s.reloaded x).window x = ((s.window x).ending (s.sheds x)).reload := by
  unfold State.reloaded
  rw [State.window_modWindow, if_pos rfl, shedsNow_judged]
  cases hs : s.sheds x with
  | false =>
    rw [if_neg Bool.false_ne_true, judged_window]
    rfl
  | true =>
    rw [if_pos rfl, State.window_congr (frame_windows (shed_frame (s.judged x) x)).1 x]
    have : ((s.judged x).shedding x).window x = { (s.judged x).window x with streak := 0 } := by
      change ((s.judged x).modWindow x _).window x = _
      rw [State.window_modWindow, if_pos rfl]
    rw [this, judged_window]
    rfl

/-- A window end leaves the target's link and sender as they stand until the writes at its end. -/
theorem reloaded_sender (s : State) (x : Target) :
    (s.reloaded x).links = s.links ∧ (s.reloaded x).sides = s.sides ∧ (s.reloaded x).control = s.control := by
  have hb := judged_sameBut s x
  unfold State.reloaded
  split
  · obtain ⟨-, h1, h2, h3, -⟩ := frame_windows (shed_frame (s.judged x) x)
    exact ⟨h1.trans hb.links, h2.trans hb.sides, h3.trans hb.control⟩
  · exact ⟨hb.links, hb.sides, hb.control⟩

theorem reloaded_sending (s : State) (x : Target) : (s.reloaded x).sending x = s.sending x := by
  obtain ⟨-, h2, h3⟩ := reloaded_sender s x
  cases x with
  | drive d => exact congrArg (fun v : Vector TargetArbiter 6 => (v[d.val]).granted) h2
  | sink => exact congrArg (fun c : ControlPort => c.sending.isSome) h3

theorem reloaded_of_sheds (hs : s.sheds x = true) : s.reloaded x = ((s.judged x).shed x).modWindow x Window.reload := by
  unfold State.reloaded
  rw [shedsNow_judged, if_pos hs]

/-- The queue of notices at the end of a shedding window. -/
theorem shed_handler (hs : s.sheds x = true) : (s.reloaded x).handler =
    ((s.judged x).notify (.shed x (s.jobsWithLeg x fun y => decide (y = .writing)).length)).handler := by
  rw [reloaded_of_sheds hs]
  change ((s.judged x).shed x).handler = _
  rw [(frame_windows (shed_frame (s.judged x) x)).2.2.2.2, ← (judged_sameBut s x).jobsWithLeg]
  rfl

/-- The notices that a window end hands over: that of SLOW, and that of a shedding, in this order. -/
theorem reloaded_notices (s : State) (x : Target) :
    ∃ l, (s.judged x).handler.hands l (s.reloaded x).close.handler := by
  obtain ⟨l, hl, -⟩ := (close_settles (s.reloaded x)).notices
  cases hs : s.sheds x with
  | false =>
    refine ⟨l, ?_⟩
    have : (s.reloaded x).handler = (s.judged x).handler := by
      unfold State.reloaded
      rw [shedsNow_judged, hs, if_neg Bool.false_ne_true]
      rfl
    rw [← this]
    exact hl
  | true =>
    rw [shed_handler hs] at hl
    exact ⟨_, (notify_hands _ _).append hl⟩

/-- The handler once a changed SLOW has been told. -/
theorem judged_handler (hs : (s.window x).slow ≠ (s.window x).judge.slow) :
    (s.judged x).handler = (s.notify (if (s.window x).judge.slow then .targetSlow x (s.window x).judge.streak (s.window x).judge.rate
      else .targetRecovered x (s.window x).judge.rate)).handler := by
  rw [judged_eq, if_neg hs]
  rfl

/-! ## The window's jobs and slots -/

theorem reloaded_leg {r : LegRef} {l : Leg} (hs : s.sheds x = true) (hr : s.legOn h x = some r) (hl : s.leg? r = some l)
    (hw : l.state = .writing) : s.legEndsIn (s.reloaded x).close r .deferred none := by
  have hb := (judged_sameBut s x).trans (shedding_sameBut (s.judged x) x)
  have hj := judged_sameBut s x
  obtain ⟨⟨m, hm, h1, h2, h3⟩, -⟩ := shed_leg (s := s.judged x) ((legOn_congr (State.job?_congr hj.jobs h) x).trans hr)
    ((State.leg?_congr hj.jobs r).trans hl) hw
  have he : s.legEndsIn (s.reloaded x) r .deferred none := by
    rw [reloaded_of_sheds hs]
    exact ⟨m, hm, h1, h2, by rw [h3, hb.now]⟩
  exact he.advances rfl (close_advances _)

/-- What a shedding window withdraws. -/
theorem reloaded_slots (hs : s.sheds x = true) (ho : s.outcomesOk) :
    (∀ g ∈ s.jobsWithLeg x (fun y => decide (y = .writing)),
      State.writesWithdrawn x g s (s.reloaded x).close ∧ State.slotsSettled x g s (s.reloaded x).close) ∧
      (s.owedByWriting x → ∀ y ∈ (s.reloaded x).close.slots, x ∈ y.owed → s.startable y.job) := by
  have hb := judged_sameBut s x
  have hov : (s.judged x).outcomesOk := (OutStep.of_same (l := []) ho hb.jobs fun e => by rw [hb.readers]).outcomes
  have b := close_issues (s.reloaded x)
  have hx : (s.reloaded x) = ((s.judged x).shed x).modWindow x Window.reload := reloaded_of_sheds hs
  revert b
  generalize (s.reloaded x).close = t
  intro b
  rw [hx] at b
  obtain ⟨h1, h2⟩ := shed_slots hov b
  refine ⟨fun g hg => ?_, fun hown y hy hxy => ?_⟩
  · obtain ⟨hw, hse⟩ := h1 g (by rw [hb.jobsWithLeg]; exact hg)
    refine ⟨⟨hw.queue, ?_⟩, hse.of_base hb.slots⟩
    rw [← State.writer_congr hb.writers]
    exact hw.tags
  · obtain ⟨j, hj, hl⟩ := h2 (fun z hz hxz => by
      rw [hb.slots] at hz
      exact (legOnIs_congr (State.job?_congr hb.jobs z.job) _ _).trans (hown z hz hxz)) y hy hxy
    exact ⟨j, (State.job?_congr hb.jobs y.job).symm.trans hj, hl⟩

theorem occupancy_zero (hx : ∀ y ∈ t.slots, x ∉ y.owed) : t.occupancy x = 0 := by
  unfold State.occupancy
  rw [List.length_eq_zero_iff, List.filter_eq_nil_iff]
  intro z hz hm
  exact hx z hz (by simpa using hm)

/-- Two changes of one window are one change. -/
theorem modWindow_modWindow {f g : Window → Window} (hu : u.window x = s.window x) :
    (u.modWindow x f).modWindow x g = u.modWindow x fun _ => g (f (s.window x)) := by
  rw [← hu]
  change ({ u with windows := setEntry (setEntry u.windows (targetIndex x) f) (targetIndex x) g } : State) =
    { u with windows := setEntry u.windows (targetIndex x) fun _ => g (f (u.windows[(targetIndex x).val])) }
  congr 1
  refine Vector.ext fun m hm => ?_
  rw [setEntry_getElem _ _ ⟨m, hm⟩, setEntry_getElem _ _ ⟨m, hm⟩, setEntry_getElem _ _ ⟨m, hm⟩, setEntry_same]
  split <;> rfl

/-- The state of a window end that sheds nothing, before the rest of the event. -/
theorem reloaded_kept (hs : s.sheds x = false) : s.reloaded x =
    (if (s.window x).slow = (s.window x).judge.slow then s
      else s.notify (if (s.window x).judge.slow then .targetSlow x (s.window x).judge.streak (s.window x).judge.rate
        else .targetRecovered x (s.window x).judge.rate)).modWindow x fun _ => ((s.window x).ending false).reload := by
  unfold State.reloaded
  rw [shedsNow_judged, hs, if_neg Bool.false_ne_true, judged_eq, modWindow_modWindow (s := s) (by split <;> rfl)]
  rfl

/-- The notices of a window end (R146, R148). -/
theorem window_notices (s : State) (x : Target) :
    ((s.window x).slow ≠ (s.window x).judge.slow → s.nextNotice (s.reloaded x).close
      (if (s.window x).judge.slow then .targetSlow x (s.window x).judge.streak (s.window x).judge.rate
        else .targetRecovered x (s.window x).judge.rate)) ∧
      (s.sheds x = true →
        ((s.window x).slow = (s.window x).judge.slow →
          s.nextNotice (s.reloaded x).close (.shed x (s.jobsWithLeg x fun y => decide (y = .writing)).length)) ∧
          ((s.window x).slow ≠ (s.window x).judge.slow → s.handler.notices.length + 1 < 32 →
            (s.reloaded x).close.handler.notices[s.handler.notices.length + 1]? =
              some (.shed x (s.jobsWithLeg x fun y => decide (y = .writing)).length))) := by
  refine ⟨fun hne => ?_, fun hs => ?_⟩
  · obtain ⟨l, hl⟩ := reloaded_notices s x
    rw [judged_handler hne] at hl
    exact (nextNotice_of_notify ⟨l, hl⟩).1
  · have hshed : (s.judged x).nextNotice (s.reloaded x).close (.shed x (s.jobsWithLeg x fun y => decide (y = .writing)).length) := by
      have hh := hands_of_handler (shed_handler hs) (close_settles (s.reloaded x))
      exact (nextNotice_of_notify hh).1
    refine ⟨fun heq => ?_, fun hne hlt => ?_⟩
    · have : (s.judged x).handler = s.handler := by
        rw [judged_eq, if_pos heq]
        rfl
      unfold State.nextNotice at hshed ⊢
      rw [← this]
      exact hshed
    · have : (s.judged x).handler.notices.length = s.handler.notices.length + 1 := by
        rw [judged_handler hne]
        change (if s.handler.notices.length < Config.noticePlaces then _ else _ : Handler).notices.length = _
        rw [if_pos (Nat.lt_of_succ_lt hlt)]
        exact List.length_append
      unfold State.nextNotice at hshed
      rw [this] at hshed
      exact hshed hlt

/-- Settles O51: the target is judged, shed if its policy says so, and its window reloaded; then the event's rest is followed through. -/
theorem windowEndJudgesAndReloads : Obligations.WindowEndJudgesAndReloads := by
  intro x s hr hd
  have he := exec_windowEnd hr hd
  have hadv : s.advancesTo (windowEndEffect x s) :=
    exec_advances (c := .windowEnd x) (fun e => by cases e) (by rintro (e | e | ⟨-, e | e⟩) <;> cases e) he
  rw [windowEndEffect_eq] at he hadv
  have hwin := reloaded_window s x
  obtain ⟨hlinks, -, -⟩ := reloaded_sender s x
  have hsending := reloaded_sending s x
  obtain ⟨hissued, hwork, hnone⟩ := close_window (s.reloaded x) x (by rw [hwin]; rfl) (by rw [hwin]; rfl)
  obtain ⟨hslow, hshed⟩ := window_notices s x
  have hset := close_settles (s.reloaded x)
  intro w stalled streak slow sheds deferred ended
  refine ⟨_, he, ?_, hissued, hwork, fun hl => hnone (.inl ?_), fun d hx hg => hnone (.inr ?_), fun hx hc => hnone (.inr ?_), fun h1 h2 => ?_,
    fun h1 h2 => ?_, fun hs heq => (hshed hs).1 heq, fun hs hne => (hshed hs).2 hne, fun hs h r l => reloaded_leg hs, fun hs ho => ?_,
    fun hs => ?_, hadv⟩
  · have := (hset.windows x).1
    rw [hwin] at this
    exact this
  · unfold State.linkUp State.link
    rw [hlinks]
    exact hl
  · rw [hsending, hx]
    exact hg
  · rw [hsending, hx]
    exact Option.isSome_iff_ne_none.mpr hc
  · have h3 : (s.window x).judge.slow = true := h2
    have := hslow (by rw [h3, h1]; decide)
    rw [h3] at this
    exact this
  · have h3 : (s.window x).judge.slow = false := h2
    have := hslow (by rw [h3, h1]; decide)
    rw [h3] at this
    exact this
  · obtain ⟨h1, h2⟩ := reloaded_slots hs ho
    refine ⟨h1, fun hown => ⟨h2 hown, fun hl => occupancy_zero fun y hy hx => ?_⟩⟩
    obtain ⟨j, hj, hjl⟩ := h2 hown y hy hx
    exact hl _ j hj hjl
  · have hbase : ∀ v, v = s.reloaded x → v.settlesTo (s.reloaded x).close := fun v e => e ▸ hset
    have hend : ended = ((s.window x).ending false).reload := by
      change ((s.window x).ending (s.sheds x)).reload = _
      rw [show s.sheds x = false from hs]
    rw [hend]
    exact hbase _ (reloaded_kept hs).symm

end Sys2Proof.Machine
end

