-- ==== Sys2Proof/Proofs/P42.lean ====
section
/-! A block of a file arrives (R37, R57, R81): its slot is HELD and handed to its targets' writers and to the Digest Unit. -/

namespace Sys2Proof.Machine

open Sys2Proof

variable {s t u v : State} {x : Target} {h : Fin 64}

/-! ## Slots and queues -/

/-- A slot that is filled; the others stand. -/
theorem fill_slot (s : State) (num : Nat) (data : List Byte) (n : Nat) : (s.fill num data).slot? n =
    if n = num then (s.slot? n).map (fun z => { z with held := some ⟨data, false, false, false⟩ }) else s.slot? n := by
  unfold State.slot? State.fill
  rw [State.modSlots_slots, List.find?_map]
  have hp : ((fun z : Slot => z.num == n) ∘ fun z => if z.num = num then { z with held := some ⟨data, false, false, false⟩ } else z) =
      fun z : Slot => z.num == n := by
    funext z
    simp only [Function.comp]
    split <;> rfl
  rw [hp]
  cases e : s.slots.find? fun z => z.num == n with
  | none => simp
  | some z =>
    have hz : z.num = n := by simpa using List.find?_some e
    rw [Option.map_some]
    by_cases hn : n = num
    · rw [if_pos (hz.trans hn), if_pos hn, Option.map_some]
    · rw [if_neg fun hc => hn (hz.symm.trans hc), if_neg hn]

/-- A writer whose queue takes a slot for a leg, if there is one. -/
def Writer.taken (w : Writer) (num : Nat) : Option LegRef → Writer
  | some r => { w with queue := w.queue ++ [⟨num, r⟩] }
  | none => w

theorem queueSlot_eq (num : Nat) (h : Fin 64) : ∀ (owed : List Target) (s : State),
    s.queueSlot num h owed = { s with writers := (s.queueSlot num h owed).writers }
  | [], _ => rfl
  | z :: rest, s => by
    have hstep : s.queueSlot num h (z :: rest) =
        (match s.legOn h z with
          | some r => s.modWriter z fun w => { w with queue := w.queue ++ [⟨num, r⟩] }
          | none => s : State).queueSlot num h rest := rfl
    rw [hstep]
    cases s.legOn h z with
    | none => exact queueSlot_eq num h rest s
    | some r => exact queueSlot_eq num h rest (s.modWriter z fun w => { w with queue := w.queue ++ [⟨num, r⟩] })

/-- A slot joins the queue of each target that owes it (R37). -/
theorem queueSlot_writer (num : Nat) (h : Fin 64) : ∀ (owed : List Target) (s : State), owed.Nodup →
    ∀ y, (s.queueSlot num h owed).writer y = (s.writer y).taken num (if y ∈ owed then s.legOn h y else none)
  | [], _, _, _ => rfl
  | z :: rest, s, hn, y => by
    obtain ⟨hz, hn⟩ := List.nodup_cons.mp hn
    cases hr : s.legOn h z with
    | none =>
      have hstep : s.queueSlot num h (z :: rest) = s.queueSlot num h rest := by
        unfold State.queueSlot
        rw [List.foldl_cons, hr]
      rw [hstep, queueSlot_writer num h rest s hn y]
      by_cases hy : y = z
      · subst hy
        rw [if_neg hz, if_pos List.mem_cons_self, hr]
      · simp only [List.mem_cons, hy, false_or]
    | some r =>
      have hstep : s.queueSlot num h (z :: rest) =
          (s.modWriter z fun w => { w with queue := w.queue ++ [⟨num, r⟩] }).queueSlot num h rest := by
        unfold State.queueSlot
        rw [List.foldl_cons, hr]
      rw [hstep, queueSlot_writer num h rest _ hn y, State.writer_modWriter,
        show (s.modWriter z fun w => { w with queue := w.queue ++ [⟨num, r⟩] }).legOn h y = s.legOn h y from rfl]
      by_cases hy : y = z
      · subst hy
        rw [if_neg hz, if_pos List.mem_cons_self, if_pos rfl, hr]
        rfl
      · rw [if_neg (Ne.symm hy)]
        simp only [List.mem_cons, hy, false_or]

/-! ## The block stored -/

/-- A block's slot filled, its tag released, its writers and the Digest Unit told, before arrived rises. -/
def State.blockHanded (s : State) (i k : Fin 8) (h : Fin 64) (index num : Nat) (data : List Byte) : State :=
  let v := (((s.received (.ingest i)).fill num data).setReadTag i k ReadTag.release).queueSlot num h (s.owedAt num)
  if v.ingestAt h index then v.makeReady num else v

/-- The same with arrived one higher. -/
def State.blockStored (s : State) (i k : Fin 8) (h : Fin 64) (index num : Nat) (data : List Byte) : State :=
  (s.blockHanded i k h index num data).count h fun j => { j with arrived := j.arrived + 1 }

/-- What the storing of a block changes. -/
structure State.storesBlock (s u : State) (i k : Fin 8) (h : Fin 64) (index num : Nat) (gen : Gen) (data : List Byte) (x : Slot) (j : Job) :
    Prop where
  frame : u = { s with links := u.links, slots := u.slots, ingest := u.ingest, jobs := u.jobs, digest := u.digest, writers := u.writers }
  links : ∀ p, u.link p = if p = .ingest i then { s.link p with hunting := false } else s.link p
  slots : ∀ n, u.slot? n = if n = num then some { x with held := some ⟨data, false, false, false⟩ } else s.slot? n
  ingest : ∀ m : Fin 8, u.ingest[m.val] =
    if m = i then { s.ingest[i.val] with tags := setEntry (s.ingest[i.val]).tags k fun _ => ⟨.free, gen, false⟩ } else s.ingest[m.val]
  jobs : ∀ g, u.job? g = if g = h then some { j with arrived := if j.state.terminal then j.arrived else j.arrived + 1 } else s.job? g
  digest : u.digest = { s.digest with ready := if j.ingest.next = index then s.digest.ready ++ [num] else s.digest.ready }
  writers : ∀ y, u.writer y = (s.writer y).taken num (if y ∈ x.owed then s.legOn h y else none)

theorem ingestAt_of {j : Job} (hj : s.job? h = some j) (index : Nat) : s.ingestAt h index = decide (j.ingest.next = index) := by
  unfold State.ingestAt
  rw [hj]

/-- A port's link no longer hunts, a slot is filled and a tag released. -/
def State.blockTaken (s : State) (i k : Fin 8) (num : Nat) (data : List Byte) : State :=
  ((s.received (.ingest i)).fill num data).setReadTag i k ReadTag.release

theorem blockHanded_eq {i k : Fin 8} {index num : Nat} {data : List Byte} {j : Job} (hj : s.job? h = some j) :
    s.blockHanded i k h index num data =
      { s.blockTaken i k num data with
        writers := ((s.blockTaken i k num data).queueSlot num h (s.owedAt num)).writers
        digest := { s.digest with ready := if j.ingest.next = index then s.digest.ready ++ [num] else s.digest.ready } } := by
  have hv : (((s.received (.ingest i)).fill num data).setReadTag i k ReadTag.release) = s.blockTaken i k num data := rfl
  unfold State.blockHanded
  dsimp only
  rw [hv, queueSlot_eq num h (s.owedAt num) (s.blockTaken i k num data)]
  generalize ((s.blockTaken i k num data).queueSlot num h (s.owedAt num)).writers = w
  have ha : ({ s.blockTaken i k num data with writers := w } : State).ingestAt h index = s.ingestAt h index := rfl
  rw [ha, ingestAt_of hj]
  by_cases hi : j.ingest.next = index
  · rw [decide_eq_true hi, if_pos rfl, if_pos hi]
    rfl
  · rw [decide_eq_false hi, if_neg Bool.false_ne_true, if_neg hi]
    rfl

theorem blockStored_job {i k : Fin 8} {index num : Nat} {data : List Byte} {j : Job} (hj : s.job? h = some j) (g : Fin 64) :
    (s.blockStored i k h index num data).job? g =
      if g = h then some { j with arrived := if j.state.terminal then j.arrived else j.arrived + 1 } else s.job? g := by
  have hb : (s.blockHanded i k h index num data).jobs = s.jobs := by
    rw [blockHanded_eq hj]
    rfl
  unfold State.blockStored
  rw [State.job?_count, State.job?_congr hb, State.job?_congr hb, hj]
  by_cases hg : g = h
  · subst hg
    rw [if_pos rfl, if_pos rfl, Option.map_some]
    split <;> rfl
  · rw [if_neg (Ne.symm hg), if_neg hg]

theorem blockStored_stores {i k : Fin 8} {index num : Nat} {tag : ReadTagState} {gen : Gen} {due : Bool} {data : List Byte} {x : Slot} {j : Job}
    (htag : (s.ingest[i.val]).tags[k.val] = ⟨tag, gen, due⟩) (hx : s.slot? num = some x) (hn : x.owed.Nodup) (hj : s.job? h = some j) :
    s.storesBlock (s.blockStored i k h index num data) i k h index num gen data x j := by
  have howed : s.owedAt num = x.owed := by
    unfold State.owedAt
    rw [hx]
  have hjob := blockStored_job (i := i) (k := k) (index := index) (num := num) (data := data) hj
  have hw := queueSlot_writer num h x.owed (s.blockTaken i k num data) hn
  revert hjob
  unfold State.blockStored
  rw [blockHanded_eq hj, howed]
  intro hjob
  refine ⟨rfl, fun p => ?_, fun n => ?_, fun m => ?_, hjob, rfl, hw⟩
  · change (s.received (.ingest i)).link p = _
    unfold State.received
    rw [State.link_modLink]
    by_cases hp : p = .ingest i
    · subst hp
      rw [if_pos rfl]
    · rw [if_neg (Ne.symm hp), if_neg hp]
  · change (s.fill num data).slot? n = _
    rw [fill_slot]
    by_cases hn : n = num
    · subst hn
      rw [if_pos rfl, if_pos rfl, hx, Option.map_some]
    · rw [if_neg hn, if_neg hn]
  · change ((((s.received (.ingest i)).fill num data).setReadTag i k ReadTag.release).ingest)[m.val] = _
    rw [setReadTag_release (s := (s.received (.ingest i)).fill num data) htag, State.modIngest_ingest, setEntry_getElem]
    by_cases hm : m = i
    · subst hm
      rw [if_pos rfl, if_pos rfl]
      rfl
    · rw [if_neg (Ne.symm hm), if_neg hm]
      rfl

/-! ## The arrival -/

theorem blockArrived_eq {i k : Fin 8} {index num : Nat} {data : List Byte} {q j : Job}
    (hq : s.job? h = some q) (hj : (s.blockStored i k h index num data).job? h = some j) :
    (s.received (.ingest i)).blockArrived i k h index num data =
      if j.arrived = j.blocks ∧ j.state = .reading then
        (((s.blockStored i k h index num data).modJob h fun j => { j with state := .settling, arrivedAllAt := some s.now }).modIngest i fun p =>
          { p with reading := none }, [.start i])
      else (s.blockStored i k h index num data, []) := by
  have hn : (s.blockStored i k h index num data).now = s.now := by
    unfold State.blockStored
    rw [blockHanded_eq hq]
    rfl
  rw [← hn]
  change (match (s.blockStored i k h index num data).job? h with
    | none => (s.blockStored i k h index num data, [])
    | some j => _) = _
  rewrite [hj]
  rfl

theorem blockData_ok {i k : Fin 8} {index num attempt : Nat} {issued : Tick} {gen : Gen} {due : Bool} {data : List Byte}
    (hr : s.resetN = true) (hl : s.linkUp (.ingest i) = true)
    (htag : (s.ingest[i.val]).tags[k.val] = ⟨.busy h index num issued attempt, gen, due⟩) (hd : data.length = 4096) :
    exec (.blockData i (BitVec.ofNat 8 k.val) gen (.ok data)) s =
      .next (cascadeOf ((s.received (.ingest i)).blockArrived i k h index num data)).close := by
  have hw : (ReadAnswer.ok data).wellFormed = true := decide_eq_true hd
  rw [exec_blockData hr hl hw, blockDataEffect_ok htag]

/-- Settles O31: the block is stored, and the event's rest is followed through. -/
theorem blockDataFillsItsSlot : Obligations.BlockDataFillsItsSlot := by
  intro s i k h index num attempt issued gen due data x j hr hl htag hd hx hn hj hlast
  have a := blockStored_stores (index := index) (data := data) htag hx hn hj
  have hjob := a.jobs h
  rw [if_pos rfl] at hjob
  have hb : cascadeOf ((s.received (.ingest i)).blockArrived i k h index num data) = s.blockStored i k h index num data := by
    rw [blockArrived_eq hj hjob, if_neg]
    · rfl
    · rintro ⟨h1, h2⟩
      have hr : j.state = .reading := h2
      refine hlast ?_ hr
      have hne : ¬ j.state.terminal = true := by rw [hr]; decide
      dsimp only at h1
      rw [if_neg hne] at h1
      exact h1
  refine ⟨_, s.blockStored i k h index num data, blockData_ok hr hl htag hd, ?_, a.frame, a.links, a.slots, a.ingest, a.jobs, a.digest,
    fun y => ?_⟩
  · rw [hb]
    exact close_settles _
  · rw [a.writers y]
    generalize (if y ∈ x.owed then s.legOn h y else none) = e
    cases e <;> rfl

end Sys2Proof.Machine
end

