-- ==== Sys2Proof/Proofs/P43.lean ====
section
/-! A port whose line-up holds a job of another port's: the end of its reading starts a job of that other port too, which then takes room on
the drives. -/

namespace Sys2Proof.Machine

open Sys2Proof

/-- I0 reads a file of one block, whose slot and tag wait for it. Next in its line-up stands an empty file of I1's with an expected digest
that is not its own; in I1's line-up, a file of two blocks for T0. -/
def foreignLineUp : State :=
  { State.reset with
    links := Vector.replicate 15 ⟨true, false, false, []⟩
    jobs := (((State.reset.jobs.set 0 (some (oneLegJob .reading 0 4096 .writing))).set 1
      (some { oneLegJob .loaded 1 0 .idle with expected := some 0 })).set 2 (some (oneLegJob .loaded 1 8192 .idle)))
    slots := [⟨0, 0, 0, .ingest [], none⟩]
    ingest := ((State.reset.ingest.set 0
      { IngestPort.initial with
        lineUp := [1], reading := some 0, tags := IngestPort.initial.tags.set 0 ⟨.busy 0 0 0 0 0, 0, false⟩ }).set 1
      { IngestPort.initial with lineUp := [2] })
    drives := State.reset.drives.set 0 ⟨some ⟨9, 5000⟩, some ⟨1000, 1099⟩, none, 1000⟩ }

theorem oneLegJob_outcomeOk {st : JobState} {x : LegState} (hs : st = .reading ∨ st = .loaded ∧ x = .idle) (port : Fin 8) (length : Nat)
    (e : Option Digest) : ({ oneLegJob st port length x with expected := e } : Job).outcomeOk := by
  refine ⟨by simp [oneLegJob], fun h => ?_, fun h => ?_, fun h => ?_⟩
  · rcases hs with rfl | ⟨-, rfl⟩
    · cases h
    · simp [oneLegJob, verifyLeg]
  · rcases hs with rfl | ⟨rfl, -⟩ <;> cases h
  · rcases hs with rfl | ⟨rfl, -⟩ <;> cases h

theorem foreignLineUp_job (h : Fin 64) : foreignLineUp.job? h = none ∨ foreignLineUp.job? h = some (oneLegJob .reading 0 4096 .writing) ∨
    foreignLineUp.job? h = some { oneLegJob .loaded 1 0 .idle with expected := some 0 } ∨
      foreignLineUp.job? h = some (oneLegJob .loaded 1 8192 .idle) := by
  revert h
  decide +kernel

theorem foreignLineUp_work (d : Fin 6) : (foreignLineUp.readers[d.val]).work = [] := by
  revert d
  decide +kernel

theorem foreignLineUp_outcomesOk : foreignLineUp.outcomesOk := by
  refine ⟨fun h j hj => ?_, fun d => ?_⟩
  · rcases foreignLineUp_job h with e | e | e | e <;> rw [e] at hj
    · cases hj
    · exact Option.some.inj hj ▸ oneLegJob_outcomeOk (.inl rfl) 0 4096 none
    · exact Option.some.inj hj ▸ oneLegJob_outcomeOk (.inr ⟨rfl, rfl⟩) 1 0 (some 0)
    · exact Option.some.inj hj ▸ oneLegJob_outcomeOk (.inr ⟨rfl, rfl⟩) 1 8192 none
  · rw [foreignLineUp_work d]
    exact ⟨List.nodup_nil, fun r hr => absurd hr List.not_mem_nil⟩

theorem foreignLineUp_headsActive : foreignLineUp.headsActive := by
  intro d r rest l hw
  rw [foreignLineUp_work d] at hw
  cases hw

/-- The block that ends I0's reading. -/
def lastBlock : Instr :=
  .blockData 0 (BitVec.ofNat 8 (0 : Fin 8).val) 0 (.ok (List.replicate 4096 0))

/-- T0's append pointer after the last block. -/
def pointerAfter : Option Nat :=
  match exec lastBlock foreignLineUp with
  | .next t => some (t.drives[(0 : Fin 6).val]).pointer
  | .fault _ | .refused _ => none

/-- The start of I1's job has taken two blocks of T0. -/
theorem pointerAfter_eq : pointerAfter = some 1002 := by
  decide +kernel

/-- Refutes O32: where the job next in the line-up is another port's, the drives do not end as its placement leaves them. -/
theorem not_lastBlockEndsTheReading : ¬ Obligations.LastBlockEndsTheReading := by
  intro hall
  obtain ⟨-, h2⟩ := hall foreignLineUp 0 0 0 0 0 0 0 0 false (List.replicate 4096 0) (oneLegJob .reading 0 4096 .writing) rfl
    (by decide +kernel) (by decide +kernel) List.length_replicate (by decide +kernel) (by decide +kernel) rfl
  obtain ⟨t, u, ht, -, -, -, -, -, -, -, -, h3⟩ := h2 ⟨0, 0, 0, .ingest [], none⟩ (by decide +kernel) List.nodup_nil
  obtain ⟨-, h4, -⟩ := h3 1 [] { oneLegJob .loaded 1 0 .idle with expected := some 0 } (by decide +kernel) (by decide +kernel) rfl
    (oneLegJob_outcomeOk (.inr ⟨rfl, rfl⟩) 1 0 (some 0))
  obtain ⟨-, h5⟩ := h4 (by decide +kernel) (by decide +kernel) foreignLineUp_outcomesOk foreignLineUp_headsActive rfl
  obtain ⟨-, -, h6⟩ := h5 rfl
  have hd := h6 0
  have hp := pointerAfter_eq
  unfold pointerAfter lastBlock at hp
  rw [ht] at hp
  dsimp only at hp
  rw [hd] at hp
  revert hp
  decide +kernel

end Sys2Proof.Machine
end

