-- ==== Sys2Proof/Proofs/P44.lean ====
section
/-! LOAD_JOB (R175): what its body says, and the job it makes. -/

namespace Sys2Proof.Machine

open Sys2Proof

variable {s t u v : State} {h : Fin 64} {r : Request} {rest : List Request} {b : LoadBody}

/-! ## The body (Table 9-8) -/

theorem fieldAt_drop (l : List Byte) (m off k : Nat) : fieldAt (l.drop m) off k = fieldAt l (m + off) k := by
  unfold fieldAt
  rw [List.drop_drop]

theorem fieldAt_take (l : List Byte) {m off k : Nat} (h : off + k ≤ m) : fieldAt (l.take m) off k = fieldAt l off k := by
  unfold fieldAt
  rw [List.drop_take, List.take_take, Nat.min_eq_left (by omega)]

theorem legEntries_length : ∀ l : List Byte, (legEntries l).length = l.length / 2
  | [] => rfl
  | [_] => by simp [legEntries]
  | _ :: _ :: l => by
    rw [legEntries, List.length_cons, legEntries_length l, List.length_cons, List.length_cons]
    omega

theorem legEntries_getElem : ∀ (l : List Byte) (n : Nat) (e : Nat × Nat), (legEntries l)[n]? = some e →
    e = (fieldAt l (2 * n) 1, fieldAt l (2 * n + 1) 1)
  | [], _, _, h => by cases h
  | [_], _, _, h => by cases h
  | a :: c :: l, 0, e, h => by
    cases h
    rfl
  | a :: c :: l, n + 1, e, h => by
    rw [legEntries_getElem l n e h]
    have := fun k => fieldAt_drop (a :: c :: l) 2 k 1
    simp only [List.drop_succ_cons, List.drop_zero] at this
    rw [this, this]
    congr 2 <;> ring

theorem runEntries_length : ∀ (k : Nat) (l : List Byte), (runEntries k l).length = k
  | 0, _ => rfl
  | k + 1, l => congrArg (· + 1) (runEntries_length k (l.drop 12))

theorem runEntries_getElem : ∀ (k : Nat) (l : List Byte) (n : Nat) (q : Run), (runEntries k l)[n]? = some q →
    q = ⟨fieldAt l (12 * n) 8, fieldAt l (8 + 12 * n) 4⟩
  | 0, _, _, _, h => by cases h
  | k + 1, l, 0, q, h => by
    cases h
    rfl
  | k + 1, l, n + 1, q, h => by
    rw [runEntries_getElem k (l.drop 12) n q h, fieldAt_drop, fieldAt_drop]
    congr 2 <;> ring

theorem ingestOfCode_val {n : Nat} {i : Fin 8} (h : ingestOfCode n = some i) : i.val = n := by
  unfold ingestOfCode at h
  split at h
  · cases h
    rfl
  · cases h

/-- A LOAD_JOB body's fields (Table 9-8). -/
theorem readLoad_fields {body : List Byte} (hb : readLoad body = some b) :
    40 ≤ body.length ∧ b.port.val = fieldAt body 0 1 ∧ b.legCount = fieldAt body 1 1 ∧ b.required = fieldAt body 3 1 ∧
      b.expected = (if fieldAt body 4 1 = 1 then some (BitVec.ofNat 64 (fieldAt body 24 8)) else none) ∧
      b.identity = BitVec.ofNat 64 (fieldAt body 8 8) ∧ b.length = fieldAt body 16 8 ∧
      b.entries = legEntries ((body.drop 32).take (2 * min (fieldAt body 1 1) 4)) ∧ b.runs = runEntries (fieldAt body 2 1) (body.drop 40) := by
  unfold readLoad at hb
  dsimp only at hb
  split at hb
  · next hc =>
    obtain ⟨i, hi, rfl⟩ := Option.map_eq_some_iff.mp hb
    exact ⟨by omega, ingestOfCode_val hi, rfl, rfl, rfl, rfl, rfl, rfl, rfl⟩
  · cases hb

/-! ## The record -/

/-- A used leg entry's code, once checked, is a drive's or T6's. -/
theorem targetOfCode_checked {n : Nat} {x : Target} (h : targetOfCode n = some x) :
    x = if h : 8 ≤ n ∧ n < 14 then .drive ⟨n - 8, by omega⟩ else .sink := by
  unfold targetOfCode at h
  split at h
  · next hn =>
    rw [dif_pos hn]
    exact (Option.some.inj h).symm
  · next hn =>
    rw [dif_neg hn]
    split at h
    · exact (Option.some.inj h).symm
    · cases h

/-- The legs of a checked body: one per used entry. -/
theorem LoadBody.legs_of_checked {leg : Nat × Nat → Leg} (hw : b.legsWrong = false)
    (hleg : ∀ e x, targetOfCode e.1 = some x → newLeg x (decide (e.2 = 1)) = leg e) : b.legs = b.entries.map leg := by
  have hall : ∀ e ∈ b.entries, (targetOfCode e.1).isSome = true := by
    unfold LoadBody.legsWrong at hw
    simp only [Bool.or_eq_false_iff] at hw
    obtain ⟨⟨⟨⟨⟨⟨-, -⟩, hany⟩, -⟩, -⟩, -⟩, -⟩ := hw
    intro e he
    rw [List.any_eq_false] at hany
    simpa [Option.isSome_iff_ne_none] using hany e he
  unfold LoadBody.legs
  rw [← List.filterMap_eq_map]
  refine List.filterMap_congr fun e he => ?_
  obtain ⟨x, hx⟩ := Option.isSome_iff_exists.mp (hall e he)
  rw [hx, Option.map_some, hleg e x hx]
  rfl

theorem freeEntry_of (hn : s.job? h = none) (hl : ∀ g, g < h → s.job? g ≠ none) : s.freeEntry = some h := by
  unfold State.freeEntry allHandles
  rw [List.find?_eq_some_iff_getElem]
  refine ⟨by rw [hn]; rfl, h.val, by simp, by simp, fun k hk => ?_⟩
  have := hl ⟨k, by omega⟩ hk
  simpa [Option.isSome_iff_ne_none] using this

/-! ## The command -/

/-- A job loaded, and its port's start tested. -/
def State.loadedInto (s : State) (rest : List Request) (h : Fin 64) (b : LoadBody) : State :=
  (s.taken rest).loadInto h b

theorem exec_loadJob (a : s.takes r rest) (hk : r.kind = 1) (hb : readLoad r.body = some b) (hc : s.loadCheck b = .ok) (hn : s.job? h = none)
    (hl : ∀ g, g < h → s.job? g ≠ none) :
    exec .loadJob s = .next ((((s.loadedInto rest h b).cascade [.start b.port]).respond ⟨r.seq, r.kind, .ok, leBytes 1 h.val⟩).close) := by
  have he : exec .loadJob s = .next (s.take applyLoadJob).close := by
    simp only [exec, execLoadJob]
    exact event_enabled a.1 (a.canTake hk)
  have hfree : (s.taken rest).freeEntry = some h := freeEntry_of hn hl
  have hcheck : (s.taken rest).loadCheck b = .ok := hc
  have happ : applyLoadJob r.body (s.taken rest) = ⟨(s.loadedInto rest h b).cascade [.start b.port], .ok, leBytes 1 h.val⟩ := by
    unfold applyLoadJob
    rw [hb]
    dsimp only
    rw [hcheck, hfree]
    rfl
  rw [he, a.take_eq applyLoadJob, happ]

theorem loadedInto_job? (s : State) (rest : List Request) (h k : Fin 64) (b : LoadBody) :
    (s.loadedInto rest h b).job? k = if h = k then some (b.job s.now) else s.job? k :=
  loadInto_job? (s.taken rest) h k b

theorem loadedInto_port (s : State) (rest : List Request) (h : Fin 64) (b : LoadBody) :
    (s.loadedInto rest h b).ingest[b.port.val] = { s.ingest[b.port.val] with lineUp := (s.ingest[b.port.val]).lineUp ++ [h] } := by
  change (setEntry (s.taken rest).ingest b.port fun p => { p with lineUp := p.lineUp ++ [h] })[b.port.val] = _
  rw [setEntry_same]
  rfl

theorem loadedInto_frame (s : State) (rest : List Request) (h : Fin 64) (b : LoadBody) :
    (s.loadedInto rest h b).cascadeFrame = (s.taken rest).cascadeFrame := rfl

theorem cascade_keepsJobs (s : State) (l : List Todo) : s.keepsJobs (s.cascade l) :=
  run_inv (fun t => s.keepsJobs t) (fun t x a => a.trans (perform_keepsJobs t x)) _ l s (.refl s)

/-- One thing to do that leaves nothing more to do. -/
theorem cascade_one {x : Todo} (e : s.perform x = (u, [])) : s.cascade [x] = u := by
  change State.run 4095 ((s.perform x).2 ++ []) (s.perform x).1 = u
  rw [e]
  rfl

/-- What the start of a job has left stands, whatever else is done. -/
theorem cascade_after {P : State → Prop} {x : Todo} (h0 : P (s.perform x).1) (hP : ∀ s y, P s → P (s.perform y).1) : P (s.cascade [x]) :=
  run_inv P hP 4095 ((s.perform x).2 ++ []) (s.perform x).1 h0

theorem testStart_reading {i : Fin 8} (hr : (s.ingest[i.val]).reading ≠ none) : s.testStart i = (s, []) := by
  rcases testStart_cases s i with ⟨e, -⟩ | ⟨h, rest, j, hn, -⟩
  · exact e
  · exact absurd hn hr

theorem testStart_idle {i : Fin 8} (hl : (s.ingest[i.val]).lineUp = []) : s.testStart i = (s, []) := by
  rcases testStart_cases s i with ⟨e, -⟩ | ⟨h, rest, j, -, hne, -⟩
  · exact e
  · rw [hl] at hne
    cases hne

theorem testStart_starts {i : Fin 8} {j : Job} (hr : (s.ingest[i.val]).reading = none) (hl : (s.ingest[i.val]).lineUp = h :: l)
    (hj : s.job? h = some j) (hs : j.state = .loaded) : s.testStart i = s.startJob i h := by
  unfold State.testStart
  rw [hr, hl]
  dsimp only
  rw [hj]
  dsimp only
  rw [if_pos hs]

/-- A job's start leaves it started and out of the line-up. -/
theorem startJob_started {i : Fin 8} {j : Job} (hj : s.job? h = some j) (hf : j.fresh) (hs : j.state = .loaded) :
    (∃ q, (s.startJob i h).1.job? h = some q ∧ q.startedAt = some s.now ∧ q.state ≠ .loaded) ∧
      ((s.startJob i h).1.ingest[i.val]).lineUp = (s.ingest[i.val]).lineUp.tail := by
  have p := placeLegs_placedBy i hj hf
  have hl : ((s.placeLegs i h).ingest[i.val]).lineUp = (s.ingest[i.val]).lineUp.tail := by rw [p.ingest, setEntry_same]
  have hpj := p.job
  rcases startJob_cases s i h with ⟨hn, -⟩ | ⟨q, hq, ⟨-, e⟩ | ⟨-, -, e⟩ | ⟨-, -, e⟩⟩
  · rw [hpj] at hn
    cases hn
  · rw [hpj] at hq
    cases hq
    rewrite [e]
    dsimp only
    refine ⟨⟨_, by rw [finishJob_job?, if_pos rfl, hpj, Option.map_some], ?_, ?_⟩, by rw [finishJob_ingest]; exact hl⟩
    · unfold Job.finished
      split <;> rfl
    · unfold Job.finished
      rw [if_neg (by dsimp only; rw [hs]; decide)]
      exact fun e => by cases e
  · rw [hpj] at hq
    cases hq
    rewrite [e]
    dsimp only
    have hz : ((s.placeLegs i h).emptied h).job? h = some
        { j with
          state := .settling, startedAt := some s.now, arrivedAllAt := some s.now, legs := j.legs.map (s.placedLeg j.blocks) } := by
      rw [State.emptied, State.job?_modJob, if_pos rfl, hpj]
      rfl
    obtain ⟨k, hk, a⟩ := (eachLeg_advances State.writtenIfWriting writtenIfWriting_advances ((s.beginStart i h).legRefs h)
      ((s.placeLegs i h).emptied h)).jobs h _ hz
    refine ⟨⟨k, hk, a.started (fun e => by cases e), loaded_rank a.rank fun e => by cases e⟩, ?_⟩
    rw [((eachLeg_seats _ _).ports i).lineUp]
    exact hl
  · rw [hpj] at hq
    cases hq
    rewrite [e]
    dsimp only
    refine ⟨⟨{ j with state := .reading, startedAt := some s.now, legs := j.legs.map (s.placedLeg j.blocks) }, ?_, rfl, fun e => by cases e⟩, ?_⟩
    · change (State.modJob _ h _).job? h = _
      rw [State.job?_modJob, if_pos rfl, hpj]
      rfl
    · rw [State.modIngest_ingest, setEntry_same]
      exact hl

theorem LoadBody.job_fresh (hw : b.legsWrong = false) (now : Tick) : (b.job now).fresh :=
  ⟨LoadBody.legs_nodup hw, newLeg_idle⟩

/-- A job that has been started, its port's line-up empty. -/
def State.startedAlone (s : State) (h : Fin 64) (i : Fin 8) (t : State) : Prop :=
  (∃ q, t.job? h = some q ∧ q.startedAt = some s.now ∧ q.state ≠ .loaded) ∧ (t.ingest[i.val]).lineUp = []

theorem State.startedAlone.mono {i : Fin 8} (a : s.startedAlone h i t) (hadv : t.advancesTo u)
    (hl : (u.ingest[i.val]).lineUp ⊆ (t.ingest[i.val]).lineUp) : s.startedAlone h i u := by
  obtain ⟨⟨q, hq, h1, h2⟩, h3⟩ := a
  obtain ⟨k, hk, e⟩ := hadv.jobs h q hq
  exact ⟨⟨k, hk, (e.started h2).trans h1, loaded_rank e.rank h2⟩, List.subset_nil.mp (h3 ▸ hl)⟩

/-- A job loaded at a port that waits for nothing starts. -/
theorem loadedInto_starts (hw : b.legsWrong = false) (hr : (s.ingest[b.port.val]).reading = none) (hl : (s.ingest[b.port.val]).lineUp = []) :
    s.startedAlone h b.port ((s.loadedInto rest h b).cascade [.start b.port]) := by
  have hport := loadedInto_port s rest h b
  rw [hl] at hport
  have hj : (s.loadedInto rest h b).job? h = some (b.job s.now) := by rw [loadedInto_job?, if_pos rfl]
  have hs : (s.loadedInto rest h b).testStart b.port = (s.loadedInto rest h b).startJob b.port h :=
    testStart_starts (by rw [hport]; exact hr) (by rw [hport]; rfl) hj rfl
  refine cascade_after (P := s.startedAlone h b.port) ?_ fun u y a => a.mono (perform_advances u y) ((perform_winds u y).lineUp b.port)
  change s.startedAlone h b.port ((s.loadedInto rest h b).testStart b.port).1
  rw [hs]
  obtain ⟨h1, h2⟩ := startJob_started (i := b.port) hj (LoadBody.job_fresh hw s.now) rfl
  refine ⟨h1, h2.trans ?_⟩
  rw [hport]
  rfl

/-- The state at the end of a LOAD_JOB. -/
def State.loadedTo (s : State) (r : Request) (rest : List Request) (h : Fin 64) (b : LoadBody) : State :=
  (((s.loadedInto rest h b).cascade [.start b.port]).respond ⟨r.seq, r.kind, .ok, leBytes 1 h.val⟩).close

theorem loadedTo_advances (s : State) (r : Request) (rest : List Request) (h : Fin 64) (b : LoadBody) :
    (s.loadedInto rest h b).advancesTo (s.loadedTo r rest h b) :=
  ((cascade_advances _ _).trans (respond_advances _ _)).trans (close_advances _)

/-- What a LOAD_JOB leaves, whatever its port reads. -/
theorem loadedTo_spec (hn : s.job? h = none) :
    (∃ k, (s.loadedTo r rest h b).job? h = some k ∧ (b.job s.now).advancesTo k) ∧ s.advancesTo (s.loadedTo r rest h b) ∧
      (∀ g, g ≠ h → s.job? g = none → (s.loadedTo r rest h b).job? g = none) := by
  have hadv := loadedTo_advances s r rest h b
  refine ⟨hadv.jobs h _ (by rw [loadedInto_job?, if_pos rfl]), ⟨fun g q hq => hadv.jobs g q ?_⟩, fun g hg hgn => ?_⟩
  · rw [loadedInto_job?, if_neg]
    · exact hq
    · rintro rfl
      rw [hn] at hq
      cases hq
  · have := (cascade_keepsJobs (s.loadedInto rest h b) [.start b.port]).isSome g
    rw [loadedInto_job?, if_neg (Ne.symm hg), hgn] at this
    have hg : ((s.loadedInto rest h b).cascade [.start b.port]).job? g = none := by simpa using this
    exact (close_settles (((s.loadedInto rest h b).cascade [.start b.port]).respond ⟨r.seq, r.kind, .ok, leBytes 1 h.val⟩)).jobs g hg

/-- What a LOAD_JOB leaves where its port reads. -/
theorem loadedTo_waiting (hr : (s.ingest[b.port.val]).reading ≠ none) :
    (((s.loadedTo r rest h b).ingest[b.port.val]).lineUp = (s.ingest[b.port.val]).lineUp ++ [h]) ∧
      (∃ k, (s.loadedTo r rest h b).job? h = some k ∧ (b.job s.now).issuesTo k) ∧
      (s.loadedTo r rest h b).sessions[b.port.val] = { s.sessions[b.port.val] with live := (s.sessions[b.port.val]).live + 1 } := by
  have hport := loadedInto_port s rest h b
  have hv : (s.loadedInto rest h b).cascade [.start b.port] = s.loadedInto rest h b :=
    cascade_one (testStart_reading (by rw [hport]; exact hr))
  unfold State.loadedTo
  rw [hv]
  have a := close_settles ((s.loadedInto rest h b).respond ⟨r.seq, r.kind, .ok, leBytes 1 h.val⟩)
  refine ⟨?_, a.job h _ ((loadedInto_job? s rest h h b).trans (if_pos rfl)), ?_⟩
  · rw [(close_port _ _).2]
    exact congrArg IngestPort.lineUp hport
  · rw [a.kept.1]
    change (setEntry s.sessions b.port fun c => { c with live := c.live + 1 })[b.port.val] = _
    rw [setEntry_same]

theorem loadedTo_started (hw : b.legsWrong = false) (hr : (s.ingest[b.port.val]).reading = none) (hl : (s.ingest[b.port.val]).lineUp = []) :
    s.startedAlone h b.port (s.loadedTo r rest h b) := by
  refine (loadedInto_starts hw hr hl).mono ((respond_advances _ _).trans (close_advances _)) ?_
  unfold State.loadedTo
  rw [(close_port _ _).2]
  exact List.Subset.refl _

/-- The fields that LOAD_JOB's body gives (Table 9-8). -/
theorem readLoad_offsets {body : List Byte} (hb : readLoad body = some b) :
    b.port.val = fieldAt body 0 1 ∧ b.legCount = fieldAt body 1 1 ∧ b.required = fieldAt body 3 1 ∧
      b.expected = (if fieldAt body 4 1 = 1 then some (BitVec.ofNat 64 (fieldAt body 24 8)) else none) ∧
      b.identity = BitVec.ofNat 64 (fieldAt body 8 8) ∧ b.length = fieldAt body 16 8 ∧ b.entries.length = min (fieldAt body 1 1) 4 ∧
      (∀ (n : Nat) (e : Nat × Nat), b.entries[n]? = some e → e = (fieldAt body (32 + 2 * n) 1, fieldAt body (33 + 2 * n) 1)) ∧
      b.runs.length = fieldAt body 2 1 ∧
      ∀ (n : Nat) (q : Run), b.runs[n]? = some q → q = ⟨fieldAt body (40 + 12 * n) 8, fieldAt body (48 + 12 * n) 4⟩ := by
  obtain ⟨hlen, hport, hlegs, hreq, hexp, hid, hle, hent, hruns⟩ := readLoad_fields hb
  refine ⟨hport, hlegs, hreq, hexp, hid, hle, ?_, fun n e he => ?_, ?_, fun n q hq => ?_⟩
  · rw [hent, legEntries_length, List.length_take, List.length_drop]
    omega
  · rw [hent] at he
    have hn : n < min (fieldAt body 1 1) 4 := by
      have := (List.getElem?_eq_some_iff.mp he).1
      rw [legEntries_length, List.length_take, List.length_drop] at this
      omega
    rw [legEntries_getElem _ n e he, fieldAt_take _ (by omega), fieldAt_take _ (by omega), fieldAt_drop, fieldAt_drop]
    congr 2
    omega
  · rw [hruns, runEntries_length]
  · rw [hruns] at hq
    rw [runEntries_getElem _ _ n q hq, fieldAt_drop, fieldAt_drop]
    congr 2
    omega

/-- Settles O54: the fields by their offsets; then the record in its entry, and its port's start test. -/
theorem loadJobFillsTheLowestEntry : Obligations.LoadJobFillsTheLowestEntry := by
  refine ⟨fun body b hb => readLoad_offsets hb, ?_⟩
  intro s r rest b h ht hk hb hc hn hlow leg loaded
  have hw := (loadCheck_ok hc).2
  have hloaded : loaded = b.job s.now := by
    have := LoadBody.legs_of_checked (leg := leg) hw fun e x hx => by
      rw [targetOfCode_checked hx]
      rfl
    unfold LoadBody.job
    rw [this]
    rfl
  rw [hloaded]
  obtain ⟨⟨k, hk', hka⟩, hall, habs⟩ := loadedTo_spec (r := r) (rest := rest) (b := b) hn
  obtain ⟨hreq, hresp⟩ := answer_close (s := s) (w := (s.loadedInto rest h b).cascade [.start b.port]) (rest := rest)
    (x := ⟨r.seq, r.kind, .ok, leBytes 1 h.val⟩) ((cascade_frame _ _).trans (loadedInto_frame s rest h b))
  refine ⟨s.loadedTo r rest h b, k, exec_loadJob ht hk hb hc hn hlow, hk', hka, hall, habs, hreq, hresp, fun hr => ?_, fun hr hl => ?_⟩
  · obtain ⟨h1, ⟨k2, hk2, h2⟩, h3⟩ := loadedTo_waiting (r := r) (rest := rest) (h := h) (b := b) hr
    rw [hk'] at hk2
    cases hk2
    exact ⟨h1, h2, h3⟩
  · obtain ⟨⟨q, hq, h1, h2⟩, h3⟩ := loadedTo_started (r := r) (rest := rest) (h := h) hw hr hl
    rw [hk'] at hq
    cases hq
    exact ⟨h1, h2, by rw [h3]; exact List.not_mem_nil⟩

end Sys2Proof.Machine
end

