-- ==== Sys2Proof/Proofs/P45.lean ====
section
/-! Bodies laid out field by field: the fields that stand behind each other in a body are the ones it holds (R171). -/

namespace Sys2Proof.Machine

open Sys2Proof

/-! ## Fields behind each other -/

theorem leBytes_length : ∀ k n : Nat, (leBytes k n).length = k
  | 0, _ => rfl
  | k + 1, n => congrArg (· + 1) (leBytes_length k (n / 256))

theorem leNat_leBytes : ∀ k n : Nat, leNat (leBytes k n) = n % 256 ^ k
  | 0, n => by rw [pow_zero, Nat.mod_one]; rfl
  | k + 1, n => by
    have hp : 256 ^ (k + 1) = 256 * 256 ^ k := pow_succ' 256 k
    rw [leBytes, leNat, leNat_leBytes k, BitVec.toNat_ofNat, hp, Nat.mod_mul]

/-- The bytes of fields that stand behind each other. -/
def fieldBytes (fs : List (Nat × Nat × Nat)) : List Byte :=
  fs.flatMap fun f => leBytes f.2.1 f.2.2

/-- Fields stand behind each other from an offset on. -/
def aligned : Nat → List (Nat × Nat × Nat) → Bool
  | _, [] => true
  | o, f :: fs => decide (f.1 = o) && aligned (o + f.2.1) fs

/-- How many bytes fields take. -/
def fieldWidth (fs : List (Nat × Nat × Nat)) : Nat :=
  (fs.map fun f => f.2.1).sum

theorem fieldBytes_length : ∀ fs : List (Nat × Nat × Nat), (fieldBytes fs).length = fieldWidth fs
  | [] => rfl
  | f :: fs => by
    have := fieldBytes_length fs
    unfold fieldBytes fieldWidth at this ⊢
    rw [List.flatMap_cons, List.length_append, leBytes_length, this, List.map_cons, List.sum_cons]

theorem fieldBytes_append (fs gs : List (Nat × Nat × Nat)) : fieldBytes (fs ++ gs) = fieldBytes fs ++ fieldBytes gs :=
  List.flatMap_append

theorem fieldBytes_flatMap {α : Type} (l : List α) (g : α → List (Nat × Nat × Nat)) :
    fieldBytes (l.flatMap g) = l.flatMap fun a => fieldBytes (g a) :=
  List.flatMap_assoc

theorem fieldAt_mid (p q : List Byte) (k n : Nat) : fieldAt (p ++ leBytes k n ++ q) p.length k = n % 256 ^ k := by
  unfold fieldAt
  rw [List.append_assoc, List.drop_left, List.take_left' (leBytes_length k n), leNat_leBytes]

/-- A body holds the fields that stand in it from an offset on. -/
theorem holdsFields_of_aligned : ∀ (fs : List (Nat × Nat × Nat)) (p q : List Byte), aligned p.length fs = true →
    holdsFields (p ++ fieldBytes fs ++ q) fs
  | [], _, _, _ => fun _ hf => absurd hf List.not_mem_nil
  | f :: fs, p, q, h => by
    obtain ⟨ho, hr⟩ := Bool.and_eq_true_iff.mp h
    have hb : p ++ fieldBytes (f :: fs) ++ q = p ++ leBytes f.2.1 f.2.2 ++ (fieldBytes fs ++ q) := by
      simp [fieldBytes]
    intro g hg
    rcases List.mem_cons.mp hg with rfl | hg
    · rw [hb, of_decide_eq_true ho]
      exact fieldAt_mid p _ _ _
    · have := holdsFields_of_aligned fs (p ++ leBytes f.2.1 f.2.2) q (by rw [List.length_append, leBytes_length]; exact hr) g hg
      rw [hb, ← List.append_assoc]
      exact this

theorem holdsFields.mono {b : List Byte} {fs gs : List (Nat × Nat × Nat)} (h : holdsFields b fs) (hs : gs ⊆ fs) : holdsFields b gs :=
  fun f hf => h f (hs hf)

/-! ## Pieces -/

theorem leBytes_one (n : Nat) : leBytes 1 n = [BitVec.ofNat 8 n] := rfl

theorem flagByte_eq (b : Bool) : flagByte b = BitVec.ofNat 8 b.toNat := by
  cases b <;> rfl

theorem digestBytes_eq (x : Option Digest) : digestBytes x = leBytes 8 (wordOr0 x) := by
  cases x <;> rfl

theorem stampBytes_eq (x : Option Tick) : stampBytes x = leBytes 4 (wordOr0 x) := by
  cases x <;> rfl

theorem optBytes_eq (k : Nat) (x : Option Nat) : optBytes k x = leBytes 1 x.isSome.toNat ++ leBytes k (x.getD 0) := by
  cases x <;> rfl

theorem regionBytes_eq (x : Option Region) (o : Nat) : regionBytes x = fieldBytes (regionFields x o) := by
  cases x <;> rfl

theorem recordBytes_eq (x : Option Media) (o : Nat) : recordBytes x = fieldBytes (mediaFields x o) := by
  cases x <;> rfl

theorem tagCounts_eq {n : Nat} (tags : Vector BlockTag n) (o : Nat) : tagCounts tags = fieldBytes (tagFields tags.toList o) := by
  have hfree : BlockTag.isFree = fun g : BlockTag => match g.state with
      | .free => true
      | .sent _ _ | .waiting _ | .abandoned _ => false := by
    funext g
    unfold BlockTag.isFree
    cases g.state <;> simp
  unfold tagCounts tagCount
  rw [hfree]
  rfl

/-! ## QUERY_JOB (Tables 9-9 and 9-10) -/

/-- The fields of the job part. -/
def Job.partFields (h : Fin 64) (j : Job) : List (Nat × Nat × Nat) :=
  [(0, 1, h.val), (1, 1, j.state.code), (2, 1, j.port.val), (3, 1, jobCauseCode j.cause), (4, 1, j.legs.length), (5, 1, j.runs.length),
    (6, 1, j.required), (7, 1, j.expected.isSome.toNat), (8, 8, j.identity.toNat), (16, 8, j.length), (24, 4, j.blocks),
    (28, 4, j.requested), (32, 4, j.arrived), (36, 4, j.ingest.next), (40, 8, wordOr0 j.expected), (48, 4, j.ingest.a),
    (52, 4, j.ingest.b), (56, 4, j.ingest.next), (60, 1, j.ingest.final.isSome.toNat), (61, 1, j.session.toNat),
    (62, 1, j.startedAt.isSome.toNat), (63, 1, j.arrivedAllAt.isSome.toNat), (64, 1, j.finishedAt.isSome.toNat), (65, 3, 0),
    (68, 8, wordOr0 j.ingest.final), (76, 4, j.loadedAt.toNat), (80, 4, wordOr0 j.startedAt), (84, 4, wordOr0 j.arrivedAllAt),
    (88, 4, wordOr0 j.finishedAt), (92, 4, 0)]

theorem jobBytes_eq (h : Fin 64) (j : Job) : jobBytes h j = fieldBytes (j.partFields h) := by
  have hd : j.digested = j.ingest.next := rfl
  unfold jobBytes fieldBytes Job.partFields
  rw [hd]
  simp only [List.flatMap_cons, List.flatMap_nil]
  simp only [flagByte_eq, digestBytes_eq, stampBytes_eq, leBytes_one, List.append_assoc, List.cons_append, List.nil_append, List.append_nil]

theorem legBytes_eq (l : Leg) (o : Nat) : legBytes l = fieldBytes (l.fieldsAt o) := by
  simp [legBytes, fieldBytes, Leg.fieldsAt, flagByte_eq, digestBytes_eq, stampBytes_eq, leBytes_one]

/-- The fields of a run entry. -/
def Run.fieldsAt (r : Run) (o : Nat) : List (Nat × Nat × Nat) :=
  [(o, 8, r.start), (o + 8, 4, r.count)]

theorem runBytes_eq (r : Run) (o : Nat) : runBytes r = fieldBytes (r.fieldsAt o) := by
  simp [runBytes, fieldBytes, Run.fieldsAt]

/-- Parts of one width behind each other: the bytes before a part and after it. -/
theorem flatMap_split {α : Type} {g : α → List Byte} {w : Nat} (hw : ∀ a, (g a).length = w) {l : List α} {n : Nat} {a : α}
    (ha : l[n]? = some a) : ∃ p q, l.flatMap g = p ++ g a ++ q ∧ p.length = w * n := by
  obtain ⟨hn, he⟩ := List.getElem?_eq_some_iff.mp ha
  refine ⟨(l.take n).flatMap g, (l.drop (n + 1)).flatMap g, ?_, ?_⟩
  · conv_lhs => rw [← List.take_append_drop n l, List.drop_eq_getElem_cons hn, he]
    rw [List.flatMap_append, List.flatMap_cons, List.append_assoc]
  · have : ∀ m : List α, (m.flatMap g).length = w * m.length := fun m => by
      induction m with
      | nil => rfl
      | cons b m ih => rw [List.flatMap_cons, List.length_append, hw, ih, List.length_cons]; ring
    rw [this, List.length_take, Nat.min_eq_left (by omega)]

theorem flatMap_width {α : Type} {g : α → List Byte} {w : Nat} (hw : ∀ a, (g a).length = w) (l : List α) : (l.flatMap g).length = w * l.length := by
  induction l with
  | nil => rfl
  | cons b m ih => rw [List.flatMap_cons, List.length_append, hw, ih, List.length_cons]; ring

theorem legBytes_length (l : Leg) : (legBytes l).length = 64 := by
  rw [legBytes_eq l 0, fieldBytes_length]
  simp [fieldWidth, Leg.fieldsAt]

theorem runBytes_length (r : Run) : (runBytes r).length = 12 := by
  rw [runBytes_eq r 0, fieldBytes_length]
  simp [fieldWidth, Run.fieldsAt]

theorem jobBytes_length (h : Fin 64) (j : Job) : (jobBytes h j).length = 96 := by
  rw [jobBytes_eq, fieldBytes_length]
  simp [fieldWidth, Job.partFields]

theorem queryJobBytes_reported (h : Fin 64) (j : Job) : j.reportedIn h (queryJobBytes h j) := by
  refine ⟨?_, ?_, fun n l hl => ?_, fun n r hr => ?_⟩
  · unfold queryJobBytes
    rw [List.length_append, List.length_append, jobBytes_length, flatMap_width legBytes_length, flatMap_width runBytes_length]
  · unfold queryJobBytes
    rw [jobBytes_eq, List.append_assoc]
    exact holdsFields_of_aligned (j.partFields h) [] _ rfl
  · obtain ⟨p, q, e, hp⟩ := flatMap_split legBytes_length hl
    have hb : queryJobBytes h j = jobBytes h j ++ p ++ fieldBytes (l.fieldsAt (96 + 64 * n)) ++ (q ++ j.runs.flatMap runBytes) := by
      unfold queryJobBytes
      rw [e, legBytes_eq l (96 + 64 * n)]
      simp only [List.append_assoc]
    rw [hb]
    refine holdsFields_of_aligned _ _ _ ?_
    rw [List.length_append, jobBytes_length, hp]
    simp [aligned, Leg.fieldsAt]
  · obtain ⟨p, q, e, hp⟩ := flatMap_split runBytes_length hr
    have hb : queryJobBytes h j = jobBytes h j ++ j.legs.flatMap legBytes ++ p ++
        fieldBytes (r.fieldsAt (96 + 64 * j.legs.length + 12 * n)) ++ q := by
      unfold queryJobBytes
      rw [e, runBytes_eq r (96 + 64 * j.legs.length + 12 * n)]
      simp only [List.append_assoc]
    rw [hb]
    refine holdsFields_of_aligned (r.fieldsAt (96 + 64 * j.legs.length + 12 * n)) _ _ ?_
    rw [List.length_append, List.length_append, jobBytes_length, flatMap_width legBytes_length, hp]
    simp [aligned, Run.fieldsAt]

end Sys2Proof.Machine
end

