-- ==== Sys2Proof/Proofs/P46.lean ====
section
/-! The bodies of QUERY_TARGET and QUERY_PART (R180, R181), and the three queries. -/

namespace Sys2Proof.Machine

open Sys2Proof

variable {s t : State} {x : Target} {r : Request} {rest : List Request}

/-! ## QUERY_TARGET -/

/-- The fields of QUERY_TARGET's body, of the parts that the target has or that stand for them. -/
def targetFields (s : State) (x : Target) (v : Drive) (r : VerifyReader) (weights : Nat × Nat) : List (Nat × Nat × Nat) :=
  [(0, 1, targetCode x), (1, 1, (s.linkUp (targetPort x)).toNat)] ++ regionFields v.current 2 ++ regionFields v.staged 19 ++
    [(36, 8, v.pointer), (44, 2, (s.writer x).timeout), (46, 1, (s.writer x).retryLimit), (47, 1, (s.writer x).policy.code),
      (48, 2, (s.writer x).queue.length), (50, 1, (s.writer x).retry.length)] ++ tagFields (s.writer x).tags.toList 51 ++
    [(55, 2, s.occupancy x), (57, 2, (s.window x).counter), (59, 2, (s.window x).latch), (61, 2, (s.window x).effective.quota),
      (63, 2, (s.window x).staged.quota), (65, 2, (s.window x).effective.floor), (67, 2, (s.window x).staged.floor),
      (69, 2, (s.window x).effective.ceiling), (71, 2, (s.window x).staged.ceiling), (73, 1, (s.window x).effective.stallLimit),
      (74, 1, (s.window x).staged.stallLimit), (75, 4, (s.window x).issued), (79, 4, (s.window x).acked),
      (83, 1, (s.window x).hadWork.toNat), (84, 4, (s.window x).rate), (88, 1, (s.window x).streak), (89, 1, (s.window x).slow.toNat),
      (90, 1, r.work.length), (91, 1, r.work.head?.isSome.toNat), (92, 1, (r.work.head?.map fun a => a.job.val).getD 0),
      (93, 1, r.retry.length)] ++ tagFields r.tags.toList 94 ++
    [(98, 1, weights.1), (99, 1, weights.2)]

theorem queryTargetBytes_eq (s : State) (x : Target) : s.queryTargetBytes x =
    fieldBytes (targetFields s x (s.driveOf x) (s.readerOf x) ((s.sidesOf x).writeWeight, (s.sidesOf x).checkWeight)) := by
  unfold State.queryTargetBytes targetFields
  dsimp only
  rw [regionBytes_eq (s.driveOf x).current 2, regionBytes_eq (s.driveOf x).staged 19, tagCounts_eq (s.writer x).tags 51,
    tagCounts_eq (s.readerOf x).tags 94, optBytes_eq]
  simp only [fieldBytes_append]
  simp only [fieldBytes, List.flatMap_cons, List.flatMap_nil, flagByte_eq, leBytes_one, List.append_assoc, List.cons_append, List.nil_append,
    List.append_nil, Option.isSome_map]

theorem queryTargetBytes_reported (s : State) (x : Target) : s.targetReportedIn x (s.queryTargetBytes x) := by
  have h : ∀ v r weights, (fieldBytes (targetFields s x v r weights)).length = 100 ∧
      holdsFields (fieldBytes (targetFields s x v r weights)) (targetFields s x v r weights) := fun v r weights => by
    refine ⟨?_, ?_⟩
    · rw [fieldBytes_length]
      simp [fieldWidth, targetFields, regionFields, tagFields]
    · have := holdsFields_of_aligned (targetFields s x v r weights) [] [] (by
        simp [aligned, targetFields, regionFields, tagFields])
      simpa using this
  rw [queryTargetBytes_eq]
  cases x with
  | drive d => exact h _ _ _
  | sink => exact h _ _ _

/-! ## QUERY_PART -/

/-- A port's flag at its place among the fifteen. -/
def portFields (o : Nat) (g : Port → Bool) (p : Port) : List (Nat × Nat × Nat) :=
  [(o + (portIndex p).val, 1, (g p).toNat)]

/-- A lamp's mode and computed state. -/
def lampFields (s : State) (i : Fin 8) : List (Nat × Nat × Nat) :=
  [(277 + 2 * i.val, 1, (s.lamps[i.val]).mode.code), (278 + 2 * i.val, 1, (s.lamps[i.val]).computed.code)]

/-- The fields of QUERY_PART's body in front of the ports' flags. -/
def partHead (s : State) : List (Nat × Nat × Nat) :=
  [(0, 1, s.nodeId0.toNat), (1, 1, s.nodeId1.toNat), (2, 4, s.timer.tick.toNat), (6, 1, s.timer.p), (7, 1, s.timer.stagedP.isSome.toNat),
    (8, 1, s.timer.stagedP.getD 0), (9, 1, s.blink.exponent), (10, 1, s.blink.phase.toNat)]

/-- The pool's three counts and those of the Job Table. -/
def partCounts (s : State) : List (Nat × Nat × Nat) :=
  [(264, 2, s.freeSlots), (266, 2, s.reservedSlots), (268, 2, s.heldSlots), (270, 1, s.entriesIn none),
    (271, 1, s.entriesIn (some .loaded)), (272, 1, s.entriesIn (some .reading)), (273, 1, s.entriesIn (some .settling)),
    (274, 1, s.entriesIn (some .done)), (275, 1, s.entriesIn (some .failed)), (276, 1, s.entriesIn (some .aborted))]

/-- The Notice Queue's count and NOTICE_LOST. -/
def partNotices (s : State) : List (Nat × Nat × Nat) :=
  [(293, 1, s.handler.notices.length), (294, 1, s.handler.noticeLost.toNat)]

/-- The fields of QUERY_PART's body. -/
def partFields (s : State) : List (Nat × Nat × Nat) :=
  partHead s ++ allPorts.flatMap (portFields 11 s.linkUp) ++ allIngest.flatMap (fun i => mediaFields (s.ingest[i.val]).media (26 + 17 * i.val)) ++
    allDrives.flatMap (fun d => mediaFields (s.drives[d.val]).media (162 + 17 * d.val)) ++ partCounts s ++ allIngest.flatMap (lampFields s) ++
    partNotices s ++ allPorts.flatMap (portFields 295 fun p => (s.link p).discard)

theorem portFlags_eq (o : Nat) (g : Port → Bool) (l : List Port) :
    (l.map fun p => flagByte (g p)) = fieldBytes (l.flatMap (portFields o g)) := by
  rw [fieldBytes_flatMap, List.map_eq_flatMap]
  refine List.flatMap_congr fun p _ => ?_
  rw [flagByte_eq]
  rfl

theorem jobCounts_eq (s : State) : s.jobCounts.flatMap (leBytes 1) = fieldBytes
    [(270, 1, s.entriesIn none), (271, 1, s.entriesIn (some .loaded)), (272, 1, s.entriesIn (some .reading)),
      (273, 1, s.entriesIn (some .settling)), (274, 1, s.entriesIn (some .done)), (275, 1, s.entriesIn (some .failed)),
      (276, 1, s.entriesIn (some .aborted))] := by
  have hn : (s.jobs.toList.filter Option.isNone).length = s.entriesIn none := by
    unfold State.entriesIn
    refine congrArg List.length (List.filter_congr fun e _ => ?_)
    cases e <;> rfl
  unfold State.jobCounts
  rw [hn]
  rfl

theorem queryPartBytes_eq (s : State) : s.queryPartBytes = fieldBytes (partFields s) := by
  have h1 : [flagByte s.nodeId0, flagByte s.nodeId1] ++ leBytes 4 s.timer.tick.toNat ++ leBytes 1 s.timer.p ++
      optBytes 1 s.timer.stagedP ++ leBytes 1 s.blink.exponent ++ [flagByte s.blink.phase] = fieldBytes (partHead s) := by
    unfold partHead
    rw [optBytes_eq]
    simp only [fieldBytes, List.flatMap_cons, List.flatMap_nil, flagByte_eq, leBytes_one, List.append_assoc, List.cons_append, List.nil_append,
      List.append_nil]
  have h2 : leBytes 2 s.freeSlots ++ leBytes 2 s.reservedSlots ++ leBytes 2 s.heldSlots ++ s.jobCounts.flatMap (leBytes 1) =
      fieldBytes (partCounts s) := by
    rw [jobCounts_eq]
    simp only [fieldBytes, partCounts, List.flatMap_cons, List.flatMap_nil, List.append_assoc]
  have h3 : leBytes 1 s.handler.notices.length ++ [flagByte s.handler.noticeLost] = fieldBytes (partNotices s) := by
    rw [flagByte_eq]
    rfl
  have h4 : (allIngest.flatMap fun i => leBytes 1 (s.lamps[i.val]).mode.code ++ leBytes 1 (s.lamps[i.val]).computed.code) =
      fieldBytes (allIngest.flatMap (lampFields s)) := by
    rw [fieldBytes_flatMap]
    rfl
  have h5 : allIngest.flatMap (fun i => recordBytes (s.ingest[i.val]).media) =
      fieldBytes (allIngest.flatMap fun i => mediaFields (s.ingest[i.val]).media (26 + 17 * i.val)) := by
    rw [fieldBytes_flatMap]
    exact List.flatMap_congr fun i _ => recordBytes_eq _ _
  have h6 : allDrives.flatMap (fun d => recordBytes (s.drives[d.val]).media) =
      fieldBytes (allDrives.flatMap fun d => mediaFields (s.drives[d.val]).media (162 + 17 * d.val)) := by
    rw [fieldBytes_flatMap]
    exact List.flatMap_congr fun d _ => recordBytes_eq _ _
  unfold partFields
  simp only [fieldBytes_append]
  rw [← h1, ← h2, ← h3, ← h4, ← h5, ← h6, ← portFlags_eq, ← portFlags_eq]
  unfold State.queryPartBytes
  simp only [List.append_assoc]

theorem aligned_append (gs : List (Nat × Nat × Nat)) : ∀ (fs : List (Nat × Nat × Nat)) (o : Nat),
    aligned o (fs ++ gs) = (aligned o fs && aligned (o + fieldWidth fs) gs)
  | [], _ => rfl
  | f :: fs, o => by
    have hw : o + fieldWidth (f :: fs) = o + f.2.1 + fieldWidth fs := by
      unfold fieldWidth
      rw [List.map_cons, List.sum_cons, Nat.add_assoc]
    rw [hw, List.cons_append, aligned, aligned, aligned_append gs fs, Bool.and_assoc]

theorem fieldWidth_append (fs gs : List (Nat × Nat × Nat)) : fieldWidth (fs ++ gs) = fieldWidth fs + fieldWidth gs := by
  unfold fieldWidth
  rw [List.map_append, List.sum_append]

theorem portFields_aligned (g : Port → Bool) (o : Nat) : aligned o (allPorts.flatMap (portFields o g)) = true ∧
    fieldWidth (allPorts.flatMap (portFields o g)) = 15 := by
  simp [allPorts, allIngest, allDrives, portFields, aligned, fieldWidth, portIndex]

theorem cardFields_aligned (s : State) : aligned 26 (allIngest.flatMap fun i => mediaFields (s.ingest[i.val]).media (26 + 17 * i.val)) = true ∧
    fieldWidth (allIngest.flatMap fun i => mediaFields (s.ingest[i.val]).media (26 + 17 * i.val)) = 136 := by
  simp [allIngest, mediaFields, aligned, fieldWidth]

theorem driveFields_aligned (s : State) :
    aligned 162 (allDrives.flatMap fun d => mediaFields (s.drives[d.val]).media (162 + 17 * d.val)) = true ∧
      fieldWidth (allDrives.flatMap fun d => mediaFields (s.drives[d.val]).media (162 + 17 * d.val)) = 102 := by
  simp [allDrives, mediaFields, aligned, fieldWidth]

theorem lampFields_aligned (s : State) : aligned 277 (allIngest.flatMap (lampFields s)) = true ∧
    fieldWidth (allIngest.flatMap (lampFields s)) = 16 := by
  simp [allIngest, lampFields, aligned, fieldWidth]

theorem partFields_aligned (s : State) : aligned 0 (partFields s) = true ∧ fieldWidth (partFields s) = 310 := by
  have h0 : aligned 0 (partHead s) = true ∧ fieldWidth (partHead s) = 11 := by simp [partHead, aligned, fieldWidth]
  have h1 : aligned 264 (partCounts s) = true ∧ fieldWidth (partCounts s) = 13 := by simp [partCounts, aligned, fieldWidth]
  have h2 : aligned 293 (partNotices s) = true ∧ fieldWidth (partNotices s) = 2 := by simp [partNotices, aligned, fieldWidth]
  have hup := portFields_aligned s.linkUp 11
  have hdi := portFields_aligned (fun p => (s.link p).discard) 295
  unfold partFields
  simp [aligned_append, fieldWidth_append, h0, h1, h2, hup, hdi, cardFields_aligned, driveFields_aligned, lampFields_aligned]

theorem mem_allIngest (i : Fin 8) : i ∈ allIngest := by
  revert i
  decide

theorem mem_allPorts (p : Port) : p ∈ allPorts := by
  unfold allPorts
  cases p with
  | ingest i => simp [mem_allIngest i]
  | drive d => simp [mem_allDrives d]
  | control => simp

theorem queryPartBytes_reported (s : State) : s.partReportedIn s.queryPartBytes := by
  have h : holdsFields (fieldBytes (partFields s)) (partFields s) := by
    have := holdsFields_of_aligned (partFields s) [] [] (partFields_aligned s).1
    simpa using this
  rw [queryPartBytes_eq]
  refine ⟨(fieldBytes_length _).trans (partFields_aligned s).2, h.mono ?_, fun p => h.mono ?_, fun i => h.mono ?_, fun d => h.mono ?_⟩
  · intro f hf
    have hf : f ∈ partHead s ++ partCounts s ++ partNotices s := hf
    unfold partFields
    simp only [List.mem_append] at hf ⊢
    tauto
  · intro f hf
    have h1 : f ∈ portFields 11 s.linkUp p ++ portFields 295 (fun p => (s.link p).discard) p := hf
    unfold partFields
    simp only [List.mem_append, List.mem_flatMap] at h1 ⊢
    rcases h1 with h1 | h1
    · exact .inl (.inl (.inl (.inl (.inl (.inl (.inr ⟨p, mem_allPorts p, h1⟩))))))
    · exact .inr ⟨p, mem_allPorts p, h1⟩
  · intro f hf
    have h1 : f ∈ mediaFields (s.ingest[i.val]).media (26 + 17 * i.val) ++ lampFields s i := hf
    unfold partFields
    simp only [List.mem_append, List.mem_flatMap] at h1 ⊢
    rcases h1 with h1 | h1
    · exact .inl (.inl (.inl (.inl (.inl (.inr ⟨i, mem_allIngest i, h1⟩)))))
    · exact .inl (.inl (.inr ⟨i, mem_allIngest i, h1⟩))
  · intro f hf
    unfold partFields
    simp only [List.mem_append, List.mem_flatMap]
    exact .inl (.inl (.inl (.inl (.inr ⟨d, mem_allDrives d, hf⟩))))

/-! ## The queries -/

theorem transmit_handler (s : State) : s.transmit.handler = s.handler := by
  obtain ⟨-, -, -, -, -, -, -, -, -, h, -⟩ := transmit_fields s
  exact h

theorem exec_queryJob {h : Fin 64} {j : Job} (a : s.takes r rest) (hk : r.kind = 4) (hb : readHandle r.body = some h) (hj : s.job? h = some j) :
    exec .queryJob s = .next (s.answered r rest .ok (queryJobBytes h j)).transmit := by
  have he : exec .queryJob s = .next (s.take applyQueryJob).transmit := by
    simp only [exec, execQueryJob]
    exact event_enabled a.1 (a.canTake hk)
  have happ : applyQueryJob r.body (s.taken rest) = ⟨s.taken rest, .ok, queryJobBytes h j⟩ := by
    unfold applyQueryJob
    rw [hb]
    dsimp only
    rw [show (s.taken rest).job? h = some j from hj]
  rw [he, a.take_eq applyQueryJob, happ]
  rfl

theorem exec_queryTarget {k : Nat} (a : s.takes r rest) (hk : r.kind = 6) (hb : readPortCode r.body = some k) (hx : targetOfCode k = some x) :
    exec .queryTarget s = .next (s.answered r rest .ok (s.queryTargetBytes x)).transmit := by
  have he : exec .queryTarget s = .next (s.take applyQueryTarget).transmit := by
    simp only [exec, execQueryTarget]
    exact event_enabled a.1 (a.canTake hk)
  have happ : applyQueryTarget r.body (s.taken rest) = ⟨s.taken rest, .ok, s.queryTargetBytes x⟩ := by
    unfold applyQueryTarget
    rw [hb, Option.bind_some, hx]
    rfl
  rw [he, a.take_eq applyQueryTarget, happ]
  rfl

theorem exec_queryPart (a : s.takes r rest) (hk : r.kind = 10) (hb : r.body = []) :
    exec .queryPart s = .next ((s.taken rest).clearFlags.respond ⟨r.seq, r.kind, .ok, s.queryPartBytes⟩).transmit := by
  have he : exec .queryPart s = .next (s.take applyQueryPart).transmit := by
    simp only [exec, execQueryPart]
    exact event_enabled a.1 (a.canTake hk)
  have happ : applyQueryPart r.body (s.taken rest) = ⟨(s.taken rest).clearFlags, .ok, s.queryPartBytes⟩ := by
    unfold applyQueryPart
    rw [if_pos hb]
    rfl
  rw [he, a.take_eq applyQueryPart, happ]

theorem clearFlags_link (s : State) (p : Port) : s.clearFlags.link p = { s.link p with discard := false } := by
  unfold State.link State.clearFlags
  rw [Vector.getElem_map]

theorem targetOfCode_iff (n : Nat) (x : Target) : targetOfCode n = some x ↔ n = targetCode x := by
  unfold targetOfCode targetCode
  constructor
  · intro h
    split at h
    · cases h
      dsimp only
      omega
    · split at h
      · cases h
        assumption
      · cases h
  · rintro rfl
    cases x with
    | drive d =>
      dsimp only
      rw [dif_pos (by omega)]
      simp
    | sink => rfl

/-- Settles O57: each body is the fields laid out behind each other, formed on the state at its taking. -/
theorem queriesReportTheState : Obligations.QueriesReportTheState := by
  refine ⟨fun s r rest a => ⟨fun h j hk hb hj => ?_, fun k x hk hb hx => ?_, fun hk hb => ?_⟩, rfl, rfl, rfl, rfl, rfl, rfl, rfl, fun d => rfl, rfl,
    targetOfCode_iff⟩
  · exact ⟨_, queryJobBytes_reported h j, _, exec_queryJob a hk hb hj, transmit_settles _, transmit_handler _⟩
  · exact ⟨_, queryTargetBytes_reported s x, _, exec_queryTarget a hk hb hx, transmit_settles _, transmit_handler _⟩
  · have hset := transmit_settles ((s.taken rest).clearFlags.respond ⟨r.seq, r.kind, .ok, s.queryPartBytes⟩)
    have hlink : ∀ p, ((s.taken rest).clearFlags.respond ⟨r.seq, r.kind, .ok, s.queryPartBytes⟩).link p = { s.link p with discard := false } :=
      clearFlags_link (s.taken rest)
    have hh := transmit_handler ((s.taken rest).clearFlags.respond ⟨r.seq, r.kind, .ok, s.queryPartBytes⟩)
    refine ⟨_, queryPartBytes_reported s, _, _, exec_queryPart a hk hb, hset, rfl, hlink, hh, ?_, fun p => ?_⟩
    · rw [hh]
      rfl
    · rw [(hset.links p).1, hlink p]

end Sys2Proof.Machine
end

