-- ==== Sys2Proof/Proofs/P47.lean ====
section
/-! An acknowledgement (R102): the write is counted, its slot settled and its tag FREE; the leg's last block queues its verification or ends the
leg (R17), and its job (R15). -/

namespace Sys2Proof.Machine

open Sys2Proof

variable {s t u v : State} {x : Target} {k : Fin 16} {w : TagWork} {issued : Tick} {gen : Gen} {due : Bool} {r : LegRef} {l : Leg} {j : Job}

/-! ## Slots by number -/

/-- Slots changed or freed one by one keep their numbers. -/
theorem find_filterMap {g : Slot → Option Slot} (hg : ∀ y z, g y = some z → z.num = y.num) (n : Nat) : ∀ p : List Slot,
    (p.map Slot.num).Pairwise (· ≠ ·) → (p.filterMap g).find? (fun y => y.num == n) = (p.find? fun y => y.num == n).bind g
  | [], _ => rfl
  | y :: p, h => by
    obtain ⟨hy, hp⟩ := List.pairwise_cons.mp h
    have ih := find_filterMap hg n p hp
    by_cases hn : y.num = n
    · have hrest : p.find? (fun y => y.num == n) = none := by
        rw [List.find?_eq_none]
        intro z hz e
        exact hy z.num (List.mem_map_of_mem hz) (hn.trans (LawfulBEq.eq_of_beq e).symm)
      rw [hrest] at ih
      rw [List.find?_cons_of_pos (by simpa using hn), Option.bind_some]
      cases e : g y with
      | none => rw [List.filterMap_cons_none e]; exact ih
      | some z => rw [List.filterMap_cons_some e, List.find?_cons_of_pos (by simpa using (hg y z e).trans hn)]
    · rw [List.find?_cons_of_neg (by simpa using hn)]
      cases e : g y with
      | none => rw [List.filterMap_cons_none e]; exact ih
      | some z =>
        have hz : z.num ≠ n := fun q => hn ((hg y z e).symm.trans q)
        rw [List.filterMap_cons_some e, List.find?_cons_of_neg (by simpa using hz)]
        exact ih

theorem State.poolOk.nums (hp : s.poolOk) : (s.slots.map Slot.num).Pairwise (· ≠ ·) :=
  ((poolWf_iff _).mp hp).1.imp Nat.ne_of_lt

theorem slot?_num {n : Nat} {y : Slot} (e : s.slot? n = some y) : y.num = n := by
  simpa using List.find?_some e

/-- One slot changed, and freed if it is done with. -/
def Slot.doneIf (num : Nat) (f : Slot → Slot) (y : Slot) : Option Slot :=
  if y.num = num then (if (f y).freeable then none else some (f y)) else some y

theorem doneIf_num {num : Nat} {f : Slot → Slot} (hf : ∀ y, (f y).num = y.num) {y z : Slot} (e : y.doneIf num f = some z) : z.num = y.num := by
  unfold Slot.doneIf at e
  split at e
  · split at e
    · cases e
    · cases e
      exact hf y
  · cases e
    rfl

theorem doneIf_eq {num : Nat} {f : Slot → Slot} (hf : ∀ y, (f y).num = y.num) (p : List Slot) :
    (p.map fun y => if y.num = num then f y else y).filter (fun y => !(y.num == num && y.freeable)) = p.filterMap (Slot.doneIf num f) := by
  rw [List.filter_map, ← List.filterMap_eq_filter, List.map_filterMap]
  refine List.filterMap_congr fun y _ => ?_
  unfold Slot.doneIf
  by_cases hy : y.num = num
  · by_cases he : (f y).freeable <;> simp [Option.guard, hy, hf, he]
  · simp [Option.guard, hy]

/-- One slot changed, and freed if it is done with, by number. -/
theorem slot?_doneIf {num : Nat} {f : Slot → Slot} (hf : ∀ y, (f y).num = y.num) (hp : s.poolOk)
    (hs : t.slots = s.slots.filterMap (Slot.doneIf num f)) {y : Slot} (hy : s.slot? num = some y) (n : Nat) :
    t.slot? n = if n = num then (if (f y).freeable then none else some (f y)) else s.slot? n := by
  unfold State.slot?
  rw [hs, find_filterMap (fun _ _ => doneIf_num hf) n _ hp.nums]
  by_cases hn : n = num
  · subst hn
    rw [if_pos rfl, show s.slots.find? (fun y => y.num == n) = some y from hy, Option.bind_some]
    unfold Slot.doneIf
    rw [if_pos (slot?_num hy)]
  · rw [if_neg hn]
    cases e : s.slots.find? fun y => y.num == n with
    | none => rfl
    | some z =>
      rw [Option.bind_some]
      unfold Slot.doneIf
      rw [if_neg]
      rw [slot?_num (s := s) e]
      exact hn

/-! ## The acknowledgement but for the leg's end -/

/-- An acknowledgement's counts, slot and tag. -/
def State.acked (s : State) (x : Target) (k : Fin 16) (w : TagWork) : State :=
  ((((s.settleSlot w.slot x).countLeg w.ref fun l => { l with acked := l.acked + 1 }).modWindow x fun q =>
    { q with acked := countUp q.acked }).setWriteTag x k BlockTag.release).freeIfDone w.slot

theorem acknowledge_eq (s : State) (x : Target) (k : Fin 16) (w : TagWork) :
    s.acknowledge x k w = if (s.acked x k w).fullyAcked w.ref then (s.acked x k w).legWritten w.ref else (s.acked x k w, []) := rfl

theorem modify_congr {α : Type} {f g : α → α} : ∀ {p : List α} {n : Nat} {a : α}, p[n]? = some a → f a = g a → p.modify n f = p.modify n g
  | _ :: p, 0, _, h, e => by
    cases h
    rw [List.modify_zero_cons, List.modify_zero_cons, e]
  | _ :: p, n + 1, a, h, e => by
    rw [List.modify_succ_cons, List.modify_succ_cons, modify_congr (p := p) h e]

/-- A job with one leg replaced. -/
def Job.withLeg (j : Job) (n : Nat) (m : Leg) : Job :=
  { j with legs := j.legs.modify n fun _ => m }

/-- What an acknowledgement changes. -/
structure State.acksTo (s : State) (x : Target) (k : Fin 16) (w : TagWork) (gen : Gen) (l : Leg) (j : Job) (y : Slot) (u : State) : Prop where
  frame : u = { s with links := u.links, slots := u.slots, jobs := u.jobs, writers := u.writers, windows := u.windows }
  links : ∀ p, u.link p = if p = targetPort x then { s.link p with hunting := false } else s.link p
  windows : ∀ z, u.window z = if z = x then { s.window x with acked := min ((s.window x).acked + 1) (2 ^ 32 - 1) } else s.window z
  writers : ∀ z, u.writer z =
    if z = x then { s.writer x with tags := setEntry (s.writer x).tags k fun _ => ⟨.free, gen, false⟩ } else s.writer z
  slots : ∀ n, u.slot? n = if n = w.slot then (if (y.settle x).freeable then none else some (y.settle x)) else s.slot? n
  others : ∀ g, g ≠ w.ref.job → u.job? g = s.job? g
  job : u.job? w.ref.job = some (if j.state.terminal then j else j.withLeg w.ref.leg { l with acked := l.acked + 1 })

theorem acked_acks {y : Slot} (hp : s.poolOk) (htag : (s.writer x).tags[k.val] = ⟨.sent w issued, gen, due⟩) (hl : s.leg? w.ref = some l)
    (hj : s.job? w.ref.job = some j) (hy : s.slot? w.slot = some y) :
    s.acksTo x k w gen l j y ((s.received (targetPort x)).acked x k w) := by
  have hrel : ((s.received (targetPort x)).settleSlot w.slot x).setWriteTag x k BlockTag.release =
      ((s.received (targetPort x)).settleSlot w.slot x).modWriter x fun q => { q with tags := setEntry q.tags k fun _ => ⟨.free, gen, false⟩ } :=
    setWriteTag_eq (s := (s.received (targetPort x)).settleSlot w.slot x) (g := ⟨.free, gen, false⟩) (by
      rw [show (((s.received (targetPort x)).settleSlot w.slot x).writer x).tags[k.val] = ⟨.sent w issued, gen, due⟩ from htag]
      rfl)
  have hwr : ((s.received (targetPort x)).acked x k w).writers =
      setEntry s.writers (targetIndex x) fun q => { q with tags := setEntry q.tags k fun _ => ⟨.free, gen, false⟩ } :=
    congrArg State.writers hrel
  refine ⟨rfl, fun p => ?_, fun z => ?_, fun z => ?_, fun n => ?_, fun g hg => ?_, ?_⟩
  · change (s.modLink (targetPort x) _).link p = _
    rw [State.link_modLink]
    by_cases e : p = targetPort x
    · subst e
      rw [if_pos rfl]
    · rw [if_neg (Ne.symm e), if_neg e]
  · change (s.modWindow x _).window z = _
    rw [State.window_modWindow]
    by_cases e : z = x
    · subst e
      rw [if_pos rfl, if_pos rfl]
      rfl
    · rw [if_neg (Ne.symm e), if_neg e]
  · rw [State.writer, hwr, setEntry_getElem]
    by_cases e : z = x
    · subst e
      rw [if_pos rfl, if_pos rfl]
      rfl
    · rw [if_neg fun q => e (targetIndex_inj.mp q).symm, if_neg e]
      rfl
  · exact slot?_doneIf (fun y => y.settle_num x) hp (doneIf_eq (fun y => y.settle_num x) s.slots) hy n
  · change (s.countLeg w.ref _).job? g = _
    rw [State.countLeg, State.job?_count, if_neg (Ne.symm hg)]
  · change (s.countLeg w.ref _).job? w.ref.job = _
    rw [State.countLeg, State.job?_count, if_pos rfl, hj, Option.map_some]
    obtain ⟨q, hq, hlq⟩ := State.leg?_eq_some.mp hl
    rw [hj] at hq
    cases hq
    split
    · rfl
    · rw [Job.withLeg, modify_congr (f := fun l => { l with acked := l.acked + 1 }) (g := fun _ => { l with acked := l.acked + 1 }) hlq rfl]

/-! ## The leg's last block -/

theorem withLeg_modify (j : Job) {n : Nat} (m : Leg) (g : Leg → Leg) :
    ({ j.withLeg n m with legs := (j.withLeg n m).legs.modify n g } : Job) = j.withLeg n (g m) := by
  unfold Job.withLeg
  dsimp only
  rw [List.modify_modify_eq]
  rfl

theorem modLeg_withLeg {m : Leg} (hj : s.job? r.job = some (j.withLeg r.leg m)) (g : Leg → Leg) :
    (s.modLeg r g).job? r.job = some (j.withLeg r.leg (g m)) := by
  rw [State.job?_modLeg, if_pos rfl, hj, Option.map_some, withLeg_modify]

theorem leg?_withLeg {m : Leg} (hl : j.legs[r.leg]? = some l) (hj : s.job? r.job = some (j.withLeg r.leg m)) : s.leg? r = some m := by
  refine State.leg?_eq_some.mpr ⟨_, hj, ?_⟩
  unfold Job.withLeg
  dsimp only
  rw [List.getElem?_modify_eq, hl]
  rfl

theorem activateHead_written {d : Fin 6} {rest : List LegRef} (hw : (s.readers[d.val]).work = r :: rest) (hl : s.leg? r = some l)
    (hj : s.job? r.job = some j) (hs : l.state = .written) (hn : j.blocks ≠ 0) :
    s.activateHead d = (s.modLeg r fun l => { l with state := .verifying }, []) := by
  unfold State.activateHead
  rw [hw]
  dsimp only
  rw [hl, hj]
  dsimp only
  rw [if_pos hs, if_neg hn]

theorem activateHead_stands {d : Fin 6} (hw : ∀ r rest l, (s.readers[d.val]).work = r :: rest → s.leg? r = some l → l.state ≠ .written) :
    s.activateHead d = (s, []) := by
  rcases activateHead_cases s d with e | ⟨r, rest, l, j, hwr, hl, -, hs, -⟩
  · exact e
  · exact absurd hs (hw r rest l hwr hl)

/-- Whose last block an acknowledgement is. -/
theorem fullyAcked_iff {y : Slot} (a : s.acksTo x k w gen l j y u) (hl : s.leg? w.ref = some l) (hj : s.job? w.ref.job = some j) :
    u.fullyAcked w.ref = true ↔ j.state.terminal = false ∧ l.acked + 1 = j.blocks ∧ l.state = .writing := by
  obtain ⟨q, hq, hlq⟩ := State.leg?_eq_some.mp hl
  rw [hj] at hq
  cases hq
  have hjob := a.job
  unfold State.fullyAcked
  by_cases ht : j.state.terminal = true
  · rw [if_pos ht] at hjob
    have hleg : u.leg? w.ref = some l := State.leg?_eq_some.mpr ⟨j, hjob, hlq⟩
    rw [hleg, hjob]
    simp [ht]
  · rw [if_neg ht] at hjob
    rw [leg?_withLeg hlq hjob, hjob]
    have hb : (j.withLeg w.ref.leg { l with acked := l.acked + 1 }).blocks = j.blocks := rfl
    have hs : (j.withLeg w.ref.leg { l with acked := l.acked + 1 }).state = j.state := rfl
    simp only [hb, hs, Bool.and_eq_true, decide_eq_true_eq, Bool.not_eq_true']
    tauto

/-- The end of a job that has not ended. -/
theorem finishJob_eq {h : Fin 64} (hj : s.job? h = some j) (ht : j.state.terminal = false) (o : JobState) (c : Option JobCause) :
    s.finishJob h o c =
      if j.session then
        (s.modJob h fun j => { j with state := o, cause := c, finishedAt := some s.now }).modSession j.port fun c => c.ended o
      else s.modJob h fun j => { j with state := o, cause := c, finishedAt := some s.now } := by
  unfold State.finishJob
  rw [hj]
  dsimp only
  rw [if_neg (by rw [ht]; exact Bool.false_ne_true)]

/-- The test of a job with a viable leg (R15). -/
theorem testJob_viable {h : Fin 64} (hj : s.job? h = some j) (hv : ∃ m ∈ j.legs, m.state.viable = true) :
    (j.finalisable = false → s.testJob h = (s, [])) ∧
      (j.finalisable = true → s.testJob h =
        (if j.required ≤ j.goodLegs then s.finishJob h .done none else s.finishJob h .failed (some .insufficientCopies), [])) := by
  have hviable : j.viableLegs ≠ 0 := by
    obtain ⟨m, hm, hmv⟩ := hv
    intro e
    rw [viableLegs_eq_zero.mp e m hm] at hmv
    cases hmv
  rcases testJob_cases s h with ⟨e, hno⟩ | ⟨q, hq, -, ⟨h0, -⟩ | ⟨-, hf, hg, e⟩ | ⟨-, hf, hg, e⟩⟩
  · refine ⟨fun _ => e, fun hs => ?_⟩
    have := (hno j hj (.inr (finalisable_iff.mp hs).1)).2
    rw [hs] at this
    cases this
  · rw [hj] at hq
    cases hq
    exact absurd h0 hviable
  · rw [hj] at hq
    cases hq
    exact ⟨fun hn => absurd (hf.symm.trans hn) Bool.noConfusion, fun _ => by rw [e, if_pos hg]⟩
  · rw [hj] at hq
    cases hq
    exact ⟨fun hn => absurd (hf.symm.trans hn) Bool.noConfusion, fun _ => by rw [e, if_neg hg]⟩

/-- A leg's last block acknowledged: WRITTEN, its acknowledged count as given. -/
def Leg.writtenAt (l : Leg) (now : Tick) : Leg :=
  { l with acked := l.acked + 1, state := .written, written := some now }

/-- A leg to be verified joins its drive's verify work list, and becomes VERIFYING where the list was empty (R119, R120). -/
theorem legWritten_verifies {y : Slot} {d : Fin 6} (a : s.acksTo x k w gen l j y u) (hl : s.leg? w.ref = some l)
    (hj : s.job? w.ref.job = some j) (ht : j.state.terminal = false) (hn : j.blocks ≠ 0) (hs : l.state = .writing) (hv : l.verify = true)
    (hd : l.target = .drive d) (ho : s.outcomesOk) (hh : s.headsActive) :
    ∃ b : State, cascadeOf (u.legWritten w.ref) = b ∧ b = { u with jobs := b.jobs, readers := b.readers } ∧
      (∀ e : Fin 6, b.readers[e.val] =
        if e = d then { s.readers[d.val] with work := (s.readers[d.val]).work ++ [w.ref] } else s.readers[e.val]) ∧
      (∀ g, g ≠ w.ref.job → b.job? g = u.job? g) ∧
      b.job? w.ref.job =
        some (j.withLeg w.ref.leg { l.writtenAt s.now with state := if (s.readers[d.val]).work = [] then .verifying else .written }) := by
  obtain ⟨q, hq, hlq⟩ := State.leg?_eq_some.mp hl
  rw [hj] at hq
  cases hq
  have hujob := a.job
  rw [if_neg (by rw [ht]; exact Bool.false_ne_true)] at hujob
  have huleg := leg?_withLeg hlq hujob
  have hur : u.readers = s.readers := by rw [a.frame]
  have hun : u.now = s.now := by rw [a.frame]; rfl
  obtain ⟨b, hb⟩ : ∃ b, b = ((u.modLeg w.ref fun l => { l with state := .written, written := some u.now }).modReader d fun v =>
    { v with work := v.work ++ [w.ref] }) := ⟨_, rfl⟩
  have hlw : u.legWritten w.ref = (b, [.activate d]) := by
    rcases legWritten_cases u w.ref with ⟨hn, -⟩ | ⟨m, hm, ⟨e, -, he, eq⟩ | ⟨hne, -⟩⟩
    · rw [huleg] at hn
      cases hn
    · rw [huleg] at hm
      cases hm
      have : e = d := by
        have h1 : l.target = .drive e := he
        rw [hd] at h1
        cases h1
        rfl
      rw [eq, hb, this]
    · rw [huleg] at hm
      cases hm
      rcases hne with h1 | h1
      · rw [show l.verify = false from h1] at hv
        cases hv
      · rw [show l.target = .sink from h1] at hd
        cases hd
  have hbjob : b.job? w.ref.job = some (j.withLeg w.ref.leg (l.writtenAt s.now)) := by
    rw [hb, ← hun]
    exact modLeg_withLeg hujob _
  have hbleg : b.leg? w.ref = some (l.writtenAt s.now) := leg?_withLeg hlq hbjob
  have hbr : ∀ e : Fin 6, b.readers[e.val] =
      if e = d then { s.readers[d.val] with work := (s.readers[d.val]).work ++ [w.ref] } else s.readers[e.val] := fun e => by
    rw [hb, State.modReader_readers, setEntry_getElem]
    change (if d = e then ({ u.readers[d.val] with work := (u.readers[d.val]).work ++ [w.ref] } : VerifyReader) else u.readers[e.val]) = _
    rw [hur]
    by_cases he : e = d
    · subst he
      rw [if_pos rfl]
    · rw [if_neg (Ne.symm he), if_neg he]
  have hbo : ∀ g, g ≠ w.ref.job → b.job? g = u.job? g := fun g hg => by
    rw [hb]
    exact (State.job?_modLeg u w.ref g _).trans (if_neg (Ne.symm hg))
  have hbd : (b.readers[d.val]).work = (s.readers[d.val]).work ++ [w.ref] := by rw [hbr d, if_pos rfl]
  rw [hlw]
  by_cases hw : (s.readers[d.val]).work = []
  · have hact := activateHead_written (s := b) (rest := []) (by rw [hbd, hw]; rfl) hbleg hbjob rfl hn
    have hc : b.cascade [.activate d] = b.modLeg w.ref fun l => { l with state := .verifying } := cascade_one hact
    refine ⟨_, hc, ?_, hbr, fun g hg => ?_, ?_⟩
    · rw [hb]
      rfl
    · rw [State.job?_modLeg, if_neg (Ne.symm hg)]
      exact hbo g hg
    · rw [if_pos hw]
      exact modLeg_withLeg hbjob _
  · have hact : b.activateHead d = (b, []) := by
      refine activateHead_stands fun r rest m hr hm => ?_
      obtain ⟨r0, rest0, hr0⟩ := List.exists_cons_of_ne_nil hw
      have hrr : r0 = r := by
        rw [hbd, hr0] at hr
        exact (List.cons.inj hr).1
      subst hrr
      obtain ⟨m0, hm0, -, -, hms⟩ := (ho.2 d).2 r0 (by rw [hr0]; exact List.mem_cons_self)
      have hne : r0 ≠ w.ref := by
        rintro rfl
        rw [hl] at hm0
        cases hm0
        rcases hms with e | e <;> rw [hs] at e <;> cases e
      have hbm : b.leg? r0 = s.leg? r0 := by
        rw [hb]
        change (u.modLeg w.ref _).leg? r0 = _
        rw [State.leg?_modLeg, if_neg (Ne.symm hne)]
        by_cases hg : r0.job = w.ref.job
        · unfold State.leg?
          rw [hg, hujob, hj, Option.bind_some, Option.bind_some]
          unfold Job.withLeg
          dsimp only
          rw [List.getElem?_modify_ne]
          exact fun e => hne (by cases r0; cases hwr : w.ref; rw [hwr] at hg e; cases hg; cases e; rfl)
        · unfold State.leg?
          rw [a.others _ hg]
      rw [hbm] at hm
      exact hh d r0 rest0 m hr0 hm
    have hc : b.cascade [.activate d] = b := cascade_one hact
    refine ⟨_, hc, by rw [hb]; rfl, hbr, hbo, ?_⟩
    rw [if_neg hw]
    exact hbjob

/-- A leg that is not to be verified, ended by its last acknowledgement (R17). -/
def Leg.goodAt (l : Leg) (now : Tick) : Leg :=
  { l.writtenAt now with state := .good, cause := none, finished := some now }

/-- What a job's finalisation makes of it (R15). -/
def Job.finalisedAt (j : Job) (now : Tick) : Job :=
  { j with
    state := if decide (j.required ≤ j.goodLegs) then .done else .failed
    cause := if decide (j.required ≤ j.goodLegs) then none else some .insufficientCopies
    finishedAt := some now }

/-- The session counters of a port whose job has been finalised. -/
def Session.finalised (c : Session) (copied : Bool) : Session :=
  if copied then { c with live := c.live - 1, done := min (c.done + 1) 65535 }
  else { c with live := c.live - 1, failed := min (c.failed + 1) 65535 }

/-- The end of a job with its copies counted. -/
theorem finalise_finishes {h : Fin 64} (hj : s.job? h = some j) (ht : j.state.terminal = false) :
    ∃ b : State, (if j.required ≤ j.goodLegs then s.finishJob h .done none else s.finishJob h .failed (some .insufficientCopies)) = b ∧
      b = { s with jobs := b.jobs, sessions := b.sessions } ∧ (∀ g, g ≠ h → b.job? g = s.job? g) ∧
      b.job? h = some (j.finalisedAt s.now) ∧
      ∀ i : Fin 8, b.sessions[i.val] =
        if i = j.port ∧ j.session = true then (s.sessions[i.val]).finalised (decide (j.required ≤ j.goodLegs)) else s.sessions[i.val] := by
  have main : ∀ (o : JobState) (c : Option JobCause), (s.finishJob h o c) = { s with
      jobs := (s.finishJob h o c).jobs, sessions := (s.finishJob h o c).sessions } ∧
      (∀ g, g ≠ h → (s.finishJob h o c).job? g = s.job? g) ∧
      (s.finishJob h o c).job? h = some { j with state := o, cause := c, finishedAt := some s.now } ∧
      ∀ i : Fin 8, (s.finishJob h o c).sessions[i.val] =
        if i = j.port ∧ j.session = true then (s.sessions[i.val]).ended o else s.sessions[i.val] := fun o c => by
    refine ⟨?_, fun g hg => by rw [finishJob_job?, if_neg (Ne.symm hg)], ?_, fun i => ?_⟩
    · rw [finishJob_eq hj ht]
      split <;> rfl
    · rw [finishJob_job?, if_pos rfl, hj, Option.map_some, Job.finished, if_neg (by rw [ht]; exact Bool.false_ne_true)]
    · rw [finishJob_eq hj ht]
      by_cases hs : j.session = true
      · rw [if_pos hs]
        change (setEntry s.sessions j.port fun c => c.ended o)[i.val] = _
        rw [setEntry_getElem]
        by_cases hi : i = j.port
        · subst hi
          rw [if_pos rfl, if_pos ⟨rfl, hs⟩]
        · rw [if_neg (Ne.symm hi), if_neg fun e => hi e.1]
      · rw [if_neg hs, if_neg fun e => hs e.2]
        rfl
  unfold Job.finalisedAt Session.finalised
  by_cases hg : j.required ≤ j.goodLegs
  · rw [if_pos hg, decide_eq_true hg]
    exact ⟨_, rfl, main .done none⟩
  · rw [if_neg hg, decide_eq_false hg]
    exact ⟨_, rfl, main .failed (some .insufficientCopies)⟩

/-- A leg that is not to be verified ends GOOD, and its job where that is due (R15, R17). -/
theorem legWritten_ends {y : Slot} (a : s.acksTo x k w gen l j y u) (hl : s.leg? w.ref = some l) (hj : s.job? w.ref.job = some j)
    (ht : j.state.terminal = false) (hv : l.verify = false ∨ l.target = .sink) :
    ∃ b : State, cascadeOf (u.legWritten w.ref) = b ∧ b = { u with jobs := b.jobs, sessions := b.sessions } ∧
      (∀ g, g ≠ w.ref.job → b.job? g = u.job? g) ∧
      ((j.withLeg w.ref.leg (l.goodAt s.now)).finalisable = false →
        b.job? w.ref.job = some (j.withLeg w.ref.leg (l.goodAt s.now)) ∧ b.sessions = u.sessions) ∧
      ((j.withLeg w.ref.leg (l.goodAt s.now)).finalisable = true →
        b.job? w.ref.job = some ((j.withLeg w.ref.leg (l.goodAt s.now)).finalisedAt s.now) ∧
        ∀ i : Fin 8, b.sessions[i.val] =
          if i = j.port ∧ j.session = true then
            (u.sessions[i.val]).finalised (decide (j.required ≤ (j.withLeg w.ref.leg (l.goodAt s.now)).goodLegs))
          else u.sessions[i.val]) := by
  obtain ⟨q, hq, hlq⟩ := State.leg?_eq_some.mp hl
  rw [hj] at hq
  cases hq
  have hujob := a.job
  rw [if_neg (by rw [ht]; exact Bool.false_ne_true)] at hujob
  have huleg := leg?_withLeg hlq hujob
  have hun : u.now = s.now := by rw [a.frame]; rfl
  obtain ⟨b, hb⟩ : ∃ b, b = (u.modLeg w.ref fun l => { l with state := .written, written := some u.now }).endLeg w.ref .good none := ⟨_, rfl⟩
  have hlw : u.legWritten w.ref = (b, [.test w.ref.job]) := by
    rcases legWritten_cases u w.ref with ⟨hn, -⟩ | ⟨m, hm, ⟨e, hve, he, -⟩ | ⟨-, eq⟩⟩
    · rw [huleg] at hn
      cases hn
    · rw [huleg] at hm
      cases hm
      rcases hv with h1 | h1
      · rw [show l.verify = true from hve] at h1
        cases h1
      · rw [show l.target = .drive e from he] at h1
        cases h1
    · rw [eq, hb]
  have hbjob : b.job? w.ref.job = some (j.withLeg w.ref.leg (l.goodAt s.now)) := by
    have h1 := modLeg_withLeg hujob fun l => { l with state := .written, written := some u.now }
    have h2 := modLeg_withLeg h1 (Leg.ended u.now .good none)
    rw [hb, ← hun]
    exact h2
  have hbo : ∀ g, g ≠ w.ref.job → b.job? g = u.job? g := fun g hg => by
    rw [hb]
    refine (State.job?_modLeg _ w.ref g _).trans ?_
    rw [if_neg (Ne.symm hg), State.job?_modLeg, if_neg (Ne.symm hg)]
  have hbf : b = { u with jobs := b.jobs, sessions := b.sessions } := by rw [hb]; rfl
  have hbn : b.now = s.now := by rw [hbf]; exact hun
  have hbs : b.sessions = u.sessions := by rw [hb]; rfl
  have hv : ∃ m ∈ (j.withLeg w.ref.leg (l.goodAt s.now)).legs, m.state.viable = true := by
    have := leg?_withLeg hlq hbjob
    obtain ⟨q, hq, hql⟩ := State.leg?_eq_some.mp this
    rw [hbjob] at hq
    cases hq
    exact ⟨_, List.mem_of_getElem? hql, rfl⟩
  obtain ⟨hno, hyes⟩ := testJob_viable hbjob hv
  rw [hlw]
  cases hf : (j.withLeg w.ref.leg (l.goodAt s.now)).finalisable with
  | false =>
    have hc : b.cascade [.test w.ref.job] = b := cascade_one (hno hf)
    exact ⟨b, hc, hbf, hbo, fun _ => ⟨hbjob, hbs⟩, fun e => by cases e⟩
  | true =>
    obtain ⟨c, hc, hcf, hco, hcj, hcs⟩ := finalise_finishes hbjob ht
    have hcas : b.cascade [.test w.ref.job] = c := cascade_one ((hyes hf).trans (by rw [hc]))
    refine ⟨c, hcas, ?_, fun g hg => (hco g hg).trans (hbo g hg), fun e => (by cases e), fun _ => ⟨by rw [hcj, hbn], fun i => ?_⟩⟩
    · rw [hcf, hb]
      rfl
    · rw [hcs i, hbs]
      rfl

/-! ## The command -/

/-- The state after an acknowledgement but for the leg's end, from the frame's arrival. -/
def State.ackedBase (s : State) (x : Target) (k : Fin 16) (w : TagWork) : State :=
  (s.received (targetPort x)).acked x k w

theorem ackedBase_frame (s : State) (x : Target) (k : Fin 16) (w : TagWork) {b : State}
    (hb : b = { s.ackedBase x k w with jobs := b.jobs, sessions := b.sessions, readers := b.readers }) :
    b = { s with
      links := b.links, slots := b.slots, jobs := b.jobs, sessions := b.sessions, writers := b.writers, readers := b.readers,
      windows := b.windows } := by
  rw [hb]
  rfl

/-- What an acknowledgement leaves, up to the end of the event, that does not depend on whose last block it is. -/
theorem State.acksTo.rest {y : Slot} (a : s.acksTo x k w gen l j y (s.ackedBase x k w))
    (hu : u = { s.ackedBase x k w with jobs := u.jobs, sessions := u.sessions, readers := u.readers })
    (ho : ∀ g, g ≠ w.ref.job → u.job? g = (s.ackedBase x k w).job? g) :
    u = { s with
      links := u.links, slots := u.slots, jobs := u.jobs, sessions := u.sessions, writers := u.writers, readers := u.readers,
      windows := u.windows } ∧
    (∀ p, u.link p = if p = targetPort x then { s.link p with hunting := false } else s.link p) ∧
    (∀ z, u.window z = if z = x then { s.window x with acked := min ((s.window x).acked + 1) (2 ^ 32 - 1) } else s.window z) ∧
    (∀ z, u.writer z =
      if z = x then { s.writer x with tags := setEntry (s.writer x).tags k fun _ => ⟨.free, gen, false⟩ } else s.writer z) ∧
    (∀ n, u.slot? n = if n = w.slot then (if (y.settle x).freeable then none else some (y.settle x)) else s.slot? n) ∧
    ∀ g, g ≠ w.ref.job → u.job? g = s.job? g := by
  have hl : u.links = (s.ackedBase x k w).links := by rw [hu]
  have hw : u.windows = (s.ackedBase x k w).windows := by rw [hu]
  have hr : u.writers = (s.ackedBase x k w).writers := by rw [hu]
  have hs : u.slots = (s.ackedBase x k w).slots := by rw [hu]
  refine ⟨ackedBase_frame s x k w hu, fun p => ?_, fun z => ?_, fun z => ?_, fun n => ?_, fun g hg => (ho g hg).trans (a.others g hg)⟩
  · rw [State.link_congr hl]
    exact a.links p
  · rw [State.window_congr hw]
    exact a.windows z
  · rw [State.writer_congr hr]
    exact a.writers z
  · rw [State.slot?_congr hs]
    exact a.slots n

theorem ackedBase_readers (s : State) (x : Target) (k : Fin 16) (w : TagWork) : (s.ackedBase x k w).readers = s.readers := rfl

theorem ackedBase_sessions (s : State) (x : Target) (k : Fin 16) (w : TagWork) : (s.ackedBase x k w).sessions = s.sessions := rfl

/-- Settles O40: the acknowledgement's counts, slot and tag; then, with the last block, the leg's verification or end. -/
theorem acknowledgementsCompleteWrites : Obligations.AcknowledgementsCompleteWrites := by
  intro s x k w issued gen due l j y hr hup hp htag hl hj hy last hpre done withLeg written good settled
  have he : exec done s = .next (cascadeOf ((s.received (targetPort x)).acknowledge x k w)).close := by
    cases x with
    | drive d => exact (exec_writeDone hr hup .ok).trans (congrArg Host.Outcome.next (writeAnswerEffect_sent htag .ok))
    | sink => exact (exec_sinkDone hr hup .ok).trans (congrArg Host.Outcome.next (writeAnswerEffect_sent htag .ok))
  have a : s.acksTo x k w gen l j y (s.ackedBase x k w) := acked_acks hp htag hl hj hy
  have hfull : (s.ackedBase x k w).fullyAcked w.ref = true ↔ last := fullyAcked_iff a hl hj
  rw [acknowledge_eq] at he
  by_cases hlast : last
  · rw [show (s.received (targetPort x)).acked x k w = s.ackedBase x k w from rfl, if_pos (hfull.mpr hlast)] at he
    obtain ⟨ht, hn, hs⟩ := id hlast
    obtain ⟨hx, ho, hh⟩ := hpre hlast
    by_cases hv : l.verify = true ∧ ∃ d, x = .drive d
    · obtain ⟨hv, d, hd⟩ := hv
      obtain ⟨b, hb, hbf, hbr, hbo, hbj⟩ := legWritten_verifies (d := d) a hl hj ht (by omega) hs hv (hx.trans hd) ho hh
      rw [hb] at he
      obtain ⟨r1, r2, r3, r4, r5, r6⟩ := a.rest (u := b) (by rw [hbf]) hbo
      have hbs : b.sessions = s.sessions := by
        rw [hbf]
        exact ackedBase_sessions s x k w
      refine ⟨_, b, he, close_settles b, r1, r2, r3, r4, r5, r6,
        fun h => absurd hlast h, fun e _ _ hxe => ?_, fun _ hor => ?_⟩
      · have hde : d = e := by
          rw [hd] at hxe
          cases hxe
          rfl
        subst hde
        exact ⟨hbs, hbr, hbj⟩
      · rcases hor with h1 | h1
        · rw [hv] at h1
          cases h1
        · rw [hd] at h1
          cases h1
    · have hor : l.verify = false ∨ l.target = .sink := by
        rw [hx]
        cases hvv : l.verify with
        | false => exact .inl rfl
        | true =>
          cases x with
          | drive d => exact absurd ⟨hvv, d, rfl⟩ hv
          | sink => exact .inr rfl
      obtain ⟨b, hb, hbf, hbo, hno, hyes⟩ := legWritten_ends a hl hj ht hor
      rw [hb] at he
      obtain ⟨r1, r2, r3, r4, r5, r6⟩ := a.rest (u := b) (by rw [hbf]) hbo
      have hset : settled (withLeg good) ↔ (j.withLeg w.ref.leg (l.goodAt s.now)).finalisable = true := by
        rw [finalisable_iff]
        exact ⟨fun ⟨h1, h2, h3⟩ => ⟨h1, h3, h2⟩, fun ⟨h1, h2, h3⟩ => ⟨h1, h3, h2⟩⟩
      have hbr : b.readers = s.readers := by
        rw [hbf]
        exact ackedBase_readers s x k w
      refine ⟨_, b, he, close_settles b, r1, r2, r3, r4, r5, r6,
        fun h => absurd hlast h, fun e _ hve hxe => absurd ⟨hve, e, hxe⟩ hv, fun _ _ => ⟨hbr, fun hn => ?_, fun hy => ?_⟩⟩
      · exact hno (by simpa using fun e => hn (hset.mpr e))
      · obtain ⟨h1, h2⟩ := hyes (hset.mp hy)
        refine ⟨h1, fun i => (h2 i).trans ?_⟩
        rw [ackedBase_sessions]
        rfl
  · rw [show (s.received (targetPort x)).acked x k w = s.ackedBase x k w from rfl, if_neg fun e => hlast (hfull.mp e)] at he
    have hjob := a.job
    obtain ⟨r1, r2, r3, r4, r5, r6⟩ := a.rest (u := s.ackedBase x k w) rfl fun _ _ => rfl
    have hread := ackedBase_readers s x k w
    have hsess := ackedBase_sessions s x k w
    revert he hjob hread hsess r1 r2 r3 r4 r5 r6
    generalize s.ackedBase x k w = b
    intro he hjob r1 r2 r3 r4 r5 r6 hread hsess
    refine ⟨_, b, he, close_settles b, r1, r2, r3, r4, r5, r6, fun _ => ⟨?_, hsess, hread⟩, fun _ h => absurd h hlast, fun h => absurd h hlast⟩
    exact hjob

end Sys2Proof.Machine
end

