-- ==== Sys2Proof/Proofs/P48.lean ====
section
/-! What is left to do in an event is done in order: first all that comes of the first thing, then the rest. -/

namespace Sys2Proof.Machine

open Sys2Proof

variable {s t u v : State} {h : Fin 64} {l : List Todo}

/-- A list of things is done, from a state to a state. -/
inductive State.works : State → List Todo → State → Prop
  | nothing (s : State) : s.works [] s
  | next {s t : State} {x : Todo} {rest : List Todo} : (s.perform x).1.works ((s.perform x).2 ++ rest) t → s.works (x :: rest) t

theorem cascade_works (hf : s.legsFit) (hw : todoWeight l ≤ 1728) : s.works l (s.cascade l) :=
  cascade_ends (fun u m => ∀ t, u.works m t → s.works l t) (fun _ _ _ h t ht => h t (.next ht)) hf hw (fun _ => id) _ (.nothing _)

theorem State.works.nil (a : s.works [] t) : t = s := by
  cases a
  rfl

theorem State.works.cons {x : Todo} {rest : List Todo} (a : s.works (x :: rest) t) : (s.perform x).1.works ((s.perform x).2 ++ rest) t := by
  cases a
  assumption

theorem State.works.step {x : Todo} {m rest : List Todo} (a : s.works (x :: rest) t) (e : s.perform x = (u, m)) : u.works (m ++ rest) t := by
  have := a.cons
  rw [e] at this
  exact this

/-- Things that leave nothing more to do, before the rest. -/
theorem State.works.through {P : State → Prop} {m rest : List Todo} (hP : ∀ u, ∀ x ∈ m, P u → (u.perform x).2 = [] ∧ P (u.perform x).1)
    (a : s.works (m ++ rest) t) (hs : P s) : ∃ u, P u ∧ u.works rest t := by
  induction m generalizing s with
  | nil => exact ⟨s, hs, a⟩
  | cons x m ih =>
    obtain ⟨h2, h1⟩ := hP s x List.mem_cons_self hs
    have := a.cons
    rw [h2] at this
    exact ih (fun u y hy => hP u y (List.mem_cons_of_mem _ hy)) this h1

end Sys2Proof.Machine
end

