-- ==== Sys2Proof/Proofs/P49.lean ====
section
/-! A started job of no blocks (R12): its WRITING legs are WRITTEN, then GOOD or in a verify work list, where one that heads it is VERIFYING with
its digest final (R120). -/

namespace Sys2Proof.Machine

open Sys2Proof

variable {s t u v : State} {h : Fin 64} {l : Leg} {q : Job} {p legs : List Leg} {mine : Fin 6 → List LegRef} {m n : Nat} {now : Tick}

/-! ## The state while it is followed through -/

/-- A state that differs from another in one job's legs and in what the verify work lists hold behind their entries. -/
structure State.emptying (u : State) (h : Fin 64) (q : Job) (legs : List Leg) (mine : Fin 6 → List LegRef) (t : State) : Prop where
  job : t.job? h = some { q with legs := legs }
  work : ∀ d : Fin 6, (t.readers[d.val]).work = (u.readers[d.val]).work ++ mine d
  others : ∀ g, g ≠ h → t.job? g = u.job? g
  rest : t = { u with jobs := t.jobs, readers := t.readers }

theorem State.emptying.leg? (a : u.emptying h q legs mine t) (m : Nat) : t.leg? ⟨h, m⟩ = legs[m]? := by
  unfold State.leg?
  rw [a.job]
  rfl

theorem State.emptying.now_eq (a : u.emptying h q legs mine t) : t.now = u.now := by
  rw [a.rest]
  rfl

theorem State.emptying.modLeg (a : u.emptying h q legs mine t) (m : Nat) (g : Leg → Leg) :
    u.emptying h q (legs.modify m g) mine (t.modLeg ⟨h, m⟩ g) where
  job := by
    rw [State.job?_modLeg, if_pos rfl, a.job]
    rfl
  work := a.work
  others k hk := by
    rw [State.job?_modLeg, if_neg (Ne.symm hk)]
    exact a.others k hk
  rest := by
    have := a.rest
    rw [this]
    rfl

theorem State.emptying.modReader (a : u.emptying h q legs mine t) {d : Fin 6} {g : VerifyReader → VerifyReader} {mine' : Fin 6 → List LegRef}
    (hd : (g t.readers[d.val]).work = (u.readers[d.val]).work ++ mine' d) (he : ∀ e, e ≠ d → mine' e = mine e) :
    u.emptying h q legs mine' (t.modReader d g) where
  job := a.job
  work e := by
    rw [State.modReader_readers, setEntry_getElem]
    by_cases h : d = e
    · subst h
      rw [if_pos rfl]
      exact hd
    · rw [if_neg h, he e (Ne.symm h)]
      exact a.work e
  others := a.others
  rest := by
    have := a.rest
    rw [this]
    rfl

theorem State.emptying.of_legs (a : u.emptying h q legs mine t) {legs' : List Leg} (e : legs = legs') : u.emptying h q legs' mine t := e ▸ a

theorem State.emptying.of_mine (a : u.emptying h q legs mine t) {mine' : Fin 6 → List LegRef} (e : ∀ d, mine d = mine' d) :
    u.emptying h q legs mine' t :=
  (funext e : mine = mine') ▸ a

/-! ## WRITTEN -/

/-- A placed leg is WRITING and to be verified on a drive. -/
def Leg.toVerify (l : Leg) (d : Fin 6) : Bool :=
  decide (l.state = .writing) && l.verify && decide (l.target = .drive d)

theorem toVerify_iff {d : Fin 6} : l.toVerify d = true ↔ l.state = .writing ∧ l.verify = true ∧ l.target = .drive d := by
  unfold Leg.toVerify
  simp only [Bool.and_eq_true, decide_eq_true_eq, and_assoc]

/-- A placed leg of no blocks when it has been WRITTEN (R17). -/
def Leg.emptied (now : Tick) (l : Leg) : Leg :=
  if l.state = .writing then
    if l.verify = true ∧ l.target ≠ .sink then { l with state := .written, written := some now }
    else { l with written := some now, state := .good, cause := none, finished := some now }
  else l

/-- The references of the legs that are to be verified on a drive. -/
def refsOn (h : Fin 64) (p : List Leg) (d : Fin 6) : List LegRef :=
  (p.zipIdx.filter fun x => x.1.toVerify d).map fun x => ⟨h, x.2⟩

theorem mem_refsOn {r : LegRef} {d : Fin 6} : r ∈ refsOn h p d ↔ r.job = h ∧ ∃ l, p[r.leg]? = some l ∧ l.toVerify d = true := by
  unfold refsOn
  rw [List.mem_map]
  constructor
  · rintro ⟨x, hx, rfl⟩
    obtain ⟨hm, ht⟩ := List.mem_filter.mp hx
    exact ⟨rfl, x.1, List.mem_zipIdx_iff_getElem?.mp hm, ht⟩
  · rintro ⟨rfl, l, hl, ht⟩
    exact ⟨(l, r.leg), List.mem_filter.mpr ⟨List.mem_zipIdx_iff_getElem?.mpr hl, ht⟩, rfl⟩

theorem refsOn_take (hl : p[m]? = some l) (d : Fin 6) :
    refsOn h (p.take (m + 1)) d = refsOn h (p.take m) d ++ if l.toVerify d then [⟨h, m⟩] else [] := by
  have hm : m < p.length := (List.getElem?_eq_some_iff.mp hl).1
  unfold refsOn
  rw [List.take_add_one, hl, List.zipIdx_append, List.filter_append, List.map_append]
  congr 1
  have : 0 + (p.take m).length = m := by simp [Nat.min_eq_left hm.le]
  rw [this]
  by_cases ht : l.toVerify d = true <;> simp [ht]

/-- What a leg's WRITTEN leaves to do. -/
def todoOf (h : Fin 64) (l : Leg) : List Todo :=
  if l.state = .writing then
    match l.verify, l.target with
    | true, .drive d => [.activate d]
    | _, _ => [.test h]
  else []

theorem written_leg? (a : u.emptying h q ((p.take m).map (Leg.emptied now) ++ p.drop m) mine t) (hm : m < p.length) : t.leg? ⟨h, m⟩ = p[m]? := by
  rw [a.leg?, List.getElem?_append_right (by simp [Nat.min_eq_left hm.le])]
  simp [Nat.min_eq_left hm.le]

/-- One more leg WRITTEN. -/
theorem State.emptying.write (a : u.emptying h q ((p.take m).map (Leg.emptied now) ++ p.drop m) (refsOn h (p.take m)) t) (hn : u.now = now)
    (hl : p[m]? = some l) :
    u.emptying h q ((p.take (m + 1)).map (Leg.emptied now) ++ p.drop (m + 1)) (refsOn h (p.take (m + 1))) (t.writtenIfWriting ⟨h, m⟩).1 ∧
      (t.writtenIfWriting ⟨h, m⟩).2 = todoOf h l := by
  have hleg : t.leg? ⟨h, m⟩ = some l := (written_leg? a (List.getElem?_eq_some_iff.mp hl).1).trans hl
  have hnow : t.now = now := a.now_eq.trans hn
  have hstep : ∀ g : Leg → Leg, g l = l.emptied now → ((p.take m).map (Leg.emptied now) ++ p.drop m).modify m g =
      (p.take (m + 1)).map (Leg.emptied now) ++ p.drop (m + 1) := fun g hg => take_map_append_modify (Leg.emptied now) p m l hl g hg
  have hrefs : ∀ d, l.toVerify d = false → refsOn h (p.take m) d = refsOn h (p.take (m + 1)) d := fun d hd => by
    rw [refsOn_take hl, if_neg (by rw [hd]; exact Bool.false_ne_true), List.append_nil]
  by_cases hs : l.state = .writing
  · have hw : t.writtenIfWriting ⟨h, m⟩ = t.legWritten ⟨h, m⟩ := by
      unfold State.writtenIfWriting
      rw [hleg]
      dsimp only
      rw [if_pos hs]
    rw [hw]
    rcases legWritten_cases t ⟨h, m⟩ with ⟨hno, -⟩ | ⟨k, hk, ⟨d, hv, hd, e⟩ | ⟨hne, e⟩⟩
    · rw [hleg] at hno
      cases hno
    · rw [hleg] at hk
      cases hk
      have htv : l.toVerify d = true := by simp [Leg.toVerify, hs, hv, hd]
      rw [e]
      refine ⟨?_, ?_⟩
      · refine ((a.modLeg m _).of_legs (hstep _ ?_)).modReader ?_ fun f hf => ?_
        · unfold Leg.emptied
          rw [if_pos hs, if_pos ⟨hv, by rw [hd]; exact Target.noConfusion⟩, hnow]
        · change (t.readers[d.val]).work ++ [⟨h, m⟩] = _
          rw [a.work d, refsOn_take hl, if_pos htv, List.append_assoc]
        · refine (hrefs f (Bool.eq_false_iff.mpr fun e => ?_)).symm
          obtain ⟨-, -, e⟩ := toVerify_iff.mp e
          rw [hd] at e
          cases e
          exact hf rfl
      · unfold todoOf
        rw [if_pos hs, hv, hd]
    · rw [hleg] at hk
      cases hk
      have htv : ∀ d, l.toVerify d = false := fun d => by
        refine Bool.eq_false_iff.mpr fun e => ?_
        obtain ⟨-, e1, e2⟩ := toVerify_iff.mp e
        rcases hne with e | e
        · rw [e1] at e
          cases e
        · rw [e2] at e
          cases e
      rw [e]
      refine ⟨?_, ?_⟩
      · have h1 := (a.modLeg m fun l => { l with state := .written, written := some t.now }).modLeg m (Leg.ended t.now .good none)
        rw [List.modify_modify_eq] at h1
        refine (h1.of_legs (hstep _ ?_)).of_mine fun d => hrefs d (htv d)
        unfold Leg.emptied
        rw [if_pos hs, if_neg, ← hnow]
        · rfl
        · rintro ⟨hv, hx⟩
          rcases hne with e | e
          · rw [hv] at e
            cases e
          · exact hx e
      · unfold todoOf
        rw [if_pos hs]
        rcases hne with e | e
        · rw [e]
        · rw [e]
          cases l.verify <;> rfl
  · have hw : t.writtenIfWriting ⟨h, m⟩ = (t, []) := by
      unfold State.writtenIfWriting
      rw [hleg]
      dsimp only
      rw [if_neg hs]
    rw [hw]
    refine ⟨(a.of_legs ?_).of_mine fun d => hrefs d (by simp [Leg.toVerify, hs]), by simp [todoOf, hs]⟩
    rw [← hstep id (by simp [Leg.emptied, hs])]
    exact (List.modify_id _ _).symm

theorem eachLeg_append (f : State → LegRef → State × List Todo) (b : List LegRef) : ∀ (a : List LegRef) (s : State),
    eachLeg f (a ++ b) s = ((eachLeg f b (eachLeg f a s).1).1, (eachLeg f a s).2 ++ (eachLeg f b (eachLeg f a s).1).2)
  | [], _ => rfl
  | r :: a, s => by
    rw [List.cons_append, eachLeg, eachLeg, eachLeg_append f b a]
    dsimp only
    rw [List.append_assoc]

/-- All legs WRITTEN that were WRITING. -/
theorem emptying_range (a : u.emptying h q p (fun _ => []) u) : ∀ m, m ≤ p.length →
    u.emptying h q ((p.take m).map (Leg.emptied u.now) ++ p.drop m) (refsOn h (p.take m))
        (eachLeg State.writtenIfWriting ((List.range m).map fun k => ⟨h, k⟩) u).1 ∧
      (eachLeg State.writtenIfWriting ((List.range m).map fun k => ⟨h, k⟩) u).2 = (p.take m).flatMap (todoOf h)
  | 0, _ => ⟨a, rfl⟩
  | m + 1, hm => by
    obtain ⟨h1, h2⟩ := emptying_range a m (by omega)
    have hl : p[m]? = some p[m] := List.getElem?_eq_getElem (by omega)
    obtain ⟨h3, h4⟩ := h1.write rfl hl
    rw [List.range_succ, List.map_append, eachLeg_append]
    refine ⟨h3, ?_⟩
    dsimp only
    rw [h2, List.take_add_one, hl, List.flatMap_append]
    refine congrArg _ ?_
    simp only [List.map_cons, List.map_nil, eachLeg, h4, List.append_nil, Option.toList_some, List.flatMap_cons, List.flatMap_nil]

end Sys2Proof.Machine
end

