-- ==== Sys2Proof/Proofs/P50.lean ====
section
/-! A started job of no blocks, followed through: its legs at the head of a verify work list become VERIFYING, and with the ingest digest final they
are compared (R14, R120, R128). -/

namespace Sys2Proof.Machine

open Sys2Proof

variable {s t u v : State} {h : Fin 64} {l : Leg} {q : Job} {p legs : List Leg} {mine : Fin 6 → List LegRef} {m n : Nat} {now : Tick}
  {act : Fin 6 → Bool}

/-! ## VERIFYING -/

/-- A leg stands on a drive that a test selects. -/
def Leg.onDrive (act : Fin 6 → Bool) (l : Leg) : Bool :=
  match l.target with
  | .drive d => act d
  | .sink => false

/-- A leg that is to be verified and whose drive's list it heads: VERIFYING, its context final. -/
def Leg.activeAt (now : Tick) (n : Nat) (act : Fin 6 → Bool) (l : Leg) : Leg :=
  if decide (l.state = .writing) && l.verify && l.onDrive act then
    { l with state := .verifying, written := some now, context := finalise l.context n }
  else l.emptied now

/-- No entry of a verify work list waits to become VERIFYING, nor is it the job's. -/
def State.headsStand (u : State) (h : Fin 64) : Prop :=
  ∀ (d : Fin 6) r rest, (u.readers[d.val]).work = r :: rest → r.job ≠ h ∧ ∀ l, u.leg? r = some l → l.state ≠ .written

/-- A drive's verify work list is empty. -/
def State.listFree (u : State) (d : Fin 6) : Bool :=
  decide ((u.readers[d.val]).work = [])

theorem onDrive_of {d : Fin 6} (hd : l.target = .drive d) : l.onDrive act = act d := by
  unfold Leg.onDrive
  rw [hd]

theorem activeAt_of_toVerify {d : Fin 6} (ht : l.toVerify d = true) : l.activeAt now n act =
    if act d then { l with state := .verifying, written := some now, context := finalise l.context n }
    else { l with state := .written, written := some now } := by
  obtain ⟨hs, hv, hd⟩ := toVerify_iff.mp ht
  have hc : (decide (l.state = .writing) && l.verify && l.onDrive act) = act d := by
    rw [decide_eq_true hs, hv, onDrive_of hd, Bool.and_true, Bool.true_and]
  have hem : l.emptied now = { l with state := .written, written := some now } := by
    unfold Leg.emptied
    rw [if_pos hs, if_pos ⟨hv, by rw [hd]; exact Target.noConfusion⟩]
  unfold Leg.activeAt
  rw [hc, hem]

/-- Legs that are not to be verified on a drive do not see whether it is active. -/
theorem activeAt_congr {act' : Fin 6 → Bool} (he : ∀ d, l.toVerify d = true → act d = act' d) :
    l.activeAt now n act = l.activeAt now n act' := by
  unfold Leg.activeAt
  by_cases hs : l.state = .writing
  · cases hv : l.verify with
    | false => simp
    | true =>
      cases hd : l.target with
      | drive d => rw [onDrive_of hd, onDrive_of hd, he d (toVerify_iff.mpr ⟨hs, hv, hd⟩)]
      | sink =>
        unfold Leg.onDrive
        rw [hd]
  · simp [hs]

/-- Active drives, with one more if its list was empty. -/
def withDrive (act : Fin 6 → Bool) (u : State) (d : Fin 6) : Fin 6 → Bool :=
  fun e => act e || (decide (e = d) && u.listFree d)

theorem emptying_stands {d : Fin 6} (a : u.emptying h q (p.map (Leg.activeAt now n act)) mine t)
    (hs : t.activateHead d = (t, [])) (he : ∀ l ∈ p, ∀ e, l.toVerify e = true → act e = withDrive act u d e) :
    (t.activateHead d).2 = [] ∧ u.emptying h q (p.map (Leg.activeAt now n (withDrive act u d))) mine (t.activateHead d).1 := by
  rw [hs]
  exact ⟨rfl, a.of_legs (List.map_congr_left fun l hl => activeAt_congr (he l hl))⟩

/-- The only leg of a job to be verified on a drive. -/
theorem refsOn_unique (hp : (p.map Leg.target).Nodup) {d : Fin 6} (hl : p[m]? = some l) (ht : l.toVerify d = true) :
    ∀ (k : Nat) (l' : Leg), p[k]? = some l' → l'.toVerify d = true → k = m := by
  intro k l' hl' ht'
  obtain ⟨hk, e1⟩ := List.getElem?_eq_some_iff.mp hl'
  obtain ⟨hm, e2⟩ := List.getElem?_eq_some_iff.mp hl
  rw [List.nodup_iff_injective_getElem] at hp
  have : (⟨k, by simpa using hk⟩ : Fin (p.map Leg.target).length) = ⟨m, by simpa using hm⟩ := hp (by
    simp only [List.getElem_map]
    rw [e1, e2, (toVerify_iff.mp ht).2.2, (toVerify_iff.mp ht').2.2])
  exact congrArg Fin.val this

/-- A VERIFYING leg of a job without a final ingest digest: its context is final, and nothing is compared. -/
theorem verifyFinal_waits {r : LegRef} {d : Fin 6} (hj : s.job? r.job = some q) (ht : q.state.terminal = false) (hf : q.ingest.final = none) :
    s.verifyFinal d r = (s.modLeg r fun l => { l with context := finalise l.context q.length }, []) := by
  unfold State.verifyFinal
  rw [hj]
  dsimp only
  rw [if_neg (by rw [ht]; exact Bool.false_ne_true)]
  have hc : (s.modLeg r fun l => { l with context := finalise l.context q.length }).compareLeg d r =
      (s.modLeg r fun l => { l with context := finalise l.context q.length }, false) := by
    rcases compareLeg_cases (s.modLeg r fun l => { l with context := finalise l.context q.length }) d r with e | ⟨l, j, v, g, -, hj', -, hg, -, -⟩
    · exact e
    · rw [State.job?_modLeg, if_pos rfl, hj] at hj'
      cases hj'
      rw [show q.ingest.final = some g from hg] at hf
      cases hf
  rw [hc]
  rfl

/-- The head of a drive's list is seen to (R120). -/
theorem State.emptying.activate {d : Fin 6} (a : u.emptying h q (p.map (Leg.activeAt u.now q.length act)) (refsOn h p) t)
    (hh : u.headsStand h) (hp : (p.map Leg.target).Nodup) (ht : q.state.terminal = false) (hb : q.blocks = 0) (hf : q.ingest.final = none) :
    (t.activateHead d).2 = [] ∧
      u.emptying h q (p.map (Leg.activeAt u.now q.length (withDrive act u d))) (refsOn h p) (t.activateHead d).1 := by
  by_cases hw : (u.readers[d.val]).work = []
  · have hfree : u.listFree d = true := decide_eq_true hw
    have hwork : (t.readers[d.val]).work = refsOn h p d := by rw [a.work d, hw, List.nil_append]
    cases href : refsOn h p d with
    | nil =>
      refine emptying_stands a (activateHead_stands fun r rest l hr => ?_) fun l hl e he => ?_
      · rw [hwork, href] at hr
        cases hr
      · unfold withDrive
        rw [decide_eq_false, Bool.false_and, Bool.or_false]
        rintro rfl
        obtain ⟨k, hk⟩ := List.getElem?_of_mem hl
        have : (⟨h, k⟩ : LegRef) ∈ refsOn h p e := mem_refsOn.mpr ⟨rfl, l, hk, he⟩
        rw [href] at this
        cases this
    | cons r rest =>
      obtain ⟨hrj, l, hl, htv⟩ := mem_refsOn.mp (href ▸ List.mem_cons_self : r ∈ refsOn h p d)
      obtain ⟨rj, m⟩ := r
      subst hrj
      have hleg : t.leg? ⟨rj, m⟩ = some (l.activeAt u.now q.length act) := by
        rw [a.leg?, List.getElem?_map, hl]
        rfl
      rw [activeAt_of_toVerify htv] at hleg
      cases hact : act d with
      | true =>
        rw [hact, if_pos rfl] at hleg
        refine emptying_stands a (activateHead_stands fun r' rest' l' hr' hl' => ?_) fun l' _ e he => ?_
        · rw [hwork, href] at hr'
          cases hr'
          rw [hleg] at hl'
          cases hl'
          exact LegState.noConfusion
        · unfold withDrive
          by_cases hed : e = d
          · subst hed
            rw [hact, Bool.true_or]
          · rw [decide_eq_false hed, Bool.false_and, Bool.or_false]
      | false =>
        rw [hact, if_neg Bool.false_ne_true] at hleg
        have he : t.activateHead d = ((t.modLeg ⟨rj, m⟩ fun l => { l with state := .verifying }).modLeg ⟨rj, m⟩ fun l =>
            { l with context := finalise l.context q.length }, []) := by
          have hj1 : (t.modLeg ⟨rj, m⟩ fun l => { l with state := .verifying }).job? rj = some
              { q with legs := (p.map (Leg.activeAt u.now q.length act)).modify m fun l => { l with state := .verifying } } :=
            (a.modLeg m _).job
          rcases activateHead_cases t d with e | ⟨r', rest', l', j', hr', hl', hj', hs', ⟨hbn, -⟩ | ⟨-, e⟩⟩
          · exfalso
            unfold State.activateHead at e
            rw [hwork, href] at e
            dsimp only at e
            rw [hleg, a.job] at e
            dsimp only at e
            rw [if_pos rfl, if_pos (show ({ q with legs := p.map (Leg.activeAt u.now q.length act) } : Job).blocks = 0 from hb),
              verifyFinal_waits (r := ⟨rj, m⟩) hj1 ht hf] at e
            have hm := congrArg (fun w : State × List Todo => w.1.leg? ⟨rj, m⟩) e
            dsimp only at hm
            rw [State.leg?_modLeg, if_pos rfl, State.leg?_modLeg, if_pos rfl, hleg] at hm
            simp at hm
          · exfalso
            rw [hwork, href] at hr'
            cases hr'
            rw [a.job] at hj'
            cases hj'
            exact hbn hb
          · rw [hwork, href] at hr'
            cases hr'
            rw [e, verifyFinal_waits (r := ⟨rj, m⟩) hj1 ht hf]
        rw [he]
        refine ⟨rfl, ?_⟩
        refine ((a.modLeg m fun l => { l with state := .verifying }).modLeg m fun l => { l with context := finalise l.context q.length }).of_legs ?_
        rw [List.modify_modify_eq]
        refine List.ext_getElem? fun k => ?_
        rw [List.getElem?_modify, List.getElem?_map, List.getElem?_map]
        cases hk : p[k]? with
        | none => rfl
        | some l' =>
          by_cases hkm : m = k
          · subst hkm
            rw [hl] at hk
            cases hk
            simp only [if_true, Option.map_some]
            rw [activeAt_of_toVerify htv, activeAt_of_toVerify htv, hact]
            simp [withDrive, hfree]
          · simp only [if_neg hkm, Option.map_some]
            refine congrArg some (activeAt_congr fun e hte => ?_)
            unfold withDrive
            rw [decide_eq_false, Bool.false_and, Bool.or_false]
            rintro rfl
            exact hkm (refsOn_unique hp hl htv k l' hk hte).symm
  · have hfree : u.listFree d = false := decide_eq_false hw
    obtain ⟨r0, rest0, hr0⟩ := List.exists_cons_of_ne_nil hw
    obtain ⟨hne, hst⟩ := hh d r0 rest0 hr0
    refine emptying_stands a (activateHead_stands fun r rest l hr hl => ?_) fun l _ e _ => ?_
    · rw [a.work d, hr0] at hr
      cases hr
      refine hst l ?_
      unfold State.leg? at hl ⊢
      rw [← a.others _ hne]
      exact hl
    · unfold withDrive
      rw [hfree, Bool.and_false, Bool.or_false]

end Sys2Proof.Machine
end

