-- ==== Sys2Proof/Proofs/P51.lean ====
section
/-! A job started alone at its port (R10, R11): without a viable leg it ends where it starts, and with blocks it is read. -/

namespace Sys2Proof.Machine

open Sys2Proof

variable {s v t u : State} {h : Fin 64} {i : Fin 8} {j : Job} {r : Request} {rest : List Request} {b : LoadBody}

/-! ## The start test of a port that waits for one job -/

/-- A fresh LOADED job stands alone in the line-up of a port that reads nothing. -/
structure State.startsAlone (v : State) (i : Fin 8) (h : Fin 64) (j : Job) : Prop where
  job : v.job? h = some j
  fresh : j.fresh
  loaded : j.state = .loaded
  reading : (v.ingest[i.val]).reading = none
  lineUp : (v.ingest[i.val]).lineUp = [h]

theorem State.startsAlone.start (a : v.startsAlone i h j) : v.perform (.start i) = v.startJob i h :=
  testStart_starts a.reading a.lineUp a.job a.loaded

theorem State.startsAlone.placed (a : v.startsAlone i h j) : v.placedBy i h j (v.placeLegs i h) :=
  placeLegs_placedBy i a.job a.fresh

theorem State.startsAlone.port (a : v.startsAlone i h j) :
    (v.placeLegs i h).ingest[i.val] = { v.ingest[i.val] with lineUp := [] } := by
  rw [a.placed.ingest, setEntry_same, a.lineUp]
  rfl

theorem State.startsAlone.placedJob (a : v.startsAlone i h j) : (v.placeLegs i h).job? h = some (v.placedJob j) :=
  a.placed.job

/-- A port whose line-up is empty starts nothing. -/
theorem perform_start_idle (hl : (u.ingest[i.val]).lineUp = []) : u.perform (.start i) = (u, []) :=
  testStart_idle hl

theorem cascade_two {x y : Todo} (h1 : s.perform x = (u, [y])) (h2 : u.perform y = (t, [])) : s.cascade [x] = t := by
  change State.run 4095 ((s.perform x).2 ++ []) (s.perform x).1 = t
  rw [h1]
  change State.run 4094 ((u.perform y).2 ++ []) (u.perform y).1 = t
  rw [h2]
  rfl

/-- Some placed leg is WRITING exactly if the placed job has a viable leg. -/
theorem placedJob_viable : (v.placedJob j).viableLegs ≠ 0 ↔ ∃ l ∈ j.legs.map (v.placedLeg j.blocks), l.state = .writing := by
  rw [Ne, viableLegs_eq_zero, not_forall]
  constructor
  · rintro ⟨l, hl⟩
    rw [Classical.not_imp] at hl
    obtain ⟨hm, hv⟩ := hl
    rcases placedJob_legs v j l hm with e | e
    · exact ⟨l, hm, e⟩
    · rw [e] at hv
      exact absurd rfl hv
  · rintro ⟨l, hm, e⟩
    exact ⟨l, fun hn => by
      have := hn hm
      rw [e] at this
      cases this⟩

/-- R10: no placed leg is viable, and the job ends. -/
theorem State.startsAlone.fails (a : v.startsAlone i h j) (hn : ∀ l ∈ j.legs.map (v.placedLeg j.blocks), l.state ≠ .writing) :
    v.cascade [.start i] = (v.placeLegs i h).finishJob h .failed (some .insufficientCopies) := by
  have hz : (v.placedJob j).viableLegs = 0 := by
    by_contra hv
    obtain ⟨l, hl, e⟩ := placedJob_viable.mp hv
    exact hn l hl e
  have hs : v.perform (.start i) = ((v.placeLegs i h).finishJob h .failed (some .insufficientCopies), [.start i]) := by
    rw [a.start]
    rcases startJob_cases v i h with ⟨hno, -⟩ | ⟨q, hq, ⟨-, e⟩ | ⟨hv, -⟩ | ⟨hv, -⟩⟩
    · rw [a.placedJob] at hno
      cases hno
    · exact e
    · rw [a.placedJob] at hq
      cases hq
      exact absurd hz hv
    · rw [a.placedJob] at hq
      cases hq
      exact absurd hz hv
  exact cascade_two hs (perform_start_idle (by rw [finishJob_ingest, a.port]))

/-- R11: the job is read. -/
theorem State.startsAlone.reads (a : v.startsAlone i h j) (hw : ∃ l ∈ j.legs.map (v.placedLeg j.blocks), l.state = .writing) (hb : j.blocks ≠ 0) :
    v.cascade [.start i] = ((v.placeLegs i h).modJob h fun j => { j with state := .reading }).modIngest i fun p => { p with reading := some h } := by
  refine cascade_one ?_
  rw [a.start]
  rcases startJob_cases v i h with ⟨hno, -⟩ | ⟨q, hq, ⟨hv, -⟩ | ⟨-, h0, -⟩ | ⟨-, -, e⟩⟩
  · rw [a.placedJob] at hno
    cases hno
  · rw [a.placedJob] at hq
    cases hq
    exact absurd hv (placedJob_viable.mpr hw)
  · rw [a.placedJob] at hq
    cases hq
    exact absurd h0 hb
  · exact e

/-! ## What an end leaves of the drives -/

theorem finishJob_drives (s : State) (h : Fin 64) (o : JobState) (c : Option JobCause) : (s.finishJob h o c).drives = s.drives := by
  unfold State.finishJob
  split
  · rfl
  · split
    · rfl
    · dsimp only
      split <;> rfl

theorem dropReading_drives (s : State) (h : Fin 64) : (s.dropReading h).drives = s.drives := by
  unfold State.dropReading
  split
  · rfl
  · split <;> rfl

theorem withdrawVerify_drives (s : State) (d : Fin 6) (h : Fin 64) : (s.withdrawVerify d h).drives = s.drives := by
  unfold State.withdrawVerify
  dsimp only
  split
  · rfl
  · split <;> rfl

theorem teardown_drives (s : State) (h : Fin 64) (o : JobState) (c : JobCause) : (s.teardown h o c).drives = s.drives := by
  unfold State.teardown
  dsimp only
  rw [foldl_keeps State.drives (fun (s : State) d => s.withdrawVerify d h) (fun s d => withdrawVerify_drives s d h),
    foldl_keeps State.drives (fun (s : State) x => s.modWriter x fun w => w.withdraw h) (fun _ _ => rfl)]
  exact (dropReading_drives ((s.finishJob h o (some c)).abandonLegs h) h).trans (finishJob_drives s h o (some c))

/-! ## At its LOAD_JOB -/

/-- The legs of a terminal job stand at the end of an event. -/
theorem close_terminal_legs (hj : s.job? h = some j) (ht : j.state.terminal = true) : ∃ k, s.close.job? h = some k ∧ j.advancesTo k ∧ k.legs = j.legs := by
  obtain ⟨k, hk, adv⟩ := (close_advances (s := s)).jobs h j hj
  obtain ⟨k', hk', iss⟩ := (close_settles s).job h j hj
  rw [hk] at hk'
  cases hk'
  refine ⟨k, hk, adv, List.ext_getElem? fun m => ?_⟩
  cases hm : j.legs[m]? with
  | none => rw [List.getElem?_eq_none_iff, adv.legCount, ← List.getElem?_eq_none_iff]; exact hm
  | some l =>
    obtain ⟨f, hf, -, stands⟩ := adv.legs m l hm
    obtain ⟨f', hf', e, -, -⟩ := iss.legs m l hm
    rw [hf] at hf'
    cases hf'
    obtain ⟨h1, -, h3, -⟩ := stands ht
    rw [hf, e, h1, h3]

theorem loadedInto_startsAlone (hw : b.legsWrong = false) (hr : (s.ingest[b.port.val]).reading = none) (hl : (s.ingest[b.port.val]).lineUp = []) :
    (s.loadedInto rest h b).startsAlone b.port h (b.job s.now) := by
  have hport := loadedInto_port s rest h b
  exact ⟨by rw [loadedInto_job?, if_pos rfl], LoadBody.job_fresh hw s.now, rfl, by rw [hport]; exact hr, by rw [hport]; dsimp only; rw [hl]; rfl⟩

/-- A job without a viable leg, after its LOAD_JOB. -/
theorem loadedTo_fails (hw : b.legsWrong = false) (hr : (s.ingest[b.port.val]).reading = none) (hl : (s.ingest[b.port.val]).lineUp = [])
    (hn : ∀ l ∈ (b.job s.now).legs.map (s.placedLeg (b.job s.now).blocks), l.state ≠ .writing) :
    (∃ k, (s.loadedTo r rest h b).job? h = some k ∧ k.state = .failed ∧ k.cause = some .insufficientCopies ∧ k.finishedAt = some s.now ∧
        k.startedAt = some s.now ∧ k.legs = (b.job s.now).legs.map (s.placedLeg (b.job s.now).blocks)) ∧
      ((s.loadedTo r rest h b).ingest[b.port.val]).reading = none ∧
      ∀ d : Fin 6, (s.loadedTo r rest h b).drives[d.val] = s.placedDrive (b.job s.now).blocks (b.job s.now).legs d := by
  have a := loadedInto_startsAlone (rest := rest) (h := h) hw hr hl
  have hc := a.fails hn
  obtain ⟨w, hwdef⟩ : ∃ w, w = ((s.loadedInto rest h b).cascade [.start b.port]).respond ⟨r.seq, r.kind, .ok, leBytes 1 h.val⟩ := ⟨_, rfl⟩
  have hclose : s.loadedTo r rest h b = w.close := by
    rw [hwdef]
    rfl
  have hjob : w.job? h = some (((s.loadedInto rest h b).placedJob (b.job s.now)).finished s.now .failed (some .insufficientCopies)) := by
    rw [hwdef, hc]
    refine (finishJob_job? _ h h JobState.failed (some JobCause.insufficientCopies)).trans ?_
    rw [if_pos rfl, a.placedJob, a.placed.now]
    rfl
  have hfin : ((s.loadedInto rest h b).placedJob (b.job s.now)).finished s.now .failed (some .insufficientCopies) =
      { (s.loadedInto rest h b).placedJob (b.job s.now) with
        state := .failed, cause := some .insufficientCopies, finishedAt := some s.now } := by
    unfold Job.finished
    exact if_neg Bool.false_ne_true
  rw [hfin] at hjob
  obtain ⟨k, hk, adv, hlegs⟩ := close_terminal_legs hjob rfl
  obtain ⟨h1, h2, h3⟩ := adv.final rfl
  rw [hclose]
  refine ⟨⟨k, hk, h1, h2, h3, adv.started (by exact fun e => by cases e), hlegs⟩, ?_, fun d => ?_⟩
  · rw [(close_port _ _).1, hwdef, hc]
    change (((((s.loadedInto rest h b).placeLegs b.port h).finishJob h .failed (some .insufficientCopies)).ingest)[b.port.val]).reading = none
    rw [finishJob_ingest, a.port]
    exact a.reading
  · rw [(close_settles w).kept.2.2, hwdef, hc]
    change ((((s.loadedInto rest h b).placeLegs b.port h).finishJob h .failed (some .insufficientCopies)).drives)[d.val] = _
    rw [finishJob_drives, a.placed.drives d]
    rfl

/-- What a job's start leaves where it is read. -/
theorem State.startsAlone.reads_spec (a : v.startsAlone i h j) (hw : ∃ l ∈ j.legs.map (v.placedLeg j.blocks), l.state = .writing) (hb : j.blocks ≠ 0) :
    ∃ w : State, v.cascade [.start i] = w ∧ w = { v with jobs := w.jobs, drives := w.drives, ingest := w.ingest } ∧
      (∀ d : Fin 6, w.drives[d.val] = v.placedDrive j.blocks j.legs d) ∧
      (∀ g, w.job? g = if g = h then some { v.placedJob j with state := .reading } else v.job? g) ∧
      ∀ k : Fin 8, w.ingest[k.val] = if k = i then { v.ingest[k.val] with lineUp := [], reading := some h } else v.ingest[k.val] := by
  have p := a.placed
  have hj := a.placedJob
  have hport := a.port
  have hc := a.reads hw hb
  generalize v.placeLegs i h = y at p hj hport hc
  refine ⟨_, hc, ?_, p.drives, fun g => ?_, fun k => ?_⟩
  · have := p.rest
    rw [this]
    rfl
  · refine (State.job?_modJob y h g fun j => { j with state := .reading }).trans ?_
    by_cases hg : g = h
    · subst hg
      rw [if_pos rfl, if_pos rfl, hj]
      rfl
    · rw [if_neg (Ne.symm hg), if_neg hg, p.others g hg]
  · refine (setEntry_getElem y.ingest i k fun p => { p with reading := some h }).trans ?_
    by_cases hk : k = i
    · subst hk
      rw [if_pos rfl, if_pos rfl, hport]
    · rw [if_neg (Ne.symm hk), if_neg hk, p.ingest, setEntry_getElem, if_neg (Ne.symm hk)]

/-- A job with blocks and a viable leg, before what settles after its LOAD_JOB. -/
theorem loadedTo_reads (hw : b.legsWrong = false) (hr : (s.ingest[b.port.val]).reading = none) (hl : (s.ingest[b.port.val]).lineUp = [])
    (hn : ∃ l ∈ (b.job s.now).legs.map (s.placedLeg (b.job s.now).blocks), l.state = .writing) (hb : (b.job s.now).blocks ≠ 0) :
    ∃ u : State, u.settlesTo (s.loadedTo r rest h b) ∧
      u = { s.answered r rest .ok [BitVec.ofNat 8 h.val] with drives := u.drives, jobs := u.jobs, ingest := u.ingest, sessions := u.sessions } ∧
      (∀ d : Fin 6, u.drives[d.val] = s.placedDrive (b.job s.now).blocks (b.job s.now).legs d) ∧
      (∀ g, u.job? g = if g = h then some
          { b.job s.now with
            state := .reading, startedAt := some s.now, legs := (b.job s.now).legs.map (s.placedLeg (b.job s.now).blocks) } else s.job? g) ∧
      (∀ i : Fin 8, u.ingest[i.val] = if i = b.port then { s.ingest[i.val] with reading := some h } else s.ingest[i.val]) ∧
      ∀ i : Fin 8, u.sessions[i.val] =
        if i = b.port then { s.sessions[i.val] with live := (s.sessions[i.val]).live + 1 } else s.sessions[i.val] := by
  have hport := loadedInto_port s rest h b
  rw [hl] at hport
  obtain ⟨w, hc, hrest, hd, hj, hi⟩ := (loadedInto_startsAlone (rest := rest) (h := h) hw hr hl).reads_spec hn hb
  have hto : s.loadedTo r rest h b = (w.respond ⟨r.seq, r.kind, .ok, leBytes 1 h.val⟩).close := by
    rw [← hc]
    rfl
  rw [hto]
  refine ⟨w.respond ⟨r.seq, r.kind, .ok, leBytes 1 h.val⟩, close_settles _, ?_, hd, fun g => (hj g).trans ?_, fun k => (hi k).trans ?_, fun k => ?_⟩
  · rw [hrest, leBytes_one]
    rfl
  · by_cases hg : g = h
    · rw [if_pos hg, if_pos hg]
      rfl
    · rw [if_neg hg, if_neg hg, loadedInto_job?, if_neg (Ne.symm hg)]
  · by_cases hk : k = b.port
    · subst hk
      rw [if_pos rfl, if_pos rfl, hport, ← hl]
    · rw [if_neg hk, if_neg hk]
      exact (setEntry_getElem _ _ _ _).trans (if_neg (Ne.symm hk))
  · have hs : w.sessions = setEntry s.sessions b.port fun c => { c with live := c.live + 1 } := by
      rw [hrest]
      rfl
    refine (congrArg (fun l : Vector Session 8 => l[k.val]) hs).trans ?_
    dsimp only
    rw [setEntry_getElem]
    by_cases hk : k = b.port
    · subst hk
      simp only [if_true]
    · rw [if_neg (Ne.symm hk), if_neg hk]

end Sys2Proof.Machine
end

