-- ==== Sys2Proof/Proofs/P52.lean ====
section
/-! At the end of an event a check read is counted for the head of a verify work list alone (R122): the count of any other leg stands. -/

namespace Sys2Proof.Machine

open Sys2Proof

variable {s t : State} {r : LegRef} {l : Leg} {n : Option Nat}

/-- The leg stands in no verify work list, and its count of check reads is the given one. -/
def State.checkStands (r : LegRef) (n : Option Nat) (s : State) : Prop :=
  (∀ d : Fin 6, r ∉ (s.readers[d.val]).work) ∧ (s.leg? r).map Leg.checked = n

theorem State.checkStands.congr (a : State.checkStands r n s) (hj : t.jobs = s.jobs) (hr : t.readers = s.readers) : State.checkStands r n t :=
  ⟨fun d => by rw [hr]; exact a.1 d, by rw [State.leg?_congr hj]; exact a.2⟩

theorem State.checkStands.modReader (a : State.checkStands r n s) (d : Fin 6) (g : VerifyReader → VerifyReader) (hg : ∀ v, (g v).work = v.work) :
    State.checkStands r n (s.modReader d g) :=
  ⟨fun e => by
    rw [modReader_reader]
    split
    · rw [hg]
      exact a.1 d
    · exact a.1 e, a.2⟩

theorem State.checkStands.modJob (a : State.checkStands r n s) (h : Fin 64) (g : Job → Job) (hg : ∀ j, (g j).legs = j.legs) :
    State.checkStands r n (s.modJob h g) := by
  refine ⟨a.1, ?_⟩
  rw [← a.2]
  refine congrArg (Option.map Leg.checked) ?_
  unfold State.leg?
  rw [State.job?_modJob]
  by_cases e : h = r.job
  · rw [if_pos e, e]
    cases s.job? r.job with
    | none => rfl
    | some j => exact congrArg (fun m : List Leg => m[r.leg]?) (hg j)
  · rw [if_neg e]

theorem State.checkStands.countLeg (a : State.checkStands r n s) (q : LegRef) (g : Leg → Leg) (hg : q ≠ r ∨ ∀ l, (g l).checked = l.checked) :
    State.checkStands r n (s.countLeg q g) := by
  refine ⟨a.1, ?_⟩
  rw [← a.2]
  unfold State.leg? State.countLeg State.count
  rw [State.job?_modJob]
  by_cases e : q.job = r.job
  · rw [if_pos e, e]
    cases s.job? r.job with
    | none => rfl
    | some j =>
      dsimp only [Option.map_some, Option.bind_some]
      by_cases ht : j.state.terminal = true
      · rw [if_pos ht]
      · rw [if_neg ht]
        dsimp only
        rw [List.getElem?_modify]
        by_cases hm : q.leg = r.leg
        · simp only [hm, if_true]
          have hq : ∀ l, (g l).checked = l.checked := hg.resolve_left fun hn => hn (by cases q; cases r; simp_all)
          cases j.legs[r.leg]? with
          | none => rfl
          | some l => exact congrArg some (hq l)
        · simp only [hm, if_false]
          exact congrArg (Option.map Leg.checked) (congrFun Option.map_id _)
  · rw [if_neg e]

theorem grant_checkStands (a : State.checkStands r n s) (q : Requester) : State.checkStands r n (s.grant q) := by
  unfold State.grant
  cases q with
  | ingest i =>
    refine State.checkStands.congr (s := s.grantIngest i) ?_ rfl rfl
    unfold State.grantIngest
    split
    · split
      · exact a
      · exact (a.modJob (n := n) _ _ fun j => by split <;> rfl).congr rfl rfl
    · exact a
  | verify d =>
    refine State.checkStands.congr (s := s.grantVerify d) ?_ rfl rfl
    unfold State.grantVerify
    split
    · exact a
    · split
      · exact a
      · exact (a.congr (t := s.reserve _ _ _) rfl rfl).modReader d _ fun _ => rfl

theorem issueCheck_checkStands (a : State.checkStands r n s) (d : Fin 6) : State.checkStands r n (s.issueCheck d) := by
  have hp : ∀ {u : State} k w, State.checkStands r n u → State.checkStands r n (u.putCheck d k w) :=
    fun k w hu => (hu.modReader d (fun v => { v with tags := setEntry v.tags k fun _ => ⟨.sent w _, _, false⟩ }) fun _ => rfl).congr rfl rfl
  unfold State.issueCheck
  dsimp only
  split
  · have hm : ∀ rest, State.checkStands r n (s.modReader d fun v => { v with retry := rest }) := fun rest => a.modReader d _ fun _ => rfl
    split
    · exact hp _ _ (hm _)
    · exact hm _
  · split
    · next num q work k _ hw _ =>
      have hm : State.checkStands r n (s.modReader d fun v => { v with awaiting := none }) := a.modReader d _ fun _ => rfl
      split
      · refine hp _ _ (hm.countLeg q _ (.inl ?_))
        rintro rfl
        exact a.1 d (by rw [hw]; exact List.mem_cons_self)
      · exact hm
    · exact a

theorem issueWrite_checkStands (a : State.checkStands r n s) (x : Target) : State.checkStands r n (s.issueWrite x) :=
  issueWrite_inv (State.checkStands r n) (fun _ _ _ h => h.congr rfl rfl) (fun _ _ _ h => h.congr rfl rfl) (fun _ _ _ h => h.congr rfl rfl)
    (fun _ q h => h.countLeg q _ (.inr fun _ => rfl)) x a

theorem arbitrate_checkStands (a : State.checkStands r n s) (d : Fin 6) : State.checkStands r n (s.arbitrate d) := by
  have hc : ∀ x, State.checkStands r n (s.modSides d fun b => b.charge x) := fun _ => a.congr rfl rfl
  unfold State.arbitrate
  split
  · exact a
  · split
    · exact a
    · exact issueWrite_checkStands (hc _) _
    · exact issueCheck_checkStands (hc _) _

theorem transmit_checkStands (a : State.checkStands r n s) : State.checkStands r n s.transmit := by
  unfold State.transmit
  split
  · split
    · exact a
    · next c _ =>
      have hc : State.checkStands r n (s.modControl fun q => { q with sending := some c, pointer := nextOf sources c }) := a.congr rfl rfl
      cases c with
      | response =>
        simp only [State.sendFrom]
        split
        · exact hc.congr rfl rfl
        · exact hc
      | notice =>
        simp only [State.sendFrom]
        split
        · exact hc.congr rfl rfl
        · exact hc
      | sink => exact issueWrite_checkStands hc _
  · exact a

theorem announce_checkStands (a : State.checkStands r n s) : State.checkStands r n s.announce := by
  refine foldl_inv (State.checkStands r n) State.announceJob (fun u g h => ?_) _ s a
  rcases announceJob_cases u g with e | ⟨j, -, -, -, e⟩ <;> rw [e]
  · exact h
  · exact (h.modJob g (fun j => { j with announced := true }) fun _ => rfl).congr rfl rfl

/-- The count of check reads of a leg in no verify work list stands at the end of an event. -/
theorem close_checked (hw : ∀ d : Fin 6, r ∉ (s.readers[d.val]).work) (hl : s.leg? r = some l) :
    ∃ m, s.close.leg? r = some m ∧ m.checked = l.checked := by
  have a : State.checkStands r (some l.checked) s := ⟨hw, by rw [hl]; rfl⟩
  obtain ⟨-, -, -, -, -, hj, -, -, -, -, -, -, -, hr, -⟩ := relamp_fields s.announce
  have b : State.checkStands r (some l.checked) s.close :=
    settle_inv (State.checkStands r (some l.checked)) (fun _ _ h => h.congr rfl rfl) (fun _ q _ _ h => grant_checkStands h q)
      (fun _ d h => arbitrate_checkStands h d) (fun _ h => transmit_checkStands h)
      (fun _ h => foldl_inv (State.checkStands r (some l.checked))
        (fun u x => u.modWindow x fun w => { w with hadWork := w.hadWork || (u.writer x).hasWork }) (fun _ _ h => h.congr rfl rfl) _ _ h)
      ((announce_checkStands a).congr hj hr)
  obtain ⟨m, hm, e⟩ := Option.map_eq_some_iff.mp b.2
  exact ⟨m, hm, e⟩

end Sys2Proof.Machine
end

