-- ==== Sys2Proof/Proofs/P53.lean ====
section
/-! A started job of no blocks, its ingest digest final: its VERIFYING legs are compared in leg order and leave their verify work lists (R14). -/

namespace Sys2Proof.Machine

open Sys2Proof

variable {s t u v z : State} {h : Fin 64} {l : Leg} {q : Job} {p legs : List Leg} {mine : Fin 6 → List LegRef} {m n : Nat} {now : Tick}
  {act : Fin 6 → Bool} {rest : List Todo} {g : Digest}

/-! ## What the WRITTEN legs leave to do -/

theorem activeAt_none (l : Leg) : l.activeAt now n (fun _ => false) = l.emptied now := by
  have : l.onDrive (fun _ => false) = false := by
    unfold Leg.onDrive
    cases l.target <;> rfl
  unfold Leg.activeAt
  rw [this, Bool.and_false]
  rfl

/-- A leg whose drive is selected, as it becomes VERIFYING. -/
theorem activeAt_of_active (hs : l.state = .writing) (hv : l.verify = true) (hd : l.onDrive act = true) :
    l.activeAt now n act = { l with state := .verifying, written := some now, context := finalise l.context n } := by
  unfold Leg.activeAt
  rw [decide_eq_true hs, hv, hd]
  rfl

theorem activeAt_of_idle (hc : (decide (l.state = .writing) && l.verify && l.onDrive act) = false) : l.activeAt now n act = l.emptied now := by
  unfold Leg.activeAt
  rw [hc]
  rfl

theorem emptied_viable (hs : l.state = .writing) : (l.emptied now).state.viable = true := by
  unfold Leg.emptied
  rw [if_pos hs]
  split <;> rfl

theorem activeAt_viable (hs : l.state = .writing) : (l.activeAt now n act).state.viable = true := by
  by_cases hc : (decide (l.state = .writing) && l.verify && l.onDrive act) = true
  · simp only [Bool.and_eq_true, decide_eq_true_eq] at hc
    rw [activeAt_of_active hs hc.1.2 hc.2]
    rfl
  · rw [activeAt_of_idle (Bool.eq_false_iff.mpr hc)]
    exact emptied_viable hs

/-- Until its ingest digest is final the job's test changes nothing. -/
theorem State.emptying.test (a : u.emptying h q (p.map (Leg.activeAt now n act)) mine t) (hw : ∃ l ∈ p, l.state = .writing)
    (hf : q.ingest.final = none) : t.testJob h = (t, []) := by
  obtain ⟨l, hl, hs⟩ := hw
  refine (testJob_viable a.job ⟨_, List.mem_map.mpr ⟨l, hl, rfl⟩, activeAt_viable hs⟩).1 (Bool.eq_false_iff.mpr fun e => ?_)
  obtain ⟨-, ⟨g, hg, -⟩, -⟩ := finalisable_iff.mp e
  rw [show q.ingest.final = some g from hg] at hf
  cases hf

/-- The drives of the heads seen to in a list of things to do. -/
def seenTo (act : Fin 6 → Bool) (u : State) (l : List Todo) : Fin 6 → Bool :=
  fun e => act e || (decide (.activate e ∈ l) && u.listFree e)

/-- What the WRITTEN legs leave to do is done. -/
theorem emptying_todo (hh : u.headsStand h) (hp : (p.map Leg.target).Nodup) (ht : q.state.terminal = false) (hb : q.blocks = 0)
    (hf : q.ingest.final = none) (hw : ∃ l ∈ p, l.state = .writing) :
    ∀ (todo : List Todo) (act : Fin 6 → Bool) (t : State), (∀ x ∈ todo, x = .test h ∨ ∃ d, x = .activate d) →
      u.emptying h q (p.map (Leg.activeAt u.now q.length act)) (refsOn h p) t → t.works (todo ++ rest) z →
      ∃ t', u.emptying h q (p.map (Leg.activeAt u.now q.length (seenTo act u todo))) (refsOn h p) t' ∧ t'.works rest z
  | [], act, t, _, a, w => ⟨t, a.of_legs (List.map_congr_left fun l _ => activeAt_congr fun d _ => by simp [seenTo]), w⟩
  | x :: todo, act, t, hx, a, w => by
    rcases hx x List.mem_cons_self with rfl | ⟨d, rfl⟩
    · obtain ⟨t', a', w'⟩ := emptying_todo hh hp ht hb hf hw todo act t (fun y hy => hx y (List.mem_cons_of_mem _ hy)) a
        (w.step (a.test hw hf))
      exact ⟨t', a'.of_legs (List.map_congr_left fun l _ => activeAt_congr fun d _ => by simp [seenTo]), w'⟩
    · obtain ⟨hnil, a1⟩ := a.activate (d := d) hh hp ht hb hf
      have w1 : (t.activateHead d).1.works (todo ++ rest) z := w.step (show t.perform (.activate d) = ((t.activateHead d).1, []) from Prod.ext rfl hnil)
      obtain ⟨t', a', w'⟩ := emptying_todo hh hp ht hb hf hw todo _ _ (fun y hy => hx y (List.mem_cons_of_mem _ hy)) a1 w1
      refine ⟨t', a'.of_legs (List.map_congr_left fun l _ => activeAt_congr fun e _ => ?_), w'⟩
      unfold seenTo withDrive
      by_cases hed : e = d
      · subst hed
        cases act e <;> cases u.listFree e <;> simp
      · simp [hed]

theorem mem_todoOf {x : Todo} (hx : x ∈ todoOf h l) : x = .test h ∨ ∃ d, x = .activate d := by
  unfold todoOf at hx
  split at hx
  · split at hx
    · exact .inr ⟨_, List.mem_singleton.mp hx⟩
    · exact .inl (List.mem_singleton.mp hx)
  · cases hx

theorem todoOf_toVerify {d : Fin 6} (hv : l.toVerify d = true) : todoOf h l = [.activate d] := by
  obtain ⟨hs, hv, hd⟩ := toVerify_iff.mp hv
  unfold todoOf
  rw [if_pos hs, hv, hd]

/-- Each WRITING leg is WRITTEN, or VERIFYING where its drive's list was empty, or GOOD. -/
theorem emptying_written (a : u.emptying h q (p.map (Leg.emptied u.now)) (refsOn h p) t) (hh : u.headsStand h) (hp : (p.map Leg.target).Nodup)
    (ht : q.state.terminal = false) (hb : q.blocks = 0) (hf : q.ingest.final = none) (hw : ∃ l ∈ p, l.state = .writing)
    (w : t.works (p.flatMap (todoOf h) ++ rest) z) :
    ∃ t', u.emptying h q (p.map (Leg.activeAt u.now q.length u.listFree)) (refsOn h p) t' ∧ t'.works rest z := by
  obtain ⟨t', a', w'⟩ := emptying_todo hh hp ht hb hf hw _ (fun _ => false) t (fun x hx => by
    obtain ⟨l, -, hx⟩ := List.mem_flatMap.mp hx
    exact mem_todoOf hx) (a.of_legs (List.map_congr_left fun l _ => (activeAt_none l).symm)) w
  refine ⟨t', a'.of_legs (List.map_congr_left fun l hl => activeAt_congr fun d hv => ?_), w'⟩
  have : Todo.activate d ∈ p.flatMap (todoOf h) := List.mem_flatMap.mpr ⟨l, hl, by rw [todoOf_toVerify hv]; exact List.mem_singleton_self _⟩
  simp [seenTo, this]

/-! ## The comparisons -/

/-- A leg that was VERIFYING, compared with the final ingest digest. -/
def Leg.comparedAt (now : Tick) (n : Nat) (act : Fin 6 → Bool) (g : Digest) (l : Leg) : Leg :=
  if decide (l.state = .writing) && l.verify && l.onDrive act then
    { l with
      state := if finalDigest l.context n = g then .good else .mismatch, cause := none, written := some now, finished := some now,
      context := finalise l.context n }
  else l.emptied now

/-- The references that stand in the verify work lists before the comparison of a leg. -/
def refsFrom (u : State) (h : Fin 64) (p : List Leg) (m : Nat) (d : Fin 6) : List LegRef :=
  (refsOn h p d).filter fun r => !u.listFree d || decide (m ≤ r.leg)

theorem refsFrom_zero (d : Fin 6) : refsFrom u h p 0 d = refsOn h p d := by
  unfold refsFrom
  exact List.filter_eq_self.mpr fun r _ => by simp

theorem refsFrom_end (d : Fin 6) : refsFrom u h p p.length d = if u.listFree d then [] else refsOn h p d := by
  unfold refsFrom
  cases u.listFree d with
  | false => exact List.filter_eq_self.mpr fun r _ => rfl
  | true =>
    refine List.filter_eq_nil_iff.mpr fun r hr => ?_
    obtain ⟨-, l, hl, -⟩ := mem_refsOn.mp hr
    have := (List.getElem?_eq_some_iff.mp hl).1
    simp only [Bool.not_true, Bool.false_or, decide_eq_true_eq]
    omega

/-- A leg that is not compared stands in no list that was empty. -/
theorem refsFrom_succ {d : Fin 6} (hl : p[m]? = some l) (hd : ¬ (l.toVerify d = true ∧ u.listFree d = true)) :
    refsFrom u h p (m + 1) d = refsFrom u h p m d := by
  unfold refsFrom
  refine List.filter_congr fun r hr => ?_
  obtain ⟨-, l', hl', hv⟩ := mem_refsOn.mp hr
  cases hf : u.listFree d with
  | false => rfl
  | true =>
    have hne : r.leg ≠ m := by
      rintro rfl
      rw [hl] at hl'
      cases hl'
      exact hd ⟨hv, hf⟩
    simp only [Bool.not_true, Bool.false_or, decide_eq_decide]
    omega

theorem append_cons_modify {α : Type} {a b : List α} {x : α} {f : α → α} (hm : a.length = m) : (a ++ x :: b).modify m f = a ++ [f x] ++ b := by
  subst hm
  induction a with
  | nil => rfl
  | cons y a ih => exact congrArg (y :: ·) ih

theorem emptied_not_verifying (hl : l.state ≠ .verifying) : (l.emptied now).state ≠ .verifying := by
  unfold Leg.emptied
  split
  · split <;> exact LegState.noConfusion
  · exact hl

/-- One leg compared. -/
theorem State.emptying.compare
    (a : u.emptying h q ((p.take m).map (Leg.comparedAt u.now n u.listFree g) ++ (p.drop m).map (Leg.activeAt u.now n u.listFree))
      (refsFrom u h p m) t) (hg : q.ingest.final = some g) (hl : p[m]? = some l) (hnv : l.state ≠ .verifying) :
    u.emptying h q ((p.take (m + 1)).map (Leg.comparedAt u.now n u.listFree g) ++ (p.drop (m + 1)).map (Leg.activeAt u.now n u.listFree))
      (refsFrom u h p (m + 1)) (t.compareWaiting ⟨h, m⟩) := by
  have hm : m < p.length := (List.getElem?_eq_some_iff.mp hl).1
  have hlen : ((p.take m).map (Leg.comparedAt u.now n u.listFree g)).length = m := by simp [Nat.min_eq_left hm.le]
  have hleg : t.leg? ⟨h, m⟩ = some (l.activeAt u.now n u.listFree) := by
    rw [a.leg?, List.getElem?_append_right (by rw [hlen]), hlen, Nat.sub_self, List.getElem?_map, List.getElem?_drop, Nat.add_zero, hl]
    rfl
  have hdrop : (p.drop m).map (Leg.activeAt u.now n u.listFree) =
      l.activeAt u.now n u.listFree :: (p.drop (m + 1)).map (Leg.activeAt u.now n u.listFree) := by
    obtain ⟨_, e⟩ := List.getElem?_eq_some_iff.mp hl
    rw [List.drop_eq_getElem_cons hm, List.map_cons, e]
  have htake : (p.take (m + 1)).map (Leg.comparedAt u.now n u.listFree g) =
      (p.take m).map (Leg.comparedAt u.now n u.listFree g) ++ [l.comparedAt u.now n u.listFree g] := by
    rw [List.take_add_one, hl, List.map_append]
    rfl
  by_cases hc : (decide (l.state = .writing) && l.verify && l.onDrive u.listFree) = true
  · have hc' := hc
    simp only [Bool.and_eq_true, decide_eq_true_eq] at hc'
    obtain ⟨⟨hs, hv⟩, hon⟩ := hc'
    rw [activeAt_of_active hs hv hon] at hleg
    cases hd : l.target with
    | sink =>
      unfold Leg.onDrive at hon
      rw [hd] at hon
      cases hon
    | drive d =>
      rw [onDrive_of hd] at hon
      have hcmp : t.compareWaiting ⟨h, m⟩ = ((t.endLeg ⟨h, m⟩ (if finalDigest l.context n = g then .good else .mismatch) none).modReader d
          fun q => { q with work := q.work.filter fun x => x != ⟨h, m⟩ }) := by
        unfold State.compareWaiting State.compareLeg
        rw [hleg]
        dsimp only
        rw [hd]
        dsimp only
        rw [a.job]
        dsimp only
        rw [hg]
        rfl
      rw [hcmp]
      refine ((a.modLeg m (Leg.ended t.now (if finalDigest l.context n = g then .good else .mismatch) none)).of_legs ?_).modReader ?_ fun e he => ?_
      · rw [hdrop, htake, append_cons_modify hlen, activeAt_of_active hs hv (onDrive_of hd ▸ hon), a.now_eq]
        unfold Leg.ended Leg.comparedAt
        rw [hc]
        rfl
      · change (t.readers[d.val]).work.filter (fun x => x != ⟨h, m⟩) = _
        rw [a.work d, decide_eq_true_eq.mp hon, List.nil_append, List.nil_append]
        unfold refsFrom
        rw [List.filter_filter]
        refine List.filter_congr fun r hr => ?_
        obtain ⟨hj, -⟩ := mem_refsOn.mp hr
        obtain ⟨rj, k⟩ := r
        subst hj
        rw [hon]
        by_cases hk : k = m
        · subst hk
          simp
        · have : (m ≤ k) ↔ (m + 1 ≤ k) := by omega
          simp [hk, this]
      · refine refsFrom_succ hl ?_
        rintro ⟨h1, -⟩
        rw [(toVerify_iff.mp h1).2.2] at hd
        cases hd
        exact he rfl
  · have hc := Bool.eq_false_iff.mpr hc
    rw [activeAt_of_idle hc] at hleg
    have hcmp : t.compareWaiting ⟨h, m⟩ = t := by
      rcases compareWaiting_cases t ⟨h, m⟩ with e | ⟨l', d, -, -, e⟩
      · exact e
      · rcases compareLeg_cases t d ⟨h, m⟩ with e' | ⟨l', j, v, f, hl', -, -, -, hs, -⟩
        · rw [e, e']
        · rw [hleg] at hl'
          cases hl'
          exact absurd hs (emptied_not_verifying hnv)
    rw [hcmp]
    refine (a.of_legs ?_).of_mine fun d => (refsFrom_succ hl ?_).symm
    · rw [hdrop, htake, List.append_assoc, activeAt_of_idle hc]
      unfold Leg.comparedAt
      rw [hc]
      rfl
    · rintro ⟨hv, hf⟩
      obtain ⟨hs, hv, hd⟩ := toVerify_iff.mp hv
      rw [decide_eq_true hs, hv, onDrive_of hd, hf] at hc
      cases hc

/-- The legs compared, from the first on. -/
theorem emptying_compares (a : u.emptying h q (p.map (Leg.activeAt u.now n u.listFree)) (refsOn h p) t) (hg : q.ingest.final = some g)
    (hnv : ∀ l ∈ p, l.state ≠ .verifying) : ∀ m, m ≤ p.length →
      u.emptying h q ((p.take m).map (Leg.comparedAt u.now n u.listFree g) ++ (p.drop m).map (Leg.activeAt u.now n u.listFree))
        (refsFrom u h p m) (((List.range m).map fun k => (⟨h, k⟩ : LegRef)).foldl State.compareWaiting t)
  | 0, _ => a.of_mine fun d => (refsFrom_zero d).symm
  | m + 1, hm => by
    have hl : p[m]? = some p[m] := List.getElem?_eq_getElem (by omega)
    rw [List.range_succ, List.map_append, List.foldl_append]
    exact (emptying_compares a hg hnv m (by omega)).compare hg hl (hnv _ (List.getElem_mem _))

/-- All legs compared that were VERIFYING. -/
theorem emptying_compared (a : u.emptying h q (p.map (Leg.activeAt u.now n u.listFree)) (refsOn h p) t) (hg : q.ingest.final = some g)
    (hnv : ∀ l ∈ p, l.state ≠ .verifying) :
    u.emptying h q (p.map (Leg.comparedAt u.now n u.listFree g)) (fun d => if u.listFree d then [] else refsOn h p d)
      ((t.legRefs h).foldl State.compareWaiting t) := by
  have hr : t.legRefs h = (List.range p.length).map fun k => (⟨h, k⟩ : LegRef) := by
    unfold State.legRefs
    rw [a.job]
    simp
  have b := emptying_compares a hg hnv p.length (Nat.le_refl _)
  rw [hr]
  refine (b.of_legs ?_).of_mine fun d => refsFrom_end d
  rw [List.take_length, List.drop_length, List.map_nil, List.append_nil]

end Sys2Proof.Machine
end

