-- ==== Sys2Proof/Proofs/P54.lean ====
section
/-! How the start of a job of no blocks ends (R12, R14, R15): with its expected digest wrong it fails, and otherwise it ends with its legs or waits
for those behind others in their verify work lists. -/

namespace Sys2Proof.Machine

open Sys2Proof

variable {s t u v z : State} {h : Fin 64} {i : Fin 8} {j q : Job} {l : Leg} {p legs : List Leg} {mine : Fin 6 → List LegRef} {n : Nat} {now : Tick}
  {rest : List Todo} {g : Digest}

/-! ## Heads that stand -/

/-- A head that stood before the job's start stands. -/
theorem heads_stand (hh : u.headsStand h) {d : Fin 6} (hw : ∀ r rest, (t.readers[d.val]).work = r :: rest → ∃ l, (u.readers[d.val]).work = r :: l)
    (ho : ∀ k, k ≠ h → t.job? k = u.job? k) : t.perform (.activate d) = (t, []) := by
  refine activateHead_stands fun r rest l hr hl => ?_
  obtain ⟨m, hu⟩ := hw r rest hr
  obtain ⟨hne, hst⟩ := hh d r m hu
  exact hst l ((leg?_of_job? (ho _ hne)).symm.trans hl)

theorem emptying_heads (a : u.emptying h q legs mine t) (hh : u.headsStand h) (hm : ∀ d, u.listFree d = true → mine d = []) (d : Fin 6) :
    t.perform (.activate d) = (t, []) := by
  refine heads_stand hh (fun r rest hr => ?_) a.others
  rw [a.work d] at hr
  cases hw : (u.readers[d.val]).work with
  | nil =>
    rw [hw, hm d (decide_eq_true hw)] at hr
    cases hr
  | cons r0 rest0 =>
    rw [hw] at hr
    cases hr
    exact ⟨_, rfl⟩

/-- After the job's teardown too. -/
theorem teardown_heads (a : u.emptying h q legs mine t) (hh : u.headsStand h) (hm : ∀ d, ∀ r ∈ mine d, r.job = h) (o : JobState) (c : JobCause)
    (d : Fin 6) : (t.teardown h o c).perform (.activate d) = (t.teardown h o c, []) := by
  have hnil : (mine d).filter (fun r => r.job != h) = [] := List.filter_eq_nil_iff.mpr fun r hr => by simp [hm d r hr]
  refine heads_stand hh (fun r rest hr => ?_) fun k hk => by rw [teardown_job?, if_neg (Ne.symm hk)]; exact a.others k hk
  rw [teardown_work, a.work d, List.filter_append, hnil, List.append_nil] at hr
  cases hw : (u.readers[d.val]).work with
  | nil =>
    rw [hw] at hr
    cases hr
  | cons r0 rest0 =>
    rw [hw, List.filter_cons_of_pos (by simpa using (hh d r0 rest0 hw).1)] at hr
    cases hr
    exact ⟨_, rfl⟩

/-- Things that change nothing. -/
theorem State.works.idle {m : List Todo} (a : s.works (m ++ rest) t) (hm : ∀ x ∈ m, s.perform x = (s, [])) : s.works rest t := by
  obtain ⟨u, rfl, hw⟩ := a.through (P := fun u => u = s) (fun u x hx e => by rw [e, hm x hx]; exact ⟨rfl, rfl⟩) rfl
  exact hw

/-- What follows a teardown of the job changes nothing: no head becomes VERIFYING, and its port's line-up is empty. -/
theorem State.works.afterTeardown {o : JobState} {c : JobCause} (w : (t.teardown h o c).works (afterTeardown i ++ rest) z)
    (a : u.emptying h q legs mine t) (hh : u.headsStand h) (hm : ∀ d, ∀ r ∈ mine d, r.job = h)
    (hi : ((t.teardown h o c).ingest[i.val]).lineUp = []) : (t.teardown h o c).works rest z := by
  refine w.idle fun x hx => ?_
  unfold Machine.afterTeardown at hx
  rcases List.mem_append.mp hx with hx | hx
  · obtain ⟨d, -, rfl⟩ := List.mem_map.mp hx
    exact teardown_heads a hh hm o c d
  · rw [List.mem_singleton.mp hx]
    exact perform_start_idle hi

/-- A torn port that waits for nothing. -/
theorem teardown_idle (hj : t.job? h = some q) (hp : q.port = i) (hr : (t.ingest[i.val]).reading = none) (hl : (t.ingest[i.val]).lineUp = [])
    (o : JobState) (c : JobCause) :
    ((t.teardown h o c).ingest[i.val]).reading = none ∧ ((t.teardown h o c).ingest[i.val]).lineUp = [] := by
  subst hp
  rw [teardown_ingest hj, setEntry_same]
  unfold IngestPort.dropJob
  rw [hr, if_neg (by exact fun e => by cases e)]
  exact ⟨rfl, by rw [hl]; rfl⟩

end Sys2Proof.Machine
end

