-- ==== Sys2Proof/Proofs/P55.lean ====
section
/-! The start of a job of no blocks, to its end (R12, R14, R15, R120). -/

namespace Sys2Proof.Machine

open Sys2Proof

variable {s t u v z : State} {h : Fin 64} {i : Fin 8} {j q : Job} {l : Leg} {p legs : List Leg} {mine : Fin 6 → List LegRef} {n : Nat} {now : Tick}
  {rest : List Todo} {g : Digest} {act : Fin 6 → Bool}

/-! ## The compared legs -/

/-- A leg waits behind others of its drive's verify work list. -/
def Leg.waitsFor (act : Fin 6 → Bool) (l : Leg) : Prop :=
  ∃ d, l.toVerify d = true ∧ act d = false

theorem comparedAt_of_rest (hc : (decide (l.state = .writing) && l.verify && l.onDrive act) = false) :
    l.comparedAt now n act g = l.emptied now := by
  unfold Leg.comparedAt
  rw [hc]
  rfl

theorem comparedAt_of_idle (hs : l.state ≠ .writing) : l.comparedAt now n act g = l := by
  rw [comparedAt_of_rest (by rw [decide_eq_false hs]; rfl)]
  exact if_neg hs

theorem comparedAt_of_waits (hw : l.waitsFor act) : l.comparedAt now n act g = { l with state := .written, written := some now } := by
  obtain ⟨d, hv, ha⟩ := hw
  obtain ⟨hs, hv, hd⟩ := toVerify_iff.mp hv
  rw [comparedAt_of_rest (by rw [onDrive_of hd, ha, Bool.and_false])]
  exact (if_pos hs).trans (if_pos ⟨hv, by rw [hd]; exact Target.noConfusion⟩)

theorem comparedAt_of_active {d : Fin 6} (hv : l.toVerify d = true) (ha : act d = true) :
    l.comparedAt now n act g =
      { l with
        state := if finalDigest l.context n = g then .good else .mismatch, cause := none, written := some now, finished := some now,
        context := finalise l.context n } := by
  obtain ⟨hs, hv, hd⟩ := toVerify_iff.mp hv
  unfold Leg.comparedAt
  rw [decide_eq_true hs, hv, onDrive_of hd, ha]
  rfl

theorem comparedAt_of_unverified (hs : l.state = .writing) (hn : ∀ d, l.toVerify d = false) :
    l.comparedAt now n act g = { l with written := some now, state := .good, cause := none, finished := some now } := by
  have hv : ¬ (l.verify = true ∧ ∃ d, l.target = .drive d) := by
    rintro ⟨hv, d, hd⟩
    have := hn d
    rw [toVerify_iff.mpr ⟨hs, hv, hd⟩] at this
    cases this
  have hc : (decide (l.state = .writing) && l.verify && l.onDrive act) = false := by
    cases hd : l.target with
    | sink =>
      unfold Leg.onDrive
      rw [hd, Bool.and_false]
    | drive d =>
      cases hb : l.verify with
      | false => simp
      | true => exact absurd ⟨hb, d, hd⟩ hv
  rw [comparedAt_of_rest hc]
  refine (if_pos hs).trans (if_neg ?_)
  rintro ⟨h1, h2⟩
  cases hd : l.target with
  | sink => exact h2 hd
  | drive d => exact hv ⟨h1, d, hd⟩

/-- A compared leg has ended unless it waits. -/
theorem comparedAt_terminal (hs : l.state = .writing ∨ l.state = .failed) :
    (l.comparedAt now n act g).state.terminal = true ↔ ¬ l.waitsFor act := by
  by_cases hw : l.waitsFor act
  · rw [comparedAt_of_waits hw]
    exact iff_of_false Bool.false_ne_true fun e => e hw
  · refine ⟨fun _ => hw, fun _ => ?_⟩
    rcases hs with hs | hs
    · by_cases hv : ∃ d, l.toVerify d = true
      · obtain ⟨d, hv⟩ := hv
        have ha : act d = true := by
          by_contra ha
          exact hw ⟨d, hv, Bool.eq_false_iff.mpr ha⟩
        rw [comparedAt_of_active hv ha]
        dsimp only
        split <;> rfl
      · rw [comparedAt_of_unverified hs fun d => Bool.eq_false_iff.mpr fun e => hv ⟨d, e⟩]
        rfl
    · rw [comparedAt_of_idle (by rw [hs]; exact LegState.noConfusion), hs]
      rfl

/-! ## A job whose legs have ended -/

theorem goodLegs_eq_zero {j : Job} : j.goodLegs = 0 ↔ ∀ l ∈ j.legs, l.state ≠ .good := by
  unfold Job.goodLegs
  rw [List.length_eq_zero_iff, List.filter_eq_nil_iff]
  simp

/-- Of legs that have ended the viable ones are GOOD. -/
theorem goodLegs_of_terminal (ht : ∀ l ∈ j.legs, l.state.terminal = true) : j.goodLegs = 0 ↔ j.viableLegs = 0 := by
  rw [goodLegs_eq_zero, viableLegs_eq_zero]
  refine forall₂_congr fun l hl => ?_
  have := ht l hl
  cases hs : l.state <;> simp_all [LegState.terminal, LegState.viable]

/-- The teardown of a job whose legs have ended. -/
theorem torn_of_terminal (hs : j.state.terminal = false) (ht : ∀ l ∈ j.legs, l.state.terminal = true) (o : JobState) (c : JobCause) :
    j.torn now o c = { j with state := o, cause := some c, finishedAt := some now } := by
  have hl : j.legs.map (fun l => if l.state.terminal then l else { l with state := .abandoned, finished := some now }) = j.legs :=
    (List.map_congr_left fun l hm => if_pos (ht l hm)).trans (List.map_id _)
  unfold Job.torn Job.finished Job.abandoned
  rw [if_neg (by rw [hs]; exact Bool.false_ne_true)]
  dsimp only
  rw [hl]

end Sys2Proof.Machine
end

