-- ==== Sys2Proof/Proofs/P56.lean ====
section
/-! The start of a job of no blocks, to its end (R12, R14, R15, R120). -/

namespace Sys2Proof.Machine

open Sys2Proof

variable {s t u v z : State} {h : Fin 64} {i : Fin 8} {j q : Job} {l : Leg} {p legs : List Leg} {mine : Fin 6 → List LegRef} {n : Nat} {now : Tick}
  {rest : List Todo} {g : Digest} {act : Fin 6 → Bool}

/-! ## Its ingest digest final -/

/-- What the end of a started job of no blocks leaves of it, from the state in which its legs were placed. -/
structure State.emptyEnds (u : State) (h : Fin 64) (i : Fin 8) (q : Job) (p : List Leg) (z : State) : Prop where
  drives : z.drives = u.drives
  reading : (z.ingest[i.val]).reading = none
  work : ∀ (d : Fin 6), ∀ r ∈ (z.readers[d.val]).work, r ∈ (u.readers[d.val]).work ∨ r ∈ refsOn h p d
  job : ∃ k, z.job? h = some k ∧
    k = { q with
      ingest := finalise q.ingest q.length, state := k.state, cause := k.cause, finishedAt := k.finishedAt, legs := k.legs } ∧
    (¬ (q.expected = none ∨ q.expected = some (finalDigest q.ingest q.length)) →
      k.state = .failed ∧ k.cause = some .sourceMismatch ∧ k.finishedAt = some u.now ∧ ∀ l ∈ k.legs, l.state.terminal = true) ∧
    ((q.expected = none ∨ q.expected = some (finalDigest q.ingest q.length)) →
      k.legs = p.map (Leg.comparedAt u.now q.length u.listFree (finalDigest q.ingest q.length)) ∧
        ((∃ l ∈ p, l.waitsFor u.listFree) → k.state = .settling ∧
          ∀ d : Fin 6, (z.readers[d.val]).work = (u.readers[d.val]).work ++ if u.listFree d then [] else refsOn h p d) ∧
        ((∀ l ∈ p, ¬ l.waitsFor u.listFree) → k.state.terminal = true ∧ k.finishedAt = some u.now ∧
          (k.state, k.cause) = if q.required ≤ k.goodLegs ∧ k.goodLegs ≠ 0 then (.done, none) else (.failed, some .insufficientCopies)))

theorem State.emptying.finalised (a : u.emptying h q legs mine t) :
    u.emptying h { q with ingest := finalise q.ingest q.length } legs mine (t.finaliseIngest h) where
  job := (State.job?_modJob t h h _).trans (by rw [if_pos rfl, a.job]; rfl)
  work := a.work
  others k hk := (State.job?_modJob t h k _).trans ((if_neg (Ne.symm hk)).trans (a.others k hk))
  rest := by
    have := a.rest
    rw [this]
    rfl

theorem State.emptying.ingest (a : u.emptying h q legs mine t) : t.ingest = u.ingest := by
  rw [a.rest]

theorem State.emptying.drives (a : u.emptying h q legs mine t) : t.drives = u.drives := by
  rw [a.rest]

theorem mem_refsOn_job {d : Fin 6} : ∀ r ∈ refsOn h p d, r.job = h :=
  fun _ hr => (mem_refsOn.mp hr).1

/-- A port that reads nothing and waits for nothing. -/
def IngestPort.idle (p : IngestPort) : Prop :=
  p.reading = none ∧ p.lineUp = []

/-- The expected digest differs (R14, R22). -/
theorem emptying_mismatch (a : u.emptying h q legs (refsOn h p) t) (hh : u.headsStand h) (hs : q.state.terminal = false) (hp : q.port = i)
    (hi : (u.ingest[i.val]).idle) (he : ¬ (q.expected = none ∨ q.expected = some (finalDigest q.ingest q.length)))
    (w : t.works [.ingestFinal h, .start i] z) : u.emptyEnds h i q p z := by
  have b := a.finalised
  have hi' : (((t.finaliseIngest h).ingest)[i.val]).idle := by rw [b.ingest]; exact hi
  have hidle := teardown_idle b.job (i := i) hp hi'.1 hi'.2 .failed .sourceMismatch
  have hperform : t.perform (.ingestFinal h) = ((t.finaliseIngest h).teardown h .failed .sourceMismatch, afterTeardown i) := by
    rcases ingestFinalised_cases t h with ⟨-, hno⟩ | ⟨k, hk, -, ⟨hx, -⟩ | ⟨-, e⟩⟩
    · have := hno _ a.job
      rw [show ({ q with legs := legs } : Job).state = q.state from rfl, hs] at this
      cases this
    · rw [a.job] at hk
      cases hk
      exact absurd hx he
    · refine Eq.trans e ?_
      rcases tearJob_cases (t.finaliseIngest h) h .failed .sourceMismatch with ⟨-, hno⟩ | ⟨k, hk, -, e'⟩
      · have := hno _ b.job
        rw [show ({ q with ingest := finalise q.ingest q.length, legs := legs } : Job).state = q.state from rfl, hs] at this
        cases this
      · rw [b.job] at hk
        cases hk
        rw [e', ← hp]
  have hz : (t.finaliseIngest h).teardown h .failed .sourceMismatch = z := by
    have w1 := (w.step hperform).afterTeardown b hh (fun d => mem_refsOn_job) hidle.2
    exact ((w1.step (rest := []) (perform_start_idle hidle.2)).nil).symm
  have hjob : z.job? h = some (Job.torn (t.finaliseIngest h).now .failed .sourceMismatch { q with ingest := finalise q.ingest q.length, legs := legs }) := by
    rw [← hz, teardown_job?, if_pos rfl, b.job]
    rfl
  refine ⟨by rw [← hz, teardown_drives, b.drives], by rw [← hz]; exact hidle.1, fun d r hr => ?_, ⟨_, hjob, ?_, fun _ => ?_, fun e => absurd e he⟩⟩
  · rw [← hz, teardown_work, b.work d] at hr
    exact List.mem_append.mp (List.mem_filter.mp hr).1
  · unfold Job.torn Job.finished
    rw [if_neg (by exact ne_true_of_eq_false hs)]
    rfl
  · obtain ⟨h1, h2, -⟩ := Job.torn_spec (now := (t.finaliseIngest h).now) (o := .failed) (c := .sourceMismatch)
      (j := { q with ingest := finalise q.ingest q.length, legs := legs }) hs
    obtain ⟨-, h3⟩ := Job.torn_settled (now := (t.finaliseIngest h).now) (o := .failed) rfl .sourceMismatch
      { q with ingest := finalise q.ingest q.length, legs := legs }
    refine ⟨h1, h2, ?_, h3⟩
    unfold Job.torn Job.finished
    rw [if_neg (by exact ne_true_of_eq_false hs), b.now_eq]
    rfl

/-- The job of no blocks with its digests compared. -/
def State.comparedJob (u : State) (q : Job) (p : List Leg) : Job :=
  { q with
    ingest := finalise q.ingest q.length,
    legs := p.map (Leg.comparedAt u.now q.length u.listFree (finalDigest q.ingest q.length)) }

/-- It can end if none of its legs waits (R15). -/
theorem comparedJob_finalisable (hs : q.state = .settling) (he : q.expected = none ∨ q.expected = some (finalDigest q.ingest q.length))
    (hp : ∀ l ∈ p, l.state = .writing ∨ l.state = .failed) :
    (u.comparedJob q p).finalisable = true ↔ ∀ l ∈ p, ¬ l.waitsFor u.listFree := by
  rw [finalisable_iff]
  constructor
  · rintro ⟨-, -, ht⟩ l hl
    exact (comparedAt_terminal (hp l hl)).mp (ht _ (List.mem_map.mpr ⟨l, hl, rfl⟩))
  · refine fun hn => ⟨hs, ⟨_, rfl, he⟩, fun l hl => ?_⟩
    obtain ⟨m, hm, rfl⟩ := List.mem_map.mp hl
    exact (comparedAt_terminal (hp m hm)).mpr (hn m hm)

/-- With no viable leg none waits. -/
theorem comparedJob_hopeless (hv : (u.comparedJob q p).viableLegs = 0) (hl : l ∈ p) : ¬ l.waitsFor u.listFree := by
  intro hw
  have := viableLegs_eq_zero.mp hv _ (List.mem_map.mpr ⟨l, hl, rfl⟩)
  rw [comparedAt_of_waits hw] at this
  cases this

/-- Once its legs have ended the job ends as R15 says. -/
theorem emptyEnds_of_ended {o : JobState} {c : Option JobCause} (hz : z.job? h = some { u.comparedJob q p with
      state := o, cause := c, finishedAt := some u.now })
    (hd : z.drives = u.drives) (hr : (z.ingest[i.val]).reading = none)
    (hw : ∀ (d : Fin 6), ∀ r ∈ (z.readers[d.val]).work, r ∈ (u.readers[d.val]).work ∨ r ∈ refsOn h p d) (ho : o.terminal = true)
    (he : q.expected = none ∨ q.expected = some (finalDigest q.ingest q.length)) (hn : ∀ l ∈ p, ¬ l.waitsFor u.listFree)
    (hoc : (o, c) = if q.required ≤ (u.comparedJob q p).goodLegs ∧ (u.comparedJob q p).goodLegs ≠ 0 then (.done, none)
      else (.failed, some .insufficientCopies)) : u.emptyEnds h i q p z :=
  ⟨hd, hr, hw, _, hz, rfl, fun e => absurd he e, fun _ => ⟨rfl, fun ⟨l, hl, hx⟩ => absurd hx (hn l hl), fun _ => ⟨ho, rfl, hoc⟩⟩⟩

/-- The digest is as expected: what its legs' comparisons leave, followed to the job's end or to its waiting legs (R14, R15). -/
theorem emptying_match (a : u.emptying h q (p.map (Leg.activeAt u.now q.length u.listFree)) (refsOn h p) t) (hh : u.headsStand h)
    (hs : q.state = .settling) (hp : q.port = i) (hi : (u.ingest[i.val]).idle) (hps : ∀ l ∈ p, l.state = .writing ∨ l.state = .failed)
    (he : q.expected = none ∨ q.expected = some (finalDigest q.ingest q.length)) (w : t.works [.ingestFinal h, .start i] z) :
    u.emptyEnds h i q p z := by
  obtain ⟨t4, ht4⟩ : ∃ t4, t4 = ((t.finaliseIngest h).legRefs h).foldl State.compareWaiting (t.finaliseIngest h) := ⟨_, rfl⟩
  have b : u.emptying h { q with ingest := finalise q.ingest q.length }
      (p.map (Leg.comparedAt u.now q.length u.listFree (finalDigest q.ingest q.length))) (fun d => if u.listFree d then [] else refsOn h p d) t4 := by
    rw [ht4]
    exact emptying_compared a.finalised rfl fun l hl e => by rcases hps l hl with e' | e' <;> rw [e] at e' <;> cases e'
  have hjob : t4.job? h = some (u.comparedJob q p) := b.job
  have hterm : q.state.terminal = false := by rw [hs]; rfl
  have hperform : t.perform (.ingestFinal h) = (t4, allDrives.map .activate ++ [.test h]) := by
    rcases ingestFinalised_cases t h with ⟨-, hno⟩ | ⟨k, hk, -, ⟨-, e⟩ | ⟨hx, -⟩⟩
    · have := hno _ a.job
      rw [show ({ q with legs := p.map (Leg.activeAt u.now q.length u.listFree) } : Job).state = q.state from rfl, hterm] at this
      cases this
    · rw [ht4]
      exact e
    · rw [a.job] at hk
      cases hk
      exact absurd he hx
  have hheads := emptying_heads b hh fun d hd => if_pos hd
  have w1 : t4.works [.test h, .start i] z := by
    have := w.step hperform
    rw [List.append_assoc] at this
    exact this.idle fun x hx => by
      obtain ⟨d, -, rfl⟩ := List.mem_map.mp hx
      exact hheads d
  have hidle : (t4.ingest[i.val]).idle := by rw [b.ingest]; exact hi
  have hmem : ∀ (d : Fin 6), ∀ r ∈ (t4.readers[d.val]).work, r ∈ (u.readers[d.val]).work ∨ r ∈ refsOn h p d := by
    intro d r hr
    rw [b.work d] at hr
    rcases List.mem_append.mp hr with hr | hr
    · exact .inl hr
    · split at hr
      · cases hr
      · exact .inr hr
  have hends : ∀ {y : State}, t4.perform (.test h) = (y, []) → (y.ingest[i.val]).lineUp = [] → z = y := fun hy hl =>
    ((w1.step (rest := [.start i]) hy).step (rest := []) (perform_start_idle hl)).nil
  rcases testJob_cases t4 h with ⟨e, hno⟩ | ⟨k, hk, -, hc⟩
  · have hz : z = t4 := hends e hidle.2
    have hfin := (hno _ hjob (.inr hs)).2
    have hwait : ¬ ∀ l ∈ p, ¬ l.waitsFor u.listFree := fun hn => by
      rw [(comparedJob_finalisable hs he hps).mpr hn] at hfin
      cases hfin
    subst hz
    exact ⟨b.drives, hidle.1, hmem, _, hjob, rfl, fun e => absurd he e, fun _ => ⟨rfl, fun _ => ⟨hs, b.work⟩, fun hn => absurd hn hwait⟩⟩
  rw [hjob] at hk
  cases hk
  have hfinish : ∀ {o : JobState} {c : Option JobCause}, (u.comparedJob q p).viableLegs ≠ 0 → (u.comparedJob q p).finalisable = true →
      o.terminal = true → t4.perform (.test h) = (t4.finishJob h o c, []) →
      (o, c) = (if q.required ≤ (u.comparedJob q p).goodLegs then (.done, none) else (.failed, some .insufficientCopies)) →
      u.emptyEnds h i q p z := by
    intro o c hv hf ho e hoc
    have ht := (finalisable_iff.mp hf).2.2
    have hgood : (u.comparedJob q p).goodLegs ≠ 0 := fun e => hv ((goodLegs_of_terminal ht).mp e)
    have hz := hends e (by rw [finishJob_ingest]; exact hidle.2)
    refine emptyEnds_of_ended ?_ (by rw [hz, finishJob_drives, b.drives]) (by rw [hz, finishJob_ingest]; exact hidle.1)
      (fun d r hr => hmem d r (by rw [hz, finishJob_readers] at hr; exact hr)) ho he ((comparedJob_finalisable hs he hps).mp hf)
      (c := c) ?_
    · rw [hz, finishJob_job?, if_pos rfl, hjob, Option.map_some, b.now_eq]
      exact congrArg some (if_neg (ne_true_of_eq_false hterm))
    · simp only [hoc, hgood, ne_eq, not_false_eq_true, and_true]
  rcases hc with ⟨hv, e⟩ | ⟨hv, hf, hg, e⟩ | ⟨hv, hf, hg, e⟩
  · have hn : ∀ l ∈ p, ¬ l.waitsFor u.listFree := fun l hl => comparedJob_hopeless hv hl
    have ht := (finalisable_iff.mp ((comparedJob_finalisable hs he hps).mpr hn)).2.2
    have hti := teardown_idle hjob (i := i) hp hidle.1 hidle.2 .failed .insufficientCopies
    have hz : z = t4.teardown h .failed .insufficientCopies := by
      have hp2 : t4.perform (.test h) = (t4.teardown h .failed .insufficientCopies, afterTeardown i) := by
        refine Eq.trans e ?_
        rcases tearJob_cases t4 h .failed .insufficientCopies with ⟨-, hno⟩ | ⟨k, hk, -, e'⟩
        · have := hno _ hjob
          rw [show (u.comparedJob q p).state = q.state from rfl, hterm] at this
          cases this
        · rw [hjob] at hk
          cases hk
          rw [e', ← hp]
          rfl
      have w2 := (w1.step hp2).afterTeardown b hh (fun d r hr => by
        split at hr
        · cases hr
        · exact mem_refsOn_job r hr) hti.2
      exact (w2.step (rest := []) (perform_start_idle hti.2)).nil
    refine emptyEnds_of_ended (o := .failed) (c := some .insufficientCopies) ?_ ?_ ?_ (fun d r hr => ?_) rfl he hn ?_
    · rw [hz, teardown_job?, if_pos rfl, hjob, Option.map_some, torn_of_terminal (j := u.comparedJob q p) hterm ht, b.now_eq]
    · rw [hz, teardown_drives, b.drives]
    · rw [hz]
      exact hti.1
    · rw [hz, teardown_work] at hr
      exact hmem d r (List.mem_filter.mp hr).1
    · rw [if_neg fun hx => hx.2 ((goodLegs_of_terminal ht).mpr hv)]
  · exact hfinish hv hf rfl e (if_pos (show q.required ≤ _ from hg)).symm
  · exact hfinish hv hf rfl e (if_neg (show ¬ q.required ≤ _ from hg)).symm

end Sys2Proof.Machine
end

