-- ==== Sys2Proof/Proofs/P57.lean ====
section
/-! The start of a job of no blocks at its LOAD_JOB, from the placement of its legs to the end of the event (R12, R14, R15, R120). -/

namespace Sys2Proof.Machine

open Sys2Proof

variable {s t u v z : State} {h : Fin 64} {i : Fin 8} {j q : Job} {l : Leg} {r : Request} {rest : List Request} {b : LoadBody}

/-! ## A job of no blocks -/

/-- A started job of no blocks before its legs are WRITTEN (R12). -/
def State.emptyJob (v : State) (j : Job) : Job :=
  { v.placedJob j with state := .settling, arrivedAllAt := some v.now }

/-- The state in which a job of no blocks has been placed. -/
def State.emptiedStart (v : State) (i : Fin 8) (h : Fin 64) : State :=
  (v.placeLegs i h).emptied h

theorem emptiedStart_job (a : v.startsAlone i h j) : (v.emptiedStart i h).job? h = some (v.emptyJob j) := by
  refine (State.job?_modJob (v.placeLegs i h) h h _).trans ?_
  rw [if_pos rfl, a.placedJob]
  rfl

theorem emptiedStart_other (a : v.startsAlone i h j) {k : Fin 64} (hk : k ≠ h) : (v.emptiedStart i h).job? k = v.job? k :=
  (State.job?_modJob (v.placeLegs i h) h k _).trans ((if_neg (Ne.symm hk)).trans (a.placed.others k hk))

theorem emptiedStart_readers (a : v.startsAlone i h j) : (v.emptiedStart i h).readers = v.readers :=
  a.placed.readers

theorem emptiedStart_now (a : v.startsAlone i h j) : (v.emptiedStart i h).now = v.now :=
  a.placed.now

/-- No verify work list holds a leg of a job that has not started. -/
theorem State.startsAlone.work_ne (a : v.startsAlone i h j) (ho : v.outcomesOk) (d : Fin 6) : ∀ r ∈ (v.readers[d.val]).work, r.job ≠ h :=
  ho.work_job_ne (fun q hq m hm => by
    rw [a.job] at hq
    cases hq
    rw [(ho.1 h j a.job).2.1 a.loaded m hm]
    decide) d

theorem emptiedStart_heads (a : v.startsAlone i h j) (ho : v.outcomesOk) (hh : v.headsActive) : (v.emptiedStart i h).headsStand h := by
  intro d r rest hr
  rw [emptiedStart_readers a] at hr
  have hne := a.work_ne ho d r (by rw [hr]; exact List.mem_cons_self)
  exact ⟨hne, fun l hl => hh d r rest l hr ((leg?_of_job? (emptiedStart_other a hne)).symm.trans hl)⟩

/-- The start of a job of no blocks, to its end. -/
theorem State.startsAlone.empties (a : v.startsAlone i h j) (hp : j.port = i) (hb : j.blocks = 0) (hf : j.ingest.final = none)
    (hw : ∃ l ∈ j.legs.map (v.placedLeg j.blocks), l.state = .writing) (ho : v.outcomesOk) (hh : v.headsActive) :
    (v.emptiedStart i h).emptyEnds h i (v.emptyJob j) (v.placedJob j).legs (v.cascade [.start i]) := by
  obtain ⟨u, hu⟩ : ∃ u, u = v.emptiedStart i h := ⟨_, rfl⟩
  have hjob : u.job? h = some (v.emptyJob j) := hu ▸ emptiedStart_job a
  have hnow : u.now = v.now := hu ▸ emptiedStart_now a
  have hheads : u.headsStand h := hu ▸ emptiedStart_heads a ho hh
  have hblocks : (v.emptyJob j).blocks = 0 := hb
  have htargets : ((v.placedJob j).legs.map Leg.target).Nodup := by
    rw [placedJob_targets]
    exact a.fresh.1
  have hidle : (u.ingest[i.val]).idle := by
    rw [hu]
    change ((v.placeLegs i h).ingest[i.val]).idle
    rw [a.port]
    exact ⟨a.reading, rfl⟩
  have hbase : u.emptying h (v.emptyJob j) (v.placedJob j).legs (fun _ => []) u :=
    ⟨hjob, fun d => (List.append_nil _).symm, fun _ _ => rfl, rfl⟩
  obtain ⟨h1, h2⟩ := emptying_range hbase (v.placedJob j).legs.length (Nat.le_refl _)
  rw [List.take_length, List.drop_length, List.append_nil] at h1
  rw [List.take_length] at h2
  have hperform : v.perform (.start i) = ((eachLeg State.writtenIfWriting ((List.range (v.placedJob j).legs.length).map fun k => ⟨h, k⟩) u).1,
      (v.placedJob j).legs.flatMap (todoOf h) ++ [.ingestFinal h, .start i]) := by
    rw [a.start]
    rcases startJob_cases v i h with ⟨hno, -⟩ | ⟨k, hk, ⟨hv, -⟩ | ⟨-, -, e⟩ | ⟨-, hn, -⟩⟩
    · rw [a.placedJob] at hno
      cases hno
    · rw [a.placedJob] at hk
      cases hk
      exact absurd hv (placedJob_viable.mpr hw)
    · have hr : (v.beginStart i h).legRefs h = (List.range (v.placedJob j).legs.length).map fun k => (⟨h, k⟩ : LegRef) := by
        unfold State.legRefs
        rw [beginStart_job?, if_pos rfl, a.job]
        simp [State.placedJob]
      rw [hr] at e
      rw [← h2, hu]
      exact e
    · rw [a.placedJob] at hk
      cases hk
      exact absurd hb hn
  have w := (cascade_works (l := [.start i]) ho.legsFit (Nat.le_of_ble_eq_true rfl)).step (rest := []) hperform
  rw [List.append_nil] at w
  obtain ⟨t2, b, w2⟩ := emptying_written h1 hheads htargets rfl hblocks hf hw w
  rw [← hu]
  by_cases he : (v.emptyJob j).expected = none ∨ (v.emptyJob j).expected = some (finalDigest (v.emptyJob j).ingest (v.emptyJob j).length)
  · exact emptying_match b hheads rfl hp hidle (placedJob_legs v j) he w2
  · exact emptying_mismatch b hheads rfl hp hidle he w2

end Sys2Proof.Machine
end

