-- ==== Sys2Proof/Proofs/P58.lean ====
section
/-! Settles O55: the start of a job at its LOAD_JOB. -/

namespace Sys2Proof.Machine

open Sys2Proof

variable {s t u v w z : State} {h : Fin 64} {i : Fin 8} {j q k : Job} {l f : Leg} {p : List Leg} {m n : Nat} {now : Tick} {g : Digest} {act : Fin 6 → Bool}
  {r : Request} {rest : List Request} {b : LoadBody}

/-! ## A compared leg, field by field -/

theorem comparedAt_written (hs : l.state = .writing) :
    (l.comparedAt now n act g).base = l.base ∧ (l.comparedAt now n act g).written = some now := by
  by_cases hw : l.waitsFor act
  · rw [comparedAt_of_waits hw]
    exact ⟨rfl, rfl⟩
  · by_cases hv : ∃ d, l.toVerify d = true
    · obtain ⟨d, hv⟩ := hv
      rw [comparedAt_of_active hv (eq_true_of_ne_false fun e => hw ⟨d, hv, e⟩)]
      exact ⟨rfl, rfl⟩
    · rw [comparedAt_of_unverified hs fun d => Bool.eq_false_iff.mpr fun e => hv ⟨d, e⟩]
      exact ⟨rfl, rfl⟩

theorem comparedAt_ended (hs : l.state = .writing) (hw : ¬ l.waitsFor act) :
    (l.comparedAt now n act g).finished = some now ∧ (l.comparedAt now n act g).cause = none ∧
      ((l.verify = true ∧ ∃ d, l.target = .drive d) → finalDigest l.context n ≠ g → (l.comparedAt now n act g).state = .mismatch) ∧
      (¬ (l.verify = true ∧ ∃ d, l.target = .drive d) ∨ finalDigest l.context n = g → (l.comparedAt now n act g).state = .good) := by
  by_cases hv : ∃ d, l.toVerify d = true
  · obtain ⟨d, hv⟩ := hv
    obtain ⟨-, h1, h2⟩ := toVerify_iff.mp hv
    rw [comparedAt_of_active hv (eq_true_of_ne_false fun e => hw ⟨d, hv, e⟩)]
    exact ⟨rfl, rfl, fun _ e => if_neg e, fun e => if_pos (e.resolve_left fun hn => hn ⟨h1, d, h2⟩)⟩
  · have hno : ¬ (l.verify = true ∧ ∃ d, l.target = .drive d) := fun ⟨h1, d, h2⟩ => hv ⟨d, toVerify_iff.mpr ⟨hs, h1, h2⟩⟩
    rw [comparedAt_of_unverified hs fun d => Bool.eq_false_iff.mpr fun e => hv ⟨d, e⟩]
    exact ⟨rfl, rfl, fun e => absurd e hno, fun _ => rfl⟩

/-- A WRITING leg waits if it is to be verified on a drive whose verify work list is not empty. -/
theorem waitsFor_iff (hs : l.state = .writing) :
    l.waitsFor u.listFree ↔ l.verify = true ∧ ∃ d, l.target = .drive d ∧ (u.readers[d.val]).work ≠ [] := by
  constructor
  · rintro ⟨d, hv, hf⟩
    obtain ⟨-, h1, h2⟩ := toVerify_iff.mp hv
    exact ⟨h1, d, h2, of_decide_eq_false hf⟩
  · rintro ⟨h1, d, h2, h3⟩
    exact ⟨d, toVerify_iff.mpr ⟨hs, h1, h2⟩, decide_eq_false h3⟩

/-- The job's one leg to be verified on a drive. -/
theorem refsOn_single (hp : (p.map Leg.target).Nodup) {d : Fin 6} (hl : p[m]? = some l) (hv : l.toVerify d = true) : refsOn h p d = [⟨h, m⟩] := by
  have step : ∀ k, k ≤ p.length → refsOn h (p.take k) d = if m < k then [⟨h, m⟩] else [] := by
    intro k
    induction k with
    | zero => exact fun _ => rfl
    | succ k ih =>
      intro hk
      have hlk : p[k]? = some p[k] := List.getElem?_eq_getElem (by omega)
      rw [refsOn_take hlk, ih (by omega)]
      by_cases hkm : k = m
      · subst hkm
        rw [hlk] at hl
        cases hl
        rw [if_neg (Nat.lt_irrefl k), if_pos hv, if_pos (Nat.lt_succ_self k)]
        rfl
      · have hno : p[k].toVerify d ≠ true := fun e => hkm (refsOn_unique hp hl hv k _ hlk e)
        rw [if_neg hno, List.append_nil]
        exact if_congr (by omega) rfl rfl
  have := step p.length (Nat.le_refl _)
  rwa [List.take_length, if_pos (List.getElem?_eq_some_iff.mp hl).1] at this

/-! ## The end of the event -/

theorem Job.issuesTo.mapped {k0 : Job} {C : Leg → Leg} (a : k0.issuesTo k) (e : k0.legs = p.map C) (hl : p[m]? = some l) (hf : k.legs[m]? = some f) :
    f = { C l with sent := f.sent, checked := f.checked } := by
  obtain ⟨f', hf', h, -, -⟩ := a.legs m (C l) (by rw [e, List.getElem?_map, hl]; rfl)
  rw [hf] at hf'
  cases hf'
  exact h

theorem loadedInto_outcomes (hw : b.legsWrong = false) (hn : s.job? h = none) (ho : s.outcomesOk) :
    (s.loadedInto rest h b).outcomesOk ∧ (s.headsActive → (s.loadedInto rest h b).headsActive) := by
  have h0 : OutStep s (s.taken rest) [] := .of_same ho rfl fun _ => rfl
  have h1 := h0.then (loadInto_outcomes (l := []) h0.outcomes h b (by exact hn) (LoadBody.legs_nodup hw))
  refine ⟨h1.outcomes, fun hh => headsActive_iff.mpr fun d hd => ?_⟩
  rcases h1.heads d hd with e | e
  · exact headsActive_iff.mp hh d e
  · cases e

/-- A leg that was not WRITING when placed stands to the end of the event, but for its sent count. -/
theorem emptyEnds_idle_leg (e : u.emptyEnds h i q p z) (hps : ∀ d : Fin 6, ∀ r ∈ (u.readers[d.val]).work, r.job ≠ h) (hj : w.jobs = z.jobs)
    (hr : w.readers = z.readers) (hk : w.close.job? h = some k) (hl : p[m]? = some l) (hs : l.state ≠ .writing) (hf : k.legs[m]? = some f)
    (hi : f = { l with sent := f.sent, checked := f.checked }) (hz : z.leg? ⟨h, m⟩ = some l) : f = { l with sent := f.sent } := by
  obtain ⟨f', hf', hc⟩ := close_checked (s := w) (r := ⟨h, m⟩) (fun d hm => by
    rw [hr] at hm
    rcases e.work d _ hm with hm | hm
    · exact hps d _ hm rfl
    · obtain ⟨-, l', hl', hv⟩ := mem_refsOn.mp hm
      rw [show p[m]? = some l' from hl'] at hl
      cases hl
      exact hs (toVerify_iff.mp hv).1) ((State.leg?_congr hj _).trans hz)
  have hf2 : w.close.leg? ⟨h, m⟩ = some f := State.leg?_eq_some.mpr ⟨k, hk, hf⟩
  rw [hf'] at hf2
  cases hf2
  rw [hi, hc]

/-- What the end of a job of no blocks leaves, at the end of the event. -/
theorem emptyEnds_close (a : v.startsAlone i h j) (e : (v.emptiedStart i h).emptyEnds h i (v.emptyJob j) (v.placedJob j).legs z)
    (ho : v.outcomesOk) (hb : j.blocks = 0) (hn : j.length = 0) (hj : w.jobs = z.jobs) (hr : w.readers = z.readers) :
    v.emptyStart w.close h j [] := by
  obtain ⟨k0, hk0, hrest, hmis, hmat⟩ := e.job
  obtain ⟨k, hk, iss⟩ := (close_settles w).job h k0 ((State.job?_congr hj h).trans hk0)
  have hp : (v.placedJob j).legs = j.legs.map (v.placedLeg 0) := by
    unfold State.placedJob
    rw [hb]
  have hnow := emptiedStart_now a
  have hread := emptiedStart_readers a
  have hlen : (v.emptyJob j).length = 0 := hn
  rw [hlen] at hrest hmis hmat
  rw [hnow] at hmis hmat
  have hki : k.ingest = { j.ingest with final := some (finalDigest j.ingest 0) } := by
    rw [iss.rest, hrest]
    rfl
  refine ⟨k, hk, by rw [iss.rest, hrest]; rfl, by rw [iss.rest, hrest]; rfl, hki, fun hi => by rw [hki, hi]; rfl, fun x hx hne => ?_, fun hm => ?_⟩
  · obtain ⟨h1, h2, h3, h4⟩ := hmis fun hc => by
      rcases hc with hc | hc
      · rw [show (v.emptyJob j).expected = j.expected from rfl, hx] at hc
        cases hc
      · rw [show (v.emptyJob j).expected = j.expected from rfl, hx] at hc
        cases hc
        exact hne rfl
    have hst : k.state = .failed := by rw [iss.rest]; exact h1
    refine ⟨hst, by rw [iss.rest]; exact h2, by rw [iss.rest]; exact h3, fun f hf => ?_⟩
    obtain ⟨k', hk', -, hlegs⟩ := close_terminal_legs ((State.job?_congr hj h).trans hk0) (by rw [h1]; rfl)
    rw [hk] at hk'
    cases hk'
    exact h4 f (hlegs ▸ hf)
  · obtain ⟨hlegs, hwaits, hends⟩ := hmat hm
    have hwait : ∀ l : Leg, l.state = .writing →
        (l.waitsFor (v.emptiedStart i h).listFree ↔ l.verify = true ∧ ∃ d, l.target = .drive d ∧ (v.readers[d.val]).work ≠ []) := fun l hs => by
      rw [waitsFor_iff hs, hread]
    have htargets : ((v.placedJob j).legs.map Leg.target).Nodup := by
      rw [placedJob_targets]
      exact a.fresh.1
    have hleg : ∀ {m : Nat} {l f : Leg}, (v.placedJob j).legs[m]? = some l → k.legs[m]? = some f →
        f = { l.comparedAt v.now 0 (v.emptiedStart i h).listFree (finalDigest j.ingest 0) with sent := f.sent, checked := f.checked } :=
      fun hl hf => iss.mapped hlegs hl hf
    rw [← hp]
    refine ⟨by rw [iss.legCount, hlegs, List.length_map], fun m l f hl hf => ⟨fun hs => ?_, fun hs => ?_, fun hs hnw => ?_, fun hs hnw => ?_⟩, ?_, ?_⟩
    · have hi := hleg hl hf
      rw [comparedAt_of_idle hs] at hi
      refine emptyEnds_idle_leg e (fun d r hr' => ?_) hj hr hk hl hs hf hi (State.leg?_eq_some.mpr ⟨k0, hk0, ?_⟩)
      · rw [hread] at hr'
        exact a.work_ne ho d r hr'
      · rw [hlegs, List.getElem?_map, hl, Option.map_some, comparedAt_of_idle hs]
    · rw [hleg hl hf]
      exact comparedAt_written hs
    · rw [hleg hl hf]
      exact comparedAt_ended hs fun hx => hnw ((hwait l hs).mp hx)
    · have hw := (hwait l hs).mpr hnw
      obtain ⟨hset, hwork⟩ := hwaits ⟨l, List.mem_of_getElem? hl, hw⟩
      have hi := hleg hl hf
      rw [comparedAt_of_waits hw] at hi
      refine ⟨by rw [hi], by rw [hi], fun d hd => ⟨[], ?_, fun _ => rfl⟩⟩
      have hv : l.toVerify d = true := toVerify_iff.mpr ⟨hs, hnw.1, hd⟩
      have hfree : (v.emptiedStart i h).listFree d = false := by
        obtain ⟨d', hv', hf'⟩ := hw
        have := (toVerify_iff.mp hv').2.2
        rw [hd] at this
        cases this
        exact hf'
      rw [((close_settles w).readers d).work, hr, hwork d, hread, hfree, refsOn_single htargets hl hv, List.append_nil]
      rfl
    · rintro ⟨l, hl, hs, hnw⟩
      rw [iss.rest]
      exact (hwaits ⟨l, hl, (hwait l hs).mpr hnw⟩).1
    · intro hnw
      obtain ⟨ht, hfin, hsc⟩ := hends fun l hl hx => by
        obtain ⟨d, hv, -⟩ := id hx
        have hs := (toVerify_iff.mp hv).1
        exact hnw l hl hs ((hwait l hs).mp hx)
      obtain ⟨k', hk', -, hkl⟩ := close_terminal_legs ((State.job?_congr hj h).trans hk0) ht
      rw [hk] at hk'
      cases hk'
      have hgood : k.goodLegs = k0.goodLegs := Job.goodLegs_congr (by rw [hkl])
      rw [hgood]
      refine ⟨by rw [iss.rest]; exact hfin, ?_⟩
      rw [← show (v.emptyJob j).required = j.required from rfl, ← hsc]
      rw [iss.rest]

theorem emptyStart_congr {behind : List (Fin 64)} (hn : v.now = s.now) (hp : v.placedLeg = s.placedLeg) (hr : v.readers = s.readers)
    (e : v.emptyStart t h j behind) : s.emptyStart t h j behind := by
  unfold State.emptyStart at e ⊢
  rw [hn, hp, hr] at e
  exact e

theorem length_of_blockCount {n : Nat} (hb : blockCount n = 0) : n = 0 := by
  unfold blockCount at hb
  rcases Nat.div_eq_zero_iff.mp hb with e | e
  · cases e
  · have : 0 < Config.blockBytes := Nat.le_of_ble_eq_true rfl
    omega

/-- A job of no blocks after its LOAD_JOB. -/
theorem loadedTo_empties (hw : b.legsWrong = false) (hr : (s.ingest[b.port.val]).reading = none) (hl : (s.ingest[b.port.val]).lineUp = [])
    (hn : s.job? h = none) (hb : blockCount b.length = 0) (ho : s.outcomesOk) (hh : s.headsActive)
    (hwr : ∃ l ∈ (b.job s.now).legs.map (s.placedLeg (b.job s.now).blocks), l.state = .writing) :
    ((s.loadedTo r rest h b).ingest[b.port.val]).reading = none ∧ s.emptyStart (s.loadedTo r rest h b) h (b.job s.now) [] ∧
      ∀ d : Fin 6, (s.loadedTo r rest h b).drives[d.val] = s.placedDrive (b.job s.now).blocks (b.job s.now).legs d := by
  have a := loadedInto_startsAlone (rest := rest) (h := h) hw hr hl
  obtain ⟨ho', hh'⟩ := loadedInto_outcomes (rest := rest) hw hn ho
  have e := a.empties rfl hb rfl hwr ho' (hh' hh)
  obtain ⟨z, hz⟩ : ∃ z, z = (s.loadedInto rest h b).cascade [.start b.port] := ⟨_, rfl⟩
  have hto : s.loadedTo r rest h b = (z.respond ⟨r.seq, r.kind, .ok, leBytes 1 h.val⟩).close := by
    rw [hz]
    rfl
  rw [← hz] at e
  rw [hto]
  refine ⟨?_, ?_, fun d => ?_⟩
  · rw [(close_port _ _).1]
    exact e.reading
  · have hend := emptyEnds_close (w := z.respond ⟨r.seq, r.kind, .ok, leBytes 1 h.val⟩) a e ho' hb (length_of_blockCount hb) rfl rfl
    exact emptyStart_congr (v := s.loadedInto rest h b) rfl rfl rfl hend
  · rw [(close_settles _).kept.2.2]
    refine (congrArg (fun l : Vector Drive 6 => l[d.val]) e.drives).trans ?_
    exact a.placed.drives d

/-- Settles O55: the placement in closed form; then the job ends, is read, or, of no blocks, is followed to its end. -/
theorem startPlacesTheLegs : Obligations.StartPlacesTheLegs := by
  intro s r rest b h ht hk hb hc hn hlow hr hl n placed started
  have hw := (loadCheck_ok hc).2
  obtain ⟨⟨k, hk', -⟩, -, -⟩ := loadedTo_spec (r := r) (rest := rest) (b := b) hn
  refine ⟨s.loadedTo r rest h b, k, exec_loadJob ht hk hb hc hn hlow, hk', ?_, fun hno => ?_, fun hyes hn0 => ?_, fun hyes hn0 ho hh => ?_⟩
  · intro hok d
    by_cases hyes : ∃ l ∈ placed, l.state = .writing
    · by_cases hn0 : n = 0
      · obtain ⟨ho, hh⟩ := hok.resolve_left fun e => e hn0
        exact (loadedTo_empties hw hr hl hn hn0 ho hh hyes).2.2 d
      · obtain ⟨u, hu, -, hd, -⟩ := loadedTo_reads (r := r) (rest := rest) (h := h) hw hr hl hyes hn0
        rw [hu.kept.2.2]
        exact hd d
    · exact (loadedTo_fails (r := r) (rest := rest) (h := h) hw hr hl fun l hl e => hyes ⟨l, hl, e⟩).2.2 d
  · obtain ⟨⟨q, hq, h1, h2, h3, h4, h5⟩, h6, -⟩ := loadedTo_fails (r := r) (rest := rest) (h := h) hw hr hl hno
    rw [hk'] at hq
    cases hq
    exact ⟨h1, h2, h3, h4, h5, h6⟩
  · obtain ⟨u, hu, he, -, hj, hi, hs⟩ := loadedTo_reads (r := r) (rest := rest) (h := h) hw hr hl hyes hn0
    obtain ⟨q, hq, hiss⟩ := hu.job h _ ((hj h).trans (if_pos rfl))
    rw [hk'] at hq
    cases hq
    refine ⟨by rw [hiss.rest], ?_, u, hu, he, hj, hi, hs⟩
    rw [(hu.ingest b.port).rest, hi b.port, if_pos rfl]
  · obtain ⟨h1, h2, -⟩ := loadedTo_empties (r := r) (rest := rest) hw hr hl hn hn0 ho hh hyes
    exact ⟨h1, h2⟩

end Sys2Proof.Machine
end

