-- ==== Sys2Proof/Proofs/P59.lean ====
section
/-! A job's ingest digest context changes by its blocks and its finalisation alone, and a final one, like the block in flight, stands whatever else
an event does (R75, R78). -/

namespace Sys2Proof.Machine

open Sys2Proof

variable {s t u : State} {h k : Fin 64} {j : Job} {c : DigestContext} {n : Nat} {m : Option Nat}

/-! ## Steps that leave the context -/

/-- A job's ingest context and length. -/
def State.contextOf (s : State) (h : Fin 64) : Option (DigestContext × Nat) :=
  (s.job? h).map fun j => (j.ingest, j.length)

/-- A job's ingest context and length, and the block in flight. -/
def State.digestOf (s : State) (h : Fin 64) : Option (DigestContext × Nat) × Option Nat :=
  (s.contextOf h, s.digest.inFlight)

theorem digestOf_congr (e : t.jobs = s.jobs) (f : t.digest.inFlight = s.digest.inFlight) : t.digestOf h = s.digestOf h := by
  unfold State.digestOf State.contextOf
  rw [State.job?_congr e, f]

theorem modJob_digestOf (s : State) (k : Fin 64) {g : Job → Job} (hg : ∀ j, (g j).ingest = j.ingest ∧ (g j).length = j.length) :
    (s.modJob k g).digestOf h = s.digestOf h := by
  refine Prod.ext ?_ rfl
  unfold State.digestOf State.contextOf
  dsimp only
  rw [State.job?_modJob]
  by_cases e : k = h
  · subst e
    rw [if_pos rfl]
    cases s.job? k with
    | none => rfl
    | some j => exact congrArg some (Prod.ext (hg j).1 (hg j).2)
  · rw [if_neg e]

theorem modLeg_digestOf (s : State) (r : LegRef) (g : Leg → Leg) : (s.modLeg r g).digestOf h = s.digestOf h :=
  modJob_digestOf s r.job fun _ => ⟨rfl, rfl⟩

theorem finished_digest (now : Tick) (o : JobState) (x : Option JobCause) (j : Job) :
    (j.finished now o x).ingest = j.ingest ∧ (j.finished now o x).length = j.length := by
  unfold Job.finished
  split <;> exact ⟨rfl, rfl⟩

theorem finishJob_digest (s : State) (k : Fin 64) (o : JobState) (x : Option JobCause) : (s.finishJob k o x).digest = s.digest := by
  unfold State.finishJob
  split
  · rfl
  · split
    · rfl
    · dsimp only
      split <;> rfl

theorem dropReading_digest (s : State) (k : Fin 64) : (s.dropReading k).digest = s.digest := by
  unfold State.dropReading
  split
  · rfl
  · split <;> rfl

theorem withdrawVerify_inFlight (s : State) (d : Fin 6) (k : Fin 64) : (s.withdrawVerify d k).digest.inFlight = s.digest.inFlight := by
  unfold State.withdrawVerify
  dsimp only
  split
  · rfl
  · split <;> rfl

theorem teardown_inFlight (s : State) (k : Fin 64) (o : JobState) (x : JobCause) : (s.teardown k o x).digest.inFlight = s.digest.inFlight := by
  unfold State.teardown
  dsimp only
  rw [foldl_keeps (fun u : State => u.digest.inFlight) (fun (s : State) d => s.withdrawVerify d k) (fun s d => withdrawVerify_inFlight s d k),
    foldl_keeps (fun u : State => u.digest.inFlight) (fun (s : State) y => s.modWriter y fun w => w.withdraw k) (fun _ _ => rfl)]
  refine Eq.trans (b := (((s.finishJob k o (some x)).abandonLegs k).dropReading k).digest.inFlight) rfl ?_
  exact congrArg DigestUnit.inFlight
    ((dropReading_digest ((s.finishJob k o (some x)).abandonLegs k) k).trans (finishJob_digest s k o (some x)))

theorem finishJob_digestOf (s : State) (k : Fin 64) (o : JobState) (x : Option JobCause) : (s.finishJob k o x).digestOf h = s.digestOf h := by
  refine Prod.ext ?_ (congrArg DigestUnit.inFlight (finishJob_digest s k o x))
  unfold State.digestOf State.contextOf
  dsimp only
  rw [finishJob_job?]
  by_cases e : k = h
  · subst e
    rw [if_pos rfl]
    cases s.job? k with
    | none => rfl
    | some j => exact congrArg some (Prod.ext (finished_digest _ _ _ j).1 (finished_digest _ _ _ j).2)
  · rw [if_neg e]

theorem teardown_digestOf (s : State) (k : Fin 64) (o : JobState) (x : JobCause) : (s.teardown k o x).digestOf h = s.digestOf h := by
  unfold State.digestOf
  rw [teardown_inFlight]
  refine congrArg (fun y => (y, s.digest.inFlight)) ?_
  unfold State.contextOf
  rw [teardown_job?]
  by_cases e : k = h
  · subst e
    rw [if_pos rfl]
    cases s.job? k with
    | none => rfl
    | some j => exact congrArg some (Prod.ext (finished_digest s.now o (some x) j).1 (finished_digest s.now o (some x) j).2)
  · rw [if_neg e]

theorem tearJob_digestOf (s : State) (k : Fin 64) (o : JobState) (x : JobCause) : (s.tearJob k o x).1.digestOf h = s.digestOf h := by
  rcases tearJob_cases s k o x with ⟨e, -⟩ | ⟨j, -, -, e⟩ <;> rewrite [e] <;> dsimp only
  exact teardown_digestOf s k o x

theorem testJob_digestOf (s : State) (k : Fin 64) : (s.testJob k).1.digestOf h = s.digestOf h := by
  rcases testJob_cases s k with ⟨e, -⟩ | ⟨j, -, -, ⟨-, e⟩ | ⟨-, -, -, e⟩ | ⟨-, -, -, e⟩⟩ <;> rewrite [e]
  · rfl
  · exact tearJob_digestOf s k _ _
  · exact finishJob_digestOf s k _ _
  · exact finishJob_digestOf s k _ _

theorem compareLeg_digestOf (s : State) (d : Fin 6) (r : LegRef) : (s.compareLeg d r).1.digestOf h = s.digestOf h := by
  rcases compareLeg_cases s d r with e | ⟨l, j, v, g, -, -, -, -, -, e⟩ <;> rewrite [e]
  · rfl
  · exact (digestOf_congr rfl rfl).trans (modLeg_digestOf s r _)

theorem compareWaiting_digestOf (s : State) (r : LegRef) : (s.compareWaiting r).digestOf h = s.digestOf h := by
  rcases compareWaiting_cases s r with e | ⟨m, d, -, -, e⟩ <;> rw [e]
  exact compareLeg_digestOf s d r

theorem verifyFinal_digestOf (s : State) (d : Fin 6) (r : LegRef) : (s.verifyFinal d r).1.digestOf h = s.digestOf h := by
  rcases verifyFinal_cases s d r with e | ⟨j, -, -, e⟩ <;> rewrite [e]
  · rfl
  · exact (compareLeg_digestOf _ d r).trans (modLeg_digestOf s r _)

theorem activateHead_digestOf (s : State) (d : Fin 6) : (s.activateHead d).1.digestOf h = s.digestOf h := by
  rcases activateHead_cases s d with e | ⟨r, rest, l, j, -, -, -, -, ⟨-, e⟩ | ⟨-, e⟩⟩ <;> rewrite [e]
  · rfl
  · exact modLeg_digestOf s r _
  · exact (verifyFinal_digestOf _ d r).trans (modLeg_digestOf s r _)

theorem writtenIfWriting_digestOf (s : State) (r : LegRef) : (s.writtenIfWriting r).1.digestOf h = s.digestOf h := by
  rcases writtenIfWriting_cases s r with e | ⟨l, -, -, e⟩ <;> rewrite [e]
  · rfl
  · rcases legWritten_cases s r with ⟨-, e⟩ | ⟨m, -, ⟨d, -, -, e⟩ | ⟨-, e⟩⟩ <;> rewrite [e]
    · rfl
    · exact (digestOf_congr rfl rfl).trans (modLeg_digestOf s r _)
    · exact (modLeg_digestOf _ r _).trans (modLeg_digestOf s r _)

theorem placeLeg_digestOf (s : State) (r : LegRef) : (s.placeLeg r).digestOf h = s.digestOf h := by
  have hm : ∀ (u : State) (g : Leg → Leg), u.jobs = s.jobs → u.digest.inFlight = s.digest.inFlight → (u.modLeg r g).digestOf h = s.digestOf h :=
    fun u g e f => (modLeg_digestOf u r g).trans (digestOf_congr e f)
  unfold State.placeLeg
  split
  · split
    · rfl
    · split
      · split
        · exact hm s _ rfl rfl
        · dsimp only
          split
          · exact hm _ _ rfl rfl
          · exact hm _ _ rfl rfl
      · exact hm s _ rfl rfl
  · rfl

theorem startJob_digestOf (s : State) (i : Fin 8) (k : Fin 64) : (s.startJob i k).1.digestOf h = s.digestOf h := by
  have hp : (s.placeLegs i k).digestOf h = s.digestOf h := by
    refine (foldl_keeps (fun u : State => u.digestOf h) State.placeLeg (fun u r => placeLeg_digestOf u r) _ _).trans ?_
    exact (digestOf_congr rfl rfl).trans (modJob_digestOf s k (g := fun j => { j with startedAt := some s.now }) fun _ => ⟨rfl, rfl⟩)
  rcases startJob_cases s i k with ⟨-, e⟩ | ⟨q, -, ⟨-, e⟩ | ⟨-, -, e⟩ | ⟨-, -, e⟩⟩ <;> rewrite [e]
  · exact hp
  · exact (finishJob_digestOf _ k _ _).trans hp
  · refine (eachLeg_inv (fun u : State => u.digestOf h = s.digestOf h) (fun u r e => (writtenIfWriting_digestOf u r).trans e) _ _ ?_)
    exact (modJob_digestOf _ k (g := fun j => { j with state := .settling, arrivedAllAt := j.startedAt }) fun _ => ⟨rfl, rfl⟩).trans hp
  · exact ((digestOf_congr rfl rfl).trans (modJob_digestOf _ k (g := fun j => { j with state := .reading }) fun _ => ⟨rfl, rfl⟩)).trans hp

theorem testStart_digestOf (s : State) (i : Fin 8) : (s.testStart i).1.digestOf h = s.digestOf h := by
  rcases testStart_cases s i with ⟨e, -⟩ | ⟨k, rest, j, -, -, -, -, e⟩ <;> rewrite [e]
  · rfl
  · exact startJob_digestOf s i k

/-! ## The finalisation -/

theorem finaliseIngest_digestOf (s : State) (k : Fin 64) :
    (s.finaliseIngest k).digestOf h =
      (if k = h then (s.contextOf h).map fun d => (finalise d.1 d.2, d.2) else s.contextOf h, s.digest.inFlight) := by
  refine Prod.ext ?_ rfl
  unfold State.digestOf State.contextOf
  dsimp only
  rw [show (s.finaliseIngest k).job? h = _ from State.job?_modJob s k h _]
  by_cases e : k = h
  · subst e
    rw [if_pos rfl, if_pos rfl]
    cases s.job? k <;> rfl
  · rw [if_neg e, if_neg e]

theorem ingestFinalised_digestOf (s : State) (k : Fin 64) :
    (s.ingestFinalised k).1.digestOf h = s.digestOf h ∧ (∀ j, s.job? k = some j → j.state.terminal = true) ∨
      (s.ingestFinalised k).1.digestOf h = (s.finaliseIngest k).digestOf h := by
  rcases ingestFinalised_cases s k with ⟨e, hn⟩ | ⟨j, -, -, ⟨-, e⟩ | ⟨-, e⟩⟩ <;> rewrite [e]
  · exact .inl ⟨rfl, hn⟩
  · exact .inr (foldl_keeps (fun u : State => u.digestOf h) State.compareWaiting (fun u r => compareWaiting_digestOf u r) _ _)
  · exact .inr (tearJob_digestOf _ k _ _)

/-- A final context stands. -/
theorem perform_digestOf (hc : finalise c n = c) (s : State) (x : Todo) (hd : s.digestOf h = (some (c, n), m)) :
    (s.perform x).1.digestOf h = (some (c, n), m) := by
  cases x with
  | activate d => exact (activateHead_digestOf s d).trans hd
  | test k => exact (testJob_digestOf s k).trans hd
  | start i => exact (testStart_digestOf s i).trans hd
  | ingestFinal k =>
    rcases ingestFinalised_digestOf (h := h) s k with ⟨e, -⟩ | e
    · exact e.trans hd
    · refine e.trans ?_
      obtain ⟨h1, h2⟩ := Prod.mk.inj hd
      rw [finaliseIngest_digestOf, h1, h2]
      split
      · exact congrArg (fun x => (some (x, n), m)) hc
      · rfl

/-- An event that makes a running job's ingest context final leaves it so. -/
theorem cascade_ingestFinal (hj : s.job? h = some j) (ht : j.state.terminal = false) :
    (s.cascade [.ingestFinal h]).digestOf h = (some (finalise j.ingest j.length, j.length), s.digest.inFlight) := by
  refine cascade_after (P := fun u => u.digestOf h = (some (finalise j.ingest j.length, j.length), s.digest.inFlight)) ?_ fun u x => perform_digestOf rfl u x
  rcases ingestFinalised_digestOf (h := h) s h with ⟨-, hn⟩ | e
  · rw [hn j hj] at ht
    cases ht
  · refine e.trans ?_
    rw [finaliseIngest_digestOf, if_pos rfl]
    unfold State.contextOf
    rw [hj]
    rfl

end Sys2Proof.Machine
end

