-- ==== Sys2Proof/Proofs/P60.lean ====
section
/-! The end of an event that frees a slot of a full pool hands it to the waiting requester that comes first in the circle (R32, R33). -/

namespace Sys2Proof.Machine

open Sys2Proof

variable {s t u : State} {r : Requester} {num : Nat}

/-! ## The circle -/

/-- Of a list in order the first member with a property is the least. -/
theorem find?_of_least {α : Type} {f : α → Nat} {P : α → Bool} {a : α} : ∀ {l : List α}, l.Pairwise (fun x y => f x < f y) → a ∈ l → P a = true →
    (∀ b, P b = true → f a ≤ f b) → l.find? P = some a
  | x :: l, ho, hm, ha, hmin => by
    obtain ⟨hx, ho'⟩ := List.pairwise_cons.mp ho
    rcases List.mem_cons.mp hm with rfl | hm
    · exact List.find?_cons_of_pos ha
    · have hn : ¬ P x = true := fun e => Nat.lt_irrefl _ (Nat.lt_of_lt_of_le (hx a hm) (hmin x e))
      rw [List.find?_cons_of_neg hn]
      exact find?_of_least ho' hm ha hmin

/-- From the pointer on the circle is in order of distance. -/
theorem circle_ordered (p : Requester) : (circleFrom requesters p).Pairwise fun x y => p.distance x < p.distance y := by
  cases p with
  | ingest i => revert i; decide
  | verify d => revert d; decide

theorem mem_circle (p r : Requester) : r ∈ circleFrom requesters p := by
  cases p with
  | ingest i => cases r with
    | ingest k => revert i k; decide
    | verify e => revert i e; decide
  | verify d => cases r with
    | ingest k => revert d k; decide
    | verify e => revert d e; decide

/-! ## Who waits, while notices are handed over -/

theorem wants_congr (hj : t.jobs = s.jobs) (hi : t.ingest = s.ingest) (hl : t.links = s.links) (hr : t.readers = s.readers) (hs : t.slots = s.slots)
    (hw : t.windows = s.windows) (hd : t.drives = s.drives) (hm : t.writers = s.writers) (r : Requester) : t.wants r = s.wants r := by
  cases s
  cases t
  dsimp only at hj hi hl hr hs hw hd hm
  subst hj hi hl hr hs hw hd hm
  cases r <;> rfl

/-- A job's mark of having handed over its notice. -/
def Job.marked (j : Job) : Job :=
  { j with announced := true }

theorem marked_wants (s : State) (g : Fin 64) (r : Requester) : (s.modJob g Job.marked).wants r = s.wants r := by
  obtain ⟨t, ht⟩ : ∃ t, t = s.modJob g Job.marked := ⟨_, rfl⟩
  have hjob : ∀ k, t.job? k = (s.job? k).map fun j => if g = k then j.marked else j := fun k => by
    rw [ht, State.job?_modJob]
    split
    · next e => rw [e]
    · exact (congrFun Option.map_id _).symm
  have hrest : t = { s with jobs := t.jobs } := by
    rw [ht]
    rfl
  rw [← ht]
  cases r with
  | ingest i =>
    have hi : t.ingest = s.ingest := by rw [hrest]
    have hl : t.linkUp (.ingest i) = s.linkUp (.ingest i) := by rw [hrest]; rfl
    have ha : ∀ j, t.admits j = s.admits j := fun j => by rw [hrest]; rfl
    change t.ingestWants i = s.ingestWants i
    unfold State.ingestWants
    rw [hi, hl]
    cases (s.ingest[i.val]).reading with
    | none => rfl
    | some h =>
      rw [Option.bind_some, Option.bind_some, hjob]
      cases s.job? h with
      | none => rfl
      | some j =>
        dsimp only [Option.map_some]
        rw [ha]
        split <;> rfl
  | verify d =>
    have hr : t.readers = s.readers := by rw [hrest]
    have hv : t.available (.drive d) = s.available (.drive d) := by rw [hrest]; rfl
    change t.verifyWants d = s.verifyWants d
    unfold State.verifyWants
    rw [hr, hv]
    cases (s.readers[d.val]).work with
    | nil => rfl
    | cons q rest =>
      have hleg : t.leg? q = s.leg? q := by
        unfold State.leg?
        rw [hjob]
        cases s.job? q.job with
        | none => rfl
        | some j =>
          dsimp only [Option.map_some, Option.bind_some]
          split <;> rfl
      dsimp only
      rw [hleg, hjob]
      cases s.leg? q with
      | none => rfl
      | some l =>
        cases s.job? q.job with
        | none => rfl
        | some j =>
          dsimp only [Option.map_some]
          split <;> rfl

theorem announce_wants (s : State) (r : Requester) : s.announce.relamp.wants r = s.wants r := by
  obtain ⟨-, -, -, -, hl, hj, -, hs, -, hi, -, hd, hm, hr, -, hw, -⟩ := relamp_fields s.announce
  rw [wants_congr hj hi hl hr hs hw hd hm]
  refine foldl_keeps (fun u : State => u.wants r) State.announceJob (fun u g => ?_) allHandles s
  rcases announceJob_cases u g with e | ⟨j, -, -, -, e⟩ <;> rw [e]
  exact (wants_congr rfl rfl rfl rfl rfl rfl rfl rfl r).trans (marked_wants u g r)

/-! ## A full pool -/

/-- The slots' numbers differ, and are numbers of the pool. -/
theorem nums_spec (hp : s.poolOk) :
    (s.slots.map Slot.num).toFinset.card = s.slots.length ∧ (s.slots.map Slot.num).toFinset ⊆ Finset.range Config.poolSlots := by
  obtain ⟨ho, hb⟩ := (poolWf_iff _).mp hp
  refine ⟨(List.toFinset_card_of_nodup (ho.imp Nat.ne_of_lt)).trans (List.length_map _), fun k hk => ?_⟩
  obtain ⟨y, hy, rfl⟩ := List.mem_map.mp (List.mem_toFinset.mp hk)
  exact Finset.mem_range.mpr (hb y hy)

theorem pool_length_le (hp : s.poolOk) : s.slots.length ≤ Config.poolSlots := by
  obtain ⟨hcard, hsub⟩ := nums_spec hp
  have := Finset.card_le_card hsub
  rwa [Finset.card_range, hcard] at this

/-- In a pool without a FREE slot every number is taken. -/
theorem full_nums (hp : s.poolOk) (hf : s.freeSlots = 0) {n : Nat} (hn : n < Config.poolSlots) : ∃ y ∈ s.slots, y.num = n := by
  obtain ⟨hcard, hsub⟩ := nums_spec hp
  have hle : (Finset.range Config.poolSlots).card ≤ (s.slots.map Slot.num).toFinset.card := by
    rw [Finset.card_range, hcard]
    unfold State.freeSlots at hf
    omega
  have hm : n ∈ (s.slots.map Slot.num).toFinset := Finset.eq_of_subset_of_card_le hsub hle ▸ Finset.mem_range.mpr hn
  exact List.mem_map.mp (List.mem_toFinset.mp hm)

/-- The one slot freed of a full pool is the one FREE slot. -/
theorem freed_slot (hp : s.poolOk) (hf : s.freeSlots = 0) (hu : u.slots = s.slots.filter fun y => decide (y.num ≠ num)) (hn : ∃ y ∈ s.slots, y.num = num)
    (hpu : u.poolOk) : u.freeSlots ≠ 0 ∧ u.freeSlot = num := by
  obtain ⟨y, hy, hyn⟩ := hn
  have hlt : u.slots.length < s.slots.length := by
    rw [hu]
    exact List.length_filter_lt_length_iff_exists.mpr ⟨y, hy, by simp [hyn]⟩
  have hlen : s.slots.length ≤ Config.poolSlots := pool_length_le hp
  have hfree : u.freeSlots ≠ 0 := by
    unfold State.freeSlots
    omega
  refine ⟨hfree, ?_⟩
  obtain ⟨h1, h2⟩ := freeSlot_spec u hpu
  obtain ⟨z, hz, hzn⟩ := full_nums hp hf (h2 hfree)
  by_contra hne
  refine h1 z ?_ hzn
  rw [hu]
  exact List.mem_filter.mpr ⟨hz, decide_eq_true (by rw [hzn]; exact hne)⟩

/-! ## The grant -/

/-- What a grant reserves (R35, R36). -/
def State.grants (s : State) (r : Requester) (y : Slot) : Prop :=
  match r with
  | .ingest i => ∃ h j, (s.ingest[i.val]).reading = some h ∧ s.job? h = some j ∧
      y = ⟨s.freeSlot, h, j.requested, .ingest j.writingTargets, none⟩
  | .verify d => ∃ f rest l, (s.readers[d.val]).work = f :: rest ∧ s.leg? f = some l ∧ y = ⟨s.freeSlot, f.job, l.checked, .check f.leg, none⟩

theorem reserve_slot (hp : s.poolOk) (h : Fin 64) (index : Nat) (k : SlotKind) :
    (s.reserve h index k).slot? s.freeSlot = some ⟨s.freeSlot, h, index, k, none⟩ :=
  (insertSlot_find _ s.slots (freeSlot_spec s hp).1 _).trans (if_pos rfl)

theorem grant_slot (hp : s.poolOk) (hw : s.wants r = true) : ∃ y, s.grants r y ∧ (s.grant r).slot? s.freeSlot = some y := by
  cases r with
  | ingest i =>
    change s.ingestWants i = true at hw
    unfold State.ingestWants at hw
    cases hr : (s.ingest[i.val]).reading with
    | none =>
      rw [hr] at hw
      cases hw
    | some h =>
      cases hj : s.job? h with
      | none =>
        rw [hr, Option.bind_some, hj] at hw
        cases hw
      | some j =>
        rw [hr, Option.bind_some, hj] at hw
        simp only [Bool.and_eq_true] at hw
        obtain ⟨k, hk⟩ := Option.isSome_iff_exists.mp hw.1.1.2
        refine ⟨_, ⟨h, j, hr, hj, rfl⟩, ?_⟩
        change (s.grantIngest i).slot? s.freeSlot = _
        unfold State.grantIngest
        rw [hr, hk]
        dsimp only
        rw [hj]
        exact reserve_slot hp h _ _
  | verify d =>
    change s.verifyWants d = true at hw
    unfold State.verifyWants at hw
    cases hq : (s.readers[d.val]).work with
    | nil =>
      rw [hq] at hw
      cases hw
    | cons f rest =>
      rw [hq] at hw
      dsimp only at hw
      cases hl : s.leg? f with
      | none =>
        rw [hl] at hw
        cases hw
      | some l =>
        refine ⟨_, ⟨f, rest, l, hq, hl, rfl⟩, ?_⟩
        change (s.grantVerify d).slot? s.freeSlot = _
        unfold State.grantVerify
        rw [hq]
        dsimp only
        rw [hl]
        exact reserve_slot hp _ _ _

theorem handOn_grants (k : Nat) (hf : s.freeSlots ≠ 0)
    (hr : ((circleFrom requesters s.arbiter.pointer).find? fun r => s.lapse.arbiter.waiting.contains r) = some r) :
    State.handOn (k + 1) s = State.handOn k (s.lapse.grant r) := by
  rw [State.handOn, if_neg (show ¬ s.lapse.freeSlots = 0 from hf), hr]

/-- The first grant of the end of an event. -/
theorem settle_grants (hf : s.freeSlots ≠ 0) (hm : r ∈ s.arbiter.waiting) (hw : s.wants r = true)
    (hmin : ∀ q ∈ s.arbiter.waiting, s.wants q = true → s.arbiter.pointer.distance r ≤ s.arbiter.pointer.distance q) :
    (s.lapse.grant r).settlesTo s.settle := by
  have hfind : ((circleFrom requesters s.arbiter.pointer).find? fun r => s.lapse.arbiter.waiting.contains r) = some r := by
    have hc : ∀ q, s.lapse.arbiter.waiting.contains q = true ↔ q ∈ s.arbiter.waiting ∧ s.wants q = true := fun q => by
      rw [List.contains_iff_mem]
      exact List.mem_filter
    exact find?_of_least (circle_ordered _) (mem_circle _ _) ((hc r).mpr ⟨hm, hw⟩) fun q hq => hmin q ((hc q).mp hq).1 ((hc q).mp hq).2
  obtain ⟨k, hk⟩ : ∃ k, grantSteps = k + 1 := ⟨69, rfl⟩
  have h1 := handOn_settles (s.lapse.grant r) k
  rw [← handOn_grants k hf hfind, ← hk] at h1
  unfold State.settle
  generalize State.handOn grantSteps s = a at h1
  exact (((h1.trans (serveNew_settles _ _)).trans (foldl_settles State.arbitrate arbitrate_settles _ _)).trans
    (serveNew_settles _ _)).trans ((transmit_settles _).trans (noteWork_settles _))

/-- A job's requested count and legs. -/
def State.recordOf (s : State) (h : Fin 64) : Option (Nat × List Leg) :=
  (s.job? h).map fun j => (j.requested, j.legs)

theorem marked_recordOf (s : State) (g h : Fin 64) : (s.modJob g Job.marked).recordOf h = s.recordOf h := by
  unfold State.recordOf
  rw [State.job?_modJob]
  split
  · next e =>
    subst e
    cases s.job? g <;> rfl
  · rfl

/-- They stand while notices are handed over. -/
theorem announce_record (s : State) (h : Fin 64) : s.announce.relamp.recordOf h = s.recordOf h := by
  have hr : s.announce.relamp.recordOf h = s.announce.recordOf h := by
    unfold State.recordOf
    rw [State.job?_congr (relamp_jobs s.announce)]
  refine hr.trans (foldl_keeps (fun u : State => u.recordOf h) State.announceJob (fun u g => ?_) allHandles s)
  rcases announceJob_cases u g with e | ⟨j, -, -, -, e⟩ <;> rw [e]
  exact marked_recordOf u g h

/-- A slot freed of a full pool, at the end of its event. -/
theorem freed_handed_on (hp : s.poolOk) (hf : s.freeSlots = 0) (hu : u.slots = s.slots.filter fun y => decide (y.num ≠ num))
    (hn : ∃ y ∈ s.slots, y.num = num) (hpu : u.poolOk) (hm : r ∈ u.arbiter.waiting) (hw : u.wants r = true)
    (hmin : ∀ q ∈ u.arbiter.waiting, u.wants q = true → u.arbiter.pointer.distance r ≤ u.arbiter.pointer.distance q) :
    ∃ y, u.announce.relamp.lapse.grants r y ∧ y.num = num ∧ u.close.slot? num = some y := by
  obtain ⟨hfree, hnum⟩ := freed_slot hp hf hu hn hpu
  obtain ⟨v, hv⟩ : ∃ v, v = u.announce.relamp := ⟨_, rfl⟩
  have hslots : v.slots = u.slots := by
    obtain ⟨-, -, -, -, -, -, -, h1, -⟩ := relamp_fields u.announce
    obtain ⟨-, -, -, -, -, -, h2, -⟩ := announce_fields u
    rw [hv]
    exact h1.trans h2
  have harb : v.arbiter = u.arbiter := by
    obtain ⟨-, -, -, -, -, -, -, -, h1, -⟩ := relamp_fields u.announce
    obtain ⟨-, -, -, -, -, -, -, h2, -⟩ := announce_fields u
    rw [hv]
    exact h1.trans h2
  have hwants : ∀ q, v.wants q = u.wants q := fun q => hv ▸ announce_wants u q
  have hpv : v.poolOk := by
    unfold State.poolOk
    rw [hslots]
    exact hpu
  have hfv : v.freeSlots ≠ 0 := by
    unfold State.freeSlots
    rw [hslots]
    exact hfree
  have hnv : v.lapse.freeSlot = num := by
    change lowestGap 0 v.slots = num
    rw [hslots]
    exact hnum
  have hset := settle_grants (s := v) (r := r) hfv (by rw [harb]; exact hm) ((hwants r).trans hw) fun q hq hqw => by
    rw [harb] at hq ⊢
    exact hmin q hq ((hwants q).symm.trans hqw)
  have hwl : v.lapse.wants r = true := (wants_modArbiter (s := v) _ r).trans ((hwants r).trans hw)
  obtain ⟨y, hy, hys⟩ := grant_slot (s := v.lapse) hpv hwl
  have hpg : (v.lapse.grant r).poolOk := grant_poolWf _ r hfv hpv
  rw [hnv] at hys
  rw [← hv]
  refine ⟨y, hy, slot?_num hys, ?_⟩
  have : u.close = v.settle := by
    rw [hv]
    rfl
  rw [this]
  exact (hset.slots hpg).2.1 num y hys

end Sys2Proof.Machine
end

