-- ==== Sys2Proof/Proofs/P61.lean ====
section
/-! DIGEST_COMPLETE: what it does for the slot in flight, and its end for a withdrawn block (R33, R88). -/

namespace Sys2Proof.Machine

open Sys2Proof

variable {s t u : State} {r : Requester} {num : Nat} {x : Slot} {b : HeldBlock} {owed : List Target}

/-! ## The command -/

/-- The Digest Unit's block in flight leaves it. -/
def State.landed (s : State) : State :=
  s.modDigest fun u => { u with inFlight := none }

theorem exec_digestComplete (hr : s.resetN = true) (hf : s.digest.inFlight = some num) (hx : s.slot? num = some x) (hb : x.held = some b) :
    (b.withdrawn = true → exec .digestComplete s = .next (s.landed.freeSlotNum num).close) ∧
      (b.withdrawn = false → x.kind = .ingest owed → exec .digestComplete s = .next (s.landed.ingestCompleted x b.data).close) := by
  have he : exec .digestComplete s = .next (digestCompleteEffect s) := by
    change execDigestComplete s = _
    unfold execDigestComplete
    exact event_enabled hr (by rw [hf]; rfl)
  have hx' : (s.modDigest fun u => { u with inFlight := none }).slot? num = some x := hx
  rw [he]
  unfold digestCompleteEffect
  rw [hf]
  dsimp only
  rw [hx']
  dsimp only
  rw [hb]
  dsimp only
  refine ⟨fun hw => by rw [if_pos hw]; rfl, fun hw hk => ?_⟩
  rw [if_neg (by rw [hw]; exact Bool.false_ne_true), hk]
  rfl

/-! ## A withdrawn block -/

/-- The state with the withdrawn block's slot freed. -/
def State.discarded (s : State) (num : Nat) : State :=
  { s with digest := { s.digest with inFlight := none }, slots := s.slots.filter fun y => decide (y.num ≠ num) }

theorem landed_freeSlotNum (s : State) (num : Nat) : s.landed.freeSlotNum num = s.discarded num := by
  have : s.slots.filter (fun y => y.num != num) = s.slots.filter fun y => decide (y.num ≠ num) :=
    List.filter_congr fun y _ => by by_cases e : y.num = num <;> simp [e]
  unfold State.discarded
  rw [← this]
  rfl

theorem discarded_slot? (s : State) (num n : Nat) : (s.discarded num).slot? n = if n = num then none else s.slot? n := by
  unfold State.slot? State.discarded
  dsimp only
  rw [List.find?_filter]
  by_cases e : n = num
  · subst e
    rw [if_pos rfl, List.find?_eq_none]
    intro y _
    by_cases h : y.num = n <;> simp [h]
  · rw [if_neg e]
    refine List.find?_congr fun y _ => ?_
    by_cases h : y.num = n
    · simp [h, e]
    · simp [h]

theorem discarded_poolOk (hp : s.poolOk) (num : Nat) : (s.discarded num).poolOk := by
  rw [← landed_freeSlotNum]
  exact freeSlotNum_poolWf s.landed num hp

/-- The slot goes to the first waiting requester (R33). -/
theorem discarded_handed_on (hp : s.poolOk) (hx : s.slot? num = some x) (hf : s.freeSlots = 0) (hm : r ∈ s.arbiter.waiting)
    (hw : (s.discarded num).wants r = true)
    (hmin : ∀ q ∈ s.arbiter.waiting, (s.discarded num).wants q = true → s.arbiter.pointer.distance r ≤ s.arbiter.pointer.distance q) :
    (∀ i h j, r = .ingest i → (s.ingest[i.val]).reading = some h → s.job? h = some j →
      (s.discarded num).close.slot? num = some ⟨num, h, j.requested, .ingest j.writingTargets, none⟩) ∧
    ∀ d f rest l, r = .verify d → (s.readers[d.val]).work = f :: rest → s.leg? f = some l →
      (s.discarded num).close.slot? num = some ⟨num, f.job, l.checked, .check f.leg, none⟩ := by
  obtain ⟨y, hg, hn, hy⟩ := freed_handed_on (u := s.discarded num) hp hf rfl
    ⟨x, List.mem_of_find?_eq_some hx, slot?_num hx⟩ (discarded_poolOk hp num) hm hw hmin
  have hrec : ∀ h, (s.discarded num).announce.relamp.recordOf h = s.recordOf h := fun h => announce_record _ h
  obtain ⟨-, -, -, -, -, -, -, -, -, hi1, -, -, -, hr1, -⟩ := relamp_fields (s.discarded num).announce
  obtain ⟨-, -, -, -, -, -, -, -, hi2, -, -, -, hr2, -⟩ := announce_fields (s.discarded num)
  have hi : (s.discarded num).announce.relamp.ingest = s.ingest := hi1.trans hi2
  have hr : (s.discarded num).announce.relamp.readers = s.readers := hr1.trans hr2
  generalize (s.discarded num).announce.relamp = v at hg hrec hi hr
  rw [hy]
  refine ⟨fun i h j e hread hj => ?_, fun d f rest l e hwork hl => ?_⟩ <;> subst e
  · obtain ⟨h', j', hread', hj', rfl⟩ := hg
    rw [show (v.lapse.ingest[i.val]).reading = (s.ingest[i.val]).reading by rw [← hi]; rfl, hread] at hread'
    cases hread'
    have := hrec h
    unfold State.recordOf at this
    rw [show v.job? h = some j' from hj', hj] at this
    simp only [Option.map_some, Option.some.injEq, Prod.mk.injEq] at this
    obtain ⟨e1, e2⟩ := this
    dsimp only at hn
    unfold Job.writingTargets
    rw [hn, e1, e2]
  · obtain ⟨f', rest', l', hwork', hl', rfl⟩ := hg
    rw [show (v.lapse.readers[d.val]).work = (s.readers[d.val]).work by rw [← hr]; rfl, hwork] at hwork'
    cases hwork'
    obtain ⟨q, hq, hql⟩ := State.leg?_eq_some.mp hl
    obtain ⟨q', hq', hql'⟩ := State.leg?_eq_some.mp hl'
    have := hrec f.job
    unfold State.recordOf at this
    rw [show v.job? f.job = some q' from hq', hq] at this
    simp only [Option.map_some, Option.some.injEq, Prod.mk.injEq] at this
    rw [this.2, hql] at hql'
    cases hql'
    dsimp only at hn
    rw [hn]

end Sys2Proof.Machine
end

