-- ==== Sys2Proof/Proofs/P62.lean ====
section
/-! DIGEST_COMPLETE of an INGEST block of a running job (R84): its context advances, its slot is digested and freed if owed to none, and what the
freed slot is handed on for leaves the rest of the job's work as it stood. -/

namespace Sys2Proof.Machine

open Sys2Proof

variable {s t u : State} {r : Requester} {h : Fin 64} {num : Nat} {x : Slot} {b : HeldBlock} {owed : List Target} {j : Job} {c : DigestContext}
  {mine : Slot → Bool} {n : Nat}

/-! ## What a grant leaves -/

/-- The writers, and the lists and tags of the verify readers. -/
def State.tagView (s : State) :=
  (s.writers, s.readers.map fun v => (v.work, v.retry, v.tags))

theorem modReader_tagView (s : State) (d : Fin 6) (g : VerifyReader → VerifyReader)
    (hg : ∀ v, (g v).work = v.work ∧ (g v).retry = v.retry ∧ (g v).tags = v.tags) : (s.modReader d g).tagView = s.tagView := by
  refine Prod.ext rfl (Vector.ext fun e he => ?_)
  unfold State.tagView
  dsimp only
  rw [Vector.getElem_map, Vector.getElem_map, show (s.modReader d g).readers[e] = _ from modReader_reader s d ⟨e, he⟩ g]
  split
  · next q =>
    subst q
    obtain ⟨h1, h2, h3⟩ := hg s.readers[e]
    rw [h1, h2, h3]
  · rfl

theorem grant_tagView (s : State) (r : Requester) : (s.grant r).tagView = s.tagView := by
  unfold State.grant
  cases r with
  | ingest i =>
    change (s.grantIngest i).tagView = _
    unfold State.grantIngest
    split
    · split <;> rfl
    · rfl
  | verify d =>
    change (s.grantVerify d).tagView = _
    unfold State.grantVerify
    split
    · rfl
    · split
      · rfl
      · exact modReader_tagView (s.reserve _ _ _) d _ fun _ => ⟨rfl, rfl, rfl⟩

theorem handOn_tagView (s : State) (k : Nat) : (State.handOn k s).tagView = s.tagView :=
  handOn_keeps State.tagView (fun _ => rfl) grant_tagView k s

/-- A block that is HELD is not one that a grant has reserved. -/
theorem insertSlot_find_other {P : Slot → Bool} {y : Slot} (hy : P y = false) : ∀ l : List Slot, (insertSlot y l).find? P = l.find? P
  | [] => by simp [insertSlot, hy]
  | z :: l => by
    unfold insertSlot
    split
    · rw [List.find?_cons_of_neg (by simp [hy])]
    · rw [List.find?_cons, List.find?_cons, insertSlot_find_other hy l]

theorem reserve_heldBlockAt (s : State) (h : Fin 64) (index : Nat) (k : SlotKind) : (s.reserve h index k).heldBlockAt mine n = s.heldBlockAt mine n :=
  insertSlot_find_other (by simp) s.slots

theorem grant_heldBlockAt (s : State) (r : Requester) : (s.grant r).heldBlockAt mine n = s.heldBlockAt mine n := by
  unfold State.grant
  cases r with
  | ingest i =>
    change (s.grantIngest i).heldBlockAt mine n = _
    unfold State.grantIngest
    split
    · split
      · rfl
      · exact reserve_heldBlockAt s _ _ _
    · rfl
  | verify d =>
    change (s.grantVerify d).heldBlockAt mine n = _
    unfold State.grantVerify
    split
    · rfl
    · split
      · rfl
      · exact reserve_heldBlockAt s _ _ _

theorem handOn_heldBlockAt (s : State) (k : Nat) : (State.handOn k s).heldBlockAt mine n = s.heldBlockAt mine n :=
  handOn_keeps (fun u : State => u.heldBlockAt mine n) (fun _ => rfl) grant_heldBlockAt k s

/-! ## The block digested -/

/-- A slot whose block has been digested. -/
def Slot.digestedNow (y : Slot) : Slot :=
  { y with held := y.held.map fun b => { b with digested := true, inDigest := false } }

/-- The context advanced and the slot digested, before the freed slot is handed on. -/
def State.digestedBy (s : State) (x : Slot) (c : DigestContext) : State :=
  (((s.landed.count x.job fun j => { j with ingest := c }).modHeld x.num fun b => { b with digested := true, inDigest := false }).freeIfDone x.num)

theorem digestedBy_slots (s : State) (x : Slot) (c : DigestContext) :
    (s.digestedBy x c).slots = s.slots.filterMap (Slot.doneIf x.num Slot.digestedNow) :=
  doneIf_eq (f := Slot.digestedNow) (fun _ => rfl) s.slots

theorem digestedBy_job (hj : s.job? x.job = some j) (ht : j.state.terminal = false) (k : Fin 64) :
    (s.digestedBy x c).job? k = if k = x.job then some { j with ingest := c } else s.job? k := by
  refine (State.job?_modJob s x.job k _).trans ?_
  by_cases e : k = x.job
  · subst e
    rw [if_pos rfl, if_pos rfl, hj, Option.map_some, if_neg (by rw [ht]; exact Bool.false_ne_true)]
  · rw [if_neg (Ne.symm e), if_neg e]

theorem digestedBy_poolOk (hp : s.poolOk) (x : Slot) (c : DigestContext) : (s.digestedBy x c).poolOk :=
  freeIfDone_poolWf _ _ (modHeld_poolWf _ _ _ hp)

/-- The slot's part. -/
theorem digestedBy_slot? (hp : s.poolOk) (hx : s.slot? num = some x) (hb : x.held = some b) (hk : x.kind = .ingest owed) (m : Nat) :
    (s.digestedBy x c).slot? m =
      if m = num then (if owed = [] then none else some { x with held := some { b with digested := true, inDigest := false } }) else s.slot? m := by
  have hn := slot?_num hx
  refine (slot?_doneIf (f := Slot.digestedNow) (fun _ => rfl) hp (t := s.digestedBy x c) ?_ hx m).trans ?_
  · rw [digestedBy_slots, hn]
  · refine if_congr Iff.rfl ?_ rfl
    have hd : x.digestedNow = { x with held := some { b with digested := true, inDigest := false } } := by
      unfold Slot.digestedNow
      rw [hb]
      rfl
    have hf : x.digestedNow.freeable = owed.isEmpty := by
      rw [hd]
      unfold Slot.freeable Slot.owed
      rw [hk]
      rfl
    rw [hf, hd]
    cases owed <;> rfl

theorem find?_filterMap_of {P : Slot → Bool} {g : Slot → Option Slot} : ∀ {l : List Slot}, (∀ y ∈ l, P y = true → g y = some y) →
    (∀ y ∈ l, P y = false → ∀ z, g y = some z → P z = false) → (l.filterMap g).find? P = l.find? P
  | [], _, _ => rfl
  | y :: l, h1, h2 => by
    have ih := find?_filterMap_of (l := l) (fun z hz => h1 z (List.mem_cons_of_mem _ hz)) fun z hz => h2 z (List.mem_cons_of_mem _ hz)
    cases hP : P y with
    | true => rw [List.filterMap_cons_some (h1 y List.mem_cons_self hP), List.find?_cons_of_pos hP, List.find?_cons_of_pos hP]
    | false =>
      rw [List.find?_cons_of_neg (by simp [hP])]
      cases hg : g y with
      | none => rw [List.filterMap_cons_none hg, ih]
      | some z => rw [List.filterMap_cons_some hg, List.find?_cons_of_neg (by simp [h2 y List.mem_cons_self hP z hg]), ih]

/-- The block in flight does not wait for its digest, nor does it afterwards. -/
theorem digestedBy_heldBlockAt (hp : s.poolOk) (hx : s.slot? num = some x) (hb : x.held = some b) (hd : b.inDigest = true) :
    (s.digestedBy x c).heldBlockAt mine n = s.heldBlockAt mine n := by
  unfold State.heldBlockAt
  rw [digestedBy_slots]
  refine find?_filterMap_of (fun y hy hP => ?_) fun y hy hP z hz => ?_
  · unfold Slot.doneIf
    rw [if_neg]
    intro e
    have : y = x := hp.num_unique hy (List.mem_of_find?_eq_some hx) e
    subst this
    rw [hb] at hP
    simp [hd] at hP
  · unfold Slot.doneIf at hz
    split at hz
    · next e =>
      have : y = x := hp.num_unique hy (List.mem_of_find?_eq_some hx) e
      subst this
      split at hz
      · cases hz
      · cases hz
        unfold Slot.digestedNow
        rw [hb]
        simp
    · cases hz
      exact hP

/-! ## The freed slot handed on -/

/-- The block digested, and the slot handed on if that freed it. -/
def State.digestedTo (s : State) (x : Slot) (c : DigestContext) : State :=
  State.handOn grantSteps (s.digestedBy x c)

theorem ingestCompleted_eq (hj : s.job? x.job = some j) (data : List Byte) :
    let c := digestBlock j.ingest (digestBytesOf j.length x.index data)
    s.landed.ingestCompleted x data =
      ((s.digestedTo x c).joinNext (Slot.ingestOf x.job) c.next j.blocks).cascade (if c.next = j.blocks then [.ingestFinal x.job] else []) := by
  intro c
  unfold State.ingestCompleted
  rw [show s.landed.job? x.job = some j from hj]
  rfl

theorem digestedTo_digest (s : State) (x : Slot) (c : DigestContext) : (s.digestedTo x c).digest = { s.digest with inFlight := none } := by
  obtain ⟨-, -, -, -, -, h, -⟩ := handOn_fields (s.digestedBy x c) grantSteps
  exact h

theorem digestedTo_settles (s : State) (x : Slot) (c : DigestContext) : (s.digestedBy x c).settlesTo (s.digestedTo x c) :=
  handOn_settles _ _

/-- The job with its context advanced, but for what the freed slot is handed on for. -/
theorem digestedTo_job (hj : s.job? x.job = some j) (ht : j.state.terminal = false) :
    ∃ k, (s.digestedTo x c).job? x.job = some k ∧ ({ j with ingest := c } : Job).issuesTo k :=
  (digestedTo_settles s x c).job x.job _ ((digestedBy_job hj ht _).trans (if_pos rfl))

theorem digestedTo_heldBlockAt (hp : s.poolOk) (hx : s.slot? num = some x) (hb : x.held = some b) (hd : b.inDigest = true) :
    (s.digestedTo x c).heldBlockAt mine n = s.heldBlockAt mine n :=
  (handOn_heldBlockAt _ _).trans (digestedBy_heldBlockAt hp hx hb hd)

theorem digestedTo_poolOk (hp : s.poolOk) (x : Slot) (c : DigestContext) : (s.digestedTo x c).poolOk :=
  handOn_poolWf _ _ (digestedBy_poolOk hp x c)

/-- The slot stands, digested, or is freed, though it may have been reserved anew. -/
theorem digestedTo_slot (hp : s.poolOk) (hx : s.slot? num = some x) (hb : x.held = some b) (hk : x.kind = .ingest owed) :
    (owed ≠ [] → (s.digestedTo x c).slot? num = some { x with held := some { b with digested := true, inDigest := false } }) ∧
      (owed = [] → ∀ y, (s.digestedTo x c).slot? num = some y → y.held = none) ∧
      ∀ m y, m ≠ num → s.slot? m = some y → (s.digestedTo x c).slot? m = some y := by
  obtain ⟨-, hkeep, hnew⟩ := (digestedTo_settles s x c).slots (digestedBy_poolOk hp x c)
  have hd := digestedBy_slot? (c := c) hp hx hb hk
  refine ⟨fun ho => hkeep num _ ?_, fun ho y hy => ?_, fun m y hm hy => hkeep m y ?_⟩
  · rw [hd, if_pos rfl, if_neg ho]
  · rcases hnew num y hy with e | e
    · rw [hd, if_pos rfl, if_pos ho] at e
      cases e
    · exact e
  · rw [hd, if_neg hm]
    exact hy

/-- The job's next index rises with its context; nothing of any job falls. -/
theorem digestedTo_advances (hj : s.job? x.job = some j) (ht : j.state.terminal = false) (hc : j.ingest.next ≤ c.next) :
    s.advancesTo (s.digestedTo x c) := by
  refine State.advancesTo.trans (t := s.digestedBy x c) ⟨fun k q hq => ?_⟩ (handOn_advances _ _)
  rw [digestedBy_job hj ht]
  by_cases e : k = x.job
  · subst e
    rw [hj] at hq
    cases hq
    exact ⟨_, if_pos rfl, Job.advancesTo_of rfl rfl rfl rfl rfl rfl rfl (Nat.le_refl _) (fun _ => ⟨rfl, rfl, rfl⟩) (fun _ => rfl) (fun _ => rfl)
      (Nat.le_refl _) (Nat.le_refl _) rfl hc fun e => absurd e (ne_true_of_eq_false ht)⟩
  · exact ⟨q, (if_neg e).trans hq, q.advancesTo_refl⟩

theorem digestedTo_outcomes (hj : s.job? x.job = some j) (hn : j.ingest.next ≤ c.next) (hf : c.final = j.ingest.final) (ho : s.outcomesOk) :
    (s.digestedTo x c).outcomesOk := by
  have hl : s.landed.outcomesOk := (OutStep.of_same (l := []) ho rfl fun _ => rfl).outcomes
  have p := digestedSlot_path ((Path.start (G := groundsOf .digestComplete s)).move (Move.digested s.landed x.job c fun q hq => by
    rw [show s.landed.job? x.job = some j from hj] at hq
    cases hq
    exact ⟨hn, hf⟩)) x.num
  exact (p.outcomes hl).outcomes

/-! ## A teardown after it, as seen from before it -/

theorem digestedTo_tags (s : State) (x : Slot) (c : DigestContext) : (s.digestedTo x c).writers = s.writers ∧
    ∀ d : Fin 6, ((s.digestedTo x c).readers[d.val]).work = (s.readers[d.val]).work ∧
      ((s.digestedTo x c).readers[d.val]).tags = (s.readers[d.val]).tags := by
  have h := handOn_tagView (s.digestedBy x c) grantSteps
  change (s.digestedTo x c).tagView = s.tagView at h
  unfold State.tagView at h
  obtain ⟨hw, hr⟩ := Prod.mk.inj h
  refine ⟨hw, fun d => ?_⟩
  have := congrArg (fun l : Vector _ 6 => l[d.val]) hr
  simp only [Vector.getElem_map, Prod.mk.injEq] at this
  exact ⟨this.1, this.2.2⟩

/-- The withdrawals of a teardown, as seen from an earlier state of the same writers, tags and lists. -/
theorem State.workGone.of_earlier {v : State} (a : State.workGone h v t) (hw : v.writers = s.writers)
    (hr : ∀ d : Fin 6, (v.readers[d.val]).work = (s.readers[d.val]).work ∧ (v.readers[d.val]).tags = (s.readers[d.val]).tags)
    (hs : ∀ m y b, s.slot? m = some y → y.held = some b → b.inDigest = false → v.slot? m = some y) (ho : s.outcomesOk → v.outcomesOk) :
    State.workGone h s t := by
  have hgone : ∀ mine, State.slotsWithdrawn mine v t → State.slotsWithdrawn mine s t := fun mine g =>
    ⟨g.slots, fun m y b hy hm hb h1 h2 => g.ready m y b (hs m y b hy hb h2) hm hb h1 h2⟩
  refine ⟨fun z => ⟨(a.writes z).queue, ?_⟩, hgone _ a.slots, fun hso d r hm e => ?_⟩
  · rw [← State.writer_congr hw]
    exact (a.writes z).tags
  · have g := a.verify (ho hso) d r (by rw [(hr d).1]; exact hm) e
    exact ⟨g.work, by rw [← (hr d).2]; exact g.tags, hgone _ g.slots⟩

/-- The reads that a teardown abandons, as seen from an earlier state of the same BUSY tags. -/
theorem State.readsAbandoned.of_earlier {v : State} {k : Job} (a : State.readsAbandoned h v t) (hj : s.job? h = some j) (hk : v.job? h = some k)
    (hport : k.port = j.port) (hr : (v.ingest[j.port.val]).reading = (s.ingest[j.port.val]).reading)
    (ht : ∀ i : Fin 8, ((s.ingest[j.port.val]).tags[i.val]).state ≠ .free →
      (v.ingest[j.port.val]).tags[i.val] = (s.ingest[j.port.val]).tags[i.val]) : State.readsAbandoned h s t := by
  intro q hq hread i g index m issued attempt hi
  rw [hj] at hq
  cases hq
  have htag := ht i (by rw [hi]; exact ReadTagState.noConfusion)
  have ha := a k hk
  simp only [hport] at ha
  have := ha (by rw [hr]; exact hread) i g index m issued attempt (by rw [htag]; exact hi)
  rw [htag] at this
  exact this

/-- The state in which the ingest digest of a job's last block is final. -/
def State.finalTo (s : State) (x : Slot) (c : DigestContext) : State :=
  (s.digestedTo x c).finaliseIngest x.job

theorem finalTo_job (hj : s.job? x.job = some j) (ht : j.state.terminal = false) :
    ∃ k, (s.digestedTo x c).job? x.job = some k ∧ ({ j with ingest := c } : Job).issuesTo k ∧
      (s.finalTo x c).job? x.job = some { k with ingest := finalise c j.length } := by
  obtain ⟨k, hk, hiss⟩ := digestedTo_job (c := c) hj ht
  refine ⟨k, hk, hiss, ?_⟩
  refine (State.job?_modJob _ x.job x.job _).trans ?_
  rw [if_pos rfl, hk, Option.map_some]
  have h1 : k.ingest = c := by rw [hiss.rest]
  have h2 : k.length = j.length := by rw [hiss.rest]
  rw [h1, h2]

theorem finalTo_now (s : State) (x : Slot) (c : DigestContext) : (s.finalTo x c).now = s.now := by
  have h : (s.digestedTo x c).timer = s.timer := (digestedTo_settles s x c).time.1
  unfold State.now
  exact congrArg Timer.tick h

/-- What a teardown then leaves of the job, as seen from before the block was digested. -/
theorem finalTo_tornBy {o : JobState} {e : JobCause} (hp : s.poolOk) (hx : s.slot? num = some x) (hb : x.held = some b) (hd : b.inDigest = true)
    (hk : x.kind = .ingest owed) (hj : s.job? x.job = some j) (ht : j.state.terminal = false) (hn : j.ingest.next ≤ c.next)
    (hf : c.final = j.ingest.final) (a : State.tornBy x.job o e (s.finalTo x c) t) : State.tornBy x.job o e s t := by
  obtain ⟨k, hk', hiss, hkf⟩ := finalTo_job (c := c) hj ht
  obtain ⟨-, -, hslot⟩ := digestedTo_slot (c := c) hp hx hb hk
  obtain ⟨hw, hr⟩ := digestedTo_tags s x c
  have hi : (s.ingest[j.port.val]).issuesTo (s.digestedBy x c).now (s.digestedTo x c).ingest[j.port.val] := (digestedTo_settles s x c).ingest j.port
  have hkt : k.state.terminal = false := by
    rw [hiss.rest]
    exact ht
  refine ⟨?_, a.work.of_earlier hw hr (fun m y b' hy hb' h1 => hslot m y ?_ hy) fun ho => ?_, a.reads.of_earlier hj hkf ?_ ?_ fun i hi' => ?_⟩
  · obtain ⟨q, hq, h1, h2, h3, h4⟩ := a.ends
    exact ⟨q, hq, h1, h2, by rw [h3, finalTo_now], h4⟩
  · rintro rfl
    rw [hx] at hy
    cases hy
    rw [hb] at hb'
    cases hb'
    rw [hd] at h1
    cases h1
  · exact (finaliseIngest_outcomes (digestedTo_outcomes hj hn hf ho) x.job hk' hkt).1
  · rw [hiss.rest]
  · change ((s.digestedTo x c).ingest[j.port.val]).reading = _
    rw [hi.rest]
  · rcases hi.tags i with e' | ⟨e', -⟩
    · exact e'
    · exact absurd e' hi'

end Sys2Proof.Machine
end

