-- ==== Sys2Proof/Proofs/P63.lean ====
section
/-! The next block joins the ready list, and a VERIFYING leg whose verify digest waits is compared (R14, R81, R84). -/

namespace Sys2Proof.Machine

open Sys2Proof

variable {s t u v : State} {r : Requester} {h : Fin 64} {num : Nat} {x : Slot} {b : HeldBlock} {owed : List Target} {j k : Job} {c g w : DigestContext}
  {mine : Slot → Bool} {l f : Leg} {q : LegRef} {d : Fin 6} {n blocks : Nat}

/-! ## The next block -/

theorem joinNext_same (u : State) (mine : Slot → Bool) (n blocks : Nat) : (u.joinNext mine n blocks).jobs = u.jobs ∧
    (u.joinNext mine n blocks).slots = u.slots ∧ (u.joinNext mine n blocks).digest.inFlight = u.digest.inFlight := by
  unfold State.joinNext
  split
  · split <;> exact ⟨rfl, rfl, rfl⟩
  · exact ⟨rfl, rfl, rfl⟩

theorem joinNext_ready (hn : n < blocks) :
    (u.joinNext mine n blocks).digest.ready = u.digest.ready ++ (u.heldBlockAt mine n).toList.map Slot.num := by
  unfold State.joinNext
  rw [if_pos hn]
  cases u.heldBlockAt mine n with
  | none => exact (List.append_nil _).symm
  | some y => rfl

theorem joinNext_last (hn : ¬ n < blocks) : u.joinNext mine n blocks = u := by
  unfold State.joinNext
  exact if_neg hn

/-! ## The waiting comparisons -/

theorem compareWaiting_leg_other {q r : LegRef} (hr : q ≠ r) (s : State) : (s.compareWaiting q).leg? r = s.leg? r := by
  rcases compareWaiting_cases s q with e | ⟨m, d, -, -, e⟩ <;> rw [e]
  rcases compareLeg_cases s d q with e | ⟨l, j, v, g, -, -, -, -, -, e⟩ <;> rewrite [e]
  · rfl
  · exact (State.leg?_endLeg s q r _ _).trans (if_neg hr)

theorem compareWaiting_now (s : State) (q : LegRef) : (s.compareWaiting q).now = s.now := by
  have h : (s.compareWaiting q).cascadeFrame = s.cascadeFrame := compareWaiting_frame s q
  unfold State.cascadeFrame at h
  simp only [Prod.mk.injEq] at h
  obtain ⟨-, -, -, ht, -⟩ := h
  unfold State.now
  rw [ht]

/-- A leg has been compared with the ingest digest. -/
def State.compared (t : State) (q : LegRef) (v g : Digest) (now : Tick) : Prop :=
  ∃ f, t.leg? q = some f ∧ f.state = (if v = g then .good else .mismatch) ∧ f.finished = some now

theorem State.compared.advances {v g : Digest} {now : Tick} (a : t.compared q v g now) (b : t.advancesTo u) : u.compared q v g now := by
  obtain ⟨f, hf, h1, h2⟩ := a
  obtain ⟨j, hj, hl⟩ := State.leg?_eq_some.mp hf
  obtain ⟨k, hk, adv⟩ := b.jobs _ j hj
  obtain ⟨m, hm, ha, -⟩ := adv.legs _ f hl
  obtain ⟨e1, -, e3⟩ := ha.final (by rw [h1]; split <;> rfl)
  exact ⟨m, State.leg?_eq_some.mpr ⟨k, hk, hm⟩, e1.trans h1, e3.trans h2⟩

/-- A VERIFYING leg whose verify digest waits is compared (R14). -/
theorem compareWaiting_compares {v g : Digest} (hl : s.leg? q = some l) (hs : l.state = .verifying) (hv : l.context.final = some v)
    (hd : l.target = .drive d) (hj : s.job? q.job = some j) (hg : j.ingest.final = some g) : (s.compareWaiting q).compared q v g s.now := by
  have he : s.compareWaiting q = (s.endLeg q (if v = g then .good else .mismatch) none).modReader d fun y =>
      { y with work := y.work.filter fun z => z != q } := by
    unfold State.compareWaiting State.compareLeg
    rw [hl]
    dsimp only
    rw [hd]
    dsimp only
    rw [hj]
    dsimp only
    rw [hv, hg]
    dsimp only
    rw [if_pos hs]
  rw [he]
  refine ⟨l.ended s.now (if v = g then .good else .mismatch) none, ?_, ?_⟩
  · refine (State.leg?_endLeg s q q _ _).trans ?_
    rw [if_pos rfl, hl]
    rfl
  · unfold Leg.ended
    rw [if_neg (by rw [hs]; exact Bool.false_ne_true)]
    exact ⟨rfl, rfl⟩

/-- In its turn. -/
theorem foldl_compares {v g : Digest} {now : Tick} (hs : l.state = .verifying) (hv : l.context.final = some v) (hd : l.target = .drive d)
    (hc : c.final = some g) (p : List LegRef) (t : State) (hm : q ∈ p) (hl : t.leg? q = some l) (hj : t.contextOf q.job = some (c, n))
    (hn : t.now = now) : (p.foldl State.compareWaiting t).compared q v g now := by
  induction p generalizing t with
  | nil => cases hm
  | cons y p ih =>
    rw [List.foldl_cons]
    by_cases e : y = q
    · subst e
      have hone : (t.compareWaiting y).compared y v g now := by
        obtain ⟨j, hj', e⟩ := Option.map_eq_some_iff.mp hj
        rw [← hn]
        exact compareWaiting_compares hl hs hv hd hj' (by rw [(Prod.mk.inj e).1]; exact hc)
      generalize t.compareWaiting y = t1 at hone
      exact hone.advances (foldl_advances State.compareWaiting compareWaiting_advances p t1)
    · refine ih (t.compareWaiting y) ((List.mem_cons.mp hm).resolve_left (Ne.symm e)) ((compareWaiting_leg_other e t).trans hl) ?_
        ((compareWaiting_now t y).trans hn)
      exact (congrArg Prod.fst (compareWaiting_digestOf (h := q.job) t y)).trans hj

end Sys2Proof.Machine
end

