-- ==== Sys2Proof/Proofs/P64.lean ====
section
/-! Settles O49: DIGEST_COMPLETE of an INGEST block (R84), and with a job's last block the check of its digest (R14). -/

namespace Sys2Proof.Machine

open Sys2Proof

variable {s t u : State} {num : Nat} {x : Slot} {b : HeldBlock} {owed : List Target} {j : Job} {c g : DigestContext} {l : Leg} {n : Nat} {v : Digest}
  {d : Fin 6}

/-! ## The last block -/

/-- The expected digest differs: the job fails with teardown (R22). -/
theorem digestedTo_fails (hj : s.job? x.job = some j) (ht : j.state.terminal = false)
    (he : ¬ (j.expected = none ∨ j.expected = some (finalDigest c j.length))) :
    State.tornBy x.job .failed .sourceMismatch (s.finalTo x c) ((s.digestedTo x c).cascade [.ingestFinal x.job]).close := by
  obtain ⟨k, hk, hiss, hkf⟩ := finalTo_job (c := c) hj ht
  have hkt : k.state.terminal = false := by
    rw [hiss.rest]
    exact ht
  refine State.torn.close (cascade_after (P := State.torn x.job .failed .sourceMismatch (s.finalTo x c)) ?_
    fun u y a => a.later rfl (perform_winds u y) (perform_advances u y)) rfl
  change State.torn x.job .failed .sourceMismatch (s.finalTo x c) ((s.digestedTo x c).ingestFinalised x.job).1
  rcases ingestFinalised_cases (s.digestedTo x c) x.job with ⟨-, hno⟩ | ⟨q, hq, -, ⟨hx, -⟩ | ⟨-, e⟩⟩
  · rw [hno k hk] at hkt
    cases hkt
  · rw [hk] at hq
    cases hq
    rw [hiss.rest] at hx
    exact absurd hx he
  · rw [e]
    exact tearJob_torn hkf hkt rfl _

/-- The digest is as expected: each VERIFYING leg whose verify digest waits is compared (R14). -/
theorem digestedTo_compares (hj : s.job? x.job = some j) (ht : j.state.terminal = false)
    (he : j.expected = none ∨ j.expected = some (finalDigest c j.length)) (hl : j.legs[n]? = some l) (hs : l.state = .verifying)
    (hv : l.context.final = some v) (hd : l.target = .drive d) :
    ((s.digestedTo x c).cascade [.ingestFinal x.job]).close.compared ⟨x.job, n⟩ v (finalDigest c j.length) s.now := by
  obtain ⟨k, hk, hiss, hkf⟩ := finalTo_job (c := c) hj ht
  obtain ⟨m, hm, hml, -, -⟩ := hiss.legs n l hl
  have hkt : k.state.terminal = false := by
    rw [hiss.rest]
    exact ht
  refine State.compared.advances (cascade_after (P := fun u => u.compared ⟨x.job, n⟩ v (finalDigest c j.length) s.now) ?_
    fun u y a => a.advances (perform_advances u y)) (close_advances _)
  change ((s.digestedTo x c).ingestFinalised x.job).1.compared _ _ _ _
  rcases ingestFinalised_cases (s.digestedTo x c) x.job with ⟨-, hno⟩ | ⟨q, hq, -, ⟨-, e⟩ | ⟨hx, -⟩⟩
  · rw [hno k hk] at hkt
    cases hkt
  · rw [e]
    have hleg : (s.finalTo x c).leg? ⟨x.job, n⟩ = some m := State.leg?_eq_some.mpr ⟨_, hkf, hm⟩
    refine foldl_compares (l := m) (d := d) (c := finalise c j.length) (n := k.length) (by rw [hml]; exact hs) (by rw [hml]; exact hv)
      (by rw [hml]; exact hd) rfl _ (s.finalTo x c) ?_ hleg ?_ (finalTo_now s x c)
    · have hr : (s.finalTo x c).legRefs x.job = (List.range k.legs.length).map fun i => (⟨x.job, i⟩ : LegRef) := by
        unfold State.legRefs
        rw [hkf]
      exact hr ▸ List.mem_map.mpr ⟨n, List.mem_range.mpr (List.getElem?_eq_some_iff.mp hm).1, rfl⟩
    · unfold State.contextOf
      rw [hkf]
      rfl
  · rw [hk] at hq
    cases hq
    rw [hiss.rest] at hx
    exact absurd he hx

/-! ## The end of the event -/

/-- The state before the end of a DIGEST_COMPLETE of an INGEST block. -/
def State.digestedEnd (s : State) (x : Slot) (c : DigestContext) (blocks : Nat) : State :=
  ((s.digestedTo x c).joinNext (Slot.ingestOf x.job) c.next blocks).cascade (if c.next = blocks then [.ingestFinal x.job] else [])

theorem digestedEnd_before {blocks : Nat} (hn : c.next ≠ blocks) :
    s.digestedEnd x c blocks = (s.digestedTo x c).joinNext (Slot.ingestOf x.job) c.next blocks := by
  unfold State.digestedEnd
  rw [if_neg hn]
  rfl

theorem digestedEnd_last {blocks : Nat} (hn : c.next = blocks) :
    s.digestedEnd x c blocks = (s.digestedTo x c).cascade [.ingestFinal x.job] := by
  unfold State.digestedEnd
  rw [if_pos hn, joinNext_last (by omega)]

/-- The job's context and the unit, when the event is over. -/
theorem digestedEnd_context (hj : s.job? x.job = some j) (ht : j.state.terminal = false) :
    ∃ m, (s.digestedEnd x c j.blocks).close.job? x.job = some m ∧
      m.ingest = (if c.next = j.blocks then finalise c j.length else c) ∧ (s.digestedEnd x c j.blocks).close.digest.inFlight = none := by
  obtain ⟨k, hk, hiss⟩ := digestedTo_job (c := c) hj ht
  have hkt : k.state.terminal = false := by
    rw [hiss.rest]
    exact ht
  have hki : k.ingest = c := by rw [hiss.rest]
  have hkl : k.length = j.length := by rw [hiss.rest]
  have hfl : (s.digestedTo x c).digest.inFlight = none := by rw [digestedTo_digest]
  have hd : (s.digestedEnd x c j.blocks).digestOf x.job = (some (if c.next = j.blocks then finalise c j.length else c, j.length), none) := by
    by_cases hn : c.next = j.blocks
    · rw [digestedEnd_last hn, cascade_ingestFinal hk hkt, if_pos hn, hki, hkl, hfl]
    · rw [digestedEnd_before hn, if_neg hn]
      obtain ⟨h1, -, h2⟩ := joinNext_same (s.digestedTo x c) (Slot.ingestOf x.job) c.next j.blocks
      rw [digestOf_congr h1 h2]
      unfold State.digestOf State.contextOf
      rw [hk, hfl, Option.map_some, hki, hkl]
  obtain ⟨h1, h2⟩ := Prod.mk.inj hd
  obtain ⟨q, hq, e⟩ := Option.map_eq_some_iff.mp h1
  obtain ⟨m, hm, hmi⟩ := (close_settles (s.digestedEnd x c j.blocks)).job x.job q hq
  refine ⟨m, hm, ?_, by rw [(close_settles _).kept.2.1]; exact h2⟩
  rw [hmi.rest]
  exact (Prod.mk.inj e).1

theorem digestedEnd_advances (hj : s.job? x.job = some j) (ht : j.state.terminal = false) (hc : j.ingest.next ≤ c.next) :
    s.advancesTo (s.digestedEnd x c j.blocks).close := by
  obtain ⟨h1, -, -⟩ := joinNext_same (s.digestedTo x c) (Slot.ingestOf x.job) c.next j.blocks
  exact (((digestedTo_advances hj ht hc).andJobs h1).trans (cascade_advances _ _)).trans (close_advances _)

/-- Before the last block: the next block's place in the ready list, and the slot. -/
theorem digestedEnd_next (hp : s.poolOk) (hx : s.slot? num = some x) (hb : x.held = some b) (hd : b.inDigest = true) (hk : x.kind = .ingest owed)
    {blocks : Nat} (hn : c.next < blocks) :
    (s.digestedEnd x c blocks).close.digest.ready =
        s.digest.ready ++ ((s.heldBlockAt (Slot.ingestOf x.job) c.next).toList.map Slot.num) ∧
      (owed ≠ [] → (s.digestedEnd x c blocks).close.slot? num = some { x with held := some { b with digested := true, inDigest := false } }) ∧
      (owed = [] → ∀ y, (s.digestedEnd x c blocks).close.slot? num = some y → y.held = none) := by
  rw [digestedEnd_before (Nat.ne_of_lt hn)]
  obtain ⟨-, hs, -⟩ := joinNext_same (s.digestedTo x c) (Slot.ingestOf x.job) c.next blocks
  have hpool : ((s.digestedTo x c).joinNext (Slot.ingestOf x.job) c.next blocks).poolOk := by
    unfold State.poolOk
    rw [hs]
    exact digestedTo_poolOk hp x c
  obtain ⟨h1, h2, -⟩ := digestedTo_slot (c := c) hp hx hb hk
  obtain ⟨-, hkeep, hnew⟩ := (close_settles ((s.digestedTo x c).joinNext (Slot.ingestOf x.job) c.next blocks)).slots hpool
  refine ⟨?_, fun ho => hkeep num _ ((State.slot?_congr hs num).trans (h1 ho)), fun ho y hy => ?_⟩
  · rw [(close_settles _).kept.2.1, joinNext_ready hn, digestedTo_heldBlockAt hp hx hb hd, digestedTo_digest]
  · rcases hnew num y hy with e | e
    · exact h2 ho y ((State.slot?_congr hs num).symm.trans e)
    · exact e

/-- Settles O49: a withdrawn block's slot is handed on; any other block advances its context, and the last one is followed by the check of the
digest. -/
theorem digestCompletionAdvancesTheContext : Obligations.DigestCompletionAdvancesTheContext := by
  intro s num x b hr hp hf hx hb
  have hexec := fun owed => exec_digestComplete (owed := owed) hr hf hx hb
  refine ⟨fun hw => ?_, fun owed j hw hd hk hj ht => ?_⟩
  · refine ⟨(s.discarded num).close, ?_, close_settles _, discarded_slot? s num, fun hfree r hm hwants hmin => ?_⟩
    · rw [(hexec []).1 hw, landed_freeSlotNum]
    · obtain ⟨h1, h2⟩ := discarded_handed_on hp hx hfree hm hwants hmin
      cases r with
      | ingest i => exact fun h j => h1 i h j rfl
      | verify d => exact fun f rest l => h2 d f rest l rfl
  · intro c
    have hn : c.next = j.ingest.next + 1 := digestBlock_next _ _
    have hfin : c.final = j.ingest.final := digestBlock_final _ _
    have hnum : x.num = num := slot?_num hx
    obtain ⟨m, hm, hmi, hfl⟩ := digestedEnd_context (c := c) hj ht
    have hparts : m.ingest.next = c.next ∧ m.ingest.a = c.a ∧ m.ingest.b = c.b := by
      rw [hmi]
      split <;> exact ⟨rfl, rfl, rfl⟩
    refine ⟨(s.digestedEnd x c j.blocks).close, m, ?_, hfl, hm, digestedEnd_advances hj ht (by omega), hparts.1.trans hn, hparts.2.1, hparts.2.2,
      fun hlt => ⟨by rw [hmi, if_neg (Nat.ne_of_lt hlt)], digestedEnd_next hp hx hb hd hk hlt⟩, fun hlast => ⟨by rw [hmi, if_pos hlast]; rfl, ?_, ?_⟩⟩
    · rw [(hexec owed).2 hw hk, ingestCompleted_eq hj]
      rfl
    · intro e he hne
      have htorn := finalTo_tornBy hp hx hb hd hk hj ht (by omega) hfin (digestedTo_fails (c := c) hj ht fun h => by
        rw [he] at h
        rcases h with h | h
        · cases h
        · exact hne (Option.some.inj h))
      rw [digestedEnd_last hlast]
      exact ⟨htorn.ends, htorn.work, htorn.reads⟩
    · intro he n l v d hl hs hv htd
      rw [digestedEnd_last hlast]
      exact digestedTo_compares hj ht he hl hs hv htd

end Sys2Proof.Machine
end
